-- ==== Sys2Proof/Word.lean ====
section
/-! DEFINITION. The word types of the block: every quantity is unsigned (00_scope.md R5, R9). -/

namespace Sys2Proof

/-- A byte: 8 bits, bit 0 least significant (00_scope.md R5). -/
abbrev Byte := BitVec 8

/-- A register address of the chip: 6 bits, 0x00 to 0x3F (10_state.md R19). -/
abbrev RegAddr := BitVec 6

/-- A bus address: 7 bits (10_state.md R16, R19). -/
abbrev ChipAddr := BitVec 7

/-- A three-bit field: `rxAlign`, `txLastBits`, `validBits` (10_state.md R17, R28). -/
abbrev Bits3 := BitVec 3

/-- A command code: 4 bits (10_state.md R21, 30_encoding.md R73). -/
abbrev CmdCode := BitVec 4

/-- A logic level of a line: `true` is level 1, `false` level 0 (00_scope.md R6). -/
abbrev Level := Bool

end Sys2Proof
end

