-- ==== Sys2Proof/Config.lean ====
section
/-! DEFINITION. The parameter record of 00_scope.md R4: what is fixed for the life of the block.
A state carries one (`State.cfg`) and no step changes it, so a statement about every state holds for every configuration. -/

namespace Sys2Proof

/-- The two statuses a missing acknowledge may be reported as (00_scope.md R4 `ACK_FAIL_STATUS`, 92 D9). -/
inductive AckFail where
  | error
  | timeout
  deriving DecidableEq, Repr

/-- How an output at level 1 is driven: OPEN, and no rule depends on it (00_scope.md R4, 10_state.md R13). -/
inductive LineDrive where
  | pushPull
  | openDrain
  deriving DecidableEq, Repr

/-- `REG`: the 6-bit address of every register the rules name (10_state.md R20). -/
structure RegMap where
  command : RegAddr
  comIrq : RegAddr
  divIrq : RegAddr
  error : RegAddr
  fifoData : RegAddr
  fifoLevel : RegAddr
  control : RegAddr
  bitFraming : RegAddr
  coll : RegAddr
  mode : RegAddr
  txControl : RegAddr
  txAsk : RegAddr
  crcResultH : RegAddr
  crcResultL : RegAddr
  tMode : RegAddr
  tPrescaler : RegAddr
  tReloadH : RegAddr
  tReloadL : RegAddr
  deriving DecidableEq, Repr

/-- `CMD`: the 4-bit command codes (30_encoding.md R73). -/
structure CmdMap where
  idle : CmdCode
  calcCrc : CmdCode
  receive : CmdCode
  transceive : CmdCode
  softReset : CmdCode
  deriving DecidableEq, Repr

/-- `FLD`: the masks of the register fields the block uses (10_state.md R21 to R30). -/
structure FldMap where
  powerDown : Byte
  comIrqClearAll : Byte
  timerIrq : Byte
  crcIrq : Byte
  errFatal : Byte
  errColl : Byte
  fifoFlush : Byte
  rxLastBits : Byte
  startSend : Byte
  antenna : Byte
  collPosNotValid : Byte
  collPos : Byte
  deriving DecidableEq, Repr

/-- `TIMER_CFG`: the four timer bytes `init` writes (10_state.md R31). -/
structure TimerCfg where
  mode : Byte
  prescaler : Byte
  reloadH : Byte
  reloadL : Byte
  deriving DecidableEq, Repr

/-- The parameters of 00_scope.md R4, the bus handle of 10_state.md R16 and the request bytes of 30_encoding.md R79. -/
structure Config where
  pinScl : Nat
  pinSda : Nat
  chipAddr : ChipAddr
  tHold : Nat
  tRdLow : Nat
  tRdHigh : Nat
  tAckPoll : Nat
  ackPollMax : Nat
  irqPollMax : Nat
  crcPollMax : Nat
  resetPollMax : Nat
  resetWaitUs : Nat
  ackFail : AckFail
  abortStop : Bool
  lineDrive : LineDrive
  reg : RegMap
  cmd : CmdMap
  fld : FldMap
  waitMaskTransceive : Byte
  timerCfg : TimerCfg
  askCfg : Byte
  modeCfg : Byte
  fifoSize : Nat
  reqa : Byte
  wupa : Byte
  deriving DecidableEq, Repr

/-- The default register map (10_state.md R20). PRESUMED (the spec's own general knowledge, G1; log 8). -/
def RegMap.default : RegMap where
  command := 0x01
  comIrq := 0x04
  divIrq := 0x05
  error := 0x06
  fifoData := 0x09
  fifoLevel := 0x0A
  control := 0x0C
  bitFraming := 0x0D
  coll := 0x0E
  mode := 0x11
  txControl := 0x14
  txAsk := 0x15
  crcResultH := 0x21
  crcResultL := 0x22
  tMode := 0x2A
  tPrescaler := 0x2B
  tReloadH := 0x2C
  tReloadL := 0x2D

/-- The default command codes (30_encoding.md R73). PRESUMED (G2; log 8). -/
def CmdMap.default : CmdMap where
  idle := 0x0
  calcCrc := 0x3
  receive := 0x8
  transceive := 0xC
  softReset := 0xF

/-- The default field masks (10_state.md R21 to R30). PRESUMED (G3; log 8). -/
def FldMap.default : FldMap where
  powerDown := 0x10
  comIrqClearAll := 0x7F
  timerIrq := 0x01
  crcIrq := 0x04
  errFatal := 0x13
  errColl := 0x08
  fifoFlush := 0x80
  rxLastBits := 0x07
  startSend := 0x80
  antenna := 0x03
  collPosNotValid := 0x20
  collPos := 0x1F

/-- The defaults of 00_scope.md R4. The OPEN parameters (`pinScl`, `pinSda`, `chipAddr`, `lineDrive`) take the values
log 7 names: DESIGN CHOICE, and PRESUMED for the example chip address 0x28 (G19); the numbers R4 marks as general
knowledge are PRESUMED (log 8). No statement rests on them unless it says so. -/
def Config.default : Config where
  pinScl := 0
  pinSda := 1
  chipAddr := 0x28
  tHold := 5
  tRdLow := 3
  tRdHigh := 2
  tAckPoll := 1
  ackPollMax := 20
  irqPollMax := 2000
  crcPollMax := 2000
  resetPollMax := 3
  resetWaitUs := 50000
  ackFail := .error
  abortStop := true
  lineDrive := .openDrain
  reg := RegMap.default
  cmd := CmdMap.default
  fld := FldMap.default
  waitMaskTransceive := 0x30
  timerCfg := ⟨0x80, 0xA9, 0x03, 0xE8⟩
  askCfg := 0x40
  modeCfg := 0x3D
  fifoSize := 64
  reqa := 0x26
  wupa := 0x52

/-- The addresses of `REG`, in the order of 10_state.md R20. -/
def RegMap.toList (r : RegMap) : List RegAddr :=
  [r.command, r.comIrq, r.divIrq, r.error, r.fifoData, r.fifoLevel, r.control, r.bitFraming, r.coll, r.mode,
   r.txControl, r.txAsk, r.crcResultH, r.crcResultL, r.tMode, r.tPrescaler, r.tReloadH, r.tReloadL]

/-- The masks of `FLD`. -/
def FldMap.toList (f : FldMap) : List Byte :=
  [f.powerDown, f.comIrqClearAll, f.timerIrq, f.crcIrq, f.errFatal, f.errColl, f.fifoFlush, f.rxLastBits, f.startSend,
   f.antenna, f.collPosNotValid, f.collPos]

/-- The constraints the rules put on the parameters: positive poll bounds and FIFO size (00_scope.md R4), distinct
register addresses (10_state.md R20), non-zero masks (93, last paragraph), a valid-bit count of three bits
(30_encoding.md R71), a collision position of five (43_card_discovery.md R167) and distinct Transceive and Receive codes (42_reader_control.md R150). -/
def Config.wf (c : Config) : Bool :=
  decide (0 < c.ackPollMax) && decide (0 < c.irqPollMax) && decide (0 < c.crcPollMax) && decide (0 < c.resetPollMax) &&
    decide (0 < c.fifoSize) && decide c.reg.toList.Nodup && c.fld.toList.all (fun m => m != 0) &&
    c.fld.rxLastBits &&& 0xF8 == 0 && c.fld.collPos &&& 0xE0 == 0 && c.cmd.transceive != c.cmd.receive

end Sys2Proof
end

