-- ==== Sys2Proof/Syntax.lean ====
section
/-! DEFINITION. The 26 operations of 30_encoding.md R77, one constructor per row of spec/opcode_table.json. -/

namespace Sys2Proof

/-- The `Uid` record (10_state.md R18): `size` is a count (4, 7 or 10 when meaningful), `uidByte` holds the ten bytes
`uidByte[0..9]` (`Uid.wf` says ten), `sak` the Select Acknowledge byte. -/
structure Uid where
  size : Nat
  uidByte : List Byte
  sak : Byte
  deriving DecidableEq, Repr

/-- One operation of the block with its operands (30_encoding.md R77). Operand types exclude what 60_exceptions.md R203
lets a model type away: a register address has 6 bits, `rxAlign` and `validBits` have 3, a command code has 4. -/
inductive Instr where
  /-- R90 -/
  | start
  /-- R91 -/
  | stop
  /-- R92 -/
  | writeByte (b : Byte)
  /-- R93 -/
  | readByte
  /-- R94 -/
  | masterAck
  /-- R95 -/
  | masterNotAck
  /-- R96 -/
  | slaveAck
  /-- R111 -/
  | writeRegister (a : RegAddr) (v : Byte)
  /-- R110 -/
  | readRegister (a : RegAddr)
  /-- R112 -/
  | writeRegisterBurst (a : RegAddr) (bytes : List Byte)
  /-- R113: `buf` is the content of the caller's buffer. -/
  | readRegisterBurst (a : RegAddr) (n : Nat) (buf : List Byte) (rxAlign : Bits3)
  /-- R115 -/
  | setBits (a : RegAddr) (m : Byte)
  /-- R115 -/
  | clearBits (a : RegAddr) (m : Byte)
  /-- R130 -/
  | init
  /-- R131 -/
  | softReset
  /-- R140 -/
  | antennaOn
  /-- R141 -/
  | antennaOff
  /-- R143 -/
  | calculateCRC (data : List Byte)
  /-- R145: `validBits` may be absent (92 D31); `recv` is absent or the content of the caller's buffer, whose length is
  its capacity (R17). -/
  | communicate (command : CmdCode) (waitMask : Byte) (send : List Byte) (validBits : Option Bits3)
      (recv : Option (List Byte)) (rxAlign : Bits3) (checkCrc : Bool)
  /-- R147 -/
  | transceive (send : List Byte) (validBits : Option Bits3) (recv : Option (List Byte)) (rxAlign : Bits3)
      (checkCrc : Bool)
  /-- R160 -/
  | requestA
  /-- R160 -/
  | wakeupA
  /-- R161 -/
  | isNewCardPresent
  /-- R163: `uid` is the record the caller passes, `knownValidBits` a count (above 80 is `STATUS_INVALID`, R164). -/
  | select (uid : Uid) (knownValidBits : Nat)
  /-- R170 -/
  | readCardSerial
  /-- R171 -/
  | discoverUid
  deriving DecidableEq, Repr

end Sys2Proof
end

