-- ==== Sys2Proof/WellFormed.lean ====
section
/-! DEFINITION. Which operations are well formed: those a call record can carry (log 1), with the operand shapes of
10_state.md R17, R18 and 41_register_access.md R113; and which a configuration admits (42_reader_control.md R146). -/

namespace Sys2Proof

/-- A byte sequence a call record can carry: its length fits the two-byte length field of log 1. -/
def fitsRecord (bytes : List Byte) : Bool := decide (bytes.length < 65536)

/-- A `Uid` record has the ten bytes `uidByte[0..9]` (10_state.md R18). -/
def Uid.wf (u : Uid) : Bool := decide (u.uidByte.length = 10)

/-- Well-formed operations, operand by operand. -/
def Instr.wf : Instr → Bool
  | .start => true
  | .stop => true
  | .writeByte _ => true
  | .readByte => true
  | .masterAck => true
  | .masterNotAck => true
  | .slaveAck => true
  | .writeRegister _ _ => true
  | .readRegister _ => true
  | .writeRegisterBurst _ bytes => fitsRecord bytes
  | .readRegisterBurst _ n buf _ => fitsRecord buf && decide (n ≤ buf.length)
  | .setBits _ _ => true
  | .clearBits _ _ => true
  | .init => true
  | .softReset => true
  | .antennaOn => true
  | .antennaOff => true
  | .calculateCRC data => fitsRecord data
  | .communicate _ _ send _ recv _ _ => fitsRecord send && recv.all fitsRecord
  | .transceive send _ recv _ _ => fitsRecord send && recv.all fitsRecord
  | .requestA => true
  | .wakeupA => true
  | .isNewCardPresent => true
  | .select uid known => uid.wf && decide (uid.size < 256) && decide (known < 256)
  | .readCardSerial => true
  | .discoverUid => true

/-- The operand conditions of 42_reader_control.md R146, 41_register_access.md R113 and 10_state.md R18 under a
configuration; a call that breaks one is refused (60_exceptions.md R203). -/
def Instr.admitted (c : Config) : Instr → Bool
  | .start => true
  | .stop => true
  | .writeByte _ => true
  | .readByte => true
  | .masterAck => true
  | .masterNotAck => true
  | .slaveAck => true
  | .writeRegister _ _ => true
  | .readRegister _ => true
  | .writeRegisterBurst _ _ => true
  | .readRegisterBurst _ n buf _ => decide (n ≤ buf.length)
  | .setBits _ _ => true
  | .clearBits _ _ => true
  | .init => true
  | .softReset => true
  | .antennaOn => true
  | .antennaOff => true
  | .calculateCRC data => decide (data.length ≤ c.fifoSize)
  | .communicate command _ send _ _ _ _ =>
      (command == c.cmd.transceive || command == c.cmd.receive) && decide (send.length ≤ c.fifoSize)
  | .transceive send _ _ _ _ => decide (send.length ≤ c.fifoSize)
  | .requestA => true
  | .wakeupA => true
  | .isNewCardPresent => true
  | .select uid _ => uid.wf
  | .readCardSerial => true
  | .discoverUid => true

/-- The seven bus primitives (40_bus_primitives.md). -/
def Instr.isPrimitive : Instr → Bool
  | .start => true
  | .stop => true
  | .writeByte _ => true
  | .readByte => true
  | .masterAck => true
  | .masterNotAck => true
  | .slaveAck => true
  | .writeRegister _ _ => false
  | .readRegister _ => false
  | .writeRegisterBurst _ _ => false
  | .readRegisterBurst _ _ _ _ => false
  | .setBits _ _ => false
  | .clearBits _ _ => false
  | .init => false
  | .softReset => false
  | .antennaOn => false
  | .antennaOff => false
  | .calculateCRC _ => false
  | .communicate _ _ _ _ _ _ _ => false
  | .transceive _ _ _ _ _ => false
  | .requestA => false
  | .wakeupA => false
  | .isNewCardPresent => false
  | .select _ _ => false
  | .readCardSerial => false
  | .discoverUid => false

end Sys2Proof
end

