-- ==== Sys2Proof/Decode.lean ====
section
/-! DEFINITION. The two codings of an operation. (1) The call record: no operation has a binary opcode
(30_encoding.md R78), so a call is coded as one byte, the operation's row in spec/opcode_table.json counted from 0,
followed by its operands in the order of R77 (DESIGN CHOICE, log 1). (2) The wire frame of the four register operations
(30_encoding.md R63 to R69), decoded from the bits between start and stop (log 3). Each has a total decoder that rejects
by name and, after it, an encoder. -/

namespace Sys2Proof

/-! ## Bits of a byte, most significant first (20_memory.md R41) -/

/-- The eight bits of a byte in the order they cross the wire. -/
def byteBits (v : Byte) : List Bool :=
  [v.getLsbD 7, v.getLsbD 6, v.getLsbD 5, v.getLsbD 4, v.getLsbD 3, v.getLsbD 2, v.getLsbD 1, v.getLsbD 0]

/-- One bit shifted into the read accumulator: `((ACC << 1) | bit) & 0xFF` (30_encoding.md R71). -/
def shiftIn (acc : Byte) (bit : Bool) : Byte := (acc <<< 1) ||| (if bit then 1 else 0)

/-- The byte whose wire bits are `bits`: the accumulator after shifting them in from 0. -/
def byteOfBits (bits : List Bool) : Byte := bits.foldl shiftIn 0

/-! ## Why a record or a frame is rejected -/

/-- The reasons a coding stands for no operation (60_exceptions.md R203: an operand outside its type). -/
inductive Reject where
  /-- an empty call record -/
  | emptyRecord
  /-- the first byte is no row of the operation table -/
  | unknownOperation (op : Byte)
  /-- the record ends before its operands do -/
  | truncated
  /-- bytes are left over after the operands -/
  | trailingBytes
  /-- a register address above 0x3F (30_encoding.md R74) -/
  | registerAddress (v : Byte)
  /-- `rxAlign` or `validBits` above 7 (30_encoding.md R74) -/
  | threeBitField (v : Byte)
  /-- a command code that does not fit four bits (30_encoding.md R73) -/
  | commandByte (v : Byte)
  /-- a boolean or presence byte other than 0 and 1 -/
  | flagByte (v : Byte)
  /-- a burst read into a buffer of fewer than `n` bytes (41_register_access.md R113) -/
  | bufferTooShort
  /-- not a sequence of start, whole bytes with acknowledge bits, and stop (30_encoding.md R63) -/
  | notAFrame
  /-- a bus transaction that is none of the frames of 30_encoding.md R66 to R69 -/
  | unknownFrame
  deriving DecidableEq, Repr

/-! ## Taking operands off a record -/

/-- What taking an operand gives: the operand and the bytes after it, or a rejection. -/
abbrev Taken (α : Type) := Except Reject (α × List Byte)

/-- Takes one byte. -/
def takeByte : List Byte → Taken Byte
  | [] => .error .truncated
  | v :: rest => .ok (v, rest)

/-- Takes a register address: a byte of at most 0x3F (30_encoding.md R65, R74). -/
def takeAddr : List Byte → Taken RegAddr
  | [] => .error .truncated
  | v :: rest => if v ≤ 0x3F then .ok (v.setWidth 6, rest) else .error (.registerAddress v)

/-- Takes a three-bit field: a byte of at most 7. -/
def takeBits3 : List Byte → Taken Bits3
  | [] => .error .truncated
  | v :: rest => if v ≤ 7 then .ok (v.setWidth 3, rest) else .error (.threeBitField v)

/-- Takes an optional three-bit field: 0xFF stands for absent (log 1). -/
def takeOptBits3 : List Byte → Taken (Option Bits3)
  | [] => .error .truncated
  | v :: rest =>
    if v = 0xFF then .ok (none, rest)
    else if v ≤ 7 then .ok (some (v.setWidth 3), rest)
    else .error (.threeBitField v)

/-- Takes a command code: a byte whose bits 7:4 are 0 (30_encoding.md R73). -/
def takeCode : List Byte → Taken CmdCode
  | [] => .error .truncated
  | v :: rest => if v ≤ 0x0F then .ok (v.setWidth 4, rest) else .error (.commandByte v)

/-- Takes a boolean: 0 or 1. -/
def takeFlag : List Byte → Taken Bool
  | [] => .error .truncated
  | v :: rest => if v = 0 then .ok (false, rest) else if v = 1 then .ok (true, rest) else .error (.flagByte v)

/-- Takes a two-byte count, high byte first (log 1). -/
def takeCount : List Byte → Taken Nat
  | hi :: lo :: rest => .ok (hi.toNat * 256 + lo.toNat, rest)
  | _ => .error .truncated

/-- Takes a byte sequence: its count, then its bytes. -/
def takeSeq (bytes : List Byte) : Taken (List Byte) :=
  match takeCount bytes with
  | .error e => .error e
  | .ok (n, rest) => if n ≤ rest.length then .ok (rest.take n, rest.drop n) else .error .truncated

/-- Takes an optional byte sequence: a presence byte, then the sequence when it is 1. -/
def takeOptSeq (bytes : List Byte) : Taken (Option (List Byte)) :=
  match takeFlag bytes with
  | .error e => .error e
  | .ok (false, rest) => .ok (none, rest)
  | .ok (true, rest) =>
    match takeSeq rest with
    | .error e => .error e
    | .ok (seq, rest') => .ok (some seq, rest')

/-- Takes a `Uid` record: size, the ten UID bytes, SAK (10_state.md R18). -/
def takeUid (bytes : List Byte) : Taken Uid :=
  match bytes with
  | size :: b0 :: b1 :: b2 :: b3 :: b4 :: b5 :: b6 :: b7 :: b8 :: b9 :: sak :: rest =>
    .ok (⟨size.toNat, [b0, b1, b2, b3, b4, b5, b6, b7, b8, b9], sak⟩, rest)
  | _ => .error .truncated

/-- The end of a record: nothing may be left over. -/
def finishRecord (i : Instr) : List Byte → Except Reject Instr
  | [] => .ok i
  | _ :: _ => .error .trailingBytes

/-! ## The call-record decoder -/

/-- The operands of the operation in row `op` of the table. -/
def decodeOperands (op : Byte) (bytes : List Byte) : Except Reject Instr :=
  match op.toNat with
  | 0 => finishRecord .start bytes
  | 1 => finishRecord .stop bytes
  | 2 => do
    let (b, rest) ← takeByte bytes
    finishRecord (.writeByte b) rest
  | 3 => finishRecord .readByte bytes
  | 4 => finishRecord .masterAck bytes
  | 5 => finishRecord .masterNotAck bytes
  | 6 => finishRecord .slaveAck bytes
  | 7 => do
    let (a, rest) ← takeAddr bytes
    let (v, rest) ← takeByte rest
    finishRecord (.writeRegister a v) rest
  | 8 => do
    let (a, rest) ← takeAddr bytes
    finishRecord (.readRegister a) rest
  | 9 => do
    let (a, rest) ← takeAddr bytes
    let (data, rest) ← takeSeq rest
    finishRecord (.writeRegisterBurst a data) rest
  | 10 => do
    let (a, rest) ← takeAddr bytes
    let (n, rest) ← takeCount rest
    let (buf, rest) ← takeSeq rest
    let (r, rest) ← takeBits3 rest
    if n ≤ buf.length then finishRecord (.readRegisterBurst a n buf r) rest else .error .bufferTooShort
  | 11 => do
    let (a, rest) ← takeAddr bytes
    let (m, rest) ← takeByte rest
    finishRecord (.setBits a m) rest
  | 12 => do
    let (a, rest) ← takeAddr bytes
    let (m, rest) ← takeByte rest
    finishRecord (.clearBits a m) rest
  | 13 => finishRecord .init bytes
  | 14 => finishRecord .softReset bytes
  | 15 => finishRecord .antennaOn bytes
  | 16 => finishRecord .antennaOff bytes
  | 17 => do
    let (data, rest) ← takeSeq bytes
    finishRecord (.calculateCRC data) rest
  | 18 => do
    let (command, rest) ← takeCode bytes
    let (mask, rest) ← takeByte rest
    let (send, rest) ← takeSeq rest
    let (valid, rest) ← takeOptBits3 rest
    let (recv, rest) ← takeOptSeq rest
    let (r, rest) ← takeBits3 rest
    let (crc, rest) ← takeFlag rest
    finishRecord (.communicate command mask send valid recv r crc) rest
  | 19 => do
    let (send, rest) ← takeSeq bytes
    let (valid, rest) ← takeOptBits3 rest
    let (recv, rest) ← takeOptSeq rest
    let (r, rest) ← takeBits3 rest
    let (crc, rest) ← takeFlag rest
    finishRecord (.transceive send valid recv r crc) rest
  | 20 => finishRecord .requestA bytes
  | 21 => finishRecord .wakeupA bytes
  | 22 => finishRecord .isNewCardPresent bytes
  | 23 => do
    let (uid, rest) ← takeUid bytes
    let (known, rest) ← takeByte rest
    finishRecord (.select uid known.toNat) rest
  | 24 => finishRecord .readCardSerial bytes
  | 25 => finishRecord .discoverUid bytes
  | _ => .error (.unknownOperation op)

/-- Decodes a call record. Total on any bytes. -/
def decode : List Byte → Except Reject Instr
  | [] => .error .emptyRecord
  | op :: bytes => decodeOperands op bytes

/-! ## The call-record encoder -/

/-- The row of an operation in spec/opcode_table.json, counted from 0. -/
def Instr.row : Instr → Byte
  | .start => 0
  | .stop => 1
  | .writeByte _ => 2
  | .readByte => 3
  | .masterAck => 4
  | .masterNotAck => 5
  | .slaveAck => 6
  | .writeRegister _ _ => 7
  | .readRegister _ => 8
  | .writeRegisterBurst _ _ => 9
  | .readRegisterBurst _ _ _ _ => 10
  | .setBits _ _ => 11
  | .clearBits _ _ => 12
  | .init => 13
  | .softReset => 14
  | .antennaOn => 15
  | .antennaOff => 16
  | .calculateCRC _ => 17
  | .communicate _ _ _ _ _ _ _ => 18
  | .transceive _ _ _ _ _ => 19
  | .requestA => 20
  | .wakeupA => 21
  | .isNewCardPresent => 22
  | .select _ _ => 23
  | .readCardSerial => 24
  | .discoverUid => 25

/-- A two-byte count, high byte first. -/
def putCount (n : Nat) : List Byte := [BitVec.ofNat 8 (n / 256), BitVec.ofNat 8 n]

/-- A byte sequence: its count, then its bytes. -/
def putSeq (bytes : List Byte) : List Byte := putCount bytes.length ++ bytes

/-- A boolean as a byte. -/
def putFlag (b : Bool) : List Byte := [if b then 1 else 0]

/-- An optional three-bit field. -/
def putOptBits3 : Option Bits3 → List Byte
  | none => [0xFF]
  | some v => [v.setWidth 8]

/-- An optional byte sequence. -/
def putOptSeq : Option (List Byte) → List Byte
  | none => putFlag false
  | some bytes => putFlag true ++ putSeq bytes

/-- A `Uid` record. -/
def putUid (u : Uid) : List Byte := BitVec.ofNat 8 u.size :: (u.uidByte ++ [u.sak])

/-- The operands of an operation, in the order of 30_encoding.md R77. -/
def Instr.operandBytes : Instr → List Byte
  | .start => []
  | .stop => []
  | .writeByte b => [b]
  | .readByte => []
  | .masterAck => []
  | .masterNotAck => []
  | .slaveAck => []
  | .writeRegister a v => [a.setWidth 8, v]
  | .readRegister a => [a.setWidth 8]
  | .writeRegisterBurst a bytes => a.setWidth 8 :: putSeq bytes
  | .readRegisterBurst a n buf r => a.setWidth 8 :: (putCount n ++ (putSeq buf ++ [r.setWidth 8]))
  | .setBits a m => [a.setWidth 8, m]
  | .clearBits a m => [a.setWidth 8, m]
  | .init => []
  | .softReset => []
  | .antennaOn => []
  | .antennaOff => []
  | .calculateCRC data => putSeq data
  | .communicate command mask send valid recv r crc =>
      command.setWidth 8 :: mask :: (putSeq send ++ (putOptBits3 valid ++ (putOptSeq recv ++
        (r.setWidth 8 :: putFlag crc))))
  | .transceive send valid recv r crc =>
      putSeq send ++ (putOptBits3 valid ++ (putOptSeq recv ++ (r.setWidth 8 :: putFlag crc)))
  | .requestA => []
  | .wakeupA => []
  | .isNewCardPresent => []
  | .select uid known => putUid uid ++ [BitVec.ofNat 8 known]
  | .readCardSerial => []
  | .discoverUid => []

/-- The call record of an operation. -/
def encode (i : Instr) : List Byte := i.row :: i.operandBytes

/-! ## Wire frames (30_encoding.md R60 to R69) -/

/-- What a receiver decodes from the two lines: a start condition, a stop condition, or one bit per clock pulse
(data bits and acknowledge slots alike). -/
inductive WireSym where
  | start
  | stop
  | bit (b : Bool)
  deriving DecidableEq, Repr

/-- The address byte for writing: `CHIP_ADDR << 1` (30_encoding.md R64). -/
def addrW (chip : ChipAddr) : Byte := chip.setWidth 8 <<< 1

/-- The address byte for reading: `(CHIP_ADDR << 1) | 1` (30_encoding.md R64). -/
def addrR (chip : ChipAddr) : Byte := (chip.setWidth 8 <<< 1) ||| 1

/-- The register address byte: the address zero-extended (30_encoding.md R65). -/
def regByte (a : RegAddr) : Byte := a.setWidth 8

/-- The whole bytes and acknowledge bits up to a stop condition, and what follows it (30_encoding.md R62, R63). -/
def takeTransaction : List WireSym → Except Reject (List (Byte × Bool) × List WireSym)
  | .stop :: rest => .ok ([], rest)
  | .bit b7 :: .bit b6 :: .bit b5 :: .bit b4 :: .bit b3 :: .bit b2 :: .bit b1 :: .bit b0 :: .bit k :: rest =>
    match takeTransaction rest with
    | .ok (bytes, after) => .ok ((byteOfBits [b7, b6, b5, b4, b3, b2, b1, b0], k) :: bytes, after)
    | .error e => .error e
  | _ => .error .notAFrame

/-- Bytes of which every acknowledge slot was acknowledged (30_encoding.md R61: 0 is an acknowledge). -/
def allAcked (bytes : List (Byte × Bool)) : Bool := bytes.all fun p => p.2 == false

/-- Bytes read by the master: acknowledged but for the last, which is not (30_encoding.md R69). -/
def readAcks : List (Byte × Bool) → Bool
  | [] => false
  | [(_, k)] => k
  | (_, k) :: rest => !k && readAcks rest

/-- A write-direction transaction: the bus address, the register address and the data bytes. -/
def writeFrame (bytes : List (Byte × Bool)) : Except Reject (ChipAddr × RegAddr × List Byte) :=
  match bytes with
  | (aw, k0) :: (r, k1) :: data =>
    if aw.getLsbD 0 = false ∧ r ≤ 0x3F ∧ allAcked ((aw, k0) :: (r, k1) :: data) then
      .ok ((aw >>> 1).setWidth 7, r.setWidth 6, data.map Prod.fst)
    else .error .unknownFrame
  | _ => .error .unknownFrame

/-- A read-direction transaction: the bus address and the number of data bytes. -/
def readFrame (bytes : List (Byte × Bool)) : Except Reject (ChipAddr × Nat) :=
  match bytes with
  | (ar, k0) :: data =>
    if ar.getLsbD 0 = true ∧ k0 = false ∧ readAcks data then .ok ((ar >>> 1).setWidth 7, data.length)
    else .error .unknownFrame
  | _ => .error .unknownFrame

/-- The operation a write-direction transaction alone stands for: one data byte is `writeRegister`, more are
`writeRegisterBurst` (with one byte the two are the same on the wire, R68). -/
def writeOf (chip : ChipAddr) (a : RegAddr) : List Byte → Except Reject (ChipAddr × Instr)
  | [] => .error .unknownFrame
  | [v] => .ok (chip, .writeRegister a v)
  | bytes => .ok (chip, .writeRegisterBurst a bytes)

/-- The operation a read of `n` bytes stands for. The caller's buffer and `rxAlign` are not on the wire (R69): the
decoder gives a buffer of zeros and `rxAlign` 0 (log 3). -/
def readOf (chip : ChipAddr) (a : RegAddr) (n : Nat) : Except Reject (ChipAddr × Instr) :=
  if n = 0 then .error .unknownFrame
  else if n = 1 then .ok (chip, .readRegister a)
  else .ok (chip, .readRegisterBurst a n (List.replicate n 0) 0)

/-- Decodes the frame of one register operation from what a receiver saw on the lines (30_encoding.md R66 to R69, R75).
Total on any symbols. -/
def decodeFrame : List WireSym → Except Reject (ChipAddr × Instr)
  | .start :: syms =>
    match takeTransaction syms with
    | .error e => .error e
    | .ok (first, []) =>
      match writeFrame first with
      | .error e => .error e
      | .ok (chip, a, data) => writeOf chip a data
    | .ok (first, .start :: syms2) =>
      match takeTransaction syms2 with
      | .ok (second, []) =>
        match writeFrame first, readFrame second with
        | .ok (chip, a, []), .ok (chip2, n) => if chip = chip2 then readOf chip a n else .error .unknownFrame
        | _, _ => .error .unknownFrame
      | _ => .error .notAFrame
    | .ok (_, _) => .error .notAFrame
  | _ => .error .notAFrame

/-! ## The frame encoder -/

/-- One byte on the wire and its acknowledge bit (30_encoding.md R62). -/
def wireByte (v : Byte) (k : Bool) : List WireSym := (byteBits v).map .bit ++ [.bit k]

/-- Bytes on the wire, each acknowledged by the slave. -/
def wireAcked (bytes : List Byte) : List WireSym := bytes.flatMap fun v => wireByte v false

/-- Bytes read: acknowledged by the master but for the last (30_encoding.md R69). -/
def wireRead : List Byte → List WireSym
  | [] => []
  | [v] => wireByte v true
  | v :: rest => wireByte v false ++ wireRead rest

/-- The frame of a write of `data` to register `a` (30_encoding.md R66, R68). -/
def frameWrite (chip : ChipAddr) (a : RegAddr) (data : List Byte) : List WireSym :=
  .start :: (wireAcked (addrW chip :: regByte a :: data) ++ [.stop])

/-- The frame of a read of the bytes `data` from register `a` (30_encoding.md R67, R69). -/
def frameRead (chip : ChipAddr) (a : RegAddr) (data : List Byte) : List WireSym :=
  frameWrite chip a [] ++ (.start :: (wireAcked [addrR chip] ++ (wireRead data ++ [.stop])))

/-! ## The table's words -/

/-- The 18 clock pulses a FRAME row of the table numbers, first pulse most significant (30_encoding.md R78). -/
def pulses18 (w : Nat) : List WireSym :=
  [17, 16, 15, 14, 13, 12, 11, 10, 9, 8, 7, 6, 5, 4, 3, 2, 1, 0].map fun i => .bit (w.testBit i)

/-- The instruction a word of the table stands for. Only the FRAME rows have bits: the first 18 clock pulses of a
write-direction transaction, the same for all four rows (30_encoding.md R78). What follows them is all zeros: one data
byte 0x00 with its acknowledge slot, then the stop condition, which is `writeRegister(a, 0x00)` (log 3). The bus
address bits are not an operand. -/
def decodeTableWord (_nbits w : Nat) : Option Instr :=
  if w < 2 ^ 18 then
    match decodeFrame (.start :: (pulses18 w ++ (wireByte 0 false ++ [.stop]))) with
    | .ok (_, i) => some i
    | .error _ => none
  else none

end Sys2Proof
end

