-- ==== Sys2Proof/Machine/State.lean ====
section
/-! DEFINITION. The state of the block as plain data: the configuration and the line state the spec gives it
(10_state.md R10, R11, R16), the `Uid` record (R18), and what crosses its two interfaces: the oracle's answers and the
traces (00_scope.md R7, R8), the answer to the caller (10_state.md R15) and the calls still to come (30_encoding.md R77). -/

namespace Sys2Proof.Machine

open Sys2Proof

/-- The nine statuses, in the source's order (60_exceptions.md R190). -/
inductive Status where
  | ok
  | error
  | collision
  | timeout
  | noRoom
  | internalError
  | invalid
  | crcWrong
  | mifareNack
  deriving DecidableEq, Repr

/-- Direction of the data line (10_state.md R11): `out` driven by the block, `inp` released, an input with pull-up. -/
inductive SdaDir where
  | out
  | inp
  deriving DecidableEq, Repr

/-- The line actions of 00_scope.md R6; `sdaSample v` is a sample that read `v`. -/
inductive LineAction where
  | sclDrive (v : Level)
  | sdaDrive (v : Level)
  | sdaRelease
  | sdaSample (v : Level)
  | hold (us : Nat)
  deriving DecidableEq, Repr

/-- The register-level events of 00_scope.md R8 and 41_register_access.md R116. A read carries the bytes read, or `none`
when the event failed with `ACK_FAIL_STATUS`; a write says whether it was acknowledged. `hold` is the wait of
42_reader_control.md R131. -/
inductive RegEvent where
  | rd (a : RegAddr) (v : Option Byte)
  | wr (a : RegAddr) (v : Byte) (acked : Bool)
  | wrb (a : RegAddr) (bytes : List Byte) (acked : Bool)
  | rdb (a : RegAddr) (n : Nat) (bytes : Option (List Byte))
  | hold (us : Nat)
  deriving DecidableEq, Repr

/-- The two lines and what was done on them. -/
structure Bus where
  /-- `SCL_LVL`: the level last set on the clock line (10_state.md R11). -/
  scl : Level
  /-- `SDA_DIR` (R11). -/
  sdaDir : SdaDir
  /-- `SDA_LVL`: the level last driven on the data line (R11). -/
  sdaLvl : Level
  /-- The answers of `SDA_SAMPLE()` still to come: the oracle of 00_scope.md R7 (log 4). -/
  samples : List Level
  /-- The line trace of 00_scope.md R7, newest action first (log 9). -/
  trace : List LineAction
  /-- The register-level trace of 00_scope.md R8, newest event first (log 9). -/
  events : List RegEvent
  deriving DecidableEq, Repr

/-- The value an operation that can fail hands back beside its status. `empty`: none, either because the operation has
none or because it is not meaningful after this status (42_reader_control.md R145, log 11). -/
inductive Value where
  | empty
  /-- `readRegister` -/
  | byte (v : Byte)
  /-- `calculateCRC`: low byte, high byte -/
  | crc (lo hi : Byte)
  /-- `readRegisterBurst`: the caller's buffer -/
  | buffer (bytes : List Byte)
  /-- `communicate`, `transceive`: the caller's buffer, `recvLen`, and `validBits` when the caller supplied it
  (10_state.md R17, 92 D31) -/
  | response (recv : List Byte) (recvLen : Nat) (validBits : Option Bits3)
  /-- `requestA`, `wakeupA` -/
  | atqa (bytes : List Byte)
  /-- The `Uid` record as the caller has it (10_state.md R18, 70_reset_and_hazards.md R238): its size, the UID bytes at the
  indices below the size and no other, the SAK. -/
  | uid (size : Nat) (bytes : List Byte) (sak : Byte)
  deriving DecidableEq, Repr

/-- What an operation hands its caller (10_state.md R15, 60_exceptions.md R211). -/
inductive Answer where
  /-- a primitive without a result -/
  | done
  /-- `readByte` -/
  | byte (v : Byte)
  /-- `slaveAck`, `isNewCardPresent`, `readCardSerial` -/
  | flag (b : Bool)
  /-- every operation that can fail: exactly one status, and a value (60_exceptions.md R190) -/
  | status (st : Status) (v : Value)
  deriving DecidableEq, Repr

/-- The state of the block. -/
structure State where
  /-- The configuration of 10_state.md R16 and 00_scope.md R4; no step changes it. -/
  cfg : Config
  /-- The two lines, the oracle and the traces. -/
  bus : Bus
  /-- The `Uid` record the discovery operations fill (10_state.md R18, log 10). -/
  uid : Uid
  /-- Whether the caller may read `uid` (70_reset_and_hazards.md R238, log 10). -/
  uidMeaningful : Bool
  /-- What the last operation handed its caller; `none` before the first has returned (log 9). -/
  answer : Option Answer
  /-- The calls the caller has still to make, each a call record (log 2). -/
  calls : List (List Byte)
  deriving DecidableEq, Repr

/-- The reasons the block stops with a fault. There are none: every failure is a status handed to the caller, and the
block goes on (60_exceptions.md R190, R199, R200). -/
inductive Fault where
  deriving DecidableEq, Repr

/-- The reasons a call is refused: it is outside the domain of the step function, no line action occurs and no status is
produced (60_exceptions.md R203). -/
inductive Refusal where
  /-- Raised by an arm of `exec` whose instruction has no meaning yet; safe. No arm raises it now. -/
  | notModelled (mnemonic : String)
  /-- Raised by `step` for a call record that is no operation with operands in their types (R203); safe. -/
  | badCall (why : Reject)
  /-- Raised by `communicate` for a command code neither Transceive nor Receive (R203, R146); safe. -/
  | commandCode (code : CmdCode)
  /-- Raised by `communicate` and `transceive` for a `send`, and by `calculateCRC` for a `data`, longer than `FIFO_SIZE`
  (R203, R146); safe. -/
  | longerThanFifo (len : Nat)
  /-- Raised by `readRegisterBurst` for a buffer of fewer than `n` bytes (41_register_access.md R113, log 13); safe. -/
  | bufferTooShort (have_ want : Nat)
  /-- Raised by `select` for a record that does not have the ten bytes `uidByte[0..9]` (10_state.md R18, log 13); safe. -/
  | uidRecord (len : Nat)
  deriving DecidableEq, Repr

/-- What a step gives. -/
abbrev Outcome := Host.Outcome State Fault Refusal

/-- The `Uid` record at reset: none is given (70_reset_and_hazards.md R221). DESIGN CHOICE, log 10; not meaningful. -/
def blankUid : Uid := ⟨4, [0, 0, 0, 0, 0, 0, 0, 0, 0, 0], 0⟩

/-- The lines at reset: unspecified (70_reset_and_hazards.md R220). DESIGN CHOICE, log 6: clock 0, data released. -/
def Bus.reset : Bus where
  scl := false
  sdaDir := .inp
  sdaLvl := false
  samples := []
  trace := []
  events := []

/-- The block right after reset (70_reset_and_hazards.md R220, R221): the configured parameters, no operation in
progress, no call pending. -/
def State.reset : State where
  cfg := Config.default
  bus := Bus.reset
  uid := blankUid
  uidMeaningful := false
  answer := none
  calls := []

end Sys2Proof.Machine
end

