-- ==== Sys2Proof/Machine/Operands.lean ====
section
/-! DEFINITION. Every value the block assembles from operands and registers (30_encoding.md R71), and the buffer
operations of 20_memory.md R44, 10_state.md R17, R18 and 43_card_discovery.md R163. -/

namespace Sys2Proof.Machine

open Sys2Proof

/-! ## Register values -/

/-- The byte written to `COMMAND`: the code zero-extended (30_encoding.md R73). -/
def commandByte (code : CmdCode) : Byte := code.setWidth 8

/-- `bitFraming = (rxAlign << 4) | txLastBits` (30_encoding.md R71, 10_state.md R28). -/
def bitFraming (rxAlign txLastBits : Bits3) : Byte := (rxAlign.setWidth 8 <<< 4) ||| txLastBits.setWidth 8

/-- `value | mask` (41_register_access.md R115). -/
def setMask (v m : Byte) : Byte := v ||| m

/-- `value & ~mask & 0xFF` (41_register_access.md R115). -/
def clearMask (v m : Byte) : Byte := v &&& ~~~m

/-- The valid-bit count of the last received byte: `value & FLD.RX_LAST_BITS`, 3 bits (30_encoding.md R71). -/
def rxLastBits (c : Config) (v : Byte) : Bits3 := (v &&& c.fld.rxLastBits).setWidth 3

/-- `txLastBits`: `validBits`, or 0 when the caller supplies none (42_reader_control.md R145, 92 D31). -/
def txLastBits (validBits : Option Bits3) : Bits3 := validBits.getD 0

/-! ## Burst reads into a buffer (20_memory.md R44) -/

/-- The first-byte mask `(0xFF << rxAlign) & 0xFF`: ones in bits `rxAlign..7`. -/
def alignMask (rxAlign : Bits3) : Byte := 0xFF#8 <<< rxAlign.toNat

/-- The first byte stored: bits `rxAlign..7` from the byte read, the lower bits as the caller left them. -/
def mergeFirst (rxAlign : Bits3) (old v : Byte) : Byte := (old &&& ~~~(alignMask rxAlign)) ||| (v &&& alignMask rxAlign)

/-- The buffer after a burst read of `bytes` (41_register_access.md R113): the first byte merged, the others whole, the
buffer beyond them untouched. -/
def storeBurst (rxAlign : Bits3) (buf : List Byte) : List Byte → List Byte
  | [] => buf
  | v :: rest => mergeFirst rxAlign (buf.headD 0) v :: (rest ++ buf.drop (rest.length + 1))

/-! ## Buffers of the client layer (43_card_discovery.md R163) -/

/-- `buf[i]`. -/
def byteAt (buf : List Byte) (i : Nat) : Byte := buf.getD i 0

/-- `buf[i..i+n-1]`. -/
def slice (buf : List Byte) (i n : Nat) : List Byte := (buf.drop i).take n

/-- `buf` with `bytes` written from index `i` on. -/
def splice (buf : List Byte) (i : Nat) (bytes : List Byte) : List Byte :=
  buf.take i ++ (bytes ++ buf.drop (i + bytes.length))

/-- The cascade tag CT (43_card_discovery.md R165). -/
def cascadeTag : Byte := 0x88

/-- `SEL_L`, the command byte of a cascade level: 0x93, 0x95, 0x97 (30_encoding.md R79). -/
def selByte : Nat → Byte
  | 1 => 0x93
  | 2 => 0x95
  | _ => 0x97

/-- The offset of a cascade level in `uid.uidByte`: 0, 3 or 6 (43_card_discovery.md R165). -/
def uidIndex (level : Nat) : Nat := 3 * (level - 1)

/-- NVB: `(index << 4) | txLastBits`, `index` whole bytes sent including SEL and NVB (30_encoding.md R71). -/
def nvb (index bits : Nat) : Byte := (BitVec.ofNat 8 index <<< 4) ||| BitVec.ofNat 8 bits

/-- The NVB of a full SELECT: seven whole bytes, no extra bits (30_encoding.md R79). -/
def nvbSelect : Byte := 0x70

/-- BCC: `buf[2] ^ buf[3] ^ buf[4] ^ buf[5]` (30_encoding.md R71). -/
def bcc (buf : List Byte) : Byte := byteAt buf 2 ^^^ byteAt buf 3 ^^^ byteAt buf 4 ^^^ byteAt buf 5

/-- Whether the reader places a cascade tag itself: level 1 when some bits are known and `uid.size > 4`, level 2 when
`uid.size > 7`, never at level 3 (43_card_discovery.md R165). -/
def usesCascadeTag (level known size : Nat) : Bool :=
  match level with
  | 1 => known != 0 && decide (4 < size)
  | 2 => known != 0 && decide (7 < size)
  | _ => false

/-- The number of UID bytes copied into the command buffer at level set-up (43_card_discovery.md R163). -/
def bytesToCopy (known : Nat) (useCT : Bool) : Nat :=
  min (known / 8 + if known % 8 = 0 then 0 else 1) (if useCT then 3 else 4)

/-- Level set-up (43_card_discovery.md R163, R165): the command byte, the cascade tag when used, the known UID bytes, and
the count of known bits of this level. `total` is `knownValidBits`. -/
def levelSetup (level total : Nat) (uid : Uid) (buf : List Byte) : List Byte × Nat :=
  let useCT := usesCascadeTag level total uid.size
  let known := total - 8 * uidIndex level
  let buf := splice buf 0 [selByte level]
  let buf := if useCT then splice buf 2 [cascadeTag] else buf
  let copied := slice uid.uidByte (uidIndex level) (bytesToCopy known useCT)
  (splice buf (if useCT then 3 else 2) copied, if useCT then known + 8 else known)

/-- One frame of the anti-collision loop (43_card_discovery.md R163): the command buffer, how many of its bytes are sent,
the valid bits of the last one (also `rxAlign`), and where the response goes. -/
structure SelFrame where
  buf : List Byte
  used : Nat
  lastBits : Bits3
  rIdx : Nat
  rCap : Nat
  deriving DecidableEq, Repr

/-- The ANTICOLLISION probe with `known` < 32 known bits (43_card_discovery.md R166). -/
def probeFrame (buf : List Byte) (known : Nat) : SelFrame :=
  let index := 2 + known / 8
  let bits := known % 8
  { buf := splice buf 1 [nvb index bits]
    used := index + if bits = 0 then 0 else 1
    lastBits := BitVec.ofNat 3 bits
    rIdx := index
    rCap := 9 - index }

/-- The first seven bytes of a full SELECT: NVB 0x70 and the BCC in place (43_card_discovery.md R166). -/
def selectBuffer (buf : List Byte) : List Byte :=
  let buf := splice buf 1 [nvbSelect]
  splice buf 6 [bcc buf]

/-- The full SELECT with its CRC appended, low byte first (43_card_discovery.md R166). -/
def selectFrame (buf : List Byte) (lo hi : Byte) : SelFrame :=
  { buf := splice (selectBuffer buf) 7 [lo, hi], used := 9, lastBits := 0, rIdx := 6, rCap := 3 }

/-- The collision position a read of `COLL` names: the field, 0 standing for 32 (43_card_discovery.md R167). -/
def collPosition (c : Config) (v : Byte) : Nat :=
  if v &&& c.fld.collPos = 0 then 32 else (v &&& c.fld.collPos).toNat

/-- The buffer with bit `pos` of the level (counted from 1 at bit 0 of `buf[2]`) forced to 1
(43_card_discovery.md R167). -/
def forceBit (buf : List Byte) (pos : Nat) : List Byte :=
  let index := 1 + pos / 8 + if pos % 8 = 0 then 0 else 1
  splice buf index [byteAt buf index ||| (1#8 <<< ((pos - 1) % 8))]

/-- The `Uid` with the confirmed bytes of a level copied in, the cascade tag skipped (43_card_discovery.md R168). -/
def confirmUid (level : Nat) (uid : Uid) (buf : List Byte) : Uid :=
  let bytes := if byteAt buf 2 = cascadeTag then slice buf 3 3 else slice buf 2 4
  { uid with uidByte := splice uid.uidByte (uidIndex level) bytes }

/-- The size of a UID that is complete at a cascade level: `3 * cascadeLevel + 1` (10_state.md R18). -/
def uidSize (level : Nat) : Nat := 3 * level + 1

/-- A record handed to the caller: the bytes at index `size` and above are not (10_state.md R18). -/
def uidValue (u : Uid) : Value := .uid u.size (u.uidByte.take u.size) u.sak

/-- What the caller reads of the record the block holds, nothing while it is not meaningful (70_reset_and_hazards.md
R238). -/
def readUid (s : State) : Option Value := if s.uidMeaningful then some (uidValue s.uid) else none

/-- One byte of what the caller may read of the `Uid`: the byte at index `i`, only while the record is meaningful and only
below `size` (10_state.md R18, 70_reset_and_hazards.md R238). -/
def readUidByte (s : State) (i : Nat) : Option Byte :=
  if s.uidMeaningful ∧ i < s.uid.size then s.uid.uidByte[i]? else none

end Sys2Proof.Machine
end

