-- ==== Sys2Proof/Machine/Flags.lean ====
section
/-! DEFINITION. The condition values: the tests the block makes on what it reads from the chip's flag registers
(60_exceptions.md R194 to R196; 10_state.md R15: the block keeps no flag register of its own). -/

namespace Sys2Proof.Machine

open Sys2Proof

/-- Some bit of the mask is set in the value. -/
def anyBit (v m : Byte) : Bool := v &&& m != 0

/-- `softReset`: the chip is still resetting (42_reader_control.md R131). -/
def stillPoweredDown (c : Config) (v : Byte) : Bool := anyBit v c.fld.powerDown

/-- `calculateCRC`: the CRC-done flag of `DIV_IRQ` (42_reader_control.md R143). -/
def crcDone (c : Config) (v : Byte) : Bool := anyBit v c.fld.crcIrq

/-- `communicate`: the chip's timer ran down (42_reader_control.md R145). -/
def timerExpired (c : Config) (v : Byte) : Bool := anyBit v c.fld.timerIrq

/-- `communicate`: buffer overflow, parity or protocol error (42_reader_control.md R145, 60_exceptions.md R194). -/
def fatalError (c : Config) (v : Byte) : Bool := anyBit v c.fld.errFatal

/-- `communicate`: the collision bit (60_exceptions.md R195). -/
def collided (c : Config) (v : Byte) : Bool := anyBit v c.fld.errColl

/-- `antennaOn`: both driver-enable bits are 1 (42_reader_control.md R140). -/
def antennaIsOn (c : Config) (v : Byte) : Bool := v &&& c.fld.antenna == c.fld.antenna

/-- `antennaOff`: both driver-enable bits are 0 (42_reader_control.md R141). -/
def antennaIsOff (c : Config) (v : Byte) : Bool := v &&& c.fld.antenna == 0

/-- `select`: the collision position is not valid (43_card_discovery.md R167). -/
def collInvalid (c : Config) (v : Byte) : Bool := anyBit v c.fld.collPosNotValid

/-- `select`: the SAK's cascade bit, 0x04 (43_card_discovery.md R168). -/
def sakCascade (sak : Byte) : Bool := anyBit sak 0x04

/-- The status a missing acknowledge is reported as (60_exceptions.md R192). -/
def ackFailStatus (c : Config) : Status :=
  match c.ackFail with
  | .error => .error
  | .timeout => .timeout

end Sys2Proof.Machine
end

