-- ==== Sys2Proof/Machine/Ops.lean ====
section
/-! DEFINITION. The named operations on the lines: the line actions (00_scope.md R6), the sequences of
40_bus_primitives.md, raising a status (41_register_access.md R114, 60_exceptions.md R200) and the four register
operations (41_register_access.md R110 to R113). Each takes the configuration and the bus and gives the bus after. -/

namespace Sys2Proof.Machine

open Sys2Proof

/-- How an operation ends: with a result, or with a status raised (00_scope.md R6 `return`, `raise`). -/
inductive Res (α : Type) where
  | ok (v : α)
  | err (st : Status)
  deriving DecidableEq, Repr

/-- The status an operation ends with. -/
def Res.status {α : Type} : Res α → Status
  | .ok _ => .ok
  | .err st => st

/-! ## Line actions (00_scope.md R6, 10_state.md R11, R13) -/

/-- One line action done and recorded. A sample changes no line. -/
def Bus.act (b : Bus) : LineAction → Bus
  | .sclDrive v => { b with scl := v, trace := .sclDrive v :: b.trace }
  | .sdaDrive v => { b with sdaDir := .out, sdaLvl := v, trace := .sdaDrive v :: b.trace }
  | .sdaRelease => { b with sdaDir := .inp, trace := .sdaRelease :: b.trace }
  | .sdaSample v => { b with trace := .sdaSample v :: b.trace }
  | .hold us => { b with trace := .hold us :: b.trace }

/-- Line actions done in order. -/
def Bus.acts (b : Bus) (l : List LineAction) : Bus := l.foldl Bus.act b

/-- `SDA_SAMPLE()`: the oracle's next answer; when the list is used up nothing drives the line and the pull-up makes it
read 1 (10_state.md R13, log 4). -/
def Bus.sample (b : Bus) : Level × Bus :=
  (b.samples.headD true, { b.act (.sdaSample (b.samples.headD true)) with samples := b.samples.tail })

/-- A register event recorded (00_scope.md R8). -/
def Bus.record (b : Bus) (e : RegEvent) : Bus := { b with events := e :: b.events }

/-! ## Bus primitives (40_bus_primitives.md) -/

/-- `start()` (R90): `D1 C1 H5 D0 H5 C0`. -/
def startSeq (c : Config) : List LineAction :=
  [.sdaDrive true, .sclDrive true, .hold c.tHold, .sdaDrive false, .hold c.tHold, .sclDrive false]

/-- `stop()` (R91): `C0 D0 H5 C1 D1 H5`. -/
def stopSeq (c : Config) : List LineAction :=
  [.sclDrive false, .sdaDrive false, .hold c.tHold, .sclDrive true, .sdaDrive true, .hold c.tHold]

/-- One bit of `writeByte` (R92): `Db C1 H5 C0 H5`. -/
def bitCell (c : Config) (bit : Level) : List LineAction :=
  [.sdaDrive bit, .sclDrive true, .hold c.tHold, .sclDrive false, .hold c.tHold]

/-- `writeByte(b)` (R92): eight bit cells, `b[7]` first. -/
def writeByteSeq (c : Config) (v : Byte) : List LineAction := (byteBits v).flatMap (bitCell c)

/-- `masterAck()` (R94) and `masterNotAck()` (R95): `C0 Dv C1 H5 C0 H5` with v = 0 and v = 1. -/
def masterAckSeq (c : Config) (v : Level) : List LineAction :=
  [.sclDrive false, .sdaDrive v, .sclDrive true, .hold c.tHold, .sclDrive false, .hold c.tHold]

/-- R90 -/
def start (c : Config) (b : Bus) : Bus := b.acts (startSeq c)

/-- R91 -/
def stop (c : Config) (b : Bus) : Bus := b.acts (stopSeq c)

/-- R92 -/
def writeByte (c : Config) (v : Byte) (b : Bus) : Bus := b.acts (writeByteSeq c v)

/-- R94 -/
def masterAck (c : Config) (b : Bus) : Bus := b.acts (masterAckSeq c false)

/-- R95 -/
def masterNotAck (c : Config) (b : Bus) : Bus := b.acts (masterAckSeq c true)

/-- The bit loop of `readByte` (R93): `n` more bits into the accumulator. -/
def readBits (c : Config) : Nat → Byte → Bus → Byte × Bus
  | 0, acc, b => (acc, b)
  | n + 1, acc, b =>
    match (b.acts [.sclDrive false, .hold c.tRdLow, .sclDrive true, .hold c.tRdHigh]).sample with
    | (bit, b1) => readBits c n (shiftIn acc bit) (b1.act (.hold c.tHold))

/-- `readByte()` (R93): the data line released once, then eight bits into an accumulator of 0. -/
def readByte (c : Config) (b : Bus) : Byte × Bus := readBits c 8 0 (b.act .sdaRelease)

/-- The poll loop of `slaveAck` (R96): at most `n` more samples, a hold after each that read 1. -/
def ackPoll (c : Config) : Nat → Bus → Bool × Bus
  | 0, b => (false, b)
  | n + 1, b =>
    match b.sample with
    | (false, b1) => (true, b1)
    | (true, b1) => ackPoll c n (b1.act (.hold c.tAckPoll))

/-- `slaveAck()` (R96). -/
def slaveAck (c : Config) (b : Bus) : Bool × Bus :=
  match ackPoll c c.ackPollMax (b.acts [.sdaRelease, .sclDrive true]) with
  | (acked, b1) => (acked, b1.act (.sclDrive false))

/-! ## Raising a status at the bus (41_register_access.md R114, 60_exceptions.md R192, R200) -/

/-- The abort actions of a register operation: `stop()` when `ABORT_STOP` is true, nothing otherwise. -/
def abortActions (c : Config) (b : Bus) : Bus := if c.abortStop then stop c b else b

/-- `ack_or_abort()` (R114): a missing acknowledge aborts the transaction and raises `ACK_FAIL_STATUS`. -/
def ackOrAbort (c : Config) (b : Bus) : Res Unit × Bus :=
  match slaveAck c b with
  | (true, b1) => (.ok (), b1)
  | (false, b1) => (.err (ackFailStatus c), abortActions c b1)

/-! ## Register operations (41_register_access.md R110 to R113) -/

/-- `writeByte(v); ack_or_abort()` for each byte, ended by the first missing acknowledge. -/
def sendBytes (c : Config) : List Byte → Bus → Res Unit × Bus
  | [], b => (.ok (), b)
  | v :: rest, b =>
    match ackOrAbort c (writeByte c v b) with
    | (.ok _, b1) => sendBytes c rest b1
    | (.err st, b1) => (.err st, b1)

/-- The data phase of a read (R113): `n` bytes, a master acknowledge after each but the last, a not-acknowledge after
the last. -/
def readBytes (c : Config) : Nat → Bus → List Byte × Bus
  | 0, b => ([], b)
  | n + 1, b =>
    match readByte c b with
    | (v, b1) =>
      match readBytes c n (if n = 0 then masterNotAck c b1 else masterAck c b1) with
      | (rest, b2) => (v :: rest, b2)

/-- A write-direction transaction (30_encoding.md R66, R68): start, address byte, register address byte, the data bytes,
each acknowledged, stop. -/
def writeFrameOnBus (c : Config) (a : RegAddr) (data : List Byte) (b : Bus) : Res Unit × Bus :=
  match sendBytes c (addrW c.chipAddr :: regByte a :: data) (start c b) with
  | (.ok _, b1) => (.ok (), stop c b1)
  | (.err st, b1) => (.err st, b1)

/-- The two transactions of a read of `n` bytes (30_encoding.md R67, R69). -/
def readFrameOnBus (c : Config) (a : RegAddr) (n : Nat) (b : Bus) : Res (List Byte) × Bus :=
  match writeFrameOnBus c a [] b with
  | (.err st, b1) => (.err st, b1)
  | (.ok _, b1) =>
    match sendBytes c [addrR c.chipAddr] (start c b1) with
    | (.err st, b2) => (.err st, b2)
    | (.ok _, b2) =>
      match readBytes c n b2 with
      | (bytes, b3) => (.ok bytes, stop c b3)

/-- `writeRegister(a, v)` (R111), recorded as one event. -/
def writeRegister (c : Config) (a : RegAddr) (v : Byte) (b : Bus) : Res Unit × Bus :=
  match writeFrameOnBus c a [v] b with
  | (.ok _, b1) => (.ok (), b1.record (.wr a v true))
  | (.err st, b1) => (.err st, b1.record (.wr a v false))

/-- `readRegister(a)` (R110), recorded as one event. -/
def readRegister (c : Config) (a : RegAddr) (b : Bus) : Res Byte × Bus :=
  match readFrameOnBus c a 1 b with
  | (.ok bytes, b1) => (.ok (bytes.headD 0), b1.record (.rd a (some (bytes.headD 0))))
  | (.err st, b1) => (.err st, b1.record (.rd a none))

/-- `writeRegisterBurst(a, bytes)` (R112): no line action and no event at all for an empty sequence (92 D13). -/
def writeRegisterBurst (c : Config) (a : RegAddr) (bytes : List Byte) (b : Bus) : Res Unit × Bus :=
  if bytes = [] then (.ok (), b)
  else
    match writeFrameOnBus c a bytes b with
    | (.ok _, b1) => (.ok (), b1.record (.wrb a bytes true))
    | (.err st, b1) => (.err st, b1.record (.wrb a bytes false))

/-- The transfer of `readRegisterBurst(a, n, buf, rxAlign)` (R113): the bytes read, before `storeBurst` merges them into
the buffer; no line action and no event at all for `n = 0` (92 D13). -/
def readRegisterBurst (c : Config) (a : RegAddr) (n : Nat) (b : Bus) : Res (List Byte) × Bus :=
  if n = 0 then (.ok [], b)
  else
    match readFrameOnBus c a n b with
    | (.ok bytes, b1) => (.ok bytes, b1.record (.rdb a n (some bytes)))
    | (.err st, b1) => (.err st, b1.record (.rdb a n none))

/-- `HOLD(n)` with the bus idle, at the register level (42_reader_control.md R131). -/
def waitUs (us : Nat) (b : Bus) : Bus := (b.act (.hold us)).record (.hold us)

/-! ## Handing an answer to the caller (60_exceptions.md R200, R201, R211) -/

/-- The operation is over: the bus is as it left it and the caller has the answer. -/
def State.finish (s : State) (b : Bus) (ans : Answer) : State := { s with bus := b, answer := some ans }

/-- The answer of an operation that can fail: exactly one status, with the value the result carries on `STATUS_OK`
(60_exceptions.md R190). -/
def Res.answer {α : Type} (f : α → Value) : Res α → Answer
  | .ok v => .status .ok (f v)
  | .err st => .status st .empty

end Sys2Proof.Machine
end

