-- ==== Sys2Proof/Machine/Prog.lean ====
section
/-! DEFINITION. The register level (00_scope.md R8, 41_register_access.md R116). A `Prog` is the pseudocode of an
operation as the tree of its register events: what it does next may depend on how each event ended. `runLine` gives it
its line-level meaning through the operations of Machine/Ops.lean; `runReg` its register-level meaning, where the
oracle answers whole events. -/

namespace Sys2Proof.Machine

open Sys2Proof

/-- The pseudocode of an operation at the register level, ending in a value. -/
inductive Prog (α : Type) where
  /-- the operation ends -/
  | ret (v : α)
  /-- `RD(a) -> v` -/
  | rd (a : RegAddr) (k : Res Byte → Prog α)
  /-- `WR(a, v)` -/
  | wr (a : RegAddr) (v : Byte) (k : Res Unit → Prog α)
  /-- `WRB(a, bytes)` -/
  | wrb (a : RegAddr) (bytes : List Byte) (k : Res Unit → Prog α)
  /-- `RDB(a, n) -> bytes` -/
  | rdb (a : RegAddr) (n : Nat) (k : Res (List Byte) → Prog α)
  /-- `HOLD(us)` -/
  | hold (us : Nat) (k : Prog α)

namespace Prog

/-- Sequencing. -/
def bind {α β : Type} : Prog α → (α → Prog β) → Prog β
  | .ret v, f => f v
  | .rd a k, f => .rd a fun r => (k r).bind f
  | .wr a v k, f => .wr a v fun r => (k r).bind f
  | .wrb a bytes k, f => .wrb a bytes fun r => (k r).bind f
  | .rdb a n k, f => .rdb a n fun r => (k r).bind f
  | .hold us k, f => .hold us (k.bind f)

/-- `try` (00_scope.md R6): a status other than `STATUS_OK` is raised on at once, unchanged (60_exceptions.md R200). -/
def tryBind {α β : Type} (p : Prog (Res α)) (f : α → Prog (Res β)) : Prog (Res β) :=
  p.bind fun
    | .ok v => f v
    | .err st => .ret (.err st)

/-- `return v` -/
def done {α : Type} (v : α) : Prog (Res α) := .ret (.ok v)

/-- `raise st` -/
def raise {α : Type} (st : Status) : Prog (Res α) := .ret (.err st)

/-- `readRegister(a)` -/
def read (a : RegAddr) : Prog (Res Byte) := .rd a .ret

/-- `writeRegister(a, v)` -/
def write (a : RegAddr) (v : Byte) : Prog (Res Unit) := .wr a v .ret

/-- `writeRegisterBurst(a, bytes)` -/
def writeBurst (a : RegAddr) (bytes : List Byte) : Prog (Res Unit) := .wrb a bytes .ret

/-- The transfer of `readRegisterBurst(a, n, _, _)` -/
def readBurst (a : RegAddr) (n : Nat) : Prog (Res (List Byte)) := .rdb a n .ret

/-- The writes of a list, in order (42_reader_control.md R130). -/
def writeAll : List (RegAddr × Byte) → Prog (Res Unit)
  | [] => done ()
  | (a, v) :: rest => (write a v).tryBind fun _ => writeAll rest

end Prog

/-! ## Line level -/

/-- The operation run on the lines: its result and the bus after. -/
def runLine {α : Type} (c : Config) : Prog α → Bus → α × Bus
  | .ret v, b => (v, b)
  | .rd a k, b => match readRegister c a b with | (r, b1) => runLine c (k r) b1
  | .wr a v k, b => match writeRegister c a v b with | (r, b1) => runLine c (k r) b1
  | .wrb a bytes k, b => match writeRegisterBurst c a bytes b with | (r, b1) => runLine c (k r) b1
  | .rdb a n k, b => match readRegisterBurst c a n b with | (r, b1) => runLine c (k r) b1
  | .hold us k, b => runLine c k (waitUs us b)

/-! ## Register level -/

/-- How a read event ended, as the operation sees it: the value, or `ACK_FAIL_STATUS` (41_register_access.md R116). -/
def readOutcome {α : Type} (c : Config) : Option α → Res α
  | some v => .ok v
  | none => .err (ackFailStatus c)

/-- How a write event ended, as the operation sees it. -/
def writeOutcome (c : Config) (acked : Bool) : Res Unit := if acked then .ok () else .err (ackFailStatus c)

/-- The operation run at the register level against a list of events (oldest first), which stands for the register-level
oracle: it says of each event whether it completes and what is read. The result is the operation's value and the events
left over; `none` where the operation's next event is not the list's next one (another register, another value written,
another count) or the list has ended. -/
def runReg {α : Type} (c : Config) : Prog α → List RegEvent → Option (α × List RegEvent)
  | .ret v, es => some (v, es)
  | .rd a k, es =>
    match es with
    | .rd a' r :: rest => if a' = a then runReg c (k (readOutcome c r)) rest else none
    | _ => none
  | .wr a v k, es =>
    match es with
    | .wr a' v' acked :: rest => if a' = a ∧ v' = v then runReg c (k (writeOutcome c acked)) rest else none
    | _ => none
  | .wrb a bytes k, es =>
    if bytes = [] then runReg c (k (.ok ())) es
    else
      match es with
      | .wrb a' bytes' acked :: rest =>
        if a' = a ∧ bytes' = bytes then runReg c (k (writeOutcome c acked)) rest else none
      | _ => none
  | .rdb a n k, es =>
    if n = 0 then runReg c (k (.ok [])) es
    else
      match es with
      | .rdb a' n' r :: rest =>
        if a' = a ∧ n' = n ∧ (r.all fun bytes => bytes.length == n) then runReg c (k (readOutcome c r)) rest else none
      | _ => none
  | .hold us k, es =>
    match es with
    | .hold us' :: rest => if us' = us then runReg c k rest else none
    | _ => none

end Sys2Proof.Machine
end

