-- ==== Sys2Proof/Machine/Register.lean ====
section
/-! DEFINITION. The meanings of the register operations (41_register_access.md R110 to R115). -/

namespace Sys2Proof.Machine

open Sys2Proof

/-- `setBits(a, m)` (R115): read, then write with the mask's bits set, whatever was read. -/
def setBitsProg (a : RegAddr) (m : Byte) : Prog (Res Unit) :=
  (Prog.read a).tryBind fun v => Prog.write a (setMask v m)

/-- `clearBits(a, m)` (R115): read, then write with the mask's bits cleared, whatever was read. -/
def clearBitsProg (a : RegAddr) (m : Byte) : Prog (Res Unit) :=
  (Prog.read a).tryBind fun v => Prog.write a (clearMask v m)

/-- `writeRegister(a, v)` (R111). -/
def execWriteRegister (a : RegAddr) (v : Byte) (s : State) : Outcome :=
  match runLine s.cfg (Prog.write a v) s.bus with
  | (r, b) => .next (s.finish b (r.answer fun _ => .empty))

/-- `readRegister(a) -> byte` (R110). -/
def execReadRegister (a : RegAddr) (s : State) : Outcome :=
  match runLine s.cfg (Prog.read a) s.bus with
  | (r, b) => .next (s.finish b (r.answer .byte))

/-- `writeRegisterBurst(a, bytes)` (R112). -/
def execWriteRegisterBurst (a : RegAddr) (bytes : List Byte) (s : State) : Outcome :=
  match runLine s.cfg (Prog.writeBurst a bytes) s.bus with
  | (r, b) => .next (s.finish b (r.answer fun _ => .empty))

/-- `readRegisterBurst(a, n, buf, rxAlign)` (R113): on a failure the buffer is untouched. A buffer of fewer than `n`
bytes is refused (log 13). -/
def execReadRegisterBurst (a : RegAddr) (n : Nat) (buf : List Byte) (rxAlign : Bits3) (s : State) : Outcome :=
  if n ≤ buf.length then
    match runLine s.cfg (Prog.readBurst a n) s.bus with
    | (.ok bytes, b) => .next (s.finish b (.status .ok (.buffer (storeBurst rxAlign buf bytes))))
    | (.err st, b) => .next (s.finish b (.status st (.buffer buf)))
  else .refused (.bufferTooShort buf.length n)

/-- `setBits(a, m)` (R115). -/
def execSetBits (a : RegAddr) (m : Byte) (s : State) : Outcome :=
  match runLine s.cfg (setBitsProg a m) s.bus with
  | (r, b) => .next (s.finish b (r.answer fun _ => .empty))

/-- `clearBits(a, m)` (R115). -/
def execClearBits (a : RegAddr) (m : Byte) (s : State) : Outcome :=
  match runLine s.cfg (clearBitsProg a m) s.bus with
  | (r, b) => .next (s.finish b (r.answer fun _ => .empty))

end Sys2Proof.Machine
end

