-- ==== Sys2Proof/Machine/Reader.lean ====
section
/-! DEFINITION. The reader-control operations (42_reader_control.md R130 to R152): their pseudocode as register-level
programs, and their meanings. -/

namespace Sys2Proof.Machine

open Sys2Proof

/-! ## Antenna, reset and initialisation -/

/-- `antennaOn()` (R140). -/
def antennaOnProg (c : Config) : Prog (Res Unit) :=
  (Prog.read c.reg.txControl).tryBind fun v =>
    if antennaIsOn c v then Prog.done () else Prog.write c.reg.txControl (setMask v c.fld.antenna)

/-- `antennaOff()` (R141). -/
def antennaOffProg (c : Config) : Prog (Res Unit) :=
  (Prog.read c.reg.txControl).tryBind fun v =>
    if antennaIsOff c v then Prog.done () else Prog.write c.reg.txControl (clearMask v c.fld.antenna)

/-- The verification loop of `softReset` (R131): at most `n` more waits and reads. -/
def resetPoll (c : Config) : Nat → Prog (Res Unit)
  | 0 => Prog.raise .timeout
  | n + 1 =>
    .hold c.resetWaitUs <|
      (Prog.read c.reg.command).tryBind fun v => if stillPoweredDown c v then resetPoll c n else Prog.done ()

/-- `softReset()` (R131). -/
def softResetProg (c : Config) : Prog (Res Unit) :=
  (Prog.write c.reg.command (commandByte c.cmd.softReset)).tryBind fun _ => resetPoll c c.resetPollMax

/-- The writes of `init` between reset and antenna, in order: timer, modulation, CRC preset (R130). -/
def initWrites (c : Config) : List (RegAddr × Byte) :=
  [(c.reg.tMode, c.timerCfg.mode), (c.reg.tPrescaler, c.timerCfg.prescaler), (c.reg.tReloadH, c.timerCfg.reloadH),
   (c.reg.tReloadL, c.timerCfg.reloadL), (c.reg.txAsk, c.askCfg), (c.reg.mode, c.modeCfg)]

/-- `init()` (R130). -/
def initProg (c : Config) : Prog (Res Unit) :=
  (softResetProg c).tryBind fun _ => (Prog.writeAll (initWrites c)).tryBind fun _ => antennaOnProg c

/-! ## CRC co-processor -/

/-- The poll loop of `calculateCRC` (R143): at most `n` more reads of `DIV_IRQ`, then the two result registers, low byte
first. -/
def pollCrcDone (c : Config) : Nat → Prog (Res (Byte × Byte))
  | 0 => Prog.raise .timeout
  | n + 1 =>
    (Prog.read c.reg.divIrq).tryBind fun v =>
      if crcDone c v then
        (Prog.read c.reg.crcResultL).tryBind fun lo => (Prog.read c.reg.crcResultH).tryBind fun hi => Prog.done (lo, hi)
      else pollCrcDone c n

/-- `calculateCRC(data) -> (lo, hi)` (R143). -/
def calculateCRCProg (c : Config) (data : List Byte) : Prog (Res (Byte × Byte)) :=
  (Prog.write c.reg.command (commandByte c.cmd.idle)).tryBind fun _ =>
  (Prog.write c.reg.divIrq c.fld.crcIrq).tryBind fun _ =>
  (Prog.write c.reg.fifoLevel c.fld.fifoFlush).tryBind fun _ =>
  (Prog.writeBurst c.reg.fifoData data).tryBind fun _ =>
  (Prog.write c.reg.command (commandByte c.cmd.calcCrc)).tryBind fun _ =>
  pollCrcDone c c.crcPollMax

/-! ## The command transceiver -/

/-- What `communicate` stored for its caller: the buffer, `recvLen`, and the valid-bit count read (R145 step 4). -/
structure Reply where
  recv : List Byte
  recvLen : Nat
  lastBits : Bits3
  deriving DecidableEq, Repr

/-- Step 1 of `communicate` (R145), with StartSend set for a Transceive only (R150). -/
def prepareProg (c : Config) (command : CmdCode) (send : List Byte) (lastBits rxAlign : Bits3) : Prog (Res Unit) :=
  (Prog.write c.reg.command (commandByte c.cmd.idle)).tryBind fun _ =>
  (Prog.write c.reg.comIrq c.fld.comIrqClearAll).tryBind fun _ =>
  (Prog.write c.reg.fifoLevel c.fld.fifoFlush).tryBind fun _ =>
  (Prog.writeBurst c.reg.fifoData send).tryBind fun _ =>
  (Prog.write c.reg.bitFraming (bitFraming rxAlign lastBits)).tryBind fun _ =>
  (Prog.write c.reg.command (commandByte command)).tryBind fun _ =>
  if command = c.cmd.transceive then setBitsProg c.reg.bitFraming c.fld.startSend else Prog.done ()

/-- Step 2 of `communicate` (R145): at most `n` more reads of `COM_IRQ`; in each the wait mask is tested before the
timer flag (60_exceptions.md R198). -/
def pollIrq (c : Config) (waitMask : Byte) : Nat → Prog (Res Unit)
  | 0 => Prog.raise .timeout
  | n + 1 =>
    (Prog.read c.reg.comIrq).tryBind fun v =>
      if anyBit v waitMask then Prog.done ()
      else if timerExpired c v then Prog.raise .timeout
      else pollIrq c waitMask n

/-- Step 4 of `communicate` (R145): nothing is read when the caller wants no response (92 D32). -/
def retrieveProg (c : Config) (recv : Option (List Byte)) (rxAlign : Bits3) : Prog (Res (Option Reply)) :=
  match recv with
  | none => Prog.done none
  | some buf =>
    (Prog.read c.reg.fifoLevel).tryBind fun level =>
      if buf.length < level.toNat then Prog.raise .noRoom
      else
        (Prog.readBurst c.reg.fifoData level.toNat).tryBind fun bytes =>
        (Prog.read c.reg.control).tryBind fun ctl =>
        Prog.done (some ⟨storeBurst rxAlign buf bytes, level.toNat, rxLastBits c ctl⟩)

/-- Steps 1 to 4 of `communicate` (R145): the error byte read and the response stored. -/
def exchangeProg (c : Config) (command : CmdCode) (waitMask : Byte) (send : List Byte) (validBits : Option Bits3)
    (recv : Option (List Byte)) (rxAlign : Bits3) : Prog (Res (Byte × Option Reply)) :=
  (prepareProg c command send (txLastBits validBits) rxAlign).tryBind fun _ =>
  (pollIrq c waitMask c.irqPollMax).tryBind fun _ =>
  (Prog.read c.reg.error).tryBind fun err =>
    if fatalError c err then Prog.raise .error
    else (retrieveProg c recv rxAlign).tryBind fun reply => Prog.done (err, reply)

/-- Step 6 of `communicate` (R145): the CRC validation of a response. -/
def checkReplyProg (c : Config) (r : Reply) : Prog (Res Unit) :=
  if r.recvLen = 1 ∧ r.lastBits = 4 then Prog.raise .mifareNack
  else if r.recvLen < 2 ∨ r.lastBits ≠ 0 then Prog.raise .crcWrong
  else
    (calculateCRCProg c (slice r.recv 0 (r.recvLen - 2))).tryBind fun crc =>
      if byteAt r.recv (r.recvLen - 2) ≠ crc.1 ∨ byteAt r.recv (r.recvLen - 1) ≠ crc.2 then Prog.raise .crcWrong
      else Prog.done ()

/-- Steps 5 and 6 of `communicate` (R145): the collision, then the CRC validation when requested. -/
def validateProg (c : Config) (checkCrc : Bool) (err : Byte) (reply : Option Reply) : Prog (Res Unit) :=
  if collided c err then Prog.raise .collision
  else
    match reply with
    | some r => if checkCrc then checkReplyProg c r else Prog.done ()
    | none => Prog.done ()

/-- `communicate(...)` (R145): the status it ends with, and the outputs stored by then, which stay stored when a later
step raises. Before step 4 completes there are none (log 11). -/
def communicateProg (c : Config) (command : CmdCode) (waitMask : Byte) (send : List Byte) (validBits : Option Bits3)
    (recv : Option (List Byte)) (rxAlign : Bits3) (checkCrc : Bool) : Prog (Status × Option Reply) :=
  (exchangeProg c command waitMask send validBits recv rxAlign).bind fun
    | .err st => .ret (st, none)
    | .ok (err, reply) => (validateProg c checkCrc err reply).bind fun r => .ret (r.status, reply)

/-- `transceive(...)` (R147). -/
def transceiveProg (c : Config) (send : List Byte) (validBits : Option Bits3) (recv : Option (List Byte))
    (rxAlign : Bits3) (checkCrc : Bool) : Prog (Status × Option Reply) :=
  communicateProg c c.cmd.transceive c.waitMaskTransceive send validBits recv rxAlign checkCrc

/-- The outputs as the caller has them: `validBits` is written only when the caller supplied it (92 D31). -/
def replyValue (validBits : Option Bits3) : Option Reply → Value
  | none => .empty
  | some r => .response r.recv r.recvLen (validBits.map fun _ => r.lastBits)

/-! ## Meanings -/

/-- `init()` (R130). -/
def execInit (s : State) : Outcome :=
  match runLine s.cfg (initProg s.cfg) s.bus with
  | (r, b) => .next (s.finish b (r.answer fun _ => .empty))

/-- `softReset()` (R131). -/
def execSoftReset (s : State) : Outcome :=
  match runLine s.cfg (softResetProg s.cfg) s.bus with
  | (r, b) => .next (s.finish b (r.answer fun _ => .empty))

/-- `antennaOn()` (R140). -/
def execAntennaOn (s : State) : Outcome :=
  match runLine s.cfg (antennaOnProg s.cfg) s.bus with
  | (r, b) => .next (s.finish b (r.answer fun _ => .empty))

/-- `antennaOff()` (R141). -/
def execAntennaOff (s : State) : Outcome :=
  match runLine s.cfg (antennaOffProg s.cfg) s.bus with
  | (r, b) => .next (s.finish b (r.answer fun _ => .empty))

/-- `calculateCRC(data)` (R143); `data` longer than `FIFO_SIZE` is refused (R146). -/
def execCalculateCRC (data : List Byte) (s : State) : Outcome :=
  if data.length ≤ s.cfg.fifoSize then
    match runLine s.cfg (calculateCRCProg s.cfg data) s.bus with
    | (r, b) => .next (s.finish b (r.answer fun crc => .crc crc.1 crc.2))
  else .refused (.longerThanFifo data.length)

/-- `communicate(...)` (R145); another command than Transceive and Receive, and a `send` longer than `FIFO_SIZE`, are
refused (R146). -/
def execCommunicate (command : CmdCode) (waitMask : Byte) (send : List Byte) (validBits : Option Bits3)
    (recv : Option (List Byte)) (rxAlign : Bits3) (checkCrc : Bool) (s : State) : Outcome :=
  if command = s.cfg.cmd.transceive ∨ command = s.cfg.cmd.receive then
    if send.length ≤ s.cfg.fifoSize then
      match runLine s.cfg (communicateProg s.cfg command waitMask send validBits recv rxAlign checkCrc) s.bus with
      | ((st, reply), b) => .next (s.finish b (.status st (replyValue validBits reply)))
    else .refused (.longerThanFifo send.length)
  else .refused (.commandCode command)

/-- `transceive(...)` (R147). -/
def execTransceive (send : List Byte) (validBits : Option Bits3) (recv : Option (List Byte)) (rxAlign : Bits3)
    (checkCrc : Bool) (s : State) : Outcome :=
  if send.length ≤ s.cfg.fifoSize then
    match runLine s.cfg (transceiveProg s.cfg send validBits recv rxAlign checkCrc) s.bus with
    | ((st, reply), b) => .next (s.finish b (.status st (replyValue validBits reply)))
  else .refused (.longerThanFifo send.length)

end Sys2Proof.Machine
end

