-- ==== Sys2Proof/Machine/Discovery.lean ====
section
/-! DEFINITION. The client layer, card discovery (43_card_discovery.md R160 to R172). -/

namespace Sys2Proof.Machine

open Sys2Proof

/-! ## Polling -/

/-- `reqa_or_wupa(c)` (R160): a 7-bit frame; success is exactly two whole bytes. The answer buffer's two bytes before
the call are zeros; they are never seen (log 20). -/
def requestProg (c : Config) (frame : Byte) : Prog (Res (List Byte)) :=
  (transceiveProg c [frame] (some 7) (some [0, 0]) 0 false).bind fun
    | (.ok, some r) => if r.recvLen ≠ 2 ∨ r.lastBits ≠ 0 then Prog.raise .error else Prog.done r.recv
    | (.ok, none) => Prog.raise .error
    | (st, _) => Prog.raise st

/-- A card is present when the request ends in OK or in a collision (R161, R171). -/
def presentStatus (st : Status) : Bool := st == .ok || st == .collision

/-! ## Select -/

/-- What the anti-collision loop ends with: the command buffer, and `recvLen` and `validBits` of the SAK response. -/
structure LevelReply where
  buf : List Byte
  recvLen : Nat
  lastBits : Bits3
  deriving DecidableEq, Repr

/-- The next frame of the anti-collision loop (R163, R166): a full SELECT, whose CRC the co-processor computes, once all
32 bits are known, an ANTICOLLISION probe before. -/
def nextFrameProg (c : Config) (buf : List Byte) (known : Nat) : Prog (Res SelFrame) :=
  if 32 ≤ known then
    (calculateCRCProg c (slice (selectBuffer buf) 0 7)).tryBind fun crc => Prog.done (selectFrame buf crc.1 crc.2)
  else Prog.done (probeFrame buf known)

/-- The command buffer after a frame's response, which goes to `rIdx` on (R163). -/
def absorbReply (f : SelFrame) : Option Reply → List Byte
  | some r => splice f.buf f.rIdx r.recv
  | none => f.buf

/-- Collision handling (R167): the position read, with its checks. -/
def collisionProg (c : Config) (known : Nat) : Prog (Res Nat) :=
  (Prog.read c.reg.coll).tryBind fun v =>
    if collInvalid c v then Prog.raise .collision
    else if collPosition c v ≤ known then Prog.raise .internalError
    else Prog.done (collPosition c v)

/-- The anti-collision loop of one level (R163, R166, R167). `fuel` bounds the passes; 34 is enough (R166), and running
out, which no oracle can cause, would be an internal invariant violation (log 17). -/
def antiCollision (c : Config) : Nat → List Byte → Nat → Prog (Res LevelReply)
  | 0, _, _ => Prog.raise .internalError
  | fuel + 1, buf, known =>
    (nextFrameProg c buf known).tryBind fun f =>
      (transceiveProg c (slice f.buf 0 f.used) (some f.lastBits) (some (slice f.buf f.rIdx f.rCap)) f.lastBits false).bind
        fun
        | (.collision, reply) =>
          (collisionProg c known).tryBind fun pos =>
            antiCollision c fuel (forceBit (absorbReply f reply) pos) pos
        | (.ok, reply) =>
          if 32 ≤ known then
            Prog.done ⟨absorbReply f reply, (reply.map Reply.recvLen).getD 0, (reply.map Reply.lastBits).getD 0⟩
          else antiCollision c fuel (absorbReply f reply) 32
        | (st, _) => Prog.raise st

/-- The passes of the anti-collision loop a level is given (R166, 70_reset_and_hazards.md R235). -/
def levelPasses : Nat := 34

/-- The checks on a level's SAK response (R168): exactly three whole bytes, and the CRC_A recomputed over the SAK byte,
low byte first. -/
def checkSakProg (c : Config) (r : LevelReply) : Prog (Res Unit) :=
  if r.recvLen ≠ 3 ∨ r.lastBits ≠ 0 then Prog.raise .error
  else
    (calculateCRCProg c [byteAt r.buf 6]).tryBind fun crc =>
      if crc.1 ≠ byteAt r.buf 7 ∨ crc.2 ≠ byteAt r.buf 8 then Prog.raise .crcWrong else Prog.done ()

/-- The cascade levels of `select` from `level` on (R163): `left` levels remain; none left is level 4, which is
`STATUS_INTERNAL_ERROR` (R164). The `Uid` is overwritten level by level, also when a later step raises. -/
def selectLevels (c : Config) (total : Nat) : Nat → Nat → Uid → List Byte → Prog (Uid × Status)
  | 0, _, uid, _ => .ret (uid, .internalError)
  | left + 1, level, uid, buf =>
    match levelSetup level total uid buf with
    | (buf, known) =>
      (antiCollision c levelPasses buf known).bind fun
        | .err st => .ret (uid, st)
        | .ok r =>
          (checkSakProg c r).bind fun
            | .err st => .ret (confirmUid level uid r.buf, st)
            | .ok _ =>
              if sakCascade (byteAt r.buf 6) then
                selectLevels c total left (level + 1) (confirmUid level uid r.buf) r.buf
              else
                .ret ({ confirmUid level uid r.buf with size := uidSize level, sak := byteAt r.buf 6 }, .ok)

/-- The nine-byte command buffer starts as zeros (92 D36). -/
def commandBuffer : List Byte := [0, 0, 0, 0, 0, 0, 0, 0, 0]

/-- `select(uid, knownValidBits)` (R163): more than 80 known bits is `STATUS_INVALID` before any event (R164). -/
def selectProg (c : Config) (uid : Uid) (known : Nat) : Prog (Uid × Status) :=
  if 80 < known then .ret (uid, .invalid) else selectLevels c known 3 1 uid commandBuffer

/-- `discover_uid()` (R171): the request, then `select(uid, 0)`. `none`: the request failed and the record is untouched. -/
def discoverProg (c : Config) (uid : Uid) : Prog (Option Uid × Status) :=
  (requestProg c c.reqa).bind fun r =>
    if presentStatus r.status then (selectProg c uid 0).bind fun p => .ret (some p.1, p.2)
    else .ret (none, r.status)

/-! ## Meanings -/

/-- The state after a `select`: the record as the algorithm left it, meaningful only after `STATUS_OK`
(10_state.md R18, 70_reset_and_hazards.md R238). -/
def State.withUid (s : State) (uid : Uid) (st : Status) : State := { s with uid := uid, uidMeaningful := st == .ok }

/-- `requestA() -> atqa` (R160). -/
def execRequestA (s : State) : Outcome :=
  match runLine s.cfg (requestProg s.cfg s.cfg.reqa) s.bus with
  | (r, b) => .next (s.finish b (r.answer .atqa))

/-- `wakeupA() -> atqa` (R160). -/
def execWakeupA (s : State) : Outcome :=
  match runLine s.cfg (requestProg s.cfg s.cfg.wupa) s.bus with
  | (r, b) => .next (s.finish b (r.answer .atqa))

/-- `isNewCardPresent() -> bool` (R161). -/
def execIsNewCardPresent (s : State) : Outcome :=
  match runLine s.cfg (requestProg s.cfg s.cfg.reqa) s.bus with
  | (r, b) => .next (s.finish b (.flag (presentStatus r.status)))

/-- `select(uid, knownValidBits)` (R163) on the record the caller passes; one without ten bytes is refused (log 13). -/
def execSelect (uid : Uid) (known : Nat) (s : State) : Outcome :=
  if uid.wf then
    match runLine s.cfg (selectProg s.cfg uid known) s.bus with
    | ((uid', st), b) => .next ((s.withUid uid' st).finish b (.status st .empty))
  else .refused (.uidRecord uid.uidByte.length)

/-- `readCardSerial() -> bool` (R170): `select(uid, 0)` on the reader's own record. -/
def execReadCardSerial (s : State) : Outcome :=
  match runLine s.cfg (selectProg s.cfg s.uid 0) s.bus with
  | ((uid', st), b) => .next ((s.withUid uid' st).finish b (.flag (st == .ok)))

/-- `discover_uid() -> Uid` (R171): the caller is handed the record without the bytes beyond its size (10_state.md R18). -/
def execDiscoverUid (s : State) : Outcome :=
  match runLine s.cfg (discoverProg s.cfg s.uid) s.bus with
  | ((none, st), b) => .next (s.finish b (.status st .empty))
  | ((some uid', .ok), b) => .next ((s.withUid uid' .ok).finish b (.status .ok (uidValue uid')))
  | ((some uid', st), b) => .next ((s.withUid uid' st).finish b (.status st .empty))

end Sys2Proof.Machine
end

