-- ==== Sys2Proof/Machine/Primitives.lean ====
section
/-! DEFINITION. The meanings of the seven bus primitives (40_bus_primitives.md R90 to R96). Each is total: whatever the
line state at entry, it performs exactly the actions listed, and none can fail. -/

namespace Sys2Proof.Machine

open Sys2Proof

/-- `start()` (R90). -/
def execStart (s : State) : Outcome := .next (s.finish (start s.cfg s.bus) .done)

/-- `stop()` (R91). -/
def execStop (s : State) : Outcome := .next (s.finish (stop s.cfg s.bus) .done)

/-- `writeByte(b)` (R92). -/
def execWriteByte (v : Byte) (s : State) : Outcome := .next (s.finish (writeByte s.cfg v s.bus) .done)

/-- `readByte() -> byte` (R93). -/
def execReadByte (s : State) : Outcome :=
  match readByte s.cfg s.bus with
  | (v, b) => .next (s.finish b (.byte v))

/-- `masterAck()` (R94). -/
def execMasterAck (s : State) : Outcome := .next (s.finish (masterAck s.cfg s.bus) .done)

/-- `masterNotAck()` (R95). -/
def execMasterNotAck (s : State) : Outcome := .next (s.finish (masterNotAck s.cfg s.bus) .done)

/-- `slaveAck() -> bool` (R96): it reports and does not raise. -/
def execSlaveAck (s : State) : Outcome :=
  match slaveAck s.cfg s.bus with
  | (acked, b) => .next (s.finish b (.flag acked))

end Sys2Proof.Machine
end

