-- ==== Sys2Proof/Machine/Dispatch.lean ====
section
/-! DEFINITION. One arm per operation: its mode-free meaning (60_exceptions.md R205: no privilege). -/

namespace Sys2Proof.Machine

open Sys2Proof

def exec (i : Instr) (s : State) : Host.Outcome State Fault Refusal :=
  match i with
  | .start => Sys2Proof.Machine.execStart s
  | .stop => Sys2Proof.Machine.execStop s
  | .writeByte b => Sys2Proof.Machine.execWriteByte b s
  | .readByte => Sys2Proof.Machine.execReadByte s
  | .masterAck => Sys2Proof.Machine.execMasterAck s
  | .masterNotAck => Sys2Proof.Machine.execMasterNotAck s
  | .slaveAck => Sys2Proof.Machine.execSlaveAck s
  | .writeRegister a v => Sys2Proof.Machine.execWriteRegister a v s
  | .readRegister a => Sys2Proof.Machine.execReadRegister a s
  | .writeRegisterBurst a bytes => Sys2Proof.Machine.execWriteRegisterBurst a bytes s
  | .readRegisterBurst a n buf rxAlign => Sys2Proof.Machine.execReadRegisterBurst a n buf rxAlign s
  | .setBits a m => Sys2Proof.Machine.execSetBits a m s
  | .clearBits a m => Sys2Proof.Machine.execClearBits a m s
  | .init => Sys2Proof.Machine.execInit s
  | .softReset => Sys2Proof.Machine.execSoftReset s
  | .antennaOn => Sys2Proof.Machine.execAntennaOn s
  | .antennaOff => Sys2Proof.Machine.execAntennaOff s
  | .calculateCRC data => Sys2Proof.Machine.execCalculateCRC data s
  | .communicate command waitMask send validBits recv rxAlign checkCrc => Sys2Proof.Machine.execCommunicate command waitMask send validBits recv rxAlign checkCrc s
  | .transceive send validBits recv rxAlign checkCrc => Sys2Proof.Machine.execTransceive send validBits recv rxAlign checkCrc s
  | .requestA => Sys2Proof.Machine.execRequestA s
  | .wakeupA => Sys2Proof.Machine.execWakeupA s
  | .isNewCardPresent => Sys2Proof.Machine.execIsNewCardPresent s
  | .select uid knownValidBits => Sys2Proof.Machine.execSelect uid knownValidBits s
  | .readCardSerial => Sys2Proof.Machine.execReadCardSerial s
  | .discoverUid => Sys2Proof.Machine.execDiscoverUid s

end Sys2Proof.Machine
end

