-- ==== Sys2Proof/Machine/Step.lean ====
section
/-! DEFINITION. One step of the block: it takes the caller's next call and runs it to completion (10_state.md R14,
20_memory.md R52). -/

namespace Sys2Proof.Machine

open Sys2Proof

/-- One step. With no call pending the block is idle and keeps all its state (60_exceptions.md R214). A call record that
is no operation is refused (R203). Otherwise the call is taken off the queue and its operation runs. -/
def step (s : State) : Host.Outcome State Fault Refusal :=
  match s.calls with
  | [] => .next s
  | record :: rest =>
    match decode record with
    | .error why => .refused (.badCall why)
    | .ok i => exec i { s with calls := rest }

/-- A record that is no operation: the call a word the decoder refuses stands for. -/
def noOperation : List Byte := [0xFF]

/-- The state whose next step runs the operation a word of spec/opcode_table.json stands for (log 3): its call record
placed in front of the pending calls. It stands for the caller making that call next (log 2). -/
def State.withFetchWord (s : State) (nbits w : Nat) : State :=
  { s with calls := (match decodeTableWord nbits w with | some i => encode i | none => noOperation) :: s.calls }

end Sys2Proof.Machine
end

