-- ==== Sys2Proof/Machine/Script.lean ====
section
/-! DEFINITION. The register-event sequences of the operations as the REGSEQ and CLIENT rows of spec/opcode_table.json
list them, with the chip's answers as arguments. They are written from the table and the rules, not from the operations'
programs; claims compare the two. The machine itself uses none of it. -/

namespace Sys2Proof.Machine

open Sys2Proof

/-! ## The samples that bring register events about (40_bus_primitives.md R96, R97, 41_register_access.md R116) -/

/-- `n` acknowledge slots, each acknowledged within `ACK_POLL_MAX` samples: some samples of 1, then one of 0 (R96). -/
def AckSlots (c : Config) : Nat → List Level → Prop
  | 0, l => l = []
  | n + 1, l => ∃ j rest, j < c.ackPollMax ∧ l = List.replicate j true ++ (false :: rest) ∧ AckSlots c n rest

/-- One of `slots` acknowledge slots fails: those before it are acknowledged, it has `ACK_POLL_MAX` samples of 1 (R96,
R116). -/
def AckFails (c : Config) (slots : Nat) (l : List Level) : Prop :=
  ∃ k pre, k < slots ∧ AckSlots c k pre ∧ l = pre ++ List.replicate c.ackPollMax true

/-- The samples a slave that brings an event about may give: acknowledge slots of any length within the bound, then the
data bits, most significant first (R97). -/
def EventBrings (c : Config) : RegEvent → List Level → Prop
  | .rd _ (some v), l => ∃ pre, AckSlots c 3 pre ∧ l = pre ++ byteBits v
  | .rd _ none, l => AckFails c 3 l
  | .wr _ _ true, l => AckSlots c 3 l
  | .wr _ _ false, l => AckFails c 3 l
  | .wrb _ bytes true, l => AckSlots c (2 + bytes.length) l
  | .wrb _ bytes false, l => AckFails c (2 + bytes.length) l
  | .rdb _ _ (some bytes), l => ∃ pre, AckSlots c 3 pre ∧ l = pre ++ bytes.flatMap byteBits
  | .rdb _ _ none, l => AckFails c 3 l
  | .hold _, l => l = []

/-- The samples that bring a list of events (oldest first) about, one event after the other. -/
def Brings (c : Config) : List RegEvent → List Level → Prop
  | [], l => l = []
  | e :: es, l => ∃ l1 l2, EventBrings c e l1 ∧ Brings c es l2 ∧ l = l1 ++ l2

/-! ## Event sequences -/

/-- `[WRB(FIFO_DATA, data) if len(data) > 0]` -/
def burstWriteEvents (a : RegAddr) (data : List Byte) : List RegEvent :=
  if data = [] then [] else [.wrb a data true]

/-- `[RDB(FIFO_DATA, level) if level > 0]` -/
def burstReadEvents (a : RegAddr) (bytes : List Byte) : List RegEvent :=
  if bytes = [] then [] else [.rdb a bytes.length (some bytes)]

/-- The caller's buffer after a burst read of `bytes` (20_memory.md R44, 41_register_access.md R113): bits `rxAlign..7` of
the first byte overwritten, its lower bits and the bytes beyond those read as before, every other byte stored whole. -/
def Merged (rxAlign : Bits3) (buf bytes out : List Byte) : Prop :=
  out.length = buf.length ∧
  (∀ old v, buf.head? = some old → bytes.head? = some v →
    out.head? = some ((old &&& ~~~(0xFF#8 <<< rxAlign.toNat)) ||| (v &&& (0xFF#8 <<< rxAlign.toNat)))) ∧
  (∀ j, 0 < j → j < bytes.length → out[j]? = bytes[j]?) ∧
  (∀ j, bytes.length ≤ j → out[j]? = buf[j]?)

/-- A polling loop that reads `misses` in vain and then `hit`. -/
def pollEvents (a : RegAddr) (misses : List Byte) (hit : Byte) : List RegEvent :=
  (misses ++ [hit]).map fun v => .rd a (some v)

/-- The events of `softReset` whose reads of `COMMAND` are `reads` (42_reader_control.md R131). -/
def resetEvents (c : Config) (reads : List Byte) : List RegEvent :=
  .wr c.reg.command (c.cmd.softReset.setWidth 8) true ::
    reads.flatMap fun v => [.hold c.resetWaitUs, .rd c.reg.command (some v)]

/-- The events of `antennaOn` where `TX_CONTROL` reads `v` (42_reader_control.md R140). -/
def antennaOnEvents (c : Config) (v : Byte) : List RegEvent :=
  .rd c.reg.txControl (some v) ::
    (if v &&& c.fld.antenna ≠ c.fld.antenna then [.wr c.reg.txControl (v ||| c.fld.antenna) true] else [])

/-- The events of `antennaOff` where `TX_CONTROL` reads `v` (42_reader_control.md R141). -/
def antennaOffEvents (c : Config) (v : Byte) : List RegEvent :=
  .rd c.reg.txControl (some v) ::
    (if v &&& c.fld.antenna ≠ 0 then [.wr c.reg.txControl (v &&& ~~~c.fld.antenna) true] else [])

/-- The six writes of `init` between the reset and the antenna (42_reader_control.md R130). -/
def initWriteEvents (c : Config) : List RegEvent :=
  [.wr c.reg.tMode c.timerCfg.mode true, .wr c.reg.tPrescaler c.timerCfg.prescaler true,
   .wr c.reg.tReloadH c.timerCfg.reloadH true, .wr c.reg.tReloadL c.timerCfg.reloadL true,
   .wr c.reg.txAsk c.askCfg true, .wr c.reg.mode c.modeCfg true]

/-- The chip's part in one `calculateCRC`: the reads of `DIV_IRQ` before the flag is up, the one that shows it, and the
two result bytes. -/
structure CrcRun where
  misses : List Byte
  hit : Byte
  lo : Byte
  hi : Byte
  deriving DecidableEq, Repr

/-- The five writes with which `calculateCRC` begins (42_reader_control.md R143). -/
def crcStartEvents (c : Config) (data : List Byte) : List RegEvent :=
  [.wr c.reg.command (c.cmd.idle.setWidth 8) true, .wr c.reg.divIrq c.fld.crcIrq true,
   .wr c.reg.fifoLevel c.fld.fifoFlush true] ++ (burstWriteEvents c.reg.fifoData data ++
  [.wr c.reg.command (c.cmd.calcCrc.setWidth 8) true])

/-- `calculateCRC(data)` with its result (R143). -/
def CrcRun.events (x : CrcRun) (c : Config) (data : List Byte) : List RegEvent :=
  crcStartEvents c data ++ (pollEvents c.reg.divIrq x.misses x.hit ++
  [.rd c.reg.crcResultL (some x.lo), .rd c.reg.crcResultH (some x.hi)])

/-- The done flag is up within `CRC_POLL_MAX` reads and not before `hit`. -/
def CrcRun.completes (x : CrcRun) (c : Config) : Prop :=
  x.misses.length < c.crcPollMax ∧ (∀ v ∈ x.misses, v &&& c.fld.crcIrq = 0) ∧ x.hit &&& c.fld.crcIrq ≠ 0

/-- The chip's part in one `communicate`: what `BIT_FRAMING` reads as, the reads of `COM_IRQ` before a wait-mask flag is
up and the one that shows it, the error byte, the response bytes and the `CONTROL` byte. -/
structure Exchange where
  framing : Byte
  misses : List Byte
  hit : Byte
  err : Byte
  bytes : List Byte
  ctl : Byte
  deriving DecidableEq, Repr

/-- The events with which `communicate` begins, StartSend included for a Transceive only (R145, R150). -/
def prepareEvents (c : Config) (command : CmdCode) (send : List Byte) (lastBits rxAlign : Bits3) (framing : Byte) :
    List RegEvent :=
  [.wr c.reg.command (c.cmd.idle.setWidth 8) true, .wr c.reg.comIrq c.fld.comIrqClearAll true,
   .wr c.reg.fifoLevel c.fld.fifoFlush true] ++ (burstWriteEvents c.reg.fifoData send ++
  ([.wr c.reg.bitFraming ((rxAlign.setWidth 8 <<< 4) ||| lastBits.setWidth 8) true,
    .wr c.reg.command (command.setWidth 8) true] ++
   (if command = c.cmd.transceive then
      [.rd c.reg.bitFraming (some framing), .wr c.reg.bitFraming (framing ||| c.fld.startSend) true]
    else [])))

/-- `communicate` up to the read of `ERROR` (R145). -/
def Exchange.waitEvents (x : Exchange) (c : Config) (command : CmdCode) (send : List Byte) (lastBits rxAlign : Bits3) :
    List RegEvent :=
  prepareEvents c command send lastBits rxAlign x.framing ++ (pollEvents c.reg.comIrq x.misses x.hit ++
  [.rd c.reg.error (some x.err)])

/-- `communicate` up to the read of `CONTROL`, a response wanted (R145). -/
def Exchange.events (x : Exchange) (c : Config) (command : CmdCode) (send : List Byte) (lastBits rxAlign : Bits3) :
    List RegEvent :=
  x.waitEvents c command send lastBits rxAlign ++ (.rd c.reg.fifoLevel (some (BitVec.ofNat 8 x.bytes.length)) ::
  (burstReadEvents c.reg.fifoData x.bytes ++ [.rd c.reg.control (some x.ctl)]))

/-- A wait-mask flag is up within `IRQ_POLL_MAX` reads, and no earlier read shows one or the timer flag. -/
def Exchange.waits (x : Exchange) (c : Config) (waitMask : Byte) : Prop :=
  x.misses.length < c.irqPollMax ∧ (∀ v ∈ x.misses, v &&& waitMask = 0 ∧ v &&& c.fld.timerIrq = 0) ∧
    x.hit &&& waitMask ≠ 0

/-- A wait-mask flag is up within `IRQ_POLL_MAX` reads, no earlier read shows one or the timer flag, and no fatal error is
reported. -/
def Exchange.completes (x : Exchange) (c : Config) (waitMask : Byte) : Prop :=
  x.misses.length < c.irqPollMax ∧ (∀ v ∈ x.misses, v &&& waitMask = 0 ∧ v &&& c.fld.timerIrq = 0) ∧
    x.hit &&& waitMask ≠ 0 ∧ x.err &&& c.fld.errFatal = 0

/-- The response fits: the level byte can say its length, and it does not exceed the caller's capacity. -/
def Exchange.fits (x : Exchange) (cap : Nat) : Prop := x.bytes.length < 256 ∧ x.bytes.length ≤ cap

/-- No collision is reported. -/
def Exchange.noCollision (x : Exchange) (c : Config) : Prop := x.err &&& c.fld.errColl = 0

/-- The response ends in a whole byte. -/
def Exchange.wholeBytes (x : Exchange) (c : Config) : Prop := (x.ctl &&& c.fld.rxLastBits).setWidth 3 = (0 : Bits3)

/-- A clean `transceive` of the client layer, answered by `bytes` (R147, R163). -/
def Exchange.answers (x : Exchange) (c : Config) (bytes : List Byte) : Prop :=
  x.completes c c.waitMaskTransceive ∧ x.noCollision c ∧ x.wholeBytes c ∧ x.bytes = bytes

/-- The events of a client-layer `transceive` (R147). -/
def Exchange.transceiveEvents (x : Exchange) (c : Config) (send : List Byte) (lastBits rxAlign : Bits3) : List RegEvent :=
  x.events c c.cmd.transceive send lastBits rxAlign

/-- The four UID-or-CT bytes of one cascade level, and the SAK (30_encoding.md R79). -/
structure LevelCard where
  u0 : Byte
  u1 : Byte
  u2 : Byte
  u3 : Byte
  sak : Byte
  deriving DecidableEq, Repr

/-- BCC, the exclusive or of the four bytes (30_encoding.md R71). -/
def LevelCard.bcc (d : LevelCard) : Byte := d.u0 ^^^ d.u1 ^^^ d.u2 ^^^ d.u3

/-- The first seven bytes of the level's SELECT frame (30_encoding.md R79). -/
def LevelCard.select7 (d : LevelCard) (sel : Byte) : List Byte := [sel, 0x70, d.u0, d.u1, d.u2, d.u3, d.bcc]

/-- The chip's part in one cascade level that one card answers without a collision: the anti-collision probe, the CRC of
the SELECT frame, the SELECT, and the CRC of the SAK (43_card_discovery.md R163, 95 V60). -/
structure LevelRun where
  probe : Exchange
  crc : CrcRun
  select : Exchange
  sakCrc : CrcRun
  deriving DecidableEq, Repr

/-- The events of the level from its SELECT frame on. -/
def LevelRun.selectEvents (x : LevelRun) (c : Config) (sel : Byte) (d : LevelCard) : List RegEvent :=
  x.crc.events c (d.select7 sel) ++
  (x.select.transceiveEvents c (d.select7 sel ++ [x.crc.lo, x.crc.hi]) 0 0 ++ x.sakCrc.events c [d.sak])

/-- The events of the level, no bit known before: `[SEL, 0x20]`, then the SELECT. -/
def LevelRun.events (x : LevelRun) (c : Config) (sel : Byte) (d : LevelCard) : List RegEvent :=
  x.probe.transceiveEvents c [sel, 0x20] 0 0 ++ x.selectEvents c sel d

/-- The card answers the SELECT with its SAK and the CRC of the SAK. -/
def LevelRun.selects (x : LevelRun) (c : Config) (d : LevelCard) : Prop :=
  x.crc.completes c ∧ x.select.answers c [d.sak, x.sakCrc.lo, x.sakCrc.hi] ∧ x.sakCrc.completes c

/-- The card answers the probe with its four bytes and a fifth, and then the SELECT. -/
def LevelRun.resolves (x : LevelRun) (c : Config) (d : LevelCard) (fifth : Byte) : Prop :=
  x.probe.answers c [d.u0, d.u1, d.u2, d.u3, fifth] ∧ x.selects c d

/-! ## Where `select` stands between two frames (43_card_discovery.md R163 to R168) -/

/-- Where the loops of `select` stand before a frame: the record as overwritten so far, the cascade level, the four
UID-or-CT bytes of the level in the command buffer, and how many of their bits are known. -/
structure SelPoint where
  uid : Uid
  level : Nat
  bytes : List Byte
  known : Nat
  deriving DecidableEq, Repr

/-- The cascade tag the reader places itself: some bits known and a record of more than four bytes at level 1, of more
than seven at level 2 (R165). -/
def placedTag (level total size : Nat) : List Byte :=
  if total ≠ 0 ∧ ((level = 1 ∧ 4 < size) ∨ (level = 2 ∧ 7 < size)) then [0x88] else []

/-- Level set-up (R165): the tag, then the record's bytes of the level that `total` known bits reach into, over what the
command buffer held; the tag counts as eight known bits. -/
def SelPoint.enter (total : Nat) (uid : Uid) (level : Nat) (stale : List Byte) : SelPoint :=
  let tag := placedTag level total uid.size
  let bits := total - 24 * (level - 1)
  let front := tag ++ (uid.uidByte.drop (3 * (level - 1))).take (min ((bits + 7) / 8) (4 - tag.length))
  ⟨uid, level, front ++ stale.drop front.length, bits + 8 * tag.length⟩

/-- Where `select(uid, total)` stands before its first frame: level 1, over a buffer of zeros (92 D36). -/
def SelPoint.first (total : Nat) (uid : Uid) : SelPoint := SelPoint.enter total uid 1 [0, 0, 0, 0]

/-- The command byte of the level (30_encoding.md R79). -/
def SelPoint.sel (p : SelPoint) : Byte := if p.level = 1 then 0x93 else if p.level = 2 then 0x95 else 0x97

/-- The level's four bytes as those of a card, with the SAK it answers. -/
def SelPoint.card (p : SelPoint) (sak : Byte) : LevelCard :=
  ⟨p.bytes.getD 0 0, p.bytes.getD 1 0, p.bytes.getD 2 0, p.bytes.getD 3 0, sak⟩

/-- The first seven bytes of the SELECT frame: SEL, 0x70, the four bytes, their BCC (R166). -/
def SelPoint.select7 (p : SelPoint) : List Byte := (p.card 0).select7 p.sel

/-- NVB of a frame with `k` known bits of the level: whole bytes sent, SEL and NVB counted, and extra bits
(30_encoding.md R71). -/
def nvbOf (k : Nat) : Byte := (BitVec.ofNat 8 (2 + k / 8) <<< 4) ||| BitVec.ofNat 8 (k % 8)

/-- The ANTICOLLISION frame: SEL, NVB, the whole known bytes and the partly known one (R166). -/
def SelPoint.probe (p : SelPoint) : List Byte := [p.sel, nvbOf p.known] ++ p.bytes.take ((p.known + 7) / 8)

/-- The next frame: a probe while fewer than 32 bits are known, then the SELECT with its CRC (R166). -/
def SelPoint.send (p : SelPoint) (y : CrcRun) : List Byte :=
  if p.known < 32 then p.probe else p.select7 ++ [y.lo, y.hi]

/-- The valid bits of the frame's last byte, which are also its `rxAlign`. -/
def SelPoint.lastBits (p : SelPoint) : Bits3 := if p.known < 32 then BitVec.ofNat 3 (p.known % 8) else 0

/-- How many response bytes fit behind the bytes sent. -/
def SelPoint.room (p : SelPoint) : Nat := if p.known < 32 then 7 - p.known / 8 else 3

/-- The co-processor's part in the frame: none in a probe. -/
def SelPoint.crcEvents (p : SelPoint) (c : Config) (y : CrcRun) : List RegEvent :=
  if p.known < 32 then [] else y.events c p.select7

/-- The co-processor completes where the frame needs it. -/
def SelPoint.crcReady (p : SelPoint) (c : Config) (y : CrcRun) : Prop := 32 ≤ p.known → y.completes c

/-- The events of the next frame up to the read of `CONTROL`. -/
def SelPoint.frameEvents (p : SelPoint) (c : Config) (y : CrcRun) (x : Exchange) : List RegEvent :=
  p.crcEvents c y ++ x.transceiveEvents c (p.send y) p.lastBits p.lastBits

/-- The events of the next frame up to the read of `ERROR`. -/
def SelPoint.errorEvents (p : SelPoint) (c : Config) (y : CrcRun) (x : Exchange) : List RegEvent :=
  p.crcEvents c y ++ x.waitEvents c c.cmd.transceive (p.send y) p.lastBits p.lastBits

/-- The events of the next frame up to the poll of `COM_IRQ`. -/
def SelPoint.sendEvents (p : SelPoint) (c : Config) (y : CrcRun) (framing : Byte) : List RegEvent :=
  p.crcEvents c y ++ prepareEvents c c.cmd.transceive (p.send y) p.lastBits p.lastBits framing

/-- The events of a probe. -/
def SelPoint.probeEvents (p : SelPoint) (c : Config) (x : Exchange) : List RegEvent :=
  x.transceiveEvents c p.probe (BitVec.ofNat 3 (p.known % 8)) (BitVec.ofNat 3 (p.known % 8))

/-! ### What a response makes of the level -/

/-- Byte `j` (0 to 3) of the level after the response `bytes` to a probe with `known` known bits: the known bytes, the
partly known byte with the received bits above its known ones, then the received bytes; what neither covers is as before
(R163, 20_memory.md R44). -/
def levelByte (level : List Byte) (known : Nat) (bytes : List Byte) (j : Nat) : Byte :=
  let old := level.getD j 0
  if j < known / 8 then old
  else if j = known / 8 then
    match bytes with
    | [] => old
    | v :: _ => (old &&& ~~~(0xFF#8 <<< (known % 8))) ||| (v &&& (0xFF#8 <<< (known % 8)))
  else bytes.getD (j - known / 8) old

/-- The level's bytes after the response `bytes` to the probe. -/
def SelPoint.received (p : SelPoint) (bytes : List Byte) : List Byte :=
  (List.range 4).map fun j => levelByte p.bytes p.known bytes j

/-- The same with bit `pos` of the level, counted from 1, forced to 1 (R167). -/
def SelPoint.forced (p : SelPoint) (bytes : List Byte) (pos : Nat) : List Byte :=
  (List.range 4).map fun j =>
    if j = (pos - 1) / 8 then levelByte p.bytes p.known bytes j ||| (1#8 <<< ((pos - 1) % 8))
    else levelByte p.bytes p.known bytes j

/-- The collision position a read of `COLL` names, the field 0 standing for 32 (R167). -/
def positionOf (c : Config) (v : Byte) : Nat := if v &&& c.fld.collPos = 0 then 32 else (v &&& c.fld.collPos).toNat

/-- The record with the level's bytes copied in, a cascade tag skipped (R168). -/
def SelPoint.confirmed (p : SelPoint) : Uid :=
  let bytes := if p.bytes.head? = some 0x88 then p.bytes.drop 1 else p.bytes
  let at_ := 3 * (p.level - 1)
  { p.uid with uidByte := p.uid.uidByte.take at_ ++ (bytes ++ p.uid.uidByte.drop (at_ + bytes.length)) }

/-- `SelHistory c total p es q`: `select` gets from `p` to `q` by the events `es`: any number of probes answered cleanly or
by a collision it resolves (R166, R167), and of levels completed with the cascade bit set (R168). -/
inductive SelHistory (c : Config) (total : Nat) : SelPoint → List RegEvent → SelPoint → Prop where
  /-- nothing yet -/
  | here (p : SelPoint) : SelHistory c total p [] p
  /-- a probe answered without a collision: all 32 bits are known -/
  | clean {p q : SelPoint} {es : List RegEvent} (x : Exchange) : p.known < 32 → x.completes c c.waitMaskTransceive →
      x.noCollision c → x.fits p.room →
      SelHistory c total { p with bytes := p.received x.bytes, known := 32 } es q →
      SelHistory c total p (p.probeEvents c x ++ es) q
  /-- a probe that collides at a valid position beyond the known bits -/
  | collision {p q : SelPoint} {es : List RegEvent} (x : Exchange) (v : Byte) : p.known < 32 →
      x.completes c c.waitMaskTransceive → x.err &&& c.fld.errColl ≠ 0 → x.fits p.room →
      v &&& c.fld.collPosNotValid = 0 → p.known < positionOf c v → positionOf c v ≤ 32 →
      SelHistory c total { p with bytes := p.forced x.bytes (positionOf c v), known := positionOf c v } es q →
      SelHistory c total p (p.probeEvents c x ++ .rd c.reg.coll (some v) :: es) q
  /-- a SELECT answered by a SAK with the cascade bit: the next level is entered -/
  | cascade {p q : SelPoint} {es : List RegEvent} (x : LevelRun) (sak : Byte) : 32 ≤ p.known → p.level < 3 →
      x.selects c (p.card sak) → sak &&& 0x04 ≠ 0 →
      SelHistory c total (SelPoint.enter total p.confirmed (p.level + 1) p.bytes) es q →
      SelHistory c total p (x.selectEvents c p.sel (p.card sak) ++ es) q

/-- `SelFailure c p st es`: the events `es` after `p` end `select` with the status `st` (R164, R167, R168, R169). -/
inductive SelFailure (c : Config) (p : SelPoint) : Status → List RegEvent → Prop where
  /-- a collision whose position is not valid (R167) -/
  | noPosition (y : CrcRun) (x : Exchange) (v : Byte) : p.crcReady c y → x.completes c c.waitMaskTransceive →
      x.err &&& c.fld.errColl ≠ 0 → x.fits p.room → v &&& c.fld.collPosNotValid ≠ 0 →
      SelFailure c p .collision (p.frameEvents c y x ++ [.rd c.reg.coll (some v)])
  /-- a collision at a position that is not beyond the known bits (R167) -/
  | notBeyond (y : CrcRun) (x : Exchange) (v : Byte) : p.crcReady c y → x.completes c c.waitMaskTransceive →
      x.err &&& c.fld.errColl ≠ 0 → x.fits p.room → v &&& c.fld.collPosNotValid = 0 → positionOf c v ≤ p.known →
      SelFailure c p .internalError (p.frameEvents c y x ++ [.rd c.reg.coll (some v)])
  /-- a SAK response that is not three whole bytes (R168) -/
  | sakShape (y : CrcRun) (x : Exchange) : 32 ≤ p.known → y.completes c → x.completes c c.waitMaskTransceive →
      x.noCollision c → x.fits 3 → ¬(x.bytes.length = 3 ∧ x.wholeBytes c) →
      SelFailure c p .error (p.frameEvents c y x)
  /-- a SAK whose CRC is not the one recomputed (R168) -/
  | sakCrc (y z : CrcRun) (x : Exchange) (sak lo hi : Byte) : 32 ≤ p.known → y.completes c → x.answers c [sak, lo, hi] →
      z.completes c → z.lo ≠ lo ∨ z.hi ≠ hi → SelFailure c p .crcWrong (p.frameEvents c y x ++ z.events c [sak])
  /-- the cascade bit in the SAK of level 3: the level becomes 4 (R164) -/
  | fourthLevel (x : LevelRun) (sak : Byte) : 32 ≤ p.known → p.level = 3 → x.selects c (p.card sak) →
      sak &&& 0x04 ≠ 0 → SelFailure c p .internalError (x.selectEvents c p.sel (p.card sak))
  /-- a fatal error in the error byte, passed up from `transceive` (R169) -/
  | chipError (y : CrcRun) (x : Exchange) : p.crcReady c y → x.waits c c.waitMaskTransceive →
      x.err &&& c.fld.errFatal ≠ 0 → SelFailure c p .error (p.errorEvents c y x)
  /-- a response longer than what is left of the command buffer, passed up from `transceive` (R169) -/
  | noRoom (y : CrcRun) (x : Exchange) (level : Byte) : p.crcReady c y → x.completes c c.waitMaskTransceive →
      p.room < level.toNat → SelFailure c p .noRoom (p.errorEvents c y x ++ [.rd c.reg.fifoLevel (some level)])
  /-- no answer before the chip's timer, passed up from `transceive` (R169) -/
  | timer (y : CrcRun) (framing hit : Byte) (reads : List Byte) : p.crcReady c y →
      (∀ v ∈ reads, v &&& c.waitMaskTransceive = 0 ∧ v &&& c.fld.timerIrq = 0) → reads.length < c.irqPollMax →
      hit &&& c.waitMaskTransceive = 0 → hit &&& c.fld.timerIrq ≠ 0 →
      SelFailure c p .timeout (p.sendEvents c y framing ++ pollEvents c.reg.comIrq reads hit)
  /-- no answer and no timer flag in `IRQ_POLL_MAX` reads, passed up from `transceive` (R169) -/
  | polls (y : CrcRun) (framing : Byte) (reads : List Byte) : p.crcReady c y →
      (∀ v ∈ reads, v &&& c.waitMaskTransceive = 0 ∧ v &&& c.fld.timerIrq = 0) → reads.length = c.irqPollMax →
      SelFailure c p .timeout (p.sendEvents c y framing ++ reads.map fun v => .rd c.reg.comIrq (some v))
  /-- the CRC of the SELECT frame never done, passed up from `calculateCRC` (R169) -/
  | frameCrc (reads : List Byte) : 32 ≤ p.known → (∀ v ∈ reads, v &&& c.fld.crcIrq = 0) → reads.length = c.crcPollMax →
      SelFailure c p .timeout (crcStartEvents c p.select7 ++ reads.map fun v => .rd c.reg.divIrq (some v))
  /-- the CRC of the SAK never done, passed up from `calculateCRC` (R169) -/
  | sakCrcPolls (y : CrcRun) (x : Exchange) (sak lo hi : Byte) (reads : List Byte) : 32 ≤ p.known → y.completes c →
      x.answers c [sak, lo, hi] → (∀ v ∈ reads, v &&& c.fld.crcIrq = 0) → reads.length = c.crcPollMax →
      SelFailure c p .timeout
        (p.frameEvents c y x ++ (crcStartEvents c [sak] ++ reads.map fun v => .rd c.reg.divIrq (some v)))

/-! ## Requests -/

/-- The events of a request frame (43_card_discovery.md R160). -/
def Exchange.requestEvents (x : Exchange) (c : Config) (frame : Byte) : List RegEvent :=
  x.transceiveEvents c [frame] 7 0

end Sys2Proof.Machine
end

