-- ==== Sys2Proof/Machine/Monitor.lean ====
section
/-! DEFINITION. What is seen from outside: the actions and events one operation added to the traces (00_scope.md R7, R8),
their least duration (70_reset_and_hazards.md R241), and what a receiver on the two lines decodes from the actions
(30_encoding.md R60). The block itself uses none of it. -/

namespace Sys2Proof.Machine

open Sys2Proof

/-- The line actions done between two buses, oldest first. -/
def newActions (before after : Bus) : List LineAction :=
  (after.trace.take (after.trace.length - before.trace.length)).reverse

/-- The register events between two buses, oldest first. -/
def newEvents (before after : Bus) : List RegEvent :=
  (after.events.take (after.events.length - before.events.length)).reverse

/-- The least time a line action takes, in microseconds: the hold times are lower bounds (70_reset_and_hazards.md R230). -/
def actionMicros : LineAction → Nat
  | .sclDrive _ => 0
  | .sdaDrive _ => 0
  | .sdaRelease => 0
  | .sdaSample _ => 0
  | .hold us => us

/-- The minimum duration of a line trace (R241). -/
def minMicros (l : List LineAction) : Nat := (l.map actionMicros).sum

/-- A receiver on the lines: the clock level, the data level (1 while released and not pulled down, 10_state.md R13), the
bit of the clock pulse under way, and the symbols so far, newest first. -/
structure Receiver where
  scl : Level
  sda : Level
  pulse : Option Level
  syms : List WireSym
  deriving DecidableEq, Repr

/-- A change of the data level. With the clock at 1 a rise is a stop condition and a fall a start condition, and the
pulse under way is no data bit (30_encoding.md R60). -/
def Receiver.data (r : Receiver) (v : Level) : Receiver :=
  if r.scl = true ∧ r.sda ≠ v then
    { r with sda := v, pulse := none, syms := (if v then .stop else .start) :: r.syms }
  else { r with sda := v }

/-- A change of the clock level. A rise begins a pulse whose bit is the data level; a fall ends it (30_encoding.md R60). -/
def Receiver.clock (r : Receiver) (v : Level) : Receiver :=
  if v then (if r.scl then r else { r with scl := true, pulse := some r.sda })
  else
    { r with
      scl := false
      pulse := none
      syms := match r.pulse with | some b => .bit b :: r.syms | none => r.syms }

/-- What the receiver sees of one line action. A sample tells the level the slave gives the released line in the pulse
under way (DEDUCED, log 23). -/
def Receiver.see (r : Receiver) : LineAction → Receiver
  | .sclDrive v => r.clock v
  | .sdaDrive v => r.data v
  | .sdaRelease => r.data true
  | .sdaSample v => { r with pulse := r.pulse.map fun _ => v }
  | .hold _ => r

/-- The data level of a bus as a receiver sees it. -/
def Bus.dataLevel (b : Bus) : Level :=
  match b.sdaDir with
  | .out => b.sdaLvl
  | .inp => true

/-- A receiver that starts watching at a bus, between pulses. -/
def Receiver.at (b : Bus) : Receiver := { scl := b.scl, sda := b.dataLevel, pulse := none, syms := [] }

/-- The symbols a receiver that starts watching at `b` decodes from line actions. -/
def symbolsFrom (b : Bus) (l : List LineAction) : List WireSym := (l.foldl Receiver.see (Receiver.at b)).syms.reverse

/-- What the first actions of a `start()` look like from an arbitrary line state: a stop condition from clock 1 and data
driven 0, no symbol from any other (70_reset_and_hazards.md R220). -/
def leadSymbols (b : Bus) : List WireSym := if b.scl = true ∧ b.dataLevel = false then [.stop] else []

end Sys2Proof.Machine
end

