-- ==== Sys2Proof/Safety.lean ====
section
/-! DEFINITION. What counts as a safe run, in the terms claims use. -/

namespace Sys2Proof.Machine

open Sys2Proof

/-- A step that goes on: it neither faults nor is refused. -/
def Goes (s : State) : Prop := ∃ t, step s = .next t

/-- The first `n` steps from a state go on. -/
def SafeRun : Nat → State → Prop
  | 0, _ => True
  | n + 1, s => ∃ t, step s = .next t ∧ SafeRun n t

/-- The idle bus (70_reset_and_hazards.md R222): clock 1, data driven 1. -/
def BusIdle (b : Bus) : Prop := b.scl = true ∧ b.sdaDir = .out ∧ b.sdaLvl = true

/-- The clock level a trace (newest first) leaves, `none` when the trace never drove it. -/
def traceScl : List LineAction → Option Level
  | [] => none
  | .sclDrive v :: _ => some v
  | .sdaDrive _ :: rest => traceScl rest
  | .sdaRelease :: rest => traceScl rest
  | .sdaSample _ :: rest => traceScl rest
  | .hold _ :: rest => traceScl rest

/-- The data direction a trace (newest first) leaves, `none` when the trace never set it. -/
def traceDir : List LineAction → Option SdaDir
  | [] => none
  | .sclDrive _ :: rest => traceDir rest
  | .sdaDrive _ :: _ => some .out
  | .sdaRelease :: _ => some .inp
  | .sdaSample _ :: rest => traceDir rest
  | .hold _ :: rest => traceDir rest

/-- The level a trace (newest first) last drove on the data line, `none` when it never drove it. -/
def traceSda : List LineAction → Option Level
  | [] => none
  | .sclDrive _ :: rest => traceSda rest
  | .sdaDrive v :: _ => some v
  | .sdaRelease :: rest => traceSda rest
  | .sdaSample _ :: rest => traceSda rest
  | .hold _ :: rest => traceSda rest

/-- Every sample of a trace (newest first) was taken while the data line was released and the clock was 1
(10_state.md R11, 70_reset_and_hazards.md R231). -/
def SamplesLegal : List LineAction → Prop
  | [] => True
  | .sclDrive _ :: rest => SamplesLegal rest
  | .sdaDrive _ :: rest => SamplesLegal rest
  | .sdaRelease :: rest => SamplesLegal rest
  | .sdaSample _ :: rest => traceDir rest = some .inp ∧ traceScl rest = some true ∧ SamplesLegal rest
  | .hold _ :: rest => SamplesLegal rest

/-- The line state is the one the line trace leaves, wherever the trace has set it (10_state.md R11). -/
def LinesFollowTrace (b : Bus) : Prop :=
  (∀ v, traceScl b.trace = some v → b.scl = v) ∧ (∀ d, traceDir b.trace = some d → b.sdaDir = d) ∧
    (∀ v, traceSda b.trace = some v → b.sdaLvl = v)

/-- The machine invariant: the lines are as the trace left them, no sample was taken from a driven line or with the clock
low, and the `Uid` record has its ten bytes (10_state.md R11, R18). -/
def Inv (s : State) : Prop :=
  LinesFollowTrace s.bus ∧ SamplesLegal s.bus.trace ∧ s.uid.uidByte.length = 10

end Sys2Proof.Machine
end

