-- ==== Sys2Proof/Certificates/Slice0/Obligations.lean ====
section
/-! DEFINITION. The statements for the provers. Each docstring names the rule of spec/ it formalises; where a clause rests on
a decision or an inference of the spec or on a convention of this model, it says so and names the entry. A completion
statement gives the samples that bring a sequence of register events about (`Brings`: acknowledge slots of any length
within the bound) and concludes that `exec` answers the next state written out. -/

open Sys2Proof Sys2Proof.Machine

/-! ## Encodings -/

/-- Call records written out by hand from log 1's coding for every family, and the two example frames of R110 and R111
written out bit by bit from R66 and R67. The call-record coding is the model's choice (log 1). -/
def Obligations.DecodedWords : Prop :=
  decode [0x00] = .ok .start ∧ decode [0x02, 0xA5] = .ok (.writeByte 0xA5) ∧ decode [0x06] = .ok .slaveAck ∧
  decode [0x07, 0x01, 0x0F] = .ok (.writeRegister 0x01 0x0F) ∧ decode [0x08, 0x37] = .ok (.readRegister 0x37) ∧
  decode [0x09, 0x09, 0x00, 0x02, 0x93, 0x20] = .ok (.writeRegisterBurst 0x09 [0x93, 0x20]) ∧
  decode [0x0A, 0x09, 0x00, 0x01, 0x00, 0x02, 0x0B, 0x00, 0x04] = .ok (.readRegisterBurst 0x09 1 [0x0B, 0x00] 4) ∧
  decode [0x0F] = .ok .antennaOn ∧ decode [0x11, 0x00, 0x02, 0x93, 0x20] = .ok (.calculateCRC [0x93, 0x20]) ∧
  decode [0x12, 0x0C, 0x30, 0x00, 0x01, 0x26, 0x07, 0x01, 0x00, 0x02, 0x00, 0x00, 0x00, 0x00] =
    .ok (.communicate 0xC 0x30 [0x26] (some 7) (some [0x00, 0x00]) 0 false) ∧
  decode [0x13, 0x00, 0x01, 0x30, 0xFF, 0x00, 0x02, 0x01] = .ok (.transceive [0x30] none none 2 true) ∧
  decode [0x14] = .ok .requestA ∧ decode [0x19] = .ok .discoverUid ∧ decode [0x08, 0x40] = .error (.registerAddress 0x40) ∧
  decodeFrame (.start :: (([false, true, false, true, false, false, false, false, false,
      false, false, false, false, false, false, false, true, false,
      false, false, false, false, true, true, true, true, false].map .bit) ++ [.stop])) =
    .ok (0x28, .writeRegister 0x01 0x0F) ∧
  decodeFrame (.start :: (([false, true, false, true, false, false, false, false, false,
      false, false, true, true, false, true, true, true, false].map .bit) ++ (.stop :: .start ::
      (([false, true, false, true, false, false, false, true, false,
      true, false, false, true, false, false, true, false, true].map .bit) ++ [.stop])))) =
    .ok (0x28, .readRegister 0x37)

/-- Decoding the record of a well-formed operation gives it back, every operand at every value its type admits
(30_encoding.md R77). The coding is the model's choice (log 1). -/
def Obligations.CallRecordRoundTrip : Prop := ∀ i : Instr, i.wf = true → decode (encode i) = .ok i

/-- Each record that decodes stands for one operation, which is well formed and whose record it is. The coding is the
model's choice (log 1). -/
def Obligations.CallRecordUnique : Prop :=
  ∀ (bytes : List Byte) (i : Instr), decode bytes = .ok i → i.wf = true ∧ encode i = bytes

/-- The frames of 30_encoding.md R66 to R69 decode to their operation, for every bus address, register address and data
(R75). A burst of one byte is the single frame (R68, R69, the spec's decision D12); the caller's buffer and `rxAlign` are
not on the wire (R69), and the decoder's zeros for them are the model's choice (log 3). -/
def Obligations.FrameRoundTrip : Prop :=
  (∀ chip a v, decodeFrame (frameWrite chip a [v]) = .ok (chip, .writeRegister a v)) ∧
  (∀ chip a (data : List Byte), 2 ≤ data.length →
    decodeFrame (frameWrite chip a data) = .ok (chip, .writeRegisterBurst a data)) ∧
  (∀ chip a v, decodeFrame (frameRead chip a [v]) = .ok (chip, .readRegister a)) ∧
  (∀ chip a (data : List Byte), 2 ≤ data.length →
    decodeFrame (frameRead chip a data) =
      .ok (chip, .readRegisterBurst a data.length (List.replicate data.length 0) 0))

/-- 30_encoding.md R66: what a receiver decodes from the line actions of a `writeRegister` that returns OK is the single
write frame: start, the address byte with direction 0, the register address zero-extended, the value, each followed by an
acknowledge slot that reads 0, and stop; 27 clock pulses. The receiver is the model's reading of R60 (log 23: a slot's bit
is its last sample); what the lines show before the start condition is R220's (`leadSymbols`), nothing from an idle
bus. -/
def Obligations.WriteRegisterFrameOnWire : Prop :=
  ∀ (a : RegAddr) (v : Byte) (s t : State), exec (.writeRegister a v) s = .next t →
    t.answer = some (.status .ok .empty) →
    ∃ bits : List Bool, bits.length = 27 ∧
      bits = byteBits (s.cfg.chipAddr.setWidth 8 <<< 1) ++ [false] ++ byteBits (a.setWidth 8) ++ [false] ++
        byteBits v ++ [false] ∧
      symbolsFrom s.bus (newActions s.bus t.bus) = leadSymbols s.bus ++ (.start :: (bits.map .bit ++ [.stop])) ∧
      (BusIdle s.bus → leadSymbols s.bus = [])

/-- 30_encoding.md R67: what a receiver decodes from the line actions of a `readRegister` that returns OK with `v` is the
single read frame: two transactions of 18 clock pulses each, the second ending in the byte read and the master's
not-acknowledge. The receiver is the model's reading of R60 (log 23: a slot's bit is its last sample); what the lines show
before the first start condition is R220's (`leadSymbols`), nothing from an idle bus. -/
def Obligations.ReadRegisterFrameOnWire : Prop :=
  ∀ (a : RegAddr) (v : Byte) (s t : State), exec (.readRegister a) s = .next t →
    t.answer = some (.status .ok (.byte v)) →
    ∃ bits1 bits2 : List Bool, bits1.length = 18 ∧ bits2.length = 18 ∧
      bits1 = byteBits (s.cfg.chipAddr.setWidth 8 <<< 1) ++ [false] ++ byteBits (a.setWidth 8) ++ [false] ∧
      bits2 = byteBits ((s.cfg.chipAddr.setWidth 8 <<< 1) ||| 1) ++ [false] ++ byteBits v ++ [true] ∧
      symbolsFrom s.bus (newActions s.bus t.bus) = leadSymbols s.bus ++
        (.start :: (bits1.map .bit ++ (.stop :: .start :: (bits2.map .bit ++ [.stop])))) ∧
      (BusIdle s.bus → leadSymbols s.bus = [])

/-- 30_encoding.md R68, R69 (the spec's decision D12): a burst that returns OK is on the wire one write frame carrying all
its bytes, or the two transactions of a read with the master's acknowledge after every byte but the last. The receiver is
the model's reading of R60 (log 23: a slot's bit is its last sample); what the lines show before the first start condition
is R220's (`leadSymbols`). -/
def Obligations.BurstFramesOnWire : Prop :=
  (∀ (a : RegAddr) (data : List Byte) (s t : State), data ≠ [] → exec (.writeRegisterBurst a data) s = .next t →
    t.answer = some (.status .ok .empty) →
    symbolsFrom s.bus (newActions s.bus t.bus) = leadSymbols s.bus ++ frameWrite s.cfg.chipAddr a data) ∧
  (∀ (a : RegAddr) (n : Nat) (buf out : List Byte) (r : Bits3) (s t : State), n ≠ 0 →
    exec (.readRegisterBurst a n buf r) s = .next t → t.answer = some (.status .ok (.buffer out)) →
    ∃ bytes : List Byte, bytes.length = n ∧ t.bus.events = .rdb a n (some bytes) :: s.bus.events ∧
      symbolsFrom s.bus (newActions s.bus t.bus) = leadSymbols s.bus ++ frameRead s.cfg.chipAddr a bytes)

/-- 30_encoding.md R70 (derived there; decision D10): a frame whose acknowledge fails ends after that acknowledge slot,
which reads 1, and with `ABORT_STOP` a stop condition follows, else nothing. The receiver is the model's reading of R60
(log 23: a slot's bit is its last sample); what the lines show before the first start condition is R220's
(`leadSymbols`). -/
def Obligations.AbortedFrameOnWire : Prop :=
  (∀ (a : RegAddr) (v : Byte) (s t : State), exec (.writeRegister a v) s = .next t →
    t.answer ≠ some (.status .ok .empty) →
    ∃ pre w post, addrW s.cfg.chipAddr :: regByte a :: [v] = pre ++ w :: post ∧
      symbolsFrom s.bus (newActions s.bus t.bus) = leadSymbols s.bus ++ (.start :: (wireAcked pre ++
        (wireByte w true ++ if s.cfg.abortStop then [.stop] else [])))) ∧
  (∀ (a : RegAddr) (data : List Byte) (s t : State), data ≠ [] → exec (.writeRegisterBurst a data) s = .next t →
    t.answer ≠ some (.status .ok .empty) →
    ∃ pre w post, addrW s.cfg.chipAddr :: regByte a :: data = pre ++ w :: post ∧
      symbolsFrom s.bus (newActions s.bus t.bus) = leadSymbols s.bus ++ (.start :: (wireAcked pre ++
        (wireByte w true ++ if s.cfg.abortStop then [.stop] else [])))) ∧
  (∀ (a : RegAddr) (s t : State) (st : Status) (x : Value), exec (.readRegister a) s = .next t → st ≠ .ok →
    t.answer = some (.status st x) →
    (∃ pre w post, [addrW s.cfg.chipAddr, regByte a] = pre ++ w :: post ∧
      symbolsFrom s.bus (newActions s.bus t.bus) = leadSymbols s.bus ++ (.start :: (wireAcked pre ++
        (wireByte w true ++ if s.cfg.abortStop then [.stop] else [])))) ∨
    symbolsFrom s.bus (newActions s.bus t.bus) = leadSymbols s.bus ++ (frameWrite s.cfg.chipAddr a [] ++ (.start ::
      (wireByte (addrR s.cfg.chipAddr) true ++ if s.cfg.abortStop then [.stop] else [])))) ∧
  (∀ (a : RegAddr) (n : Nat) (buf : List Byte) (r : Bits3) (s t : State) (st : Status) (x : Value), n ≠ 0 →
    exec (.readRegisterBurst a n buf r) s = .next t → st ≠ .ok → t.answer = some (.status st x) →
    (∃ pre w post, [addrW s.cfg.chipAddr, regByte a] = pre ++ w :: post ∧
      symbolsFrom s.bus (newActions s.bus t.bus) = leadSymbols s.bus ++ (.start :: (wireAcked pre ++
        (wireByte w true ++ if s.cfg.abortStop then [.stop] else [])))) ∨
    symbolsFrom s.bus (newActions s.bus t.bus) = leadSymbols s.bus ++ (frameWrite s.cfg.chipAddr a [] ++ (.start ::
      (wireByte (addrR s.cfg.chipAddr) true ++ if s.cfg.abortStop then [.stop] else []))))

/-! ## Bus primitives -/

/-- 40_bus_primitives.md R90, R91 (decisions D4, D5, D2): `start` does `D1 C1 H D0 H C0` and leaves clock 0, data driven 0;
`stop` does `C0 D0 H C1 D1 H` and leaves clock 1, data driven 1; from any line state, and nothing else changes. -/
def Obligations.StartAndStop : Prop :=
  (∀ s : State, exec .start s = .next { s with
    answer := some .done
    bus := { s.bus with
      scl := false, sdaDir := .out, sdaLvl := false
      trace := [.sclDrive false, .hold s.cfg.tHold, .sdaDrive false, .hold s.cfg.tHold, .sclDrive true, .sdaDrive true] ++
        s.bus.trace } }) ∧
  (∀ s : State, exec .stop s = .next { s with
    answer := some .done
    bus := { s.bus with
      scl := true, sdaDir := .out, sdaLvl := true
      trace := [.hold s.cfg.tHold, .sdaDrive true, .sclDrive true, .hold s.cfg.tHold, .sdaDrive false, .sclDrive false] ++
        s.bus.trace } })

/-- 40_bus_primitives.md R92: `writeByte(b)` does `Db[i] C1 H C0 H` for i from 7 down to 0, 40 line actions and 16 holds for
every value, leaves clock 0 and the data line driven at `b[0]`, changes nothing else and cannot fail. -/
def Obligations.WriteByteRule : Prop :=
  ∀ (v : Byte) (s : State), ∃ l : List LineAction,
    l = [7, 6, 5, 4, 3, 2, 1, 0].flatMap (fun i => [LineAction.sdaDrive (v.getLsbD i), .sclDrive true, .hold s.cfg.tHold,
      .sclDrive false, .hold s.cfg.tHold]) ∧
    l.length = 40 ∧ minMicros l = 16 * s.cfg.tHold ∧
    exec (.writeByte v) s = .next { s with
      answer := some .done
      bus := { s.bus with scl := false, sdaDir := .out, sdaLvl := v.getLsbD 0, trace := l.reverse ++ s.bus.trace } }

/-- 40_bus_primitives.md R93 (decision D6): `readByte` releases the data line once and takes eight samples, the first
becoming bit 7, with the clock low and high holds before and the hold after each; it leaves clock 1 and data released. An
exhausted oracle reads 1 (log 4). -/
def Obligations.ReadByteRule : Prop :=
  ∀ s : State, ∃ (v : Byte) (bits : List Level),
    bits = (s.bus.samples ++ List.replicate 8 true).take 8 ∧
    [v.getLsbD 7, v.getLsbD 6, v.getLsbD 5, v.getLsbD 4, v.getLsbD 3, v.getLsbD 2, v.getLsbD 1, v.getLsbD 0] = bits ∧
    exec .readByte s = .next { s with
      answer := some (.byte v)
      bus := { s.bus with
        scl := true, sdaDir := .inp, samples := s.bus.samples.drop 8
        trace := (LineAction.sdaRelease :: bits.flatMap fun x => [.sclDrive false, .hold s.cfg.tRdLow, .sclDrive true,
          .hold s.cfg.tRdHigh, .sdaSample x, .hold s.cfg.tHold]).reverse ++ s.bus.trace } }

/-- 40_bus_primitives.md R94, R95 (decision D7): `C0 D0 C1 H C0 H` and `C0 D1 C1 H C0 H`; clock 0 and data driven 0 or 1
after. -/
def Obligations.MasterAckRules : Prop :=
  (∀ s : State, exec .masterAck s = .next { s with
    answer := some .done
    bus := { s.bus with
      scl := false, sdaDir := .out, sdaLvl := false
      trace := [.hold s.cfg.tHold, .sclDrive false, .hold s.cfg.tHold, .sclDrive true, .sdaDrive false, .sclDrive false] ++
        s.bus.trace } }) ∧
  (∀ s : State, exec .masterNotAck s = .next { s with
    answer := some .done
    bus := { s.bus with
      scl := false, sdaDir := .out, sdaLvl := true
      trace := [.hold s.cfg.tHold, .sclDrive false, .hold s.cfg.tHold, .sclDrive true, .sdaDrive true, .sclDrive false] ++
        s.bus.trace } })

/-- 40_bus_primitives.md R96 (decision D8): a slot whose sample `j + 1` is the first 0, within `ACK_POLL_MAX`, is
acknowledged after `j` holds; one of `ACK_POLL_MAX` samples of 1 is not, each followed by a hold. Clock 0 and data released
after, on both outcomes; it does not raise. -/
def Obligations.SlaveAckRule : Prop :=
  (∀ (s : State) (j : Nat) (rest : List Level), j < s.cfg.ackPollMax →
    s.bus.samples = List.replicate j true ++ (false :: rest) →
    exec .slaveAck s = .next { s with
      answer := some (.flag true)
      bus := { s.bus with
        scl := false, sdaDir := .inp, samples := rest
        trace := ([LineAction.sdaRelease, .sclDrive true] ++ (List.replicate j [LineAction.sdaSample true, .hold s.cfg.tAckPoll]).flatten ++
          [LineAction.sdaSample false, .sclDrive false]).reverse ++ s.bus.trace } }) ∧
  (∀ (s : State) (rest : List Level), s.bus.samples = List.replicate s.cfg.ackPollMax true ++ rest →
    exec .slaveAck s = .next { s with
      answer := some (.flag false)
      bus := { s.bus with
        scl := false, sdaDir := .inp, samples := rest
        trace := ([LineAction.sdaRelease, .sclDrive true] ++
          (List.replicate s.cfg.ackPollMax [LineAction.sdaSample true, .hold s.cfg.tAckPoll]).flatten ++
          [LineAction.sclDrive false]).reverse ++ s.bus.trace } })

/-- 40_bus_primitives.md R99 (derived there): the data levels a responder decodes at the clock pulses of `writeByte(b)`,
presented in order as the samples of a `readByte`, give `b`. The responder is the model's reading of R60 (log 23). -/
def Obligations.ReadInvertsWrite : Prop :=
  ∀ (b : Byte) (s t u : State) (levels : List Level), s.bus.scl = false → exec (.writeByte b) s = .next t →
    symbolsFrom s.bus (newActions s.bus t.bus) = levels.map .bit →
    ∀ rest, u.bus.samples = levels ++ rest →
      ∃ bus, exec .readByte u = .next { u with bus := bus, answer := some (.byte b) } ∧ bus.samples = rest

/-! ## Register operations -/

/-- 41_register_access.md R111, 10_state.md R16: `writeRegister(a, v)` whose three slots are acknowledged returns OK, is one
event `WR(a, v)` and leaves the bus idle; nothing but the lines, the traces and the answer changes. -/
def Obligations.WriteRegisterCompletes : Prop :=
  ∀ (a : RegAddr) (v : Byte) (s : State) (l rest : List Level), Brings s.cfg [.wr a v true] l →
    s.bus.samples = l ++ rest →
    ∃ b, exec (.writeRegister a v) s = .next { s with bus := b, answer := some (.status .ok .empty) } ∧
      b.samples = rest ∧ b.events = .wr a v true :: s.bus.events ∧ BusIdle b

/-- 41_register_access.md R110: `readRegister(a)` whose three slots are acknowledged returns OK with the byte whose bits the
slave supplies, is one event `RD(a) -> v` and leaves the bus idle. -/
def Obligations.ReadRegisterCompletes : Prop :=
  ∀ (a : RegAddr) (v : Byte) (s : State) (l rest : List Level), Brings s.cfg [.rd a (some v)] l →
    s.bus.samples = l ++ rest →
    ∃ b, exec (.readRegister a) s = .next { s with bus := b, answer := some (.status .ok (.byte v)) } ∧
      b.samples = rest ∧ b.events = .rd a (some v) :: s.bus.events ∧ BusIdle b

/-- 41_register_access.md R112 (decisions D12, D13): a burst write of at least one byte is one event `WRB(a, bytes)`; an
empty one returns OK with no line action at all. -/
def Obligations.WriteBurstCompletes : Prop :=
  (∀ (a : RegAddr) (bytes : List Byte) (s : State) (l rest : List Level), bytes ≠ [] →
    Brings s.cfg [.wrb a bytes true] l → s.bus.samples = l ++ rest →
    ∃ b, exec (.writeRegisterBurst a bytes) s = .next { s with bus := b, answer := some (.status .ok .empty) } ∧
      b.samples = rest ∧ b.events = .wrb a bytes true :: s.bus.events ∧ BusIdle b) ∧
  (∀ (a : RegAddr) (s : State),
    exec (.writeRegisterBurst a []) s = .next { s with answer := some (.status .ok .empty) })

/-- 41_register_access.md R113, 20_memory.md R44 (decisions D12, D13, D14): a burst read of `n` bytes into a buffer of at
least `n` is one event `RDB(a, n)`; only bits `rxAlign..7` of the first byte overwrite the buffer, the other bytes are
stored whole, the buffer beyond is untouched; `n = 0` does nothing. -/
def Obligations.ReadBurstCompletes : Prop :=
  (∀ (a : RegAddr) (bytes buf : List Byte) (r : Bits3) (s : State) (l rest : List Level), bytes ≠ [] →
    bytes.length ≤ buf.length → Brings s.cfg [.rdb a bytes.length (some bytes)] l → s.bus.samples = l ++ rest →
    ∃ b out, exec (.readRegisterBurst a bytes.length buf r) s =
        .next { s with bus := b, answer := some (.status .ok (.buffer out)) } ∧ Merged r buf bytes out ∧
      b.samples = rest ∧ b.events = .rdb a bytes.length (some bytes) :: s.bus.events ∧ BusIdle b) ∧
  (∀ (a : RegAddr) (buf : List Byte) (r : Bits3) (s : State),
    exec (.readRegisterBurst a 0 buf r) s = .next { s with answer := some (.status .ok (.buffer buf)) })

/-- 41_register_access.md R114, 60_exceptions.md R192, R200 (decisions D9, D10): a register operation one of whose slots
fails ends with `ACK_FAIL_STATUS`, the caller's buffer untouched; with `ABORT_STOP` the bus is idle, else clock 0 and data
released. -/
def Obligations.MissingAcknowledge : Prop :=
  ∀ (s : State) (l rest : List Level), s.bus.samples = l ++ rest →
    (∀ (a : RegAddr) (v : Byte), Brings s.cfg [.wr a v false] l →
      ∃ b, exec (.writeRegister a v) s = .next { s with
          bus := b, answer := some (.status (if s.cfg.ackFail = .error then .error else .timeout) .empty) } ∧
        b.samples = rest ∧ b.events = .wr a v false :: s.bus.events ∧
        (if s.cfg.abortStop then BusIdle b else b.scl = false ∧ b.sdaDir = .inp)) ∧
    (∀ (a : RegAddr), Brings s.cfg [.rd a none] l →
      ∃ b, exec (.readRegister a) s = .next { s with
          bus := b, answer := some (.status (if s.cfg.ackFail = .error then .error else .timeout) .empty) } ∧
        b.samples = rest ∧ b.events = .rd a none :: s.bus.events ∧
        (if s.cfg.abortStop then BusIdle b else b.scl = false ∧ b.sdaDir = .inp)) ∧
    (∀ (a : RegAddr) (bytes : List Byte), bytes ≠ [] → Brings s.cfg [.wrb a bytes false] l →
      ∃ b, exec (.writeRegisterBurst a bytes) s = .next { s with
          bus := b, answer := some (.status (if s.cfg.ackFail = .error then .error else .timeout) .empty) } ∧
        b.samples = rest ∧ b.events = .wrb a bytes false :: s.bus.events ∧
        (if s.cfg.abortStop then BusIdle b else b.scl = false ∧ b.sdaDir = .inp)) ∧
    (∀ (a : RegAddr) (n : Nat) (buf : List Byte) (r : Bits3), n ≠ 0 → n ≤ buf.length → Brings s.cfg [.rdb a n none] l →
      ∃ b, exec (.readRegisterBurst a n buf r) s = .next { s with
          bus := b, answer := some (.status (if s.cfg.ackFail = .error then .error else .timeout) (.buffer buf)) } ∧
        b.samples = rest ∧ b.events = .rdb a n none :: s.bus.events ∧
        (if s.cfg.abortStop then BusIdle b else b.scl = false ∧ b.sdaDir = .inp))

/-- 41_register_access.md R115 (derived there; decision D34): `setBits` writes back the value read with the mask's bits
set, `clearBits` with them cleared, whatever was read. -/
def Obligations.ReadModifyWrite : Prop :=
  ∀ (a : RegAddr) (m v : Byte) (s : State) (l rest : List Level), s.bus.samples = l ++ rest →
    (Brings s.cfg [.rd a (some v), .wr a (v ||| m) true] l →
      ∃ b, exec (.setBits a m) s = .next { s with bus := b, answer := some (.status .ok .empty) } ∧ b.samples = rest ∧
        b.events = .wr a (v ||| m) true :: .rd a (some v) :: s.bus.events) ∧
    (Brings s.cfg [.rd a (some v), .wr a (v &&& ~~~m) true] l →
      ∃ b, exec (.clearBits a m) s = .next { s with bus := b, answer := some (.status .ok .empty) } ∧ b.samples = rest ∧
        b.events = .wr a (v &&& ~~~m) true :: .rd a (some v) :: s.bus.events)

/-! ## Reader control -/

/-- 42_reader_control.md R140: `antennaOn` reads `TX_CONTROL` and, unless both driver bits are 1, writes it back with them
set and every other bit as read; its status is OK or `ACK_FAIL_STATUS`. -/
def Obligations.AntennaOnRule : Prop :=
  (∀ (v : Byte) (s : State) (l rest : List Level), Brings s.cfg (antennaOnEvents s.cfg v) l → s.bus.samples = l ++ rest →
    ∃ b, exec .antennaOn s = .next { s with bus := b, answer := some (.status .ok .empty) } ∧ b.samples = rest ∧
      b.events = (antennaOnEvents s.cfg v).reverse ++ s.bus.events) ∧
  (∀ s t : State, exec .antennaOn s = .next t → t.answer = some (.status .ok .empty) ∨
    t.answer = some (.status (if s.cfg.ackFail = .error then .error else .timeout) .empty))

/-- 42_reader_control.md R141: `antennaOff` reads `TX_CONTROL` and, unless both driver bits are 0, writes it back with them
cleared and every other bit as read; its status is OK or `ACK_FAIL_STATUS`. -/
def Obligations.AntennaOffRule : Prop :=
  (∀ (v : Byte) (s : State) (l rest : List Level), Brings s.cfg (antennaOffEvents s.cfg v) l → s.bus.samples = l ++ rest →
    ∃ b, exec .antennaOff s = .next { s with bus := b, answer := some (.status .ok .empty) } ∧ b.samples = rest ∧
      b.events = (antennaOffEvents s.cfg v).reverse ++ s.bus.events) ∧
  (∀ s t : State, exec .antennaOff s = .next t → t.answer = some (.status .ok .empty) ∨
    t.answer = some (.status (if s.cfg.ackFail = .error then .error else .timeout) .empty))

/-- 42_reader_control.md R131 (decision D17): `softReset` writes the soft-reset code, then waits and reads until the
power-down bit is 0, at most `RESET_POLL_MAX` times. -/
def Obligations.SoftResetCompletes : Prop :=
  ∀ (misses : List Byte) (last : Byte) (s : State) (l rest : List Level), misses.length < s.cfg.resetPollMax →
    (∀ v ∈ misses, v &&& s.cfg.fld.powerDown ≠ 0) → last &&& s.cfg.fld.powerDown = 0 →
    Brings s.cfg (resetEvents s.cfg (misses ++ [last])) l → s.bus.samples = l ++ rest →
    ∃ b, exec .softReset s = .next { s with bus := b, answer := some (.status .ok .empty) } ∧ b.samples = rest ∧
      b.events = (resetEvents s.cfg (misses ++ [last])).reverse ++ s.bus.events

/-- 42_reader_control.md R130 (decision D18): `init` is the soft reset, the four timer bytes, the modulation byte, the mode
byte and `antennaOn`, in that order, each register written whole. -/
def Obligations.InitCompletes : Prop :=
  ∀ (misses : List Byte) (last v : Byte) (s : State) (l rest : List Level), misses.length < s.cfg.resetPollMax →
    (∀ w ∈ misses, w &&& s.cfg.fld.powerDown ≠ 0) → last &&& s.cfg.fld.powerDown = 0 →
    Brings s.cfg (resetEvents s.cfg (misses ++ [last]) ++ initWriteEvents s.cfg ++ antennaOnEvents s.cfg v) l →
    s.bus.samples = l ++ rest →
    ∃ b, exec .init s = .next { s with bus := b, answer := some (.status .ok .empty) } ∧ b.samples = rest ∧
      b.events = (resetEvents s.cfg (misses ++ [last]) ++ initWriteEvents s.cfg ++ antennaOnEvents s.cfg v).reverse ++
        s.bus.events

/-- 42_reader_control.md R143 (decision D22): `calculateCRC` stops the running command, clears the CRC-done flag, flushes and
refills the FIFO, starts the co-processor, polls `DIV_IRQ` and returns the two result registers, low byte first. -/
def Obligations.CalculateCRCCompletes : Prop :=
  ∀ (data : List Byte) (x : CrcRun) (s : State) (l rest : List Level), data.length ≤ s.cfg.fifoSize →
    x.completes s.cfg → Brings s.cfg (x.events s.cfg data) l → s.bus.samples = l ++ rest →
    ∃ b, exec (.calculateCRC data) s = .next { s with bus := b, answer := some (.status .ok (.crc x.lo x.hi)) } ∧
      b.samples = rest ∧ b.events = (x.events s.cfg data).reverse ++ s.bus.events

/-- 42_reader_control.md R145, R147, R150 (decisions D19, D31 to D34): a `communicate` with either command, and a
`transceive`, that the chip answers without error or collision, no CRC requested, returns OK: without a response buffer
after the read of `ERROR`; with one, with the response merged into it, its length and, when the caller supplied
`validBits`, the valid-bit count read from `CONTROL`. -/
def Obligations.CommunicateCompletes : Prop :=
  ∀ (command : CmdCode) (mask : Byte) (send : List Byte) (valid : Option Bits3) (r : Bits3) (crc : Bool) (x : Exchange)
    (s : State) (l rest : List Level), send.length ≤ s.cfg.fifoSize → s.bus.samples = l ++ rest → x.noCollision s.cfg →
    (command = s.cfg.cmd.transceive ∨ command = s.cfg.cmd.receive → x.completes s.cfg mask →
      Brings s.cfg (x.waitEvents s.cfg command send (valid.getD 0) r) l →
      ∃ b, exec (.communicate command mask send valid none r crc) s =
          .next { s with bus := b, answer := some (.status .ok .empty) } ∧
        b.samples = rest ∧ b.events = (x.waitEvents s.cfg command send (valid.getD 0) r).reverse ++ s.bus.events) ∧
    (∀ buf : List Byte, command = s.cfg.cmd.transceive ∨ command = s.cfg.cmd.receive → x.completes s.cfg mask →
      x.fits buf.length → Brings s.cfg (x.events s.cfg command send (valid.getD 0) r) l →
      ∃ b out, exec (.communicate command mask send valid (some buf) r false) s = .next { s with
          bus := b
          answer := some (.status .ok (.response out x.bytes.length
            (valid.map fun _ => (x.ctl &&& s.cfg.fld.rxLastBits).setWidth 3))) } ∧
        Merged r buf x.bytes out ∧ b.samples = rest ∧
        b.events = (x.events s.cfg command send (valid.getD 0) r).reverse ++ s.bus.events) ∧
    (∀ buf : List Byte, x.completes s.cfg s.cfg.waitMaskTransceive → x.fits buf.length →
      Brings s.cfg (x.events s.cfg s.cfg.cmd.transceive send (valid.getD 0) r) l →
      ∃ b out, exec (.transceive send valid (some buf) r false) s = .next { s with
          bus := b
          answer := some (.status .ok (.response out x.bytes.length
            (valid.map fun _ => (x.ctl &&& s.cfg.fld.rxLastBits).setWidth 3))) } ∧
        Merged r buf x.bytes out ∧ b.samples = rest ∧
        b.events = (x.events s.cfg s.cfg.cmd.transceive send (valid.getD 0) r).reverse ++ s.bus.events)

/-- 42_reader_control.md R145 step 6: with `checkCrc` a response of at least two whole bytes is checked by a second
`calculateCRC` over all but its last two bytes, and returns OK when the co-processor's two bytes are those two. -/
def Obligations.CommunicateChecksCrc : Prop :=
  ∀ (command : CmdCode) (mask : Byte) (send buf out : List Byte) (valid : Option Bits3) (r : Bits3) (x : Exchange)
    (y : CrcRun) (s : State) (l rest : List Level), send.length ≤ s.cfg.fifoSize →
    command = s.cfg.cmd.transceive ∨ command = s.cfg.cmd.receive → x.completes s.cfg mask → x.noCollision s.cfg →
    x.wholeBytes s.cfg → x.fits buf.length → 2 ≤ x.bytes.length → Merged r buf x.bytes out → y.completes s.cfg →
    out[x.bytes.length - 2]? = some y.lo → out[x.bytes.length - 1]? = some y.hi →
    Brings s.cfg (x.events s.cfg command send (valid.getD 0) r ++ y.events s.cfg (out.take (x.bytes.length - 2))) l →
    s.bus.samples = l ++ rest →
    ∃ b, exec (.communicate command mask send valid (some buf) r true) s = .next { s with
        bus := b, answer := some (.status .ok (.response out x.bytes.length (valid.map fun _ => 0))) } ∧
      b.samples = rest ∧
      b.events = (x.events s.cfg command send (valid.getD 0) r ++
        y.events s.cfg (out.take (x.bytes.length - 2))).reverse ++ s.bus.events

/-- 60_exceptions.md R194, 42_reader_control.md R145: the statuses `communicate` derives from what it reads, each with its
cause: `STATUS_ERROR` from the error byte, `STATUS_NO_ROOM` from the level, `STATUS_MIFARE_NACK` from one byte of four bits,
`STATUS_CRC_WRONG` from a response too short or not byte-aligned, or from a CRC mismatch. The last two leave the response
stored (R145, 20_memory.md R44, decision D14) and `validBits` when the caller supplied it (decision D31); that the first two
hand over no response is the model's reading (log 11). -/
def Obligations.CommunicateStatusCauses : Prop :=
  ∀ (command : CmdCode) (mask : Byte) (send : List Byte) (valid : Option Bits3) (r : Bits3) (x : Exchange) (s : State)
    (l rest : List Level), send.length ≤ s.cfg.fifoSize →
    command = s.cfg.cmd.transceive ∨ command = s.cfg.cmd.receive → s.bus.samples = l ++ rest →
    (∀ (recv : Option (List Byte)) (crc : Bool), x.waits s.cfg mask → x.err &&& s.cfg.fld.errFatal ≠ 0 →
      Brings s.cfg (x.waitEvents s.cfg command send (valid.getD 0) r) l →
      ∃ b, exec (.communicate command mask send valid recv r crc) s =
        .next { s with bus := b, answer := some (.status .error .empty) } ∧ b.samples = rest) ∧
    (∀ (buf : List Byte) (crc : Bool) (level : Byte), x.completes s.cfg mask → buf.length < level.toNat →
      Brings s.cfg (x.waitEvents s.cfg command send (valid.getD 0) r ++ [.rd s.cfg.reg.fifoLevel (some level)]) l →
      ∃ b, exec (.communicate command mask send valid (some buf) r crc) s =
        .next { s with bus := b, answer := some (.status .noRoom .empty) } ∧ b.samples = rest) ∧
    (∀ buf : List Byte, x.completes s.cfg mask → x.noCollision s.cfg → x.fits buf.length →
      Brings s.cfg (x.events s.cfg command send (valid.getD 0) r) l →
      x.bytes.length < 2 ∨ (x.ctl &&& s.cfg.fld.rxLastBits).setWidth 3 ≠ (0 : Bits3) →
      ∃ b out, exec (.communicate command mask send valid (some buf) r true) s = .next { s with
          bus := b
          answer := some (.status
            (if x.bytes.length = 1 ∧ (x.ctl &&& s.cfg.fld.rxLastBits).setWidth 3 = (4 : Bits3) then .mifareNack
             else .crcWrong)
            (.response out x.bytes.length (valid.map fun _ => (x.ctl &&& s.cfg.fld.rxLastBits).setWidth 3))) } ∧
        Merged r buf x.bytes out ∧ b.samples = rest) ∧
    (∀ (buf out : List Byte) (y : CrcRun), x.completes s.cfg mask → x.noCollision s.cfg → x.wholeBytes s.cfg →
      x.fits buf.length → 2 ≤ x.bytes.length → Merged r buf x.bytes out → y.completes s.cfg →
      out[x.bytes.length - 2]? ≠ some y.lo ∨ out[x.bytes.length - 1]? ≠ some y.hi →
      Brings s.cfg (x.events s.cfg command send (valid.getD 0) r ++ y.events s.cfg (out.take (x.bytes.length - 2))) l →
      ∃ b, exec (.communicate command mask send valid (some buf) r true) s = .next { s with
          bus := b, answer := some (.status .crcWrong (.response out x.bytes.length (valid.map fun _ => 0))) } ∧
        b.samples = rest)

/-- 60_exceptions.md R195, 42_reader_control.md R145 step 5 (decisions D21, D31, D32): with no fatal error and the collision
bit set the status is `STATUS_COLLISION`: with a response buffer it is raised after the response has been read out and before
any CRC check; without one, right after the read of `ERROR`. -/
def Obligations.CollisionKeepsResponse : Prop :=
  ∀ (command : CmdCode) (mask : Byte) (send : List Byte) (valid : Option Bits3) (r : Bits3) (crc : Bool)
    (x : Exchange) (s : State) (l rest : List Level), send.length ≤ s.cfg.fifoSize →
    command = s.cfg.cmd.transceive ∨ command = s.cfg.cmd.receive → x.completes s.cfg mask →
    x.err &&& s.cfg.fld.errColl ≠ 0 → s.bus.samples = l ++ rest →
    (∀ buf : List Byte, x.fits buf.length → Brings s.cfg (x.events s.cfg command send (valid.getD 0) r) l →
      ∃ b out, exec (.communicate command mask send valid (some buf) r crc) s = .next { s with
          bus := b
          answer := some (.status .collision (.response out x.bytes.length
            (valid.map fun _ => (x.ctl &&& s.cfg.fld.rxLastBits).setWidth 3))) } ∧
        Merged r buf x.bytes out ∧ b.samples = rest ∧
        b.events = (x.events s.cfg command send (valid.getD 0) r).reverse ++ s.bus.events) ∧
    (Brings s.cfg (x.waitEvents s.cfg command send (valid.getD 0) r) l →
      ∃ b, exec (.communicate command mask send valid none r crc) s = .next { s with
          bus := b, answer := some (.status .collision .empty) } ∧ b.samples = rest ∧
        b.events = (x.waitEvents s.cfg command send (valid.getD 0) r).reverse ++ s.bus.events)

/-- 60_exceptions.md R193: every cause of `STATUS_TIMEOUT`: all `RESET_POLL_MAX` reads show the power-down bit; all
`CRC_POLL_MAX` reads show the CRC-done bit 0; a read of `COM_IRQ` shows no wait-mask flag and the timer flag; all
`IRQ_POLL_MAX` reads show neither. -/
def Obligations.TimeoutCauses : Prop :=
  ∀ (reads : List Byte) (s : State) (l rest : List Level), s.bus.samples = l ++ rest →
    (reads.length = s.cfg.resetPollMax → (∀ v ∈ reads, v &&& s.cfg.fld.powerDown ≠ 0) →
      Brings s.cfg (resetEvents s.cfg reads) l →
      ∃ b, exec .softReset s = .next { s with bus := b, answer := some (.status .timeout .empty) } ∧ b.samples = rest ∧
        b.events = (resetEvents s.cfg reads).reverse ++ s.bus.events) ∧
    (∀ data : List Byte, data.length ≤ s.cfg.fifoSize → reads.length = s.cfg.crcPollMax →
      (∀ v ∈ reads, v &&& s.cfg.fld.crcIrq = 0) →
      Brings s.cfg (crcStartEvents s.cfg data ++ reads.map fun v => RegEvent.rd s.cfg.reg.divIrq (some v)) l →
      ∃ b, exec (.calculateCRC data) s = .next { s with bus := b, answer := some (.status .timeout .empty) } ∧
        b.samples = rest ∧
        b.events = (crcStartEvents s.cfg data ++ reads.map fun v => RegEvent.rd s.cfg.reg.divIrq (some v)).reverse ++
          s.bus.events) ∧
    (∀ (command : CmdCode) (mask framing hit : Byte) (send : List Byte) (valid : Option Bits3)
      (recv : Option (List Byte)) (r : Bits3) (crc : Bool), send.length ≤ s.cfg.fifoSize →
      command = s.cfg.cmd.transceive ∨ command = s.cfg.cmd.receive →
      (∀ v ∈ reads, v &&& mask = 0 ∧ v &&& s.cfg.fld.timerIrq = 0) → reads.length < s.cfg.irqPollMax →
      hit &&& mask = 0 → hit &&& s.cfg.fld.timerIrq ≠ 0 →
      Brings s.cfg (prepareEvents s.cfg command send (valid.getD 0) r framing ++
        pollEvents s.cfg.reg.comIrq reads hit) l →
      ∃ b, exec (.communicate command mask send valid recv r crc) s =
          .next { s with bus := b, answer := some (.status .timeout .empty) } ∧ b.samples = rest ∧
        b.events = (prepareEvents s.cfg command send (valid.getD 0) r framing ++
          pollEvents s.cfg.reg.comIrq reads hit).reverse ++ s.bus.events) ∧
    (∀ (command : CmdCode) (mask framing : Byte) (send : List Byte) (valid : Option Bits3)
      (recv : Option (List Byte)) (r : Bits3) (crc : Bool), send.length ≤ s.cfg.fifoSize →
      command = s.cfg.cmd.transceive ∨ command = s.cfg.cmd.receive →
      (∀ v ∈ reads, v &&& mask = 0 ∧ v &&& s.cfg.fld.timerIrq = 0) → reads.length = s.cfg.irqPollMax →
      Brings s.cfg (prepareEvents s.cfg command send (valid.getD 0) r framing ++
        reads.map fun v => RegEvent.rd s.cfg.reg.comIrq (some v)) l →
      ∃ b, exec (.communicate command mask send valid recv r crc) s =
          .next { s with bus := b, answer := some (.status .timeout .empty) } ∧ b.samples = rest ∧
        b.events = (prepareEvents s.cfg command send (valid.getD 0) r framing ++
          reads.map fun v => RegEvent.rd s.cfg.reg.comIrq (some v)).reverse ++ s.bus.events)

/-- 42_reader_control.md R147: `transceive` is `communicate` with `CMD.TRANSCEIVE` and `WAIT_MASK_TRANSCEIVE`, in every
state and for all operands. -/
def Obligations.TransceiveIsCommunicate : Prop :=
  ∀ (send : List Byte) (valid : Option Bits3) (recv : Option (List Byte)) (r : Bits3) (crc : Bool) (s : State),
    exec (.transceive send valid recv r crc) s =
      exec (.communicate s.cfg.cmd.transceive s.cfg.waitMaskTransceive send valid recv r crc) s

/-- 42_reader_control.md R146 (decision D26), 60_exceptions.md R203, 41_register_access.md R113: the operand conditions
whose breach is refused. That a buffer too short and a `Uid` record without its ten bytes are refused too is the model's
reading (log 13). -/
def Obligations.RefusedCalls : Prop :=
  ∀ s : State,
    (∀ (command : CmdCode) (mask : Byte) (send : List Byte) (valid : Option Bits3) (recv : Option (List Byte)) (r : Bits3)
      (crc : Bool), command ≠ s.cfg.cmd.transceive → command ≠ s.cfg.cmd.receive →
      exec (.communicate command mask send valid recv r crc) s = .refused (.commandCode command)) ∧
    (∀ (mask : Byte) (send : List Byte) (valid : Option Bits3) (recv : Option (List Byte)) (r : Bits3) (crc : Bool),
      s.cfg.fifoSize < send.length →
      exec (.communicate s.cfg.cmd.transceive mask send valid recv r crc) s = .refused (.longerThanFifo send.length) ∧
      exec (.communicate s.cfg.cmd.receive mask send valid recv r crc) s = .refused (.longerThanFifo send.length) ∧
      exec (.transceive send valid recv r crc) s = .refused (.longerThanFifo send.length)) ∧
    (∀ data : List Byte, s.cfg.fifoSize < data.length →
      exec (.calculateCRC data) s = .refused (.longerThanFifo data.length)) ∧
    (∀ (a : RegAddr) (n : Nat) (buf : List Byte) (r : Bits3), buf.length < n →
      exec (.readRegisterBurst a n buf r) s = .refused (.bufferTooShort buf.length n)) ∧
    (∀ (uid : Uid) (known : Nat), uid.uidByte.length ≠ 10 →
      exec (.select uid known) s = .refused (.uidRecord uid.uidByte.length))

/-! ## Card discovery -/

/-- 43_card_discovery.md R160, R161 (decision D30): a request answered by exactly two whole bytes returns them (and a card
is present); one answered by a collision returns `STATUS_COLLISION` (a card is present all the same); any other response of
at most two bytes is `STATUS_ERROR`, and one of more than two bytes `STATUS_NO_ROOM`, nothing of it read (none is
present). -/
def Obligations.RequestCompletes : Prop :=
  ∀ (x : Exchange) (s : State) (l rest : List Level), x.completes s.cfg s.cfg.waitMaskTransceive →
    s.bus.samples = l ++ rest → ∀ (st : Status) (value : Value) (events : Byte → List RegEvent),
    (x.fits 2 ∧ events = (fun frame => x.requestEvents s.cfg frame) ∧
        ((x.noCollision s.cfg ∧ x.wholeBytes s.cfg ∧ x.bytes.length = 2 ∧ st = .ok ∧ value = .atqa x.bytes) ∨
          (x.err &&& s.cfg.fld.errColl ≠ 0 ∧ st = .collision ∧ value = .empty) ∨
          (x.noCollision s.cfg ∧ ¬(x.wholeBytes s.cfg ∧ x.bytes.length = 2) ∧ st = .error ∧ value = .empty))) ∨
      (∃ level : Byte, 2 < level.toNat ∧ st = .noRoom ∧ value = .empty ∧
        events = fun frame => x.waitEvents s.cfg s.cfg.cmd.transceive [frame] 7 0 ++
          [.rd s.cfg.reg.fifoLevel (some level)]) →
    (Brings s.cfg (events s.cfg.reqa) l →
      ∃ b, exec .requestA s = .next { s with bus := b, answer := some (.status st value) } ∧ b.samples = rest ∧
        b.events = (events s.cfg.reqa).reverse ++ s.bus.events) ∧
    (Brings s.cfg (events s.cfg.wupa) l →
      ∃ b, exec .wakeupA s = .next { s with bus := b, answer := some (.status st value) } ∧ b.samples = rest ∧
        b.events = (events s.cfg.wupa).reverse ++ s.bus.events) ∧
    (Brings s.cfg (events s.cfg.reqa) l →
      ∃ b, exec .isNewCardPresent s = .next { s with
          bus := b, answer := some (.flag (decide (st = .ok ∨ st = .collision))) } ∧ b.samples = rest ∧
        b.events = (events s.cfg.reqa).reverse ++ s.bus.events)

/-- 43_card_discovery.md R161 (decision D30): `isNewCardPresent` does what `requestA` does and answers whether its status
was OK or a collision, for every oracle. -/
def Obligations.PresenceIsRequest : Prop :=
  ∀ s : State, ∃ b st value,
    exec .requestA s = .next { s with bus := b, answer := some (.status st value) } ∧
    exec .isNewCardPresent s = .next { s with
      bus := b, answer := some (.flag (decide (st = .ok ∨ st = .collision))) }

/-- 43_card_discovery.md R163 to R168, R170: one card with a four-byte UID, no bit known: the probe, the SELECT and the SAK
check of level 1, `uid.size` 4, the four bytes in place and the bytes beyond as the record had them. -/
def Obligations.SelectFourByteUid : Prop :=
  ∀ (d : LevelCard) (fifth : Byte) (x : LevelRun) (uid : Uid) (s : State) (l rest : List Level), uid.uidByte.length = 10 →
    x.resolves s.cfg d fifth → d.u0 ≠ 0x88 → d.sak &&& 0x04 = 0 → Brings s.cfg (x.events s.cfg 0x93 d) l →
    s.bus.samples = l ++ rest →
    (∃ b, exec (.select uid 0) s = .next { s with
        bus := b
        uid := ⟨4, [d.u0, d.u1, d.u2, d.u3] ++ uid.uidByte.drop 4, d.sak⟩
        uidMeaningful := true
        answer := some (.status .ok .empty) } ∧ b.samples = rest ∧
      b.events = (x.events s.cfg 0x93 d).reverse ++ s.bus.events) ∧
    (s.uid = uid → ∃ b, exec .readCardSerial s = .next { s with
        bus := b
        uid := ⟨4, [d.u0, d.u1, d.u2, d.u3] ++ uid.uidByte.drop 4, d.sak⟩
        uidMeaningful := true
        answer := some (.flag true) } ∧ b.samples = rest ∧
      b.events = (x.events s.cfg 0x93 d).reverse ++ s.bus.events)

/-- 43_card_discovery.md R165, R168: one card with a seven-byte UID: level 1 answers the cascade tag and three bytes, which
are skipped and copied, its SAK has the cascade bit; level 2 completes with `uid.size` 7. -/
def Obligations.SelectSevenByteUid : Prop :=
  ∀ (d1 d2 : LevelCard) (f1 f2 : Byte) (x1 x2 : LevelRun) (uid : Uid) (s : State) (l rest : List Level),
    uid.uidByte.length = 10 → x1.resolves s.cfg d1 f1 → x2.resolves s.cfg d2 f2 → d1.u0 = 0x88 → d1.sak &&& 0x04 ≠ 0 →
    d2.u0 ≠ 0x88 → d2.sak &&& 0x04 = 0 →
    Brings s.cfg (x1.events s.cfg 0x93 d1 ++ x2.events s.cfg 0x95 d2) l → s.bus.samples = l ++ rest →
    ∃ b, exec (.select uid 0) s = .next { s with
        bus := b
        uid := ⟨7, [d1.u1, d1.u2, d1.u3, d2.u0, d2.u1, d2.u2, d2.u3] ++ uid.uidByte.drop 7, d2.sak⟩
        uidMeaningful := true
        answer := some (.status .ok .empty) } ∧ b.samples = rest ∧
      b.events = (x1.events s.cfg 0x93 d1 ++ x2.events s.cfg 0x95 d2).reverse ++ s.bus.events

/-- 43_card_discovery.md R165, R168: one card with a ten-byte UID: levels 1 and 2 with the cascade tag, level 3 completes
with `uid.size` 10. -/
def Obligations.SelectTenByteUid : Prop :=
  ∀ (d1 d2 d3 : LevelCard) (f1 f2 f3 : Byte) (x1 x2 x3 : LevelRun) (uid : Uid) (s : State) (l rest : List Level),
    uid.uidByte.length = 10 → x1.resolves s.cfg d1 f1 → x2.resolves s.cfg d2 f2 → x3.resolves s.cfg d3 f3 →
    d1.u0 = 0x88 → d1.sak &&& 0x04 ≠ 0 → d2.u0 = 0x88 → d2.sak &&& 0x04 ≠ 0 → d3.u0 ≠ 0x88 → d3.sak &&& 0x04 = 0 →
    Brings s.cfg (x1.events s.cfg 0x93 d1 ++ x2.events s.cfg 0x95 d2 ++ x3.events s.cfg 0x97 d3) l →
    s.bus.samples = l ++ rest →
    ∃ b, exec (.select uid 0) s = .next { s with
        bus := b
        uid := ⟨10, [d1.u1, d1.u2, d1.u3, d2.u1, d2.u2, d2.u3, d3.u0, d3.u1, d3.u2, d3.u3], d3.sak⟩
        uidMeaningful := true
        answer := some (.status .ok .empty) } ∧ b.samples = rest ∧
      b.events = (x1.events s.cfg 0x93 d1 ++ x2.events s.cfg 0x95 d2 ++ x3.events s.cfg 0x97 d3).reverse ++ s.bus.events

/-- 43_card_discovery.md R163, R165, R166: with all bits known no probe is sent: a four-byte UID goes into the SELECT of
level 1; of a seven-byte one level 1 carries the cascade tag and three bytes, level 2 the other four; of a ten-byte one
levels 1 and 2 carry the cascade tag and three bytes each, level 3 the last four. An operand record that holds a UID whose
level begins with 0x88 where no tag belongs is not such a UID and is left to `SelectCompletes`. -/
def Obligations.SelectKnownUid : Prop :=
  (∀ (d : LevelCard) (x : LevelRun) (size : Nat) (others : List Byte) (sak : Byte) (s : State) (l rest : List Level),
    size ≤ 4 → others.length = 6 → x.selects s.cfg d → d.u0 ≠ 0x88 → d.sak &&& 0x04 = 0 →
    Brings s.cfg (x.selectEvents s.cfg 0x93 d) l → s.bus.samples = l ++ rest →
    ∃ b, exec (.select ⟨size, [d.u0, d.u1, d.u2, d.u3] ++ others, sak⟩ 32) s = .next { s with
        bus := b
        uid := ⟨4, [d.u0, d.u1, d.u2, d.u3] ++ others, d.sak⟩
        uidMeaningful := true
        answer := some (.status .ok .empty) } ∧ b.samples = rest ∧
      b.events = (x.selectEvents s.cfg 0x93 d).reverse ++ s.bus.events) ∧
  (∀ (d1 d2 : LevelCard) (x1 x2 : LevelRun) (others : List Byte) (sak : Byte) (s : State) (l rest : List Level),
    others.length = 3 → x1.selects s.cfg d1 → x2.selects s.cfg d2 → d1.u0 = 0x88 → d1.sak &&& 0x04 ≠ 0 →
    d2.u0 ≠ 0x88 → d2.sak &&& 0x04 = 0 →
    Brings s.cfg (x1.selectEvents s.cfg 0x93 d1 ++ x2.selectEvents s.cfg 0x95 d2) l → s.bus.samples = l ++ rest →
    ∃ b, exec (.select ⟨7, [d1.u1, d1.u2, d1.u3, d2.u0, d2.u1, d2.u2, d2.u3] ++ others, sak⟩ 56) s = .next { s with
        bus := b
        uid := ⟨7, [d1.u1, d1.u2, d1.u3, d2.u0, d2.u1, d2.u2, d2.u3] ++ others, d2.sak⟩
        uidMeaningful := true
        answer := some (.status .ok .empty) } ∧ b.samples = rest ∧
      b.events = (x1.selectEvents s.cfg 0x93 d1 ++ x2.selectEvents s.cfg 0x95 d2).reverse ++ s.bus.events) ∧
  (∀ (d1 d2 d3 : LevelCard) (x1 x2 x3 : LevelRun) (sak : Byte) (s : State) (l rest : List Level),
    x1.selects s.cfg d1 → x2.selects s.cfg d2 → x3.selects s.cfg d3 → d1.u0 = 0x88 → d1.sak &&& 0x04 ≠ 0 →
    d2.u0 = 0x88 → d2.sak &&& 0x04 ≠ 0 → d3.u0 ≠ 0x88 → d3.sak &&& 0x04 = 0 →
    Brings s.cfg (x1.selectEvents s.cfg 0x93 d1 ++ x2.selectEvents s.cfg 0x95 d2 ++ x3.selectEvents s.cfg 0x97 d3) l →
    s.bus.samples = l ++ rest →
    ∃ b, exec (.select ⟨10, [d1.u1, d1.u2, d1.u3, d2.u1, d2.u2, d2.u3, d3.u0, d3.u1, d3.u2, d3.u3], sak⟩ 80) s =
        .next { s with
          bus := b
          uid := ⟨10, [d1.u1, d1.u2, d1.u3, d2.u1, d2.u2, d2.u3, d3.u0, d3.u1, d3.u2, d3.u3], d3.sak⟩
          uidMeaningful := true
          answer := some (.status .ok .empty) } ∧ b.samples = rest ∧
      b.events = (x1.selectEvents s.cfg 0x93 d1 ++ x2.selectEvents s.cfg 0x95 d2 ++
        x3.selectEvents s.cfg 0x97 d3).reverse ++ s.bus.events)

/-- 43_card_discovery.md R164: more than 80 known bits is `STATUS_INVALID` before any register event; the cascade bit in
the SAK of level 3 takes the level to 4, which is `STATUS_INTERNAL_ERROR` before any event of that pass (levels reached with
no bit known and no collision; `SelectFailures` has the others, and the other ways to fail). What the record then holds is
not meaningful (R163). -/
def Obligations.SelectArgumentChecks : Prop :=
  (∀ (uid : Uid) (known : Nat) (s : State), uid.uidByte.length = 10 → 80 < known →
    ∃ u, exec (.select uid known) s = .next { s with
      uid := u, uidMeaningful := false, answer := some (.status .invalid .empty) }) ∧
  (∀ (d1 d2 d3 : LevelCard) (f1 f2 f3 : Byte) (x1 x2 x3 : LevelRun) (uid : Uid) (s : State) (l rest : List Level),
    uid.uidByte.length = 10 → x1.resolves s.cfg d1 f1 → x2.resolves s.cfg d2 f2 → x3.resolves s.cfg d3 f3 →
    d1.sak &&& 0x04 ≠ 0 → d2.sak &&& 0x04 ≠ 0 → d3.sak &&& 0x04 ≠ 0 →
    Brings s.cfg (x1.events s.cfg 0x93 d1 ++ x2.events s.cfg 0x95 d2 ++ x3.events s.cfg 0x97 d3) l →
    s.bus.samples = l ++ rest →
    ∃ b u, exec (.select uid 0) s = .next { s with
        bus := b, uid := u, uidMeaningful := false, answer := some (.status .internalError .empty) } ∧
      b.samples = rest ∧
      b.events = (x1.events s.cfg 0x93 d1 ++ x2.events s.cfg 0x95 d2 ++ x3.events s.cfg 0x97 d3).reverse ++ s.bus.events)

/-- 43_card_discovery.md R167, R166: at every cascade level, with or without a cascade tag placed by the reader (R165), after
any probes and levels before it (`SelHistory`), a probe with fewer than 32 known bits that collides at a valid position `P`
beyond them is followed by a frame with exactly the known prefix up to `P`, bit `P` forced to 1, NVB and bit framing for `P`
bits; at `P` = 32 by the SELECT, whose CRC is computed over the level with bit 32 forced to 1. Bytes of the level that
nothing has been received into are as the command buffer held them, zeros at first (decision D36). -/
def Obligations.CollisionExtendsKnownBits : Prop :=
  ∀ (uid : Uid) (total : Nat) (p : SelPoint) (before : List RegEvent) (x : Exchange) (v : Byte) (pos : Nat) (s : State)
    (l rest : List Level) (next : List RegEvent), uid.uidByte.length = 10 → total ≤ 80 →
    SelHistory s.cfg total (SelPoint.first total uid) before p → p.known < 32 →
    x.completes s.cfg s.cfg.waitMaskTransceive → x.err &&& s.cfg.fld.errColl ≠ 0 → x.fits (7 - p.known / 8) →
    v &&& s.cfg.fld.collPosNotValid = 0 →
    pos = (if v &&& s.cfg.fld.collPos = 0 then 32 else (v &&& s.cfg.fld.collPos).toNat) → p.known < pos →
    (pos ≤ 31 ∧ next =
        [.wr s.cfg.reg.command (s.cfg.cmd.idle.setWidth 8) true, .wr s.cfg.reg.comIrq s.cfg.fld.comIrqClearAll true,
         .wr s.cfg.reg.fifoLevel s.cfg.fld.fifoFlush true,
         .wrb s.cfg.reg.fifoData ([p.sel, nvbOf pos] ++ (p.forced x.bytes pos).take ((pos + 7) / 8)) true,
         .wr s.cfg.reg.bitFraming ((BitVec.ofNat 8 (pos % 8) <<< 4) ||| BitVec.ofNat 8 (pos % 8)) true]) ∨
      (pos = 32 ∧ next = crcStartEvents s.cfg { p with bytes := p.forced x.bytes pos }.select7) →
    Brings s.cfg (before ++ (p.probeEvents s.cfg x ++ .rd s.cfg.reg.coll (some v) :: next)) l →
    s.bus.samples = l ++ rest →
    ∃ t more, exec (.select uid total) s = .next t ∧ t.bus.events =
      more ++ ((before ++ (p.probeEvents s.cfg x ++ .rd s.cfg.reg.coll (some v) :: next)).reverse ++ s.bus.events)

/-- 43_card_discovery.md R163, R165 to R168, 10_state.md R18: after any history of probes, collisions and levels, a SELECT
answered by a SAK without the cascade bit completes the UID: OK, `uid.size` three times the level plus one, the level's
bytes copied in with a cascade tag skipped, the SAK recorded. -/
def Obligations.SelectCompletes : Prop :=
  ∀ (uid : Uid) (total : Nat) (p : SelPoint) (before : List RegEvent) (x : LevelRun) (sak : Byte) (s : State)
    (l rest : List Level), uid.uidByte.length = 10 → total ≤ 80 →
    SelHistory s.cfg total (SelPoint.first total uid) before p → 32 ≤ p.known → x.selects s.cfg (p.card sak) →
    sak &&& 0x04 = 0 → Brings s.cfg (before ++ x.selectEvents s.cfg p.sel (p.card sak)) l → s.bus.samples = l ++ rest →
    (p.level = 1 ∨ p.level = 2 ∨ p.level = 3) ∧
    ∃ b, exec (.select uid total) s = .next { s with
        bus := b
        uid := ⟨3 * p.level + 1, p.confirmed.uidByte, sak⟩
        uidMeaningful := true
        answer := some (.status .ok .empty) } ∧ b.samples = rest ∧
      b.events = (before ++ x.selectEvents s.cfg p.sel (p.card sak)).reverse ++ s.bus.events

/-- 43_card_discovery.md R164, R167, R168, R169: after any history of probes, collisions and levels, every way `select` can
fail short of a missing acknowledge gives the status of its cause (`SelFailure`): a collision position that is not valid
`STATUS_COLLISION`, one not beyond the known bits `STATUS_INTERNAL_ERROR`, a SAK response that is not three whole bytes
`STATUS_ERROR`, a SAK CRC mismatch `STATUS_CRC_WRONG`, a fourth level `STATUS_INTERNAL_ERROR`; what `transceive` and
`calculateCRC` raise is passed up. The record is then not meaningful (R163). -/
def Obligations.SelectFailures : Prop :=
  ∀ (uid : Uid) (total : Nat) (p : SelPoint) (before es : List RegEvent) (st : Status) (s : State)
    (l rest : List Level), uid.uidByte.length = 10 → total ≤ 80 →
    SelHistory s.cfg total (SelPoint.first total uid) before p → SelFailure s.cfg p st es →
    Brings s.cfg (before ++ es) l → s.bus.samples = l ++ rest →
    ∃ b u, exec (.select uid total) s = .next { s with
        bus := b, uid := u, uidMeaningful := false, answer := some (.status st .empty) } ∧ b.samples = rest ∧
      b.events = (before ++ es).reverse ++ s.bus.events

/-- 43_card_discovery.md R163, R168, R169, 10_state.md R18: whatever the oracle, a `select` that ends in OK leaves a record
of size 4, 7 or 10 whose SAK has the cascade bit 0; one that does not leaves the record not meaningful; its status is
never `STATUS_MIFARE_NACK` and is `STATUS_INVALID` exactly for more than 80 known bits. -/
def Obligations.SelectOutcomes : Prop :=
  ∀ (uid : Uid) (known : Nat) (s t : State), exec (.select uid known) s = .next t →
    ∃ st, t.answer = some (.status st .empty) ∧ t.uid.uidByte.length = 10 ∧ st ≠ .mifareNack ∧
      (st = .invalid ↔ 80 < known) ∧
      (st = .ok → t.uidMeaningful = true ∧ (t.uid.size = 4 ∨ t.uid.size = 7 ∨ t.uid.size = 10) ∧
        t.uid.sak &&& 0x04 = 0) ∧
      (st ≠ .ok → t.uidMeaningful = false)

/-- 43_card_discovery.md R166, R172, 70_reset_and_hazards.md R235: 34 passes of the anti-collision loop are enough: with
more the operation is the same, whatever the command buffer and the known bits, the collision position being a field of
five bits. The bound in the model is log 17. -/
def Obligations.PassBoundIsEnough : Prop :=
  ∀ (c : Config) (more : Nat) (buf : List Byte) (known : Nat), c.fld.collPos &&& 0xE0 = 0 →
    antiCollision c (34 + more) buf known = antiCollision c 34 buf known

/-- 43_card_discovery.md R170: `readCardSerial` is `select(uid, 0)` on the reader's own record and returns true exactly when
that returns OK, for every oracle. -/
def Obligations.ReadCardSerialIsSelect : Prop :=
  ∀ s : State, s.uid.uidByte.length = 10 → ∃ t st,
    exec (.select s.uid 0) s = .next t ∧ t.answer = some (.status st .empty) ∧
    exec .readCardSerial s = .next { t with answer := some (.flag (decide (st = .ok))) }

/-- 43_card_discovery.md R171 (decision D30), 10_state.md R18: `discover_uid` is `requestA` and, when its status is OK or a
collision, `select(uid, 0)`; any other status is raised on with the record untouched; on OK the record is the result, the
bytes at index `size` and above left out. -/
def Obligations.DiscoverIsRequestThenSelect : Prop :=
  ∀ s t : State, ∀ (st : Status) (value : Value), s.uid.uidByte.length = 10 → exec .requestA s = .next t →
    t.answer = some (.status st value) →
    (st ≠ .ok → st ≠ .collision → exec .discoverUid s = .next { t with answer := some (.status st .empty) }) ∧
    (st = .ok ∨ st = .collision → ∃ u st2, exec (.select t.uid 0) t = .next u ∧ u.answer = some (.status st2 .empty) ∧
      exec .discoverUid s = .next { u with
        answer := some (.status st2
          (if st2 = .ok then .uid u.uid.size (u.uid.uidByte.take u.uid.size) u.uid.sak else .empty)) })

/-- 43_card_discovery.md R171, 10_state.md R18: a field with one card of a four-byte UID: `discover_uid` returns it, four
bytes and the SAK; the bytes beyond them stay in the record and are not handed over. -/
def Obligations.DiscoverFourByteUid : Prop :=
  ∀ (y : Exchange) (a0 a1 : Byte) (d : LevelCard) (fifth : Byte) (x : LevelRun) (s : State) (l rest : List Level),
    s.uid.uidByte.length = 10 → y.answers s.cfg [a0, a1] → x.resolves s.cfg d fifth → d.u0 ≠ 0x88 →
    d.sak &&& 0x04 = 0 → Brings s.cfg (y.requestEvents s.cfg s.cfg.reqa ++ x.events s.cfg 0x93 d) l →
    s.bus.samples = l ++ rest →
    ∃ b, exec .discoverUid s = .next { s with
        bus := b
        uid := ⟨4, [d.u0, d.u1, d.u2, d.u3] ++ s.uid.uidByte.drop 4, d.sak⟩
        uidMeaningful := true
        answer := some (.status .ok (.uid 4 [d.u0, d.u1, d.u2, d.u3] d.sak)) } ∧
      b.samples = rest ∧ b.events = (y.requestEvents s.cfg s.cfg.reqa ++ x.events s.cfg 0x93 d).reverse ++ s.bus.events

/-- 10_state.md R18, 70_reset_and_hazards.md R238 (93 U4): no byte of the `Uid` at index `size` or above and nothing of a
record that is not meaningful reaches the caller. An answer that carries a record is `discover_uid`'s with OK, carries as many
bytes as its size, 4, 7 or 10, and is what the caller reads of the record the block holds; after a `select` that failed and
after a `readCardSerial` that answers false the caller reads nothing; after a `discover_uid` that failed it reads nothing, or
the request failed and the record is as before. -/
def Obligations.CallerReadsUid : Prop :=
  ∀ (i : Instr) (s t : State), s.uid.uidByte.length = 10 → exec i s = .next t →
    (∀ (st : Status) (size : Nat) (bytes : List Byte) (sak : Byte), t.answer = some (.status st (.uid size bytes sak)) →
      i = .discoverUid ∧ st = .ok ∧ (size = 4 ∨ size = 7 ∨ size = 10) ∧ bytes.length = size ∧
        readUid t = some (.uid size bytes sak) ∧ ∀ j, readUidByte t j = bytes[j]?) ∧
    (∀ j, t.uid.size ≤ j → readUidByte t j = none) ∧ (readUid t = none → ∀ j, readUidByte t j = none) ∧
    (∀ (uid : Uid) (known : Nat) (st : Status) (value : Value), i = .select uid known →
      t.answer = some (.status st value) → st ≠ .ok → readUid t = none) ∧
    (i = .readCardSerial → t.answer = some (.flag false) → readUid t = none) ∧
    (∀ (st : Status) (value : Value), i = .discoverUid → t.answer = some (.status st value) → st ≠ .ok →
      readUid t = none ∨ (t.uid = s.uid ∧ t.uidMeaningful = s.uidMeaningful))

/-! ## The machine -/

/-- A step takes the next call record off the queue and runs the operation it decodes to; with no call pending the block
keeps all its state (60_exceptions.md R214); a record that is no operation is refused (R203). The queue of calls is the
model's choice (log 2). -/
def Obligations.StepRunsDecodedCall : Prop :=
  (∀ (s : State) (record : List Byte) (later : List (List Byte)) (i : Instr), s.calls = record :: later →
    decode record = .ok i → step s = exec i { s with calls := later }) ∧
  (∀ s : State, s.calls = [] → step s = .next s) ∧
  (∀ (s : State) (record : List Byte) (later : List (List Byte)) (why : Reject), s.calls = record :: later →
    decode record = .error why → step s = .refused (.badCall why))

/-- 10_state.md R11, R18, 70_reset_and_hazards.md R231: every step keeps the invariant: the lines are as the trace left them,
every sample was taken with the data line released and the clock at 1, the `Uid` record has ten bytes. -/
def Obligations.StepKeepsInv : Prop := ∀ s t : State, Inv s → step s = .next t → Inv t

/-- The reset state has the invariant (10_state.md R11, R18). R220 and R221 give no line level and no record at reset: the
line state is the model's choice (log 6), and so is that a record of ten bytes stands there (log 10); with an empty trace
any line levels have it. -/
def Obligations.ResetHasInv : Prop := Inv State.reset

/-- 70_reset_and_hazards.md R221: right after reset no operation has run, no call is pending, no record is meaningful, and the
parameters satisfy their constraints. The line levels R220 leaves unspecified are the model's choice (log 6: clock 0, data
released, level 0), the OPEN parameters' values log 7, the others' log 8; that no answer of the oracle is listed rests on
log 4, that no record is meaningful and what the record holds on log 10, the empty queue of calls on log 2, the empty traces
and answer on log 9. -/
def Obligations.ResetValues : Prop :=
  State.reset.cfg = Config.default ∧ Config.default.wf = true ∧ State.reset.calls = [] ∧ State.reset.answer = none ∧
  State.reset.uidMeaningful = false ∧ State.reset.bus.trace = [] ∧ State.reset.bus.events = [] ∧
  State.reset.bus.samples = [] ∧ State.reset.bus.scl = false ∧ State.reset.bus.sdaDir = .inp ∧
  State.reset.bus.sdaLvl = false ∧ State.reset.uid = ⟨4, List.replicate 10 0, 0⟩ ∧ readUid State.reset = none ∧
  (∀ i, readUidByte State.reset i = none)

/-- Frame of every operation (10_state.md R10, R16, 00_scope.md R7): the configuration and the pending calls are
unchanged, the line trace and the event trace only grow, the oracle's answers are only taken, and the `Uid` record changes
only by `select`, `readCardSerial` and `discover_uid`. -/
def Obligations.OperationFrame : Prop :=
  ∀ (i : Instr) (s t : State), exec i s = .next t →
    t.cfg = s.cfg ∧ t.calls = s.calls ∧ (∃ l, t.bus.trace = l ++ s.bus.trace) ∧ (∃ es, t.bus.events = es ++ s.bus.events) ∧
    (∃ k, t.bus.samples = s.bus.samples.drop k) ∧ (i.isPrimitive = true → t.bus.events = s.bus.events) ∧
    ((∀ uid known, i ≠ .select uid known) → i ≠ .readCardSerial → i ≠ .discoverUid →
      t.uid = s.uid ∧ t.uidMeaningful = s.uidMeaningful)

/-- 70_reset_and_hazards.md R222 (derived there): after every operation above the primitives that did something on the lines
the bus is idle, or, only with `ABORT_STOP` false and the operation failed, clock 0 and data released. -/
def Obligations.BusIdleBetweenOperations : Prop :=
  ∀ (i : Instr) (s t : State), i.isPrimitive = false → exec i s = .next t → t.bus.trace ≠ s.bus.trace →
    BusIdle t.bus ∨
      (s.cfg.abortStop = false ∧ t.bus.scl = false ∧ t.bus.sdaDir = .inp ∧
        (t.answer = some (.flag false) ∨ ∃ x, t.answer =
          some (.status (if s.cfg.ackFail = .error then .error else .timeout) x)))

/-- 70_reset_and_hazards.md R220: what an operation above the primitives does does not depend on the line state it starts
from: same answer, record, line actions, events and samples taken from any levels and direction. -/
def Obligations.LineStateDoesNotMatter : Prop :=
  ∀ (i : Instr) (s t : State) (scl lvl : Level) (dir : SdaDir), i.isPrimitive = false → exec i s = .next t →
    ∃ u, exec i { s with bus := { s.bus with scl := scl, sdaDir := dir, sdaLvl := lvl } } = .next u ∧
      u.answer = t.answer ∧ u.uid = t.uid ∧ u.uidMeaningful = t.uidMeaningful ∧ u.bus.trace = t.bus.trace ∧
      u.bus.events = t.bus.events ∧ u.bus.samples = t.bus.samples

/-- 60_exceptions.md R200, R201, 41_register_access.md R114: a register event that fails is the last event of its operation,
which ends with `ACK_FAIL_STATUS`, or with false where the operation reports by a boolean; nothing is retried. -/
def Obligations.FailureEndsOperation : Prop :=
  ∀ (i : Instr) (s t : State) (later : List RegEvent) (e : RegEvent) (earlier : List RegEvent), exec i s = .next t →
    t.bus.events = later ++ e :: (earlier ++ s.bus.events) →
    (∃ a, e = .rd a none) ∨ (∃ a v, e = .wr a v false) ∨ (∃ a bytes, e = .wrb a bytes false) ∨ (∃ a n, e = .rdb a n none) →
    later = [] ∧ (t.answer = some (.flag false) ∨ ∃ x, t.answer =
      some (.status (if s.cfg.ackFail = .error then .error else .timeout) x))

/-- 41_register_access.md R116, 00_scope.md R8 (derived there): whatever the oracle, the events of an operation above the
primitives are brought about by exactly the samples it takes; an exhausted oracle goes on with 1 (log 4). -/
def Obligations.EventsMatchSamples : Prop :=
  ∀ (i : Instr) (s t : State), i.isPrimitive = false → exec i s = .next t →
    ∃ es l k, t.bus.events = es.reverse ++ s.bus.events ∧ Brings s.cfg es l ∧
      s.bus.samples ++ List.replicate k true = l ++ t.bus.samples

/-- 60_exceptions.md R190, R199, R203: no operation stops the block (that nothing does is the model's reading, log 24): an
admitted call always returns, a call that is not admitted is always refused; every operation that can fail hands its caller
exactly one status. Among the calls not admitted, a burst read into a short buffer and a record without ten bytes are refused
by the model's reading (log 13), the others by R203 and R146. -/
def Obligations.EveryAdmittedCallReturns : Prop :=
  ∀ (i : Instr) (s : State),
    (i.admitted s.cfg = true → ∃ t, exec i s = .next t ∧
      (i.isPrimitive = true ∨ i = .isNewCardPresent ∨ i = .readCardSerial ∨ ∃ st x, t.answer = some (.status st x))) ∧
    (i.admitted s.cfg = false → ∃ why, exec i s = .refused why)

/-- 70_reset_and_hazards.md R241 (derived there): line actions and least duration of the register operations, every
acknowledge on the first sample, with the hold times 5, 3, 2 and 1, and of a write to an absent slave. -/
def Obligations.RegisterOperationDurations : Prop :=
  ∀ (s t : State) (a : RegAddr) (rest : List Level), s.cfg.tHold = 5 → s.cfg.tRdLow = 3 → s.cfg.tRdHigh = 2 →
    s.cfg.tAckPoll = 1 → 0 < s.cfg.ackPollMax →
    (∀ v, s.bus.samples = List.replicate 3 false ++ rest → exec (.writeRegister a v) s = .next t →
      (newActions s.bus t.bus).length = 144 ∧ minMicros (newActions s.bus t.bus) = 260) ∧
    (∀ v, s.bus.samples = List.replicate 3 false ++ (byteBits v ++ rest) → exec (.readRegister a) s = .next t →
      (newActions s.bus t.bus).length = 211 ∧ minMicros (newActions s.bus t.bus) = 370) ∧
    (∀ bytes, bytes ≠ [] → s.bus.samples = List.replicate (2 + bytes.length) false ++ rest →
      exec (.writeRegisterBurst a bytes) s = .next t →
      (newActions s.bus t.bus).length = 100 + 44 * bytes.length ∧
        minMicros (newActions s.bus t.bus) = 180 + 80 * bytes.length) ∧
    (∀ (bytes buf : List Byte) (r : Bits3), bytes ≠ [] →
      s.bus.samples = List.replicate 3 false ++ (bytes.flatMap byteBits ++ rest) →
      exec (.readRegisterBurst a bytes.length buf r) s = .next t →
      (newActions s.bus t.bus).length = 156 + 55 * bytes.length ∧
        minMicros (newActions s.bus t.bus) = 280 + 90 * bytes.length) ∧
    (∀ v, s.cfg.ackPollMax = 20 → s.cfg.abortStop = true → s.bus.samples = List.replicate 20 true ++ rest →
      exec (.writeRegister a v) s = .next t →
      (newActions s.bus t.bus).length = 95 ∧ minMicros (newActions s.bus t.bus) = 120)
end

