-- ==== Sys2Proof/Laws/State.lean ====
section
/-! SUPPORT. One lemma per field per update of the state and of the bus, so that no later proof unfolds a record update. -/

namespace Sys2Proof.Machine

open Sys2Proof

section Finish
variable (s : State) (b : Bus) (a : Answer) (u : Uid) (st : Status)

@[simp] theorem State.finish_cfg : (s.finish b a).cfg = s.cfg := rfl
@[simp] theorem State.finish_bus : (s.finish b a).bus = b := rfl
@[simp] theorem State.finish_uid : (s.finish b a).uid = s.uid := rfl
@[simp] theorem State.finish_uidMeaningful : (s.finish b a).uidMeaningful = s.uidMeaningful := rfl
@[simp] theorem State.finish_answer : (s.finish b a).answer = some a := rfl
@[simp] theorem State.finish_calls : (s.finish b a).calls = s.calls := rfl
@[simp] theorem State.withUid_cfg : (s.withUid u st).cfg = s.cfg := rfl
@[simp] theorem State.withUid_bus : (s.withUid u st).bus = s.bus := rfl
@[simp] theorem State.withUid_uid : (s.withUid u st).uid = u := rfl
@[simp] theorem State.withUid_uidMeaningful : (s.withUid u st).uidMeaningful = (st == .ok) := rfl
@[simp] theorem State.withUid_answer : (s.withUid u st).answer = s.answer := rfl
@[simp] theorem State.withUid_calls : (s.withUid u st).calls = s.calls := rfl

end Finish

section Acts
variable (b : Bus) (v : Level) (n : Nat) (l : LineAction) (e : RegEvent)

@[simp] theorem Bus.act_scl_sclDrive : (b.act (.sclDrive v)).scl = v := rfl
@[simp] theorem Bus.act_scl_sdaDrive : (b.act (.sdaDrive v)).scl = b.scl := rfl
@[simp] theorem Bus.act_scl_sdaRelease : (b.act .sdaRelease).scl = b.scl := rfl
@[simp] theorem Bus.act_scl_sdaSample : (b.act (.sdaSample v)).scl = b.scl := rfl
@[simp] theorem Bus.act_scl_hold : (b.act (.hold n)).scl = b.scl := rfl
@[simp] theorem Bus.act_sdaDir_sclDrive : (b.act (.sclDrive v)).sdaDir = b.sdaDir := rfl
@[simp] theorem Bus.act_sdaDir_sdaDrive : (b.act (.sdaDrive v)).sdaDir = .out := rfl
@[simp] theorem Bus.act_sdaDir_sdaRelease : (b.act .sdaRelease).sdaDir = .inp := rfl
@[simp] theorem Bus.act_sdaDir_sdaSample : (b.act (.sdaSample v)).sdaDir = b.sdaDir := rfl
@[simp] theorem Bus.act_sdaDir_hold : (b.act (.hold n)).sdaDir = b.sdaDir := rfl
@[simp] theorem Bus.act_sdaLvl_sclDrive : (b.act (.sclDrive v)).sdaLvl = b.sdaLvl := rfl
@[simp] theorem Bus.act_sdaLvl_sdaDrive : (b.act (.sdaDrive v)).sdaLvl = v := rfl
@[simp] theorem Bus.act_sdaLvl_sdaRelease : (b.act .sdaRelease).sdaLvl = b.sdaLvl := rfl
@[simp] theorem Bus.act_sdaLvl_sdaSample : (b.act (.sdaSample v)).sdaLvl = b.sdaLvl := rfl
@[simp] theorem Bus.act_sdaLvl_hold : (b.act (.hold n)).sdaLvl = b.sdaLvl := rfl
@[simp] theorem Bus.act_samples : (b.act l).samples = b.samples := by cases l <;> rfl
@[simp] theorem Bus.act_trace : (b.act l).trace = l :: b.trace := by cases l <;> rfl
@[simp] theorem Bus.act_events : (b.act l).events = b.events := by cases l <;> rfl

@[simp] theorem Bus.record_scl : (b.record e).scl = b.scl := rfl
@[simp] theorem Bus.record_sdaDir : (b.record e).sdaDir = b.sdaDir := rfl
@[simp] theorem Bus.record_sdaLvl : (b.record e).sdaLvl = b.sdaLvl := rfl
@[simp] theorem Bus.record_samples : (b.record e).samples = b.samples := rfl
@[simp] theorem Bus.record_trace : (b.record e).trace = b.trace := rfl
@[simp] theorem Bus.record_events : (b.record e).events = e :: b.events := rfl

@[simp] theorem waitUs_samples : (waitUs n b).samples = b.samples := rfl
@[simp] theorem waitUs_trace : (waitUs n b).trace = .hold n :: b.trace := rfl
@[simp] theorem waitUs_events : (waitUs n b).events = .hold n :: b.events := rfl
@[simp] theorem waitUs_scl : (waitUs n b).scl = b.scl := rfl
@[simp] theorem waitUs_sdaDir : (waitUs n b).sdaDir = b.sdaDir := rfl
@[simp] theorem waitUs_sdaLvl : (waitUs n b).sdaLvl = b.sdaLvl := rfl

end Acts

section Lists
variable (b : Bus) (l m : List LineAction) (a : LineAction)

theorem Bus.acts_nil : b.acts [] = b := rfl
theorem Bus.acts_cons : b.acts (a :: l) = (b.act a).acts l := rfl
theorem Bus.acts_append : b.acts (l ++ m) = (b.acts l).acts m := by simp [Bus.acts]

@[simp] theorem Bus.acts_samples : (b.acts l).samples = b.samples := by
  induction l generalizing b with
  | nil => rfl
  | cons a l ih => rw [Bus.acts_cons, ih, Bus.act_samples]

@[simp] theorem Bus.acts_events : (b.acts l).events = b.events := by
  induction l generalizing b with
  | nil => rfl
  | cons a l ih => rw [Bus.acts_cons, ih, Bus.act_events]

@[simp] theorem Bus.acts_trace : (b.acts l).trace = l.reverse ++ b.trace := by
  induction l generalizing b with
  | nil => rfl
  | cons a l ih => rw [Bus.acts_cons, ih, Bus.act_trace]; simp

/-- A sample takes the oracle's next answer, 1 when there is none, and moves no line. -/
theorem Bus.sample_cons (b : Bus) (v : Level) (rest : List Level) (h : b.samples = v :: rest) :
    b.sample = (v, { b with samples := rest, trace := .sdaSample v :: b.trace }) := by
  simp [Bus.sample, h, Bus.act]

theorem Bus.sample_nil (b : Bus) (h : b.samples = []) :
    b.sample = (true, { b with samples := [], trace := .sdaSample true :: b.trace }) := by
  simp [Bus.sample, h, Bus.act]

@[simp] theorem Bus.sample_events : b.sample.2.events = b.events := by simp [Bus.sample]
@[simp] theorem Bus.sample_scl : b.sample.2.scl = b.scl := rfl
@[simp] theorem Bus.sample_sdaDir : b.sample.2.sdaDir = b.sdaDir := rfl
@[simp] theorem Bus.sample_sdaLvl : b.sample.2.sdaLvl = b.sdaLvl := rfl
@[simp] theorem Bus.sample_samples : b.sample.2.samples = b.samples.tail := rfl
@[simp] theorem Bus.sample_trace : b.sample.2.trace = .sdaSample b.sample.1 :: b.trace := rfl

end Lists

end Sys2Proof.Machine
end

