-- ==== Sys2Proof/Laws/Wire.lean ====
section
/-! SUPPORT. Bits of a byte and operand fields: what is put is taken back. -/

namespace Sys2Proof

theorem byteBits_length (v : Byte) : (byteBits v).length = 8 := rfl

/-- Reading back the wire bits of a byte gives the byte: both directions are most significant bit first. -/
theorem byteOfBits_byteBits (v : Byte) : byteOfBits (byteBits v) = v := by
  revert v; decide +kernel

theorem byteBits_injective {v w : Byte} (h : byteBits v = byteBits w) : v = w := by
  rw [← byteOfBits_byteBits v, h, byteOfBits_byteBits]

theorem addrW_bit0 (chip : ChipAddr) : (addrW chip).getLsbD 0 = false := by revert chip; decide +kernel
theorem addrR_bit0 (chip : ChipAddr) : (addrR chip).getLsbD 0 = true := by revert chip; decide +kernel
theorem addrW_chip (chip : ChipAddr) : (addrW chip >>> 1).setWidth 7 = chip := by revert chip; decide +kernel
theorem addrR_chip (chip : ChipAddr) : (addrR chip >>> 1).setWidth 7 = chip := by revert chip; decide +kernel
theorem regByte_le (a : RegAddr) : regByte a ≤ 0x3F := by revert a; decide +kernel
theorem regByte_addr (a : RegAddr) : (regByte a).setWidth 6 = a := by revert a; decide +kernel

/-! Taking off a record what was put there. -/

theorem takeByte_put (v : Byte) (rest : List Byte) : takeByte (v :: rest) = .ok (v, rest) := rfl

theorem takeAddr_put (a : RegAddr) (rest : List Byte) : takeAddr (a.setWidth 8 :: rest) = .ok (a, rest) := by
  have h := regByte_le a
  have h' := regByte_addr a
  simp only [regByte] at h h'
  simp only [takeAddr, h, if_true, h']

theorem takeBits3_put (r : Bits3) (rest : List Byte) : takeBits3 (r.setWidth 8 :: rest) = .ok (r, rest) := by
  have h : r.setWidth 8 ≤ (7 : Byte) ∧ (r.setWidth 8).setWidth 3 = r := by revert r; decide +kernel
  simp only [takeBits3, h.1, if_true, h.2]

theorem bits3_byte (r : Bits3) :
    r.setWidth 8 ≠ (0xFF : Byte) ∧ r.setWidth 8 ≤ (7 : Byte) ∧ (r.setWidth 8).setWidth 3 = r := by
  revert r; decide

theorem takeOptBits3_put (r : Option Bits3) (rest : List Byte) :
    takeOptBits3 (putOptBits3 r ++ rest) = .ok (r, rest) := by
  cases r with
  | none => simp [putOptBits3, takeOptBits3]
  | some r =>
    obtain ⟨h1, h2, h3⟩ := bits3_byte r
    rw [putOptBits3, List.singleton_append, takeOptBits3, if_neg h1, if_pos h2, h3]

theorem takeCode_put (k : CmdCode) (rest : List Byte) : takeCode (k.setWidth 8 :: rest) = .ok (k, rest) := by
  have h : k.setWidth 8 ≤ (0x0F : Byte) ∧ (k.setWidth 8).setWidth 4 = k := by revert k; decide +kernel
  simp only [takeCode, h.1, if_true, h.2]

theorem takeFlag_put (b : Bool) (rest : List Byte) : takeFlag (putFlag b ++ rest) = .ok (b, rest) := by
  cases b <;> rfl

theorem takeCount_put (n : Nat) (rest : List Byte) (h : n < 65536) : takeCount (putCount n ++ rest) = .ok (n, rest) := by
  simp only [putCount, List.cons_append, List.nil_append, takeCount, BitVec.toNat_ofNat]
  congr 2
  omega

theorem takeSeq_put (bytes rest : List Byte) (h : fitsRecord bytes = true) :
    takeSeq (putSeq bytes ++ rest) = .ok (bytes, rest) := by
  have h' : bytes.length < 65536 := by simpa [fitsRecord] using h
  simp [takeSeq, putSeq, List.append_assoc, takeCount_put _ _ h']

theorem takeOptSeq_put (seq : Option (List Byte)) (rest : List Byte) (h : seq.all fitsRecord = true) :
    takeOptSeq (putOptSeq seq ++ rest) = .ok (seq, rest) := by
  cases seq with
  | none => simp only [putOptSeq, takeOptSeq, takeFlag_put]
  | some bytes =>
    have h' : fitsRecord bytes = true := by simpa using h
    simp only [putOptSeq, List.append_assoc, takeOptSeq, takeFlag_put, takeSeq_put _ _ h']

theorem takeUid_put (u : Uid) (rest : List Byte) (h : u.wf = true) (hs : u.size < 256) :
    takeUid (putUid u ++ rest) = .ok (u, rest) := by
  obtain ⟨size, bytes, sak⟩ := u
  have h' : bytes.length = 10 := by simpa [Uid.wf] using h
  have hs' : size < 256 := hs
  match bytes, h' with
  | [b0, b1, b2, b3, b4, b5, b6, b7, b8, b9], _ =>
    simp only [putUid, List.cons_append, List.nil_append, takeUid, BitVec.toNat_ofNat]
    congr 3
    omega

/-- An operand field as `do` sees it: taking what was put goes on with the operand. -/
theorem taken_bind {α β : Type} (v : α) (rest : List Byte) (f : α × List Byte → Except Reject β) :
    ((Except.ok (v, rest) : Taken α) >>= f) = f (v, rest) := rfl

/-! Frames: a byte on the wire is taken back with its acknowledge bit. -/

theorem takeTransaction_wireByte (v : Byte) (k : Bool) (rest : List WireSym) (bytes : List (Byte × Bool))
    (after : List WireSym) (h : takeTransaction rest = .ok (bytes, after)) :
    takeTransaction (wireByte v k ++ rest) = .ok ((v, k) :: bytes, after) := by
  have h1 : takeTransaction (wireByte v k ++ rest) =
      match takeTransaction rest with
      | .ok (bytes, after) => .ok ((byteOfBits (byteBits v), k) :: bytes, after)
      | .error e => .error e := rfl
  rw [h1, h, byteOfBits_byteBits]

theorem takeTransaction_acked (bytes : List Byte) (rest : List WireSym) :
    takeTransaction (wireAcked bytes ++ .stop :: rest) = .ok (bytes.map fun v => (v, false), rest) := by
  induction bytes with
  | nil => rfl
  | cons v bytes ih =>
    rw [wireAcked, List.flatMap_cons, List.append_assoc, List.map_cons]
    exact takeTransaction_wireByte v false _ _ _ ih

theorem takeTransaction_read (bytes : List Byte) (rest : List WireSym) :
    ∃ l, takeTransaction (wireRead bytes ++ .stop :: rest) = .ok (l, rest) ∧ l.length = bytes.length ∧
      (bytes ≠ [] → readAcks l = true) := by
  induction bytes with
  | nil => exact ⟨[], rfl, rfl, by simp⟩
  | cons v bytes ih =>
    obtain ⟨l, h1, h2, h3⟩ := ih
    cases bytes with
    | nil => exact ⟨[(v, true)], takeTransaction_wireByte v true _ _ _ rfl, rfl, fun _ => rfl⟩
    | cons w bytes =>
      refine ⟨(v, false) :: l, ?_, by simp [h2], fun _ => ?_⟩
      · rw [wireRead, List.append_assoc]
        exact takeTransaction_wireByte v false _ _ _ h1
        simp
      · cases l with
        | nil => simp at h2
        | cons p l => simpa [readAcks] using h3 (by simp)

theorem writeFrame_put (chip : ChipAddr) (a : RegAddr) (data : List Byte) :
    writeFrame ((addrW chip :: regByte a :: data).map fun v => (v, false)) = .ok (chip, a, data) := by
  have : allAcked ((addrW chip, false) :: (regByte a, false) :: data.map fun v => (v, false)) = true := by
    simp [allAcked]
  simp only [List.map_cons, writeFrame, addrW_bit0, regByte_le, this, and_self, if_true, addrW_chip, regByte_addr]
  simp [Function.comp_def]

/-! What an operand was taken off is what is put for it. -/

theorem takeByte_inv {l rest : List Byte} {v : Byte} (h : takeByte l = .ok (v, rest)) : l = v :: rest := by
  cases l with
  | nil => simp [takeByte] at h
  | cons w l => simpa [takeByte] using h

theorem takeAddr_inv {l rest : List Byte} {a : RegAddr} (h : takeAddr l = .ok (a, rest)) : l = a.setWidth 8 :: rest := by
  cases l with
  | nil => simp [takeAddr] at h
  | cons v l =>
    have hw : ∀ w : Byte, w ≤ 0x3F → (w.setWidth 6).setWidth 8 = w := by decide +kernel
    rw [takeAddr] at h
    split at h
    · rename_i hv
      simp only [Except.ok.injEq, Prod.mk.injEq] at h
      rw [← h.1, ← h.2, hw v hv]
    · simp at h

theorem takeBits3_inv {l rest : List Byte} {r : Bits3} (h : takeBits3 l = .ok (r, rest)) : l = r.setWidth 8 :: rest := by
  cases l with
  | nil => simp [takeBits3] at h
  | cons v l =>
    have hw : ∀ w : Byte, w ≤ 7 → (w.setWidth 3).setWidth 8 = w := by decide +kernel
    rw [takeBits3] at h
    split at h
    · rename_i hv
      simp only [Except.ok.injEq, Prod.mk.injEq] at h
      rw [← h.1, ← h.2, hw v hv]
    · simp at h

theorem takeOptBits3_inv {l rest : List Byte} {r : Option Bits3} (h : takeOptBits3 l = .ok (r, rest)) :
    l = putOptBits3 r ++ rest := by
  cases l with
  | nil => simp [takeOptBits3] at h
  | cons v l =>
    have hw : ∀ w : Byte, w ≤ 7 → (w.setWidth 3).setWidth 8 = w := by decide +kernel
    rw [takeOptBits3] at h
    split at h
    · rename_i hv
      simp only [Except.ok.injEq, Prod.mk.injEq] at h
      rw [← h.1, ← h.2, hv]; rfl
    · split at h
      · rename_i hv
        simp only [Except.ok.injEq, Prod.mk.injEq] at h
        rw [← h.1, ← h.2, putOptBits3, hw v hv]; rfl
      · simp at h

theorem takeCode_inv {l rest : List Byte} {k : CmdCode} (h : takeCode l = .ok (k, rest)) : l = k.setWidth 8 :: rest := by
  cases l with
  | nil => simp [takeCode] at h
  | cons v l =>
    have hw : ∀ w : Byte, w ≤ 0x0F → (w.setWidth 4).setWidth 8 = w := by decide +kernel
    rw [takeCode] at h
    split at h
    · rename_i hv
      simp only [Except.ok.injEq, Prod.mk.injEq] at h
      rw [← h.1, ← h.2, hw v hv]
    · simp at h

theorem takeFlag_inv {l rest : List Byte} {b : Bool} (h : takeFlag l = .ok (b, rest)) : l = putFlag b ++ rest := by
  cases l with
  | nil => simp [takeFlag] at h
  | cons v l =>
    rw [takeFlag] at h
    split at h
    · rename_i hv
      simp only [Except.ok.injEq, Prod.mk.injEq] at h
      rw [← h.1, ← h.2, hv]; rfl
    · split at h
      · rename_i hv
        simp only [Except.ok.injEq, Prod.mk.injEq] at h
        rw [← h.1, ← h.2, hv]; rfl
      · simp at h

theorem takeCount_inv {l rest : List Byte} {n : Nat} (h : takeCount l = .ok (n, rest)) :
    l = putCount n ++ rest ∧ n < 65536 := by
  match l, h with
  | hi :: lo :: l, h =>
    simp only [takeCount, Except.ok.injEq, Prod.mk.injEq] at h
    obtain ⟨rfl, rfl⟩ := h
    have h1 := hi.isLt
    have h2 := lo.isLt
    refine ⟨?_, by omega⟩
    have e1 : BitVec.ofNat 8 ((hi.toNat * 256 + lo.toNat) / 256) = hi := by
      rw [show (hi.toNat * 256 + lo.toNat) / 256 = hi.toNat by omega]; simp
    have e2 : BitVec.ofNat 8 (hi.toNat * 256 + lo.toNat) = lo := by
      apply BitVec.eq_of_toNat_eq; simp; omega
    rw [putCount, e1, e2]; rfl

theorem takeSeq_inv {l rest : List Byte} {bytes : List Byte} (h : takeSeq l = .ok (bytes, rest)) :
    l = putSeq bytes ++ rest ∧ fitsRecord bytes = true := by
  rw [takeSeq] at h
  split at h
  · simp at h
  · rename_i n l' hc
    obtain ⟨rfl, hn⟩ := takeCount_inv hc
    split at h
    · rename_i hle
      simp only [Except.ok.injEq, Prod.mk.injEq] at h
      obtain ⟨rfl, rfl⟩ := h
      have hl : (l'.take n).length = n := by simp [hle]
      rw [putSeq, hl]
      exact ⟨by simp, by simp [fitsRecord]; omega⟩
    · simp at h

theorem takeOptSeq_inv {l rest : List Byte} {seq : Option (List Byte)} (h : takeOptSeq l = .ok (seq, rest)) :
    l = putOptSeq seq ++ rest ∧ seq.all fitsRecord = true := by
  rw [takeOptSeq] at h
  split at h
  · simp at h
  · rename_i hf
    simp only [Except.ok.injEq, Prod.mk.injEq] at h
    obtain ⟨rfl, rfl⟩ := h
    exact ⟨takeFlag_inv hf, rfl⟩
  · rename_i hf
    split at h
    · simp at h
    · rename_i hs
      simp only [Except.ok.injEq, Prod.mk.injEq] at h
      obtain ⟨rfl, rfl⟩ := h
      obtain ⟨h1, h2⟩ := takeSeq_inv hs
      exact ⟨by rw [takeFlag_inv hf, h1, putOptSeq]; simp, by simpa using h2⟩

theorem takeUid_inv {l rest : List Byte} {u : Uid} (h : takeUid l = .ok (u, rest)) :
    l = putUid u ++ rest ∧ u.wf = true ∧ u.size < 256 := by
  match l, h with
  | size :: b0 :: b1 :: b2 :: b3 :: b4 :: b5 :: b6 :: b7 :: b8 :: b9 :: sak :: l, h =>
    simp only [takeUid, Except.ok.injEq, Prod.mk.injEq] at h
    obtain ⟨rfl, rfl⟩ := h
    have hs := size.isLt
    exact ⟨by simp [putUid], by simp [Uid.wf], hs⟩

theorem finishRecord_inv {i j : Instr} {l : List Byte} (h : finishRecord i l = .ok j) : l = [] ∧ i = j := by
  cases l with
  | nil => simpa [finishRecord] using h
  | cons v l => simp [finishRecord] at h

theorem taken_inv {α β : Type} {m : Except Reject (α × List Byte)}
    {f : α × List Byte → Except Reject β} {y : β} (h : (m >>= f) = Except.ok y) :
    ∃ v rest, m = .ok (v, rest) ∧ f (v, rest) = .ok y := by
  cases m with
  | error e => simp [bind, Except.bind] at h
  | ok p => exact ⟨p.1, p.2, rfl, h⟩

end Sys2Proof
end

