-- ==== Sys2Proof/Laws/Ops.lean ====
section
/-! SUPPORT. One lemma per operation on the lines: what it can do, for every oracle, and what it does when the slave
acknowledges at once. Callers cite these instead of unfolding the operations. -/

namespace Sys2Proof.Machine

open Sys2Proof

/-! ## Primitives -/

theorem start_trace (c : Config) (b : Bus) : (start c b).trace = (startSeq c).reverse ++ b.trace := by simp [start]
theorem stop_trace (c : Config) (b : Bus) : (stop c b).trace = (stopSeq c).reverse ++ b.trace := by simp [stop]
theorem writeByte_trace (c : Config) (v : Byte) (b : Bus) :
    (writeByte c v b).trace = (writeByteSeq c v).reverse ++ b.trace := by simp [writeByte]
theorem masterAck_trace (c : Config) (b : Bus) : (masterAck c b).trace = (masterAckSeq c false).reverse ++ b.trace := by
  simp [masterAck]
theorem masterNotAck_trace (c : Config) (b : Bus) :
    (masterNotAck c b).trace = (masterAckSeq c true).reverse ++ b.trace := by simp [masterNotAck]

@[simp] theorem start_samples (c : Config) (b : Bus) : (start c b).samples = b.samples := by simp [start]
@[simp] theorem stop_samples (c : Config) (b : Bus) : (stop c b).samples = b.samples := by simp [stop]
@[simp] theorem writeByte_samples (c : Config) (v : Byte) (b : Bus) : (writeByte c v b).samples = b.samples := by
  simp [writeByte]
@[simp] theorem masterAck_samples (c : Config) (b : Bus) : (masterAck c b).samples = b.samples := by simp [masterAck]
@[simp] theorem masterNotAck_samples (c : Config) (b : Bus) : (masterNotAck c b).samples = b.samples := by
  simp [masterNotAck]
@[simp] theorem start_events (c : Config) (b : Bus) : (start c b).events = b.events := by simp [start]
@[simp] theorem stop_events (c : Config) (b : Bus) : (stop c b).events = b.events := by simp [stop]
@[simp] theorem writeByte_events (c : Config) (v : Byte) (b : Bus) : (writeByte c v b).events = b.events := by
  simp [writeByte]
@[simp] theorem masterAck_events (c : Config) (b : Bus) : (masterAck c b).events = b.events := by simp [masterAck]
@[simp] theorem masterNotAck_events (c : Config) (b : Bus) : (masterNotAck c b).events = b.events := by
  simp [masterNotAck]

/-- `stop()` leaves the idle bus from any line state (40_bus_primitives.md R91, R98). -/
theorem stop_idle (c : Config) (b : Bus) : BusIdle (stop c b) := ⟨rfl, rfl, rfl⟩

/-- `start()` leaves clock 0 and data driven 0 from any line state (R90, R98). -/
theorem start_lines (c : Config) (b : Bus) :
    (start c b).scl = false ∧ (start c b).sdaDir = .out ∧ (start c b).sdaLvl = false := ⟨rfl, rfl, rfl⟩

/-- `writeByte(v)` leaves clock 0 and data driven at `v[0]` (R92, R98). -/
theorem writeByte_lines (c : Config) (v : Byte) (b : Bus) :
    (writeByte c v b).scl = false ∧ (writeByte c v b).sdaDir = .out ∧ (writeByte c v b).sdaLvl = v.getLsbD 0 :=
  ⟨rfl, rfl, rfl⟩

/-! ## The acknowledge slot -/

@[simp] theorem ackPoll_events (c : Config) (n : Nat) (b : Bus) : (ackPoll c n b).2.events = b.events := by
  induction n generalizing b with
  | zero => rfl
  | succ n ih =>
    rw [ackPoll]
    have he : b.sample.2.events = b.events := b.sample_events
    split
    · rename_i h; rw [h] at he; exact he
    · rename_i h; rw [h] at he; rw [ih]; simpa using he

theorem ackPoll_lines (c : Config) (n : Nat) (b : Bus) :
    (ackPoll c n b).2.scl = b.scl ∧ (ackPoll c n b).2.sdaDir = b.sdaDir ∧ (ackPoll c n b).2.sdaLvl = b.sdaLvl := by
  induction n generalizing b with
  | zero => exact ⟨rfl, rfl, rfl⟩
  | succ n ih =>
    rw [ackPoll]
    have hs : b.sample.2.scl = b.scl ∧ b.sample.2.sdaDir = b.sdaDir ∧ b.sample.2.sdaLvl = b.sdaLvl := ⟨rfl, rfl, rfl⟩
    split
    · rename_i h; rw [h] at hs; exact hs
    · rename_i b1 h
      rw [h] at hs
      obtain ⟨h1, h2, h3⟩ := ih (b1.act (.hold c.tAckPoll))
      exact ⟨h1.trans hs.1, h2.trans hs.2.1, h3.trans hs.2.2⟩

/-- A slot acknowledged on sample `j + 1`: that many samples, a hold after each that read 1 (R96). -/
theorem ackPoll_acked (c : Config) (n j : Nat) (b : Bus) (rest : List Level)
    (h : b.samples = List.replicate j true ++ false :: rest) (hj : j < n) :
    ackPoll c n b = (true, { b with
      samples := rest
      trace := .sdaSample false :: ((List.replicate j [.hold c.tAckPoll, .sdaSample true]).flatten ++ b.trace) }) := by
  induction j generalizing n b with
  | zero =>
    obtain ⟨n, rfl⟩ : ∃ m, n = m + 1 := ⟨n - 1, by omega⟩
    rw [ackPoll, Bus.sample_cons b false rest (by simpa using h)]
    rfl
  | succ j ih =>
    obtain ⟨n, rfl⟩ : ∃ m, n = m + 1 := ⟨n - 1, by omega⟩
    rw [ackPoll, Bus.sample_cons b true (List.replicate j true ++ false :: rest) (by simpa [List.replicate_succ] using h)]
    simp only
    rw [ih n _ rfl (by omega)]
    have : ∀ l : List (List LineAction), ∀ x : List LineAction, ∀ k, (List.replicate k x).flatten ++ x = x ++ (List.replicate k x).flatten := by
      intro _ x k
      induction k with
      | zero => simp
      | succ k ihk => simp only [List.replicate_succ, List.flatten_cons, List.append_assoc, ihk]
    have h2 := this [] [.hold c.tAckPoll, .sdaSample true] j
    simp only [Bus.act, List.replicate_succ, List.flatten_cons]
    rw [← h2]
    simp

/-- A slot never acknowledged: exactly `n` samples, each followed by a hold (R96). -/
theorem ackPoll_missed (c : Config) (n : Nat) (b : Bus) (rest : List Level)
    (h : b.samples = List.replicate n true ++ rest) :
    ackPoll c n b = (false, { b with
      samples := rest
      trace := (List.replicate n [.hold c.tAckPoll, .sdaSample true]).flatten ++ b.trace }) := by
  induction n generalizing b with
  | zero => simp only [List.replicate_zero, List.nil_append] at h; simp [ackPoll, ← h]
  | succ n ih =>
    rw [ackPoll, Bus.sample_cons b true (List.replicate n true ++ rest) (by simpa [List.replicate_succ] using h)]
    simp only
    rw [ih _ rfl]
    have h2 : ∀ k, (List.replicate k [LineAction.hold c.tAckPoll, .sdaSample true]).flatten ++ [.hold c.tAckPoll, .sdaSample true]
        = [.hold c.tAckPoll, .sdaSample true] ++ (List.replicate k [LineAction.hold c.tAckPoll, .sdaSample true]).flatten := by
      intro k
      induction k with
      | zero => simp
      | succ k ihk => simp only [List.replicate_succ, List.flatten_cons, List.append_assoc, ihk]
    simp only [Bus.act, List.replicate_succ, List.flatten_cons]
    rw [← h2]
    simp

@[simp] theorem slaveAck_events (c : Config) (b : Bus) : (slaveAck c b).2.events = b.events := by
  simp only [slaveAck, Bus.act_events]
  rw [ackPoll_events]; simp

/-- `slaveAck()` leaves clock 0 and data released, on both outcomes (R96, R98). -/
theorem slaveAck_lines (c : Config) (b : Bus) :
    (slaveAck c b).2.scl = false ∧ (slaveAck c b).2.sdaDir = .inp ∧ (slaveAck c b).2.sdaLvl = b.sdaLvl := by
  obtain ⟨_, h2, h3⟩ := ackPoll_lines c c.ackPollMax (b.acts [.sdaRelease, .sclDrive true])
  exact ⟨rfl, h2, h3⟩

/-- An acknowledge on the first sample (R96): `DZ C1 S0 C0`. -/
theorem slaveAck_first (c : Config) (b : Bus) (rest : List Level) (h : b.samples = false :: rest) (hp : 0 < c.ackPollMax) :
    slaveAck c b = (true, { b with
      scl := false, sdaDir := .inp, samples := rest
      trace := [.sclDrive false, .sdaSample false, .sclDrive true, .sdaRelease] ++ b.trace }) := by
  rw [slaveAck, ackPoll_acked c _ 0 _ rest (by simpa using h) hp]
  rfl

/-! ## What is taken from the oracle -/

/-- Between two buses the samples `l` were taken; an exhausted oracle goes on with samples of 1 (log 4). -/
def Took (b : Bus) (l : List Level) (b' : Bus) : Prop := ∃ k, b.samples ++ List.replicate k true = l ++ b'.samples

theorem Took.nil {b b' : Bus} (h : b'.samples = b.samples) : Took b [] b' := ⟨0, by simp [h]⟩

theorem Took.trans {b b1 b2 : Bus} {l m : List Level} (h1 : Took b l b1) (h2 : Took b1 m b2) : Took b (l ++ m) b2 := by
  obtain ⟨k1, h1⟩ := h1
  obtain ⟨k2, h2⟩ := h2
  refine ⟨k1 + k2, ?_⟩
  rw [← List.replicate_append_replicate, ← List.append_assoc, h1, List.append_assoc, h2, List.append_assoc]

/-- Moving no sample before or after changes nothing. -/
theorem Took.congr {b b' b1 b1' : Bus} {l : List Level} (h : Took b l b') (h1 : b1.samples = b.samples)
    (h2 : b1'.samples = b'.samples) : Took b1 l b1' := by
  obtain ⟨k, h⟩ := h; exact ⟨k, by rw [h1, h2, h]⟩

theorem sample_took (b : Bus) : Took b [b.sample.1] b.sample.2 := by
  cases h : b.samples with
  | nil => exact ⟨1, by simp [Bus.sample, h]⟩
  | cons v rest => exact ⟨0, by simp [Bus.sample, h]⟩

/-! ## Acknowledge slots -/

@[simp] theorem abortActions_events (c : Config) (b : Bus) : (abortActions c b).events = b.events := by
  unfold abortActions; split <;> simp

@[simp] theorem abortActions_samples (c : Config) (b : Bus) : (abortActions c b).samples = b.samples := by
  unfold abortActions; split <;> simp

@[simp] theorem ackOrAbort_events (c : Config) (b : Bus) : (ackOrAbort c b).2.events = b.events := by
  have h := slaveAck_events c b
  unfold ackOrAbort
  split <;> rename_i h' <;> rw [h'] at h <;> simpa using h

/-- A slot acknowledged within the bound goes on (R114). -/
theorem ackOrAbort_acked (c : Config) (j : Nat) (b : Bus) (rest : List Level)
    (h : b.samples = List.replicate j true ++ (false :: rest)) (hj : j < c.ackPollMax) :
    ∃ b', ackOrAbort c b = (.ok (), b') ∧ b'.samples = rest := by
  have h1 := ackPoll_acked c c.ackPollMax j (b.acts [.sdaRelease, .sclDrive true]) rest (by simpa using h) hj
  rw [ackOrAbort, slaveAck, h1]
  exact ⟨_, rfl, by simp⟩

/-- A slot of `ACK_POLL_MAX` samples of 1 raises `ACK_FAIL_STATUS` (R114). -/
theorem ackOrAbort_missed (c : Config) (b : Bus) (rest : List Level)
    (h : b.samples = List.replicate c.ackPollMax true ++ rest) :
    ∃ b', ackOrAbort c b = (.err (ackFailStatus c), b') ∧ b'.samples = rest := by
  have h1 := ackPoll_missed c c.ackPollMax (b.acts [.sdaRelease, .sclDrive true]) rest (by simpa using h)
  rw [ackOrAbort, slaveAck, h1]
  exact ⟨_, rfl, by simp⟩

theorem ackPoll_cases (c : Config) (n : Nat) (b : Bus) :
    (∃ j, j < n ∧ (ackPoll c n b).1 = true ∧ Took b (List.replicate j true ++ [false]) (ackPoll c n b).2) ∨
      ((ackPoll c n b).1 = false ∧ Took b (List.replicate n true) (ackPoll c n b).2) := by
  induction n generalizing b with
  | zero => exact .inr ⟨rfl, .nil rfl⟩
  | succ n ih =>
    have ht := sample_took b
    rw [ackPoll]
    split <;> rename_i b1 h <;> rw [h] at ht
    · exact .inl ⟨0, by omega, rfl, ht⟩
    · obtain ⟨j, hj, h1, h2⟩ | ⟨h1, h2⟩ := ih (b1.act (.hold c.tAckPoll))
      · exact .inl ⟨j + 1, by omega, h1, ht.trans (h2.congr (Bus.act_samples _ _).symm rfl)⟩
      · exact .inr ⟨h1, ht.trans (h2.congr (Bus.act_samples _ _).symm rfl)⟩

/-- `ack_or_abort()`, for every oracle (R114). -/
theorem ackOrAbort_cases (c : Config) (b : Bus) :
    (∃ j, j < c.ackPollMax ∧ (ackOrAbort c b).1 = .ok () ∧ Took b (List.replicate j true ++ [false]) (ackOrAbort c b).2) ∨
      ((ackOrAbort c b).1 = .err (ackFailStatus c) ∧ Took b (List.replicate c.ackPollMax true) (ackOrAbort c b).2) := by
  have hp := ackPoll_cases c c.ackPollMax (b.acts [.sdaRelease, .sclDrive true])
  rw [ackOrAbort, slaveAck]
  generalize ackPoll c c.ackPollMax (b.acts [.sdaRelease, .sclDrive true]) = p at hp
  obtain ⟨acked, b1⟩ := p
  obtain ⟨j, hj, h1, h2⟩ | ⟨h1, h2⟩ := hp <;> simp only at h1 <;> subst h1
  · exact .inl ⟨j, hj, rfl, h2.congr (Bus.acts_samples _ _).symm (Bus.act_samples _ _)⟩
  · exact .inr ⟨rfl, h2.congr (Bus.acts_samples _ _).symm (by simp)⟩

/-! ## Bytes sent -/

theorem sendBytes_acked (c : Config) (bytes : List Byte) (b : Bus) (l rest : List Level)
    (hl : AckSlots c bytes.length l) (h : b.samples = l ++ rest) :
    ∃ b', sendBytes c bytes b = (.ok (), b') ∧ b'.samples = rest := by
  induction bytes generalizing b l with
  | nil => simp only [List.length_nil, AckSlots] at hl; subst hl; exact ⟨b, rfl, by simpa using h⟩
  | cons v bytes ih =>
    obtain ⟨j, l', hj, rfl, hl'⟩ := hl
    obtain ⟨b1, h1, hs⟩ := ackOrAbort_acked c j (writeByte c v b) (l' ++ rest) (by simpa using h) hj
    rw [sendBytes, h1]
    exact ih b1 l' hl' hs

theorem sendBytes_failed (c : Config) (bytes : List Byte) (b : Bus) (l rest : List Level)
    (hl : AckFails c bytes.length l) (h : b.samples = l ++ rest) :
    ∃ b', sendBytes c bytes b = (.err (ackFailStatus c), b') ∧ b'.samples = rest := by
  obtain ⟨k, pre, hk, hpre, rfl⟩ := hl
  induction bytes generalizing b k pre with
  | nil => simp at hk
  | cons v bytes ih =>
    cases k with
    | zero =>
      simp only [AckSlots] at hpre
      subst hpre
      obtain ⟨b1, h1, hs⟩ := ackOrAbort_missed c (writeByte c v b) rest (by simpa using h)
      exact ⟨b1, by rw [sendBytes, h1], hs⟩
    | succ k =>
      obtain ⟨j, l', hj, rfl, hl'⟩ := hpre
      obtain ⟨b1, h1, hs⟩ := ackOrAbort_acked c j (writeByte c v b) (l' ++ List.replicate c.ackPollMax true ++ rest)
        (by simpa using h) hj
      rw [sendBytes, h1]
      exact ih b1 k l' (by simpa using hk) hl' hs

@[simp] theorem sendBytes_events (c : Config) (bytes : List Byte) (b : Bus) : (sendBytes c bytes b).2.events = b.events := by
  induction bytes generalizing b with
  | nil => rfl
  | cons v bytes ih =>
    have h := ackOrAbort_events c (writeByte c v b)
    rw [sendBytes]
    split <;> rename_i h' <;> rw [h'] at h
    · rw [ih]; simpa using h
    · simpa using h

/-- Bytes sent, for every oracle: all acknowledged, or the first missing acknowledge raises `ACK_FAIL_STATUS` (R114). -/
theorem sendBytes_cases (c : Config) (bytes : List Byte) (b : Bus) :
    (∃ l, (sendBytes c bytes b).1 = .ok () ∧ AckSlots c bytes.length l ∧ Took b l (sendBytes c bytes b).2) ∨
      (∃ l, (sendBytes c bytes b).1 = .err (ackFailStatus c) ∧ AckFails c bytes.length l ∧
        Took b l (sendBytes c bytes b).2) := by
  induction bytes generalizing b with
  | nil => exact .inl ⟨[], rfl, rfl, .nil rfl⟩
  | cons v bytes ih =>
    have ha := ackOrAbort_cases c (writeByte c v b)
    rw [sendBytes]
    split <;> rename_i h' <;> rw [h'] at ha
    · rename_i b1
      obtain ⟨j, hj, -, h2⟩ | ⟨h1, -⟩ := ha
      · have h2 := h2.congr (writeByte_samples c v b).symm rfl
        obtain ⟨l, h3, h4, h5⟩ | ⟨l, h3, ⟨k, pre, hk, hpre, rfl⟩, h5⟩ := ih b1
        · exact .inl ⟨_, h3, ⟨j, l, hj, by simp, h4⟩, h2.trans h5⟩
        · exact .inr ⟨_, h3, ⟨k + 1, _, by simpa using hk, ⟨j, pre, hj, rfl, hpre⟩, by simp⟩, h2.trans h5⟩
      · simp at h1
    · obtain ⟨j, hj, h1, -⟩ | ⟨h1, h2⟩ := ha
      · simp at h1
      · simp only [Res.err.injEq] at h1
        exact .inr ⟨_, by rw [h1], ⟨0, [], by simp, rfl, rfl⟩, h2.congr (writeByte_samples c v b).symm rfl⟩

/-! ## Bytes read -/

theorem readBits_events (c : Config) (n : Nat) (acc : Byte) (b : Bus) : (readBits c n acc b).2.events = b.events := by
  induction n generalizing acc b with
  | zero => rfl
  | succ n ih => rw [readBits]; simp only; rw [ih]; simp

@[simp] theorem readByte_events (c : Config) (b : Bus) : (readByte c b).2.events = b.events := by
  rw [readByte, readBits_events]; simp

/-- The bit loop takes one answer per bit, the first becoming the most significant (R93). -/
theorem readBits_bits (c : Config) (bits : List Level) (acc : Byte) (b : Bus) (rest : List Level)
    (h : b.samples = bits ++ rest) :
    (readBits c bits.length acc b).1 = bits.foldl shiftIn acc ∧ (readBits c bits.length acc b).2.samples = rest := by
  induction bits generalizing acc b with
  | nil => exact ⟨rfl, by simpa [readBits] using h⟩
  | cons v bits ih =>
    rw [List.length_cons, readBits, Bus.sample_cons _ v (bits ++ rest) (by simpa using h)]
    exact ih _ _ (by simp)

theorem readBits_cases (c : Config) (n : Nat) (acc : Byte) (b : Bus) :
    ∃ bits, bits.length = n ∧ (readBits c n acc b).1 = bits.foldl shiftIn acc ∧ Took b bits (readBits c n acc b).2 := by
  induction n generalizing acc b with
  | zero => exact ⟨[], rfl, rfl, .nil rfl⟩
  | succ n ih =>
    rw [readBits]
    have ht := sample_took (b.acts [.sclDrive false, .hold c.tRdLow, .sclDrive true, .hold c.tRdHigh])
    generalize (b.acts [.sclDrive false, .hold c.tRdLow, .sclDrive true, .hold c.tRdHigh]).sample = p at ht
    obtain ⟨bit, b1⟩ := p
    obtain ⟨bits, h1, h2, h3⟩ := ih (shiftIn acc bit) (b1.act (.hold c.tHold))
    exact ⟨bit :: bits, by simp [h1], h2,
      (ht.congr (Bus.acts_samples _ _).symm rfl).trans (h3.congr (Bus.act_samples _ _).symm rfl)⟩

/-- Eight bits are the wire bits of the byte they shift in. -/
theorem byteBits_byteOfBits (bits : List Bool) (h : bits.length = 8) : byteBits (byteOfBits bits) = bits := by
  match bits, h with
  | [b7, b6, b5, b4, b3, b2, b1, b0], _ =>
    cases b7 <;> cases b6 <;> cases b5 <;> cases b4 <;> cases b3 <;> cases b2 <;> cases b1 <;> cases b0 <;> rfl

/-- `readByte()` gives the byte whose wire bits the slave supplies (R93). -/
theorem readByte_bits (c : Config) (v : Byte) (b : Bus) (rest : List Level) (h : b.samples = byteBits v ++ rest) :
    ∃ b', readByte c b = (v, b') ∧ b'.samples = rest := by
  obtain ⟨h1, h2⟩ := readBits_bits c (byteBits v) 0 (b.act .sdaRelease) rest (by simpa using h)
  refine ⟨(readByte c b).2, ?_, h2⟩
  have h3 : (readByte c b).1 = v := h1.trans (byteOfBits_byteBits v)
  rw [← h3]

/-- `readByte()`, for every oracle: the samples taken are the wire bits of its result (R93). -/
theorem readByte_took (c : Config) (b : Bus) : Took b (byteBits (readByte c b).1) (readByte c b).2 := by
  obtain ⟨bits, h1, h2, h3⟩ := readBits_cases c 8 0 (b.act .sdaRelease)
  have h4 : byteBits (readByte c b).1 = bits := by
    rw [show (readByte c b).1 = byteOfBits bits from h2, byteBits_byteOfBits bits h1]
  rw [h4]
  exact h3.congr (Bus.act_samples _ _).symm rfl

@[simp] theorem readBytes_events (c : Config) (n : Nat) (b : Bus) : (readBytes c n b).2.events = b.events := by
  induction n generalizing b with
  | zero => rfl
  | succ n ih =>
    rw [readBytes]; simp only; rw [ih]
    split <;> simp

theorem readBytes_length (c : Config) (n : Nat) (b : Bus) : (readBytes c n b).1.length = n := by
  induction n generalizing b with
  | zero => rfl
  | succ n ih => rw [readBytes]; simp [ih]

theorem readBytes_bytes (c : Config) (bytes : List Byte) (b : Bus) (rest : List Level)
    (h : b.samples = bytes.flatMap byteBits ++ rest) :
    ∃ b', readBytes c bytes.length b = (bytes, b') ∧ b'.samples = rest := by
  induction bytes generalizing b with
  | nil => exact ⟨b, rfl, by simpa using h⟩
  | cons v bytes ih =>
    obtain ⟨b1, h1, hs⟩ := readByte_bits c v b (bytes.flatMap byteBits ++ rest) (by simpa using h)
    obtain ⟨b2, h2, hs2⟩ := ih (if bytes.length = 0 then masterNotAck c b1 else masterAck c b1)
      (by split <;> simpa using hs)
    refine ⟨b2, ?_, hs2⟩
    rw [List.length_cons, readBytes, h1]; simp only; rw [h2]

theorem readBytes_took (c : Config) (n : Nat) (b : Bus) :
    Took b ((readBytes c n b).1.flatMap byteBits) (readBytes c n b).2 := by
  induction n generalizing b with
  | zero => exact .nil rfl
  | succ n ih =>
    have h := readByte_took c b
    rw [readBytes]
    simp only [List.flatMap_cons]
    exact h.trans ((ih _).congr (by split <;> simp) rfl)

/-! ## Frames -/

@[simp] theorem writeFrameOnBus_events (c : Config) (a : RegAddr) (data : List Byte) (b : Bus) :
    (writeFrameOnBus c a data b).2.events = b.events := by
  have h := sendBytes_events c (addrW c.chipAddr :: regByte a :: data) (start c b)
  rw [writeFrameOnBus]
  split <;> rename_i h' <;> rw [h'] at h <;> simpa using h

/-- A write-direction transaction, for every oracle (R66, R68, R114): acknowledged throughout and then stopped, or ended
by the first missing acknowledge. -/
theorem writeFrameOnBus_cases (c : Config) (a : RegAddr) (data : List Byte) (b : Bus) :
    (∃ l, (writeFrameOnBus c a data b).1 = .ok () ∧ AckSlots c (2 + data.length) l ∧
        Took b l (writeFrameOnBus c a data b).2) ∨
      (∃ l, (writeFrameOnBus c a data b).1 = .err (ackFailStatus c) ∧ AckFails c (2 + data.length) l ∧
        Took b l (writeFrameOnBus c a data b).2) := by
  have h := sendBytes_cases c (addrW c.chipAddr :: regByte a :: data) (start c b)
  rw [show (addrW c.chipAddr :: regByte a :: data).length = 2 + data.length by simp; omega] at h
  rw [writeFrameOnBus]
  split <;> rename_i h' <;> rw [h'] at h
  · obtain ⟨l, -, h2, h3⟩ | ⟨l, h1, -⟩ := h
    · exact .inl ⟨l, rfl, h2, h3.congr (start_samples c b).symm (stop_samples c _)⟩
    · simp at h1
  · obtain ⟨l, h1, -⟩ | ⟨l, h1, h2, h3⟩ := h
    · simp at h1
    · simp only [Res.err.injEq] at h1
      exact .inr ⟨l, by rw [h1], h2, h3.congr (start_samples c b).symm rfl⟩

theorem writeFrameOnBus_acked (c : Config) (a : RegAddr) (data : List Byte) (b : Bus) (l rest : List Level)
    (hl : AckSlots c (2 + data.length) l) (h : b.samples = l ++ rest) :
    ∃ b', writeFrameOnBus c a data b = (.ok (), b') ∧ b'.samples = rest ∧ BusIdle b' := by
  obtain ⟨b1, h1, hs⟩ := sendBytes_acked c (addrW c.chipAddr :: regByte a :: data) (start c b) l rest
    (by rw [show (addrW c.chipAddr :: regByte a :: data).length = 2 + data.length by simp; omega]; exact hl)
    (by simpa using h)
  exact ⟨stop c b1, by rw [writeFrameOnBus, h1], by simpa using hs, stop_idle c b1⟩

theorem writeFrameOnBus_failed (c : Config) (a : RegAddr) (data : List Byte) (b : Bus) (l rest : List Level)
    (hl : AckFails c (2 + data.length) l) (h : b.samples = l ++ rest) :
    ∃ b', writeFrameOnBus c a data b = (.err (ackFailStatus c), b') ∧ b'.samples = rest := by
  obtain ⟨b1, h1, hs⟩ := sendBytes_failed c (addrW c.chipAddr :: regByte a :: data) (start c b) l rest
    (by rw [show (addrW c.chipAddr :: regByte a :: data).length = 2 + data.length by simp; omega]; exact hl)
    (by simpa using h)
  exact ⟨b1, by rw [writeFrameOnBus, h1], hs⟩

/-- Slots one after the other. -/
theorem AckSlots.add {c : Config} {m n : Nat} {l l' : List Level} (h : AckSlots c m l) (h' : AckSlots c n l') :
    AckSlots c (m + n) (l ++ l') := by
  induction m generalizing l with
  | zero => simp only [AckSlots] at h; subst h; simpa using h'
  | succ m ih =>
    obtain ⟨j, rest, hj, rfl, hr⟩ := h
    rw [Nat.succ_add]
    exact ⟨j, rest ++ l', hj, by simp, ih hr⟩

theorem AckSlots.split {c : Config} {m n : Nat} {l : List Level} (h : AckSlots c (m + n) l) :
    ∃ l1 l2, l = l1 ++ l2 ∧ AckSlots c m l1 ∧ AckSlots c n l2 := by
  induction m generalizing l with
  | zero => exact ⟨[], l, rfl, rfl, by simpa using h⟩
  | succ m ih =>
    rw [Nat.succ_add] at h
    obtain ⟨j, rest, hj, rfl, hr⟩ := h
    obtain ⟨l1, l2, rfl, h1, h2⟩ := ih hr
    exact ⟨_, l2, by simp, ⟨j, l1, hj, rfl, h1⟩, h2⟩

@[simp] theorem readFrameOnBus_events (c : Config) (a : RegAddr) (n : Nat) (b : Bus) :
    (readFrameOnBus c a n b).2.events = b.events := by
  have h := writeFrameOnBus_events c a [] b
  rw [readFrameOnBus]
  split
  · rename_i h'; rw [h'] at h; exact h
  · rename_i b1 h'
    rw [h'] at h
    have h2 := sendBytes_events c [addrR c.chipAddr] (start c b1)
    split <;> rename_i h3 <;> rw [h3] at h2
    · rw [← h]; simpa using h2
    · simp only [stop_events, readBytes_events]; rw [← h]; simpa using h2

/-- A read of `n` bytes, for every oracle (R67, R69, R114). -/
theorem readFrameOnBus_cases (c : Config) (a : RegAddr) (n : Nat) (b : Bus) :
    (∃ bytes l, bytes.length = n ∧ (readFrameOnBus c a n b).1 = .ok bytes ∧ AckSlots c 3 l ∧
        Took b (l ++ bytes.flatMap byteBits) (readFrameOnBus c a n b).2) ∨
      (∃ l, (readFrameOnBus c a n b).1 = .err (ackFailStatus c) ∧ AckFails c 3 l ∧
        Took b l (readFrameOnBus c a n b).2) := by
  have h := writeFrameOnBus_cases c a [] b
  rw [readFrameOnBus]
  split
  · rename_i h'
    rw [h'] at h
    obtain ⟨l, h1, -⟩ | ⟨l, h1, ⟨k, pre, hk, h2⟩, h3⟩ := h
    · simp at h1
    · simp only [Res.err.injEq] at h1
      exact .inr ⟨l, by rw [h1], ⟨k, pre, by simp only [List.length_nil] at hk; omega, h2⟩, h3⟩
  · rename_i b1 h'
    rw [h'] at h
    obtain ⟨l, -, hl, ht⟩ | ⟨l, h1, -⟩ := h
    · have h2 := sendBytes_cases c [addrR c.chipAddr] (start c b1)
      split <;> rename_i h3 <;> rw [h3] at h2
      · obtain ⟨l', h1, -⟩ | ⟨l', h1, ⟨k, pre, hk, hpre, hl'⟩, ht'⟩ := h2
        · simp at h1
        · simp only [Res.err.injEq] at h1
          refine .inr ⟨l ++ l', by rw [h1], ⟨2 + k, l ++ pre, by simp at hk; omega, hl.add hpre, by simp [hl']⟩, ?_⟩
          exact ht.trans (ht'.congr (start_samples c b1).symm rfl)
      · rename_i b2
        obtain ⟨l', -, hl', ht'⟩ | ⟨l', h1, -⟩ := h2
        · refine .inl ⟨_, l ++ l', readBytes_length c n b2, rfl, hl.add hl', ?_⟩
          exact (ht.trans (ht'.congr (start_samples c b1).symm rfl)).trans
            ((readBytes_took c n b2).congr rfl (stop_samples c _))
        · simp at h1
    · simp at h1

theorem readFrameOnBus_acked (c : Config) (a : RegAddr) (bytes : List Byte) (b : Bus) (l rest : List Level)
    (hl : AckSlots c 3 l) (h : b.samples = l ++ bytes.flatMap byteBits ++ rest) :
    ∃ b', readFrameOnBus c a bytes.length b = (.ok bytes, b') ∧ b'.samples = rest ∧ BusIdle b' := by
  obtain ⟨l1, l2, rfl, hl1, hl2⟩ := AckSlots.split (m := 2) (n := 1) hl
  obtain ⟨b1, h1, hs, -⟩ := writeFrameOnBus_acked c a [] b l1 (l2 ++ (bytes.flatMap byteBits ++ rest)) hl1
    (by simpa using h)
  obtain ⟨b2, h2, hs2⟩ := sendBytes_acked c [addrR c.chipAddr] (start c b1) l2 (bytes.flatMap byteBits ++ rest) hl2
    (by simpa using hs)
  obtain ⟨b3, h3, hs3⟩ := readBytes_bytes c bytes b2 rest hs2
  refine ⟨stop c b3, ?_, by simpa using hs3, stop_idle c b3⟩
  rw [readFrameOnBus, h1]; simp only; rw [h2]; simp only; rw [h3]

theorem readFrameOnBus_failed (c : Config) (a : RegAddr) (n : Nat) (b : Bus) (l rest : List Level)
    (hl : AckFails c 3 l) (h : b.samples = l ++ rest) :
    ∃ b', readFrameOnBus c a n b = (.err (ackFailStatus c), b') ∧ b'.samples = rest := by
  obtain ⟨k, pre, hk, hpre, rfl⟩ := hl
  by_cases hk2 : k < 2
  · obtain ⟨b1, h1, hs⟩ := writeFrameOnBus_failed c a [] b _ rest ⟨k, pre, hk2, hpre, rfl⟩ h
    exact ⟨b1, by rw [readFrameOnBus, h1], hs⟩
  · obtain rfl : k = 2 := by omega
    obtain ⟨b1, h1, hs, -⟩ := writeFrameOnBus_acked c a [] b pre (List.replicate c.ackPollMax true ++ rest) hpre
      (by simpa using h)
    obtain ⟨b2, h2, hs2⟩ := sendBytes_failed c [addrR c.chipAddr] (start c b1) _ rest
      ⟨0, [], by simp, rfl, rfl⟩ (by simpa using hs)
    exact ⟨b2, by rw [readFrameOnBus, h1]; simp only; rw [h2], hs2⟩

/-! ## Register operations, for every oracle (41_register_access.md R116) -/

/-- One event happened between two buses, brought about by the samples taken. -/
def Happened (c : Config) (b : Bus) (e : RegEvent) (b' : Bus) : Prop :=
  b'.events = e :: b.events ∧ ∃ l, EventBrings c e l ∧ Took b l b'

/-- `writeRegister` (R111). -/
theorem writeRegister_cases (c : Config) (a : RegAddr) (v : Byte) (b : Bus) :
    ∃ acked, (writeRegister c a v b).1 = writeOutcome c acked ∧
      Happened c b (.wr a v acked) (writeRegister c a v b).2 := by
  have h := writeFrameOnBus_cases c a [v] b
  have he := writeFrameOnBus_events c a [v] b
  rw [writeRegister]
  split <;> rename_i h' <;> rw [h'] at h he
  · obtain ⟨l, -, hl, ht⟩ | ⟨l, h1, -⟩ := h
    · exact ⟨true, rfl, by simpa using he, l, hl, ht⟩
    · simp at h1
  · obtain ⟨l, h1, -⟩ | ⟨l, h1, hl, ht⟩ := h
    · simp at h1
    · simp only [Res.err.injEq] at h1
      exact ⟨false, by rw [h1]; rfl, by simpa using he, l, hl, ht⟩

/-- `readRegister` (R110). -/
theorem readRegister_cases (c : Config) (a : RegAddr) (b : Bus) :
    ∃ r, (readRegister c a b).1 = readOutcome c r ∧ Happened c b (.rd a r) (readRegister c a b).2 := by
  have h := readFrameOnBus_cases c a 1 b
  have he := readFrameOnBus_events c a 1 b
  rw [readRegister]
  split <;> rename_i h' <;> rw [h'] at h he
  · rename_i bytes b1
    obtain ⟨bytes', l, hl, h1, h2, h3⟩ | ⟨l, h1, -⟩ := h
    · simp only [Res.ok.injEq] at h1
      subst h1
      match bytes, hl with
      | [v], _ =>
      have h4 : Took b (l ++ byteBits v) b1 := by simpa using h3
      exact ⟨some v, rfl, by simpa using he, _, ⟨l, h2, rfl⟩, h4⟩
    · simp at h1
  · obtain ⟨_, l, -, h1, -⟩ | ⟨l, h1, hl, ht⟩ := h
    · simp at h1
    · simp only [Res.err.injEq] at h1
      exact ⟨none, by rw [h1]; rfl, by simpa using he, l, hl, ht⟩

/-- `writeRegisterBurst` of at least one byte (R112). -/
theorem writeRegisterBurst_cases (c : Config) (a : RegAddr) (bytes : List Byte) (b : Bus) (hb : bytes ≠ []) :
    ∃ acked, (writeRegisterBurst c a bytes b).1 = writeOutcome c acked ∧
      Happened c b (.wrb a bytes acked) (writeRegisterBurst c a bytes b).2 := by
  have h := writeFrameOnBus_cases c a bytes b
  have he := writeFrameOnBus_events c a bytes b
  rw [writeRegisterBurst, if_neg hb]
  split <;> rename_i h' <;> rw [h'] at h he
  · obtain ⟨l, -, hl, ht⟩ | ⟨l, h1, -⟩ := h
    · exact ⟨true, rfl, by simpa using he, l, hl, ht⟩
    · simp at h1
  · obtain ⟨l, h1, -⟩ | ⟨l, h1, hl, ht⟩ := h
    · simp at h1
    · simp only [Res.err.injEq] at h1
      exact ⟨false, by rw [h1]; rfl, by simpa using he, l, hl, ht⟩

/-- `readRegisterBurst` of at least one byte (R113). -/
theorem readRegisterBurst_cases (c : Config) (a : RegAddr) (n : Nat) (b : Bus) (hn : n ≠ 0) :
    ∃ r, (r.all fun bytes => bytes.length == n) = true ∧ (readRegisterBurst c a n b).1 = readOutcome c r ∧
      Happened c b (.rdb a n r) (readRegisterBurst c a n b).2 := by
  have h := readFrameOnBus_cases c a n b
  have he := readFrameOnBus_events c a n b
  rw [readRegisterBurst, if_neg hn]
  split <;> rename_i h' <;> rw [h'] at h he
  · obtain ⟨bytes, l, hl, h1, h2, h3⟩ | ⟨l, h1, -⟩ := h
    · simp only [Res.ok.injEq] at h1
      subst h1
      exact ⟨some _, by simpa using hl, rfl, by simpa using he, _, ⟨l, h2, rfl⟩, h3⟩
    · simp at h1
  · obtain ⟨_, l, -, h1, -⟩ | ⟨l, h1, hl, ht⟩ := h
    · simp at h1
    · simp only [Res.err.injEq] at h1
      exact ⟨none, rfl, by rw [h1]; rfl, by simpa using he, l, hl, ht⟩

/-! ## Register operations, given the samples of an event -/

theorem writeRegister_event (c : Config) (a : RegAddr) (v : Byte) (acked : Bool) (b : Bus) (l rest : List Level)
    (hl : EventBrings c (.wr a v acked) l) (h : b.samples = l ++ rest) :
    ∃ b', writeRegister c a v b = (writeOutcome c acked, b') ∧ b'.samples = rest ∧
      b'.events = .wr a v acked :: b.events := by
  have he := writeFrameOnBus_events c a [v] b
  cases acked with
  | true =>
    obtain ⟨b1, h1, hs, -⟩ := writeFrameOnBus_acked c a [v] b l rest hl h
    rw [h1] at he
    rw [writeRegister, h1]
    exact ⟨_, rfl, hs, by simpa using he⟩
  | false =>
    obtain ⟨b1, h1, hs⟩ := writeFrameOnBus_failed c a [v] b l rest hl h
    rw [h1] at he
    rw [writeRegister, h1]
    exact ⟨_, rfl, hs, by simpa using he⟩

theorem readRegister_event (c : Config) (a : RegAddr) (r : Option Byte) (b : Bus) (l rest : List Level)
    (hl : EventBrings c (.rd a r) l) (h : b.samples = l ++ rest) :
    ∃ b', readRegister c a b = (readOutcome c r, b') ∧ b'.samples = rest ∧ b'.events = .rd a r :: b.events := by
  have he := readFrameOnBus_events c a 1 b
  cases r with
  | some v =>
    obtain ⟨pre, hpre, rfl⟩ := hl
    obtain ⟨b1, h1, hs, -⟩ := readFrameOnBus_acked c a [v] b pre rest hpre (by simpa using h)
    rw [List.length_singleton] at h1
    rw [h1] at he
    rw [readRegister, h1]
    exact ⟨_, rfl, hs, by simpa using he⟩
  | none =>
    obtain ⟨b1, h1, hs⟩ := readFrameOnBus_failed c a 1 b l rest hl h
    rw [h1] at he
    rw [readRegister, h1]
    exact ⟨_, rfl, hs, by simpa using he⟩

theorem writeRegisterBurst_event (c : Config) (a : RegAddr) (bytes : List Byte) (acked : Bool) (b : Bus)
    (l rest : List Level) (hb : bytes ≠ []) (hl : EventBrings c (.wrb a bytes acked) l) (h : b.samples = l ++ rest) :
    ∃ b', writeRegisterBurst c a bytes b = (writeOutcome c acked, b') ∧ b'.samples = rest ∧
      b'.events = .wrb a bytes acked :: b.events := by
  have he := writeFrameOnBus_events c a bytes b
  cases acked with
  | true =>
    obtain ⟨b1, h1, hs, -⟩ := writeFrameOnBus_acked c a bytes b l rest hl h
    rw [h1] at he
    rw [writeRegisterBurst, if_neg hb, h1]
    exact ⟨_, rfl, hs, by simpa using he⟩
  | false =>
    obtain ⟨b1, h1, hs⟩ := writeFrameOnBus_failed c a bytes b l rest hl h
    rw [h1] at he
    rw [writeRegisterBurst, if_neg hb, h1]
    exact ⟨_, rfl, hs, by simpa using he⟩

theorem readRegisterBurst_event (c : Config) (a : RegAddr) (n : Nat) (r : Option (List Byte)) (b : Bus)
    (l rest : List Level) (hn : n ≠ 0) (hr : (r.all fun bytes => bytes.length == n) = true)
    (hl : EventBrings c (.rdb a n r) l) (h : b.samples = l ++ rest) :
    ∃ b', readRegisterBurst c a n b = (readOutcome c r, b') ∧ b'.samples = rest ∧
      b'.events = .rdb a n r :: b.events := by
  have he := readFrameOnBus_events c a n b
  cases r with
  | some bytes =>
    have hlen : bytes.length = n := by simpa using hr
    obtain ⟨pre, hpre, rfl⟩ := hl
    obtain ⟨b1, h1, hs, -⟩ := readFrameOnBus_acked c a bytes b pre rest hpre h
    rw [hlen] at h1
    rw [h1] at he
    rw [readRegisterBurst, if_neg hn, h1]
    exact ⟨_, rfl, hs, by simpa using he⟩
  | none =>
    obtain ⟨b1, h1, hs⟩ := readFrameOnBus_failed c a n b l rest hl h
    rw [h1] at he
    rw [readRegisterBurst, if_neg hn, h1]
    exact ⟨_, rfl, hs, by simpa using he⟩

/-! ## The lines after a register operation (70_reset_and_hazards.md R222) -/

/-- The lines after an abort: the idle bus with `ABORT_STOP`, else clock 0 and data released (41_register_access.md R114). -/
def Aborted (c : Config) (b : Bus) : Prop :=
  if c.abortStop then BusIdle b else b.scl = false ∧ b.sdaDir = .inp

theorem ackOrAbort_aborted (c : Config) (b b' : Bus) (st : Status) (h : ackOrAbort c b = (.err st, b')) :
    Aborted c b' := by
  have hl := slaveAck_lines c b
  rw [ackOrAbort] at h
  generalize slaveAck c b = p at h hl
  obtain ⟨acked, b1⟩ := p
  cases acked with
  | true => simp at h
  | false =>
    simp only [Prod.mk.injEq] at h
    rw [← h.2, abortActions, Aborted]
    split
    · exact stop_idle c b1
    · exact ⟨hl.1, hl.2.1⟩

theorem sendBytes_aborted (c : Config) (bytes : List Byte) (b b' : Bus) (st : Status)
    (h : sendBytes c bytes b = (.err st, b')) : Aborted c b' := by
  induction bytes generalizing b with
  | nil => simp [sendBytes] at h
  | cons v bytes ih =>
    rw [sendBytes] at h
    generalize he : ackOrAbort c (writeByte c v b) = p at h
    obtain ⟨r, b1⟩ := p
    cases r with
    | ok u => exact ih b1 h
    | err st1 =>
      simp only [Prod.mk.injEq] at h
      obtain ⟨-, rfl⟩ := h
      exact ackOrAbort_aborted c _ _ _ he

/-- A write-direction transaction ends on the idle bus, or aborted. -/
theorem writeFrameOnBus_lines (c : Config) (a : RegAddr) (data : List Byte) (b b' : Bus) (r : Res Unit)
    (h : writeFrameOnBus c a data b = (r, b')) : (r = .ok () → BusIdle b') ∧ (r ≠ .ok () → Aborted c b') := by
  rw [writeFrameOnBus] at h
  generalize he : sendBytes c (addrW c.chipAddr :: regByte a :: data) (start c b) = p at h
  obtain ⟨r1, b1⟩ := p
  cases r1 with
  | ok u =>
    simp only [Prod.mk.injEq] at h
    obtain ⟨rfl, rfl⟩ := h
    exact ⟨fun _ => stop_idle c b1, fun hr => absurd rfl hr⟩
  | err st =>
    simp only [Prod.mk.injEq] at h
    obtain ⟨rfl, rfl⟩ := h
    exact ⟨fun hr => by simp at hr, fun _ => sendBytes_aborted c _ _ _ _ he⟩

/-- The two transactions of a read end on the idle bus, or aborted. -/
theorem readFrameOnBus_lines (c : Config) (a : RegAddr) (n : Nat) (b b' : Bus) (r : Res (List Byte))
    (h : readFrameOnBus c a n b = (r, b')) :
    (∀ bytes, r = .ok bytes → BusIdle b') ∧ (∀ st, r = .err st → Aborted c b') := by
  rw [readFrameOnBus] at h
  generalize hw : writeFrameOnBus c a [] b = p at h
  obtain ⟨r1, b1⟩ := p
  have hl := writeFrameOnBus_lines c a [] b b1 r1 hw
  cases r1 with
  | err st =>
    simp only [Prod.mk.injEq] at h
    obtain ⟨rfl, rfl⟩ := h
    exact ⟨fun _ hr => by simp at hr, fun _ _ => hl.2 (by simp)⟩
  | ok u =>
    simp only at h
    generalize hs : sendBytes c [addrR c.chipAddr] (start c b1) = q at h
    obtain ⟨r2, b2⟩ := q
    cases r2 with
    | err st =>
      simp only [Prod.mk.injEq] at h
      obtain ⟨rfl, rfl⟩ := h
      exact ⟨fun _ hr => by simp at hr, fun _ _ => sendBytes_aborted c _ _ _ _ hs⟩
    | ok u =>
      simp only [Prod.mk.injEq] at h
      obtain ⟨rfl, rfl⟩ := h
      exact ⟨fun _ _ => stop_idle c _, fun _ hr => by simp at hr⟩

theorem writeRegister_lines (c : Config) (a : RegAddr) (v : Byte) (b b' : Bus) (r : Res Unit)
    (h : writeRegister c a v b = (r, b')) : (r = .ok () → BusIdle b') ∧ (r ≠ .ok () → Aborted c b') := by
  rw [writeRegister] at h
  generalize hw : writeFrameOnBus c a [v] b = p at h
  obtain ⟨r1, b1⟩ := p
  have hl := writeFrameOnBus_lines c a [v] b b1 r1 hw
  cases r1 <;> simp only [Prod.mk.injEq] at h <;> obtain ⟨rfl, rfl⟩ := h
  · exact ⟨fun _ => hl.1 rfl, fun hr => absurd rfl hr⟩
  · exact ⟨fun hr => by simp at hr, fun _ => hl.2 (by simp)⟩

theorem readRegister_lines (c : Config) (a : RegAddr) (b b' : Bus) (r : Res Byte) (h : readRegister c a b = (r, b')) :
    (∀ v, r = .ok v → BusIdle b') ∧ (∀ st, r = .err st → Aborted c b') := by
  rw [readRegister] at h
  generalize hw : readFrameOnBus c a 1 b = p at h
  obtain ⟨r1, b1⟩ := p
  have hl := readFrameOnBus_lines c a 1 b b1 r1 hw
  cases r1 <;> simp only [Prod.mk.injEq] at h <;> obtain ⟨rfl, rfl⟩ := h
  · exact ⟨fun _ _ => hl.1 _ rfl, fun _ hr => by simp at hr⟩
  · exact ⟨fun _ hr => by simp at hr, fun _ _ => hl.2 _ rfl⟩

theorem writeRegisterBurst_lines (c : Config) (a : RegAddr) (bytes : List Byte) (b b' : Bus) (r : Res Unit)
    (hb : bytes ≠ []) (h : writeRegisterBurst c a bytes b = (r, b')) :
    (r = .ok () → BusIdle b') ∧ (r ≠ .ok () → Aborted c b') := by
  rw [writeRegisterBurst, if_neg hb] at h
  generalize hw : writeFrameOnBus c a bytes b = p at h
  obtain ⟨r1, b1⟩ := p
  have hl := writeFrameOnBus_lines c a bytes b b1 r1 hw
  cases r1 <;> simp only [Prod.mk.injEq] at h <;> obtain ⟨rfl, rfl⟩ := h
  · exact ⟨fun _ => hl.1 rfl, fun hr => absurd rfl hr⟩
  · exact ⟨fun hr => by simp at hr, fun _ => hl.2 (by simp)⟩

theorem readRegisterBurst_lines (c : Config) (a : RegAddr) (n : Nat) (b b' : Bus) (r : Res (List Byte)) (hn : n ≠ 0)
    (h : readRegisterBurst c a n b = (r, b')) :
    (∀ bytes, r = .ok bytes → BusIdle b') ∧ (∀ st, r = .err st → Aborted c b') := by
  rw [readRegisterBurst, if_neg hn] at h
  generalize hw : readFrameOnBus c a n b = p at h
  obtain ⟨r1, b1⟩ := p
  have hl := readFrameOnBus_lines c a n b b1 r1 hw
  cases r1 <;> simp only [Prod.mk.injEq] at h <;> obtain ⟨rfl, rfl⟩ := h
  · exact ⟨fun _ _ => hl.1 _ rfl, fun _ hr => by simp at hr⟩
  · exact ⟨fun _ hr => by simp at hr, fun _ _ => hl.2 _ rfl⟩

end Sys2Proof.Machine
end

