-- ==== Sys2Proof/Laws/Prog.lean ====
section
/-! SUPPORT. Register-level programs: sequencing, one lemma per event, and the passage from the register level to the
lines. Callers cite these instead of unfolding `runReg` and `runLine`. -/

namespace Sys2Proof.Machine

open Sys2Proof

/-! ## Sequencing -/

theorem runLine_bind {α β : Type} (c : Config) (p : Prog α) (f : α → Prog β) (b : Bus) :
    runLine c (p.bind f) b = runLine c (f (runLine c p b).1) (runLine c p b).2 := by
  induction p generalizing b with
  | ret v => rfl
  | rd a k ih => exact ih _ _
  | wr a v k ih => exact ih _ _
  | wrb a bytes k ih => exact ih _ _
  | rdb a n k ih => exact ih _ _
  | hold us k ih => exact ih _

/-! A run on a list of events, node by node: what the list must begin with. -/

theorem runReg_rd_iff {α : Type} {c : Config} {a : RegAddr} {k : Res Byte → Prog α} {es : List RegEvent}
    {x : α × List RegEvent} : runReg c (.rd a k) es = some x ↔
      ∃ r rest, es = .rd a r :: rest ∧ runReg c (k (readOutcome c r)) rest = some x := by
  rcases es with _ | ⟨e, es⟩
  · simp [runReg]
  · cases e <;> simp only [runReg, reduceCtorEq, List.cons.injEq, false_and, exists_false, RegEvent.rd.injEq]
    rename_i a' r
    by_cases h : a' = a <;> simp [h]

theorem runReg_wr_iff {α : Type} {c : Config} {a : RegAddr} {v : Byte} {k : Res Unit → Prog α} {es : List RegEvent}
    {x : α × List RegEvent} : runReg c (.wr a v k) es = some x ↔
      ∃ acked rest, es = .wr a v acked :: rest ∧ runReg c (k (writeOutcome c acked)) rest = some x := by
  rcases es with _ | ⟨e, es⟩
  · simp [runReg]
  · cases e <;> simp only [runReg, reduceCtorEq, List.cons.injEq, false_and, exists_false, RegEvent.wr.injEq]
    rename_i a' v' acked
    by_cases h : a' = a <;> by_cases h' : v' = v <;> simp [h, h']

theorem runReg_wrb_iff {α : Type} {c : Config} {a : RegAddr} {bytes : List Byte} {k : Res Unit → Prog α}
    {es : List RegEvent} {x : α × List RegEvent} (hb : bytes ≠ []) : runReg c (.wrb a bytes k) es = some x ↔
      ∃ acked rest, es = .wrb a bytes acked :: rest ∧ runReg c (k (writeOutcome c acked)) rest = some x := by
  rcases es with _ | ⟨e, es⟩
  · simp [runReg, hb]
  · cases e <;> simp only [runReg, hb, if_false, reduceCtorEq, List.cons.injEq, false_and, exists_false,
      RegEvent.wrb.injEq]
    rename_i a' bytes' acked
    by_cases h : a' = a <;> by_cases h' : bytes' = bytes <;> simp [h, h']

theorem runReg_wrb_nil {α : Type} (c : Config) (a : RegAddr) (k : Res Unit → Prog α) (es : List RegEvent) :
    runReg c (.wrb a [] k) es = runReg c (k (.ok ())) es := by rw [runReg.eq_def]; simp

theorem runReg_rdb_iff {α : Type} {c : Config} {a : RegAddr} {n : Nat} {k : Res (List Byte) → Prog α}
    {es : List RegEvent} {x : α × List RegEvent} (hn : n ≠ 0) : runReg c (.rdb a n k) es = some x ↔
      ∃ r rest, es = .rdb a n r :: rest ∧ (r.all fun bytes => bytes.length == n) = true ∧
        runReg c (k (readOutcome c r)) rest = some x := by
  rcases es with _ | ⟨e, es⟩
  · simp [runReg, hn]
  · cases e <;> simp only [runReg, hn, if_false, reduceCtorEq, List.cons.injEq, false_and, exists_false,
      RegEvent.rdb.injEq]
    rename_i a' n' r
    by_cases h : a' = a <;> by_cases h' : n' = n <;> simp [h, h']

theorem runReg_rdb_zero {α : Type} (c : Config) (a : RegAddr) (k : Res (List Byte) → Prog α) (es : List RegEvent) :
    runReg c (.rdb a 0 k) es = runReg c (k (.ok [])) es := by rw [runReg.eq_def]; simp

theorem runReg_hold_iff {α : Type} {c : Config} {us : Nat} {k : Prog α} {es : List RegEvent}
    {x : α × List RegEvent} : runReg c (.hold us k) es = some x ↔
      ∃ rest, es = .hold us :: rest ∧ runReg c k rest = some x := by
  rcases es with _ | ⟨e, es⟩
  · simp [runReg]
  · cases e <;> simp only [runReg, reduceCtorEq, List.cons.injEq, false_and, exists_false, RegEvent.hold.injEq]
    rename_i us'
    by_cases h : us' = us <;> simp [h]

/-- A part that ends, then the rest. -/
theorem runReg_seq {α β : Type} {c : Config} {p : Prog α} {f : α → Prog β} {es es' : List RegEvent} {v : α}
    (h : runReg c p es = some (v, es')) : runReg c (p.bind f) es = runReg c (f v) es' := by
  induction p generalizing es with
  | ret w =>
    simp only [runReg, Option.some.injEq, Prod.mk.injEq] at h
    obtain ⟨rfl, rfl⟩ := h
    rfl
  | rd a k ih =>
    obtain ⟨r, rest, rfl, h'⟩ := runReg_rd_iff.1 h
    simp only [Prog.bind, runReg, if_true]
    exact ih _ h'
  | wr a x k ih =>
    obtain ⟨r, rest, rfl, h'⟩ := runReg_wr_iff.1 h
    simp only [Prog.bind, runReg, and_self, if_true]
    exact ih _ h'
  | wrb a bytes k ih =>
    by_cases hb : bytes = []
    · subst hb
      rw [runReg_wrb_nil] at h
      rw [Prog.bind, runReg_wrb_nil]
      exact ih _ h
    · obtain ⟨r, rest, rfl, h'⟩ := (runReg_wrb_iff hb).1 h
      simp only [Prog.bind, runReg, hb, and_self, if_true, if_false]
      exact ih _ h'
  | rdb a n k ih =>
    by_cases hn : n = 0
    · subst hn
      rw [runReg_rdb_zero] at h
      rw [Prog.bind, runReg_rdb_zero]
      exact ih _ h
    · obtain ⟨r, rest, rfl, hl, h'⟩ := (runReg_rdb_iff hn).1 h
      simp only [Prog.bind, runReg, hn, hl, and_self, if_true, if_false]
      exact ih _ h'
  | hold us k ih =>
    obtain ⟨rest, rfl, h'⟩ := runReg_hold_iff.1 h
    simp only [Prog.bind, runReg, if_true]
    exact ih h'

/-- `try` of a part that ends in OK goes on with its value. -/
theorem runReg_try {α β : Type} {c : Config} {p : Prog (Res α)} {f : α → Prog (Res β)} {es es' : List RegEvent} {v : α}
    (h : runReg c p es = some (.ok v, es')) : runReg c (p.tryBind f) es = runReg c (f v) es' := runReg_seq h

/-- `try` of a part that raises, raises. -/
theorem runReg_try_err {α β : Type} {c : Config} {p : Prog (Res α)} {f : α → Prog (Res β)} {es es' : List RegEvent}
    {st : Status} (h : runReg c p es = some (.err st, es')) : runReg c (p.tryBind f) es = some (.err st, es') :=
  runReg_seq h

theorem runReg_done {α : Type} (c : Config) (v : α) (es : List RegEvent) :
    runReg c (Prog.done v) es = some (.ok v, es) := rfl

theorem runReg_raise {α : Type} (c : Config) (st : Status) (es : List RegEvent) :
    runReg c (Prog.raise st : Prog (Res α)) es = some (.err st, es) := rfl

/-! ## One event -/

theorem runReg_read (c : Config) (a : RegAddr) (v : Byte) (es : List RegEvent) :
    runReg c (Prog.read a) (.rd a (some v) :: es) = some (.ok v, es) := by simp [Prog.read, runReg, readOutcome]

theorem runReg_read_fail (c : Config) (a : RegAddr) (es : List RegEvent) :
    runReg c (Prog.read a) (.rd a none :: es) = some (.err (ackFailStatus c), es) := by
  simp [Prog.read, runReg, readOutcome]

theorem runReg_write (c : Config) (a : RegAddr) (v : Byte) (es : List RegEvent) :
    runReg c (Prog.write a v) (.wr a v true :: es) = some (.ok (), es) := by simp [Prog.write, runReg, writeOutcome]

theorem runReg_write_fail (c : Config) (a : RegAddr) (v : Byte) (es : List RegEvent) :
    runReg c (Prog.write a v) (.wr a v false :: es) = some (.err (ackFailStatus c), es) := by
  simp [Prog.write, runReg, writeOutcome]

theorem runReg_writeBurst (c : Config) (a : RegAddr) (bytes : List Byte) (es : List RegEvent) :
    runReg c (Prog.writeBurst a bytes) (burstWriteEvents a bytes ++ es) = some (.ok (), es) := by
  by_cases h : bytes = []
  · subst h; exact runReg_wrb_nil c a .ret es
  · simp [Prog.writeBurst, runReg, burstWriteEvents, h, writeOutcome]

theorem runReg_readBurst (c : Config) (a : RegAddr) (bytes : List Byte) (es : List RegEvent) :
    runReg c (Prog.readBurst a bytes.length) (burstReadEvents a bytes ++ es) = some (.ok bytes, es) := by
  by_cases h : bytes = []
  · subst h; exact runReg_rdb_zero c a .ret es
  · simp [Prog.readBurst, runReg, burstReadEvents, h, readOutcome]

/-- `try` of a read that completes. -/
theorem runReg_try_read {β : Type} (c : Config) (a : RegAddr) (v : Byte) (f : Byte → Prog (Res β)) (es : List RegEvent) :
    runReg c ((Prog.read a).tryBind f) (.rd a (some v) :: es) = runReg c (f v) es := runReg_try (runReg_read c a v es)

/-- `try` of a write that completes. -/
theorem runReg_try_write {β : Type} (c : Config) (a : RegAddr) (v : Byte) (f : Unit → Prog (Res β))
    (es : List RegEvent) : runReg c ((Prog.write a v).tryBind f) (.wr a v true :: es) = runReg c (f ()) es :=
  runReg_try (runReg_write c a v es)

/-- `try` of a burst write that completes. -/
theorem runReg_try_writeBurst {β : Type} (c : Config) (a : RegAddr) (bytes : List Byte) (f : Unit → Prog (Res β))
    (es : List RegEvent) :
    runReg c ((Prog.writeBurst a bytes).tryBind f) (burstWriteEvents a bytes ++ es) = runReg c (f ()) es :=
  runReg_try (runReg_writeBurst c a bytes es)

/-- `try` of a burst read that completes. -/
theorem runReg_try_readBurst {β : Type} (c : Config) (a : RegAddr) (bytes : List Byte) (n : Nat) (hn : bytes.length = n)
    (f : List Byte → Prog (Res β)) (es : List RegEvent) :
    runReg c ((Prog.readBurst a n).tryBind f) (burstReadEvents a bytes ++ es) = runReg c (f bytes) es := by
  subst hn; exact runReg_try (runReg_readBurst c a bytes es)

/-! ## From the register level to the lines -/

/-- Samples that bring a list of events about make the run on the lines the run on those events: the same result, the
events recorded, the samples after them left (00_scope.md R8, 41_register_access.md R116). -/
theorem runLine_of_runReg {α : Type} (c : Config) (p : Prog α) (b : Bus) (es : List RegEvent) (l rest : List Level)
    (v : α) (hr : runReg c p es = some (v, [])) (hl : Brings c es l) (h : b.samples = l ++ rest) :
    ∃ b', runLine c p b = (v, b') ∧ b'.samples = rest ∧ b'.events = es.reverse ++ b.events := by
  induction p generalizing b es l with
  | ret w =>
    simp only [runReg, Option.some.injEq, Prod.mk.injEq] at hr
    obtain ⟨rfl, rfl⟩ := hr
    simp only [Brings] at hl
    subst hl
    exact ⟨b, rfl, by simpa using h, rfl⟩
  | rd a k ih =>
    obtain ⟨r, es, rfl, hr'⟩ := runReg_rd_iff.1 hr
    obtain ⟨l1, l2, h1, h2, rfl⟩ := hl
    obtain ⟨b1, e1, s1, v1⟩ := readRegister_event c a r b l1 (l2 ++ rest) h1 (by simpa using h)
    obtain ⟨b2, e2, s2, v2⟩ := ih _ b1 es l2 hr' h2 s1
    exact ⟨b2, by rw [runLine, e1]; exact e2, s2, by rw [v2, v1]; simp⟩
  | wr a x k ih =>
    obtain ⟨acked, es, rfl, hr'⟩ := runReg_wr_iff.1 hr
    obtain ⟨l1, l2, h1, h2, rfl⟩ := hl
    obtain ⟨b1, e1, s1, v1⟩ := writeRegister_event c a x acked b l1 (l2 ++ rest) h1 (by simpa using h)
    obtain ⟨b2, e2, s2, v2⟩ := ih _ b1 es l2 hr' h2 s1
    exact ⟨b2, by rw [runLine, e1]; exact e2, s2, by rw [v2, v1]; simp⟩
  | wrb a bytes k ih =>
    by_cases hb : bytes = []
    · subst hb
      rw [runReg_wrb_nil] at hr
      exact ih _ b es l hr hl h
    · obtain ⟨acked, es, rfl, hr'⟩ := (runReg_wrb_iff hb).1 hr
      obtain ⟨l1, l2, h1, h2, rfl⟩ := hl
      obtain ⟨b1, e1, s1, v1⟩ := writeRegisterBurst_event c a bytes acked b l1 (l2 ++ rest) hb h1 (by simpa using h)
      obtain ⟨b2, e2, s2, v2⟩ := ih _ b1 es l2 hr' h2 s1
      exact ⟨b2, by rw [runLine, e1]; exact e2, s2, by rw [v2, v1]; simp⟩
  | rdb a n k ih =>
    by_cases hn : n = 0
    · subst hn
      rw [runReg_rdb_zero] at hr
      exact ih _ b es l hr hl h
    · obtain ⟨r, es, rfl, hlen, hr'⟩ := (runReg_rdb_iff hn).1 hr
      obtain ⟨l1, l2, h1, h2, rfl⟩ := hl
      obtain ⟨b1, e1, s1, v1⟩ := readRegisterBurst_event c a n r b l1 (l2 ++ rest) hn hlen h1 (by simpa using h)
      obtain ⟨b2, e2, s2, v2⟩ := ih _ b1 es l2 hr' h2 s1
      exact ⟨b2, by rw [runLine, e1]; exact e2, s2, by rw [v2, v1]; simp⟩
  | hold us k ih =>
    obtain ⟨es, rfl, hr'⟩ := runReg_hold_iff.1 hr
    obtain ⟨l1, l2, h1, h2, rfl⟩ := hl
    simp only [EventBrings] at h1
    subst h1
    obtain ⟨b2, e2, s2, v2⟩ := ih (waitUs us b) es l2 hr' h2 (by simpa using h)
    exact ⟨b2, e2, s2, by rw [v2]; simp⟩

/-- A relation on buses that holds from a bus to itself, composes, and holds across every register operation and every
wait, holds across a program. -/
theorem runLine_rel {α : Type} (c : Config) (R : Bus → Bus → Prop) (hrefl : ∀ b, R b b)
    (htrans : ∀ b1 b2 b3, R b1 b2 → R b2 b3 → R b1 b3)
    (hrd : ∀ a b, R b (readRegister c a b).2) (hwr : ∀ a v b, R b (writeRegister c a v b).2)
    (hwrb : ∀ a bytes b, R b (writeRegisterBurst c a bytes b).2) (hrdb : ∀ a n b, R b (readRegisterBurst c a n b).2)
    (hhold : ∀ us b, R b (waitUs us b)) (p : Prog α) (b : Bus) : R b (runLine c p b).2 := by
  induction p generalizing b with
  | ret v => exact hrefl b
  | rd a k ih => exact htrans _ _ _ (hrd a b) (ih _ _)
  | wr a v k ih => exact htrans _ _ _ (hwr a v b) (ih _ _)
  | wrb a bytes k ih => exact htrans _ _ _ (hwrb a bytes b) (ih _ _)
  | rdb a n k ih => exact htrans _ _ _ (hrdb a n b) (ih _ _)
  | hold us k ih => exact htrans _ _ _ (hhold us b) (ih _)

/-! ## Samples and event lists -/

theorem Brings.append {c : Config} {es es' : List RegEvent} {l l' : List Level} (h : Brings c es l)
    (h' : Brings c es' l') : Brings c (es ++ es') (l ++ l') := by
  induction es generalizing l with
  | nil => simp only [Brings] at h; subst h; simpa using h'
  | cons e es ih =>
    obtain ⟨l1, l2, h1, h2, rfl⟩ := h
    exact ⟨l1, l2 ++ l', h1, ih h2, by simp⟩

theorem Brings.split {c : Config} {es es' : List RegEvent} {l : List Level} (h : Brings c (es ++ es') l) :
    ∃ l1 l2, l = l1 ++ l2 ∧ Brings c es l1 ∧ Brings c es' l2 := by
  induction es generalizing l with
  | nil => exact ⟨[], l, rfl, rfl, h⟩
  | cons e es ih =>
    obtain ⟨l1, l2, h1, h2, rfl⟩ := h
    obtain ⟨m1, m2, rfl, h3, h4⟩ := ih h2
    exact ⟨l1 ++ m1, m2, by simp, ⟨l1, m1, h1, h3, rfl⟩, h4⟩

/-! ## How a program can end -/

/-- Every value the program can end with, over every oracle, satisfies `P`. -/
def Prog.Leaves {α : Type} (c : Config) (P : α → Prop) : Prog α → Prop
  | .ret v => P v
  | .rd _ k => ∀ r, (k (readOutcome c r)).Leaves c P
  | .wr _ _ k => ∀ acked, (k (writeOutcome c acked)).Leaves c P
  | .wrb _ _ k => ∀ acked, (k (writeOutcome c acked)).Leaves c P
  | .rdb _ n k => ∀ r, (r.all fun bytes => bytes.length == n) = true → (k (readOutcome c r)).Leaves c P
  | .hold _ k => k.Leaves c P

theorem Prog.Leaves.bind {α β : Type} {c : Config} {P : α → Prop} {Q : β → Prop} {p : Prog α} {f : α → Prog β}
    (h : p.Leaves c P) (hf : ∀ v, P v → (f v).Leaves c Q) : (p.bind f).Leaves c Q := by
  induction p with
  | ret v => exact hf v h
  | rd a k ih => exact fun r => ih _ (h r)
  | wr a v k ih => exact fun r => ih _ (h r)
  | wrb a bytes k ih => exact fun r => ih _ (h r)
  | rdb a n k ih => exact fun r hr => ih _ (h r hr)
  | hold us k ih => exact ih h

theorem Prog.Leaves.mono {α : Type} {c : Config} {P Q : α → Prop} {p : Prog α} (h : p.Leaves c P) (hPQ : ∀ v, P v → Q v) :
    p.Leaves c Q := by
  induction p with
  | ret v => exact hPQ v h
  | rd a k ih => exact fun r => ih _ (h r)
  | wr a v k ih => exact fun r => ih _ (h r)
  | wrb a bytes k ih => exact fun r => ih _ (h r)
  | rdb a n k ih => exact fun r hr => ih _ (h r hr)
  | hold us k ih => exact ih h

/-- `try`: the statuses of the first part, and the ends of the second. -/
theorem Prog.Leaves.tryBind {α β : Type} {c : Config} {P : Res α → Prop} {Q : Res β → Prop} {p : Prog (Res α)}
    {f : α → Prog (Res β)} (h : p.Leaves c P) (hok : ∀ v, P (.ok v) → (f v).Leaves c Q) (herr : ∀ st, P (.err st) → Q (.err st)) :
    (p.tryBind f).Leaves c Q :=
  h.bind fun r hr => by
    cases r with
    | ok v => exact hok v hr
    | err st => exact herr st hr

/-- A run on the lines ends as the program can. -/
theorem runLine_leaves {α : Type} {c : Config} {P : α → Prop} {p : Prog α} (h : p.Leaves c P) (b : Bus) :
    P (runLine c p b).1 := by
  induction p generalizing b with
  | ret v => exact h
  | rd a k ih =>
    obtain ⟨r, h1, -⟩ := readRegister_cases c a b
    rw [runLine]; simp only [h1]
    exact ih _ (h r) _
  | wr a v k ih =>
    obtain ⟨r, h1, -⟩ := writeRegister_cases c a v b
    rw [runLine]; simp only [h1]
    exact ih _ (h r) _
  | wrb a bytes k ih =>
    by_cases hb : bytes = []
    · subst hb
      exact ih _ (h true) _
    · obtain ⟨r, h1, -⟩ := writeRegisterBurst_cases c a bytes b hb
      rw [runLine]; simp only [h1]
      exact ih _ (h r) _
  | rdb a n k ih =>
    by_cases hn : n = 0
    · subst hn
      exact ih _ (h (some []) rfl) _
    · obtain ⟨r, hl, h1, -⟩ := readRegisterBurst_cases c a n b hn
      rw [runLine]; simp only [h1]
      exact ih _ (h r hl) _
  | hold us k ih => exact ih h _

/-! ## Failing events (60_exceptions.md R200) -/

/-- Whether an event failed. -/
def RegEvent.failed : RegEvent → Bool
  | .rd _ r => r.isNone
  | .wr _ _ acked => !acked
  | .wrb _ _ acked => !acked
  | .rdb _ _ r => r.isNone
  | .hold _ => false

/-- After a failed event the program ends at once, with a value in `B`. -/
def Prog.Strict {α : Type} (c : Config) (B : α → Prop) : Prog α → Prop
  | .ret _ => True
  | .rd _ k => (∃ v, k (.err (ackFailStatus c)) = .ret v ∧ B v) ∧ ∀ v, (k (.ok v)).Strict c B
  | .wr _ _ k => (∃ v, k (.err (ackFailStatus c)) = .ret v ∧ B v) ∧ ∀ v, (k (.ok v)).Strict c B
  | .wrb _ _ k => (∃ v, k (.err (ackFailStatus c)) = .ret v ∧ B v) ∧ ∀ v, (k (.ok v)).Strict c B
  | .rdb _ _ k => (∃ v, k (.err (ackFailStatus c)) = .ret v ∧ B v) ∧ ∀ v, (k (.ok v)).Strict c B
  | .hold _ k => k.Strict c B

theorem Prog.Strict.bind {α β : Type} {c : Config} {B : α → Prop} {B' : β → Prop} {p : Prog α} {f : α → Prog β}
    (h : p.Strict c B) (hB : ∀ v, B v → ∃ w, f v = .ret w ∧ B' w) (hf : ∀ v, (f v).Strict c B') :
    (p.bind f).Strict c B' := by
  have key : ∀ q : Prog α, (∃ v, q = .ret v ∧ B v) → ∃ w, q.bind f = .ret w ∧ B' w := by
    rintro q ⟨v, rfl, hv⟩; exact hB v hv
  induction p with
  | ret v => exact hf v
  | rd a k ih => exact ⟨key _ h.1, fun v => ih _ (h.2 v)⟩
  | wr a x k ih => exact ⟨key _ h.1, fun v => ih _ (h.2 v)⟩
  | wrb a bytes k ih => exact ⟨key _ h.1, fun v => ih _ (h.2 v)⟩
  | rdb a n k ih => exact ⟨key _ h.1, fun v => ih _ (h.2 v)⟩
  | hold us k ih => exact ih h

/-- The end of a program a failed event has ended. -/
def AckFailed {α : Type} (c : Config) (r : Res α) : Prop := r = .err (ackFailStatus c)

theorem Prog.Strict.tryBind {α β : Type} {c : Config} {p : Prog (Res α)} {f : α → Prog (Res β)}
    (h : p.Strict c (AckFailed c)) (hf : ∀ v, (f v).Strict c (AckFailed c)) : (p.tryBind f).Strict c (AckFailed c) :=
  h.bind (fun v hv => by rw [AckFailed] at hv; subst hv; exact ⟨_, rfl, rfl⟩) fun r => by
    cases r with
    | ok v => exact hf v
    | err st => trivial

theorem strict_read (c : Config) (a : RegAddr) : (Prog.read a).Strict c (AckFailed c) := ⟨⟨_, rfl, rfl⟩, fun _ => trivial⟩
theorem strict_write (c : Config) (a : RegAddr) (v : Byte) : (Prog.write a v).Strict c (AckFailed c) :=
  ⟨⟨_, rfl, rfl⟩, fun _ => trivial⟩
theorem strict_writeBurst (c : Config) (a : RegAddr) (bytes : List Byte) :
    (Prog.writeBurst a bytes).Strict c (AckFailed c) := ⟨⟨_, rfl, rfl⟩, fun _ => trivial⟩
theorem strict_readBurst (c : Config) (a : RegAddr) (n : Nat) : (Prog.readBurst a n).Strict c (AckFailed c) :=
  ⟨⟨_, rfl, rfl⟩, fun _ => trivial⟩

/-- What a run of a strict program does to the event trace: no failed event, or exactly one, its last, and an end in `B`. -/
def StrictRun {α : Type} (B : α → Prop) (b : Bus) (x : α × Bus) : Prop :=
  (∃ es, x.2.events = es ++ b.events ∧ ∀ e ∈ es, e.failed = false) ∨
    (∃ e es, x.2.events = e :: (es ++ b.events) ∧ (∀ e ∈ es, e.failed = false) ∧ B x.1)

theorem StrictRun.stop {α : Type} {c : Config} {B : α → Prop} {b b1 : Bus} {e : RegEvent} {q : Prog α}
    (hq : ∃ v, q = .ret v ∧ B v) (he : b1.events = e :: b.events) : StrictRun B b (runLine c q b1) := by
  obtain ⟨v, rfl, hv⟩ := hq
  exact .inr ⟨e, [], he, by simp, hv⟩

theorem StrictRun.cons {α : Type} {B : α → Prop} {b b1 : Bus} {e : RegEvent} {x : α × Bus} (hf : e.failed = false)
    (he : b1.events = e :: b.events) (h : StrictRun B b1 x) : StrictRun B b x := by
  obtain ⟨es, h1, h2⟩ | ⟨e', es, h1, h2, h3⟩ := h
  · exact .inl ⟨es ++ [e], by rw [h1, he]; simp, by simpa [or_imp, forall_and, hf] using h2⟩
  · exact .inr ⟨e', es ++ [e], by rw [h1, he]; simp, by simpa [or_imp, forall_and, hf] using h2, h3⟩

/-- A run of a strict program, for every oracle. -/
theorem runLine_strict {α : Type} {c : Config} {B : α → Prop} {p : Prog α} (h : p.Strict c B) (b : Bus) :
    StrictRun B b (runLine c p b) := by
  induction p generalizing b with
  | ret v => exact .inl ⟨[], rfl, by simp⟩
  | rd a k ih =>
    obtain ⟨r, h1, h2, -⟩ := readRegister_cases c a b
    rw [runLine]; simp only [h1]
    cases r with
    | none => exact .stop h.1 h2
    | some v => exact .cons rfl h2 (ih _ (h.2 v) _)
  | wr a v k ih =>
    obtain ⟨r, h1, h2, -⟩ := writeRegister_cases c a v b
    rw [runLine]; simp only [h1]
    cases r with
    | false => exact .stop h.1 h2
    | true => exact .cons rfl h2 (ih _ (h.2 ()) _)
  | wrb a bytes k ih =>
    by_cases hb : bytes = []
    · subst hb
      exact ih _ (h.2 ()) b
    · obtain ⟨r, h1, h2, -⟩ := writeRegisterBurst_cases c a bytes b hb
      rw [runLine]; simp only [h1]
      cases r with
      | false => exact .stop h.1 h2
      | true => exact .cons rfl h2 (ih _ (h.2 ()) _)
  | rdb a n k ih =>
    by_cases hn : n = 0
    · subst hn
      exact ih _ (h.2 []) b
    · obtain ⟨r, -, h1, h2, -⟩ := readRegisterBurst_cases c a n b hn
      rw [runLine]; simp only [h1]
      cases r with
      | none => exact .stop h.1 h2
      | some v => exact .cons rfl h2 (ih _ (h.2 v) _)
  | hold us k ih => exact .cons (e := .hold us) rfl rfl (ih h _)

/-! ## The rest of a program after its first events -/

/-- What is left of a program after a list of events, `none` where they are not its next ones. -/
def Prog.after {α : Type} (c : Config) : Prog α → List RegEvent → Option (Prog α)
  | .ret v, [] => some (.ret v)
  | .ret _, _ :: _ => none
  | .rd a k, [] => some (.rd a k)
  | .rd a k, e :: es =>
    match e with
    | .rd a' r => if a' = a then (k (readOutcome c r)).after c es else none
    | _ => none
  | .wr a v k, [] => some (.wr a v k)
  | .wr a v k, e :: es =>
    match e with
    | .wr a' v' acked => if a' = a ∧ v' = v then (k (writeOutcome c acked)).after c es else none
    | _ => none
  | .wrb a bytes k, [] => if bytes = [] then (k (.ok ())).after c [] else some (.wrb a bytes k)
  | .wrb a bytes k, e :: es =>
    if bytes = [] then (k (.ok ())).after c (e :: es)
    else
      match e with
      | .wrb a' bytes' acked => if a' = a ∧ bytes' = bytes then (k (writeOutcome c acked)).after c es else none
      | _ => none
  | .rdb a n k, [] => if n = 0 then (k (.ok [])).after c [] else some (.rdb a n k)
  | .rdb a n k, e :: es =>
    if n = 0 then (k (.ok [])).after c (e :: es)
    else
      match e with
      | .rdb a' n' r =>
        if a' = a ∧ n' = n ∧ (r.all fun bytes => bytes.length == n) then (k (readOutcome c r)).after c es else none
      | _ => none
  | .hold us k, [] => some (.hold us k)
  | .hold us k, e :: es =>
    match e with
    | .hold us' => if us' = us then k.after c es else none
    | _ => none

theorem after_rd_iff {α : Type} {c : Config} {a : RegAddr} {k : Res Byte → Prog α} {e : RegEvent} {es : List RegEvent}
    {q : Prog α} : (Prog.rd a k).after c (e :: es) = some q ↔
      ∃ r, e = .rd a r ∧ (k (readOutcome c r)).after c es = some q := by
  cases e <;> simp only [Prog.after, reduceCtorEq, false_and, exists_false, RegEvent.rd.injEq]
  rename_i a' r
  by_cases h : a' = a <;> simp [h]

theorem after_wr_iff {α : Type} {c : Config} {a : RegAddr} {v : Byte} {k : Res Unit → Prog α} {e : RegEvent}
    {es : List RegEvent} {q : Prog α} : (Prog.wr a v k).after c (e :: es) = some q ↔
      ∃ acked, e = .wr a v acked ∧ (k (writeOutcome c acked)).after c es = some q := by
  cases e <;> simp only [Prog.after, reduceCtorEq, false_and, exists_false, RegEvent.wr.injEq]
  rename_i a' v' acked
  by_cases h : a' = a <;> by_cases h' : v' = v <;> simp [h, h']

theorem after_wrb_nil {α : Type} (c : Config) (a : RegAddr) (k : Res Unit → Prog α) (es : List RegEvent) :
    (Prog.wrb a [] k).after c es = (k (.ok ())).after c es := by
  cases es <;> rw [Prog.after.eq_def] <;> simp

theorem after_wrb_iff {α : Type} {c : Config} {a : RegAddr} {bytes : List Byte} {k : Res Unit → Prog α} {e : RegEvent}
    {es : List RegEvent} {q : Prog α} (hb : bytes ≠ []) : (Prog.wrb a bytes k).after c (e :: es) = some q ↔
      ∃ acked, e = .wrb a bytes acked ∧ (k (writeOutcome c acked)).after c es = some q := by
  cases e <;> simp only [Prog.after, hb, if_false, reduceCtorEq, false_and, exists_false, RegEvent.wrb.injEq]
  rename_i a' bytes' acked
  by_cases h : a' = a <;> by_cases h' : bytes' = bytes <;> simp [h, h']

theorem after_rdb_zero {α : Type} (c : Config) (a : RegAddr) (k : Res (List Byte) → Prog α) (es : List RegEvent) :
    (Prog.rdb a 0 k).after c es = (k (.ok [])).after c es := by
  cases es <;> rw [Prog.after.eq_def] <;> simp

theorem after_rdb_iff {α : Type} {c : Config} {a : RegAddr} {n : Nat} {k : Res (List Byte) → Prog α} {e : RegEvent}
    {es : List RegEvent} {q : Prog α} (hn : n ≠ 0) : (Prog.rdb a n k).after c (e :: es) = some q ↔
      ∃ r, e = .rdb a n r ∧ (r.all fun bytes => bytes.length == n) = true ∧
        (k (readOutcome c r)).after c es = some q := by
  cases e <;> simp only [Prog.after, hn, if_false, reduceCtorEq, false_and, exists_false, RegEvent.rdb.injEq]
  rename_i a' n' r
  by_cases h : a' = a <;> by_cases h' : n' = n <;> simp [h, h']

theorem after_hold_iff {α : Type} {c : Config} {us : Nat} {k : Prog α} {e : RegEvent} {es : List RegEvent} {q : Prog α} :
    (Prog.hold us k).after c (e :: es) = some q ↔ e = .hold us ∧ k.after c es = some q := by
  cases e <;> simp only [Prog.after, reduceCtorEq, false_and, RegEvent.hold.injEq]
  rename_i us'
  by_cases h : us' = us <;> simp [h]

/-- After a part that ends on the first events, what is left is what is left of the rest. -/
theorem after_seq {α β : Type} {c : Config} {p : Prog α} {f : α → Prog β} {es es' : List RegEvent} {v : α}
    (h : runReg c p es = some (v, es')) : (p.bind f).after c es = (f v).after c es' := by
  induction p generalizing es with
  | ret w =>
    simp only [runReg, Option.some.injEq, Prod.mk.injEq] at h
    obtain ⟨rfl, rfl⟩ := h
    rfl
  | rd a k ih =>
    obtain ⟨r, rest, rfl, h'⟩ := runReg_rd_iff.1 h
    simp only [Prog.bind, Prog.after, if_true]
    exact ih _ h'
  | wr a x k ih =>
    obtain ⟨r, rest, rfl, h'⟩ := runReg_wr_iff.1 h
    simp only [Prog.bind, Prog.after, and_self, if_true]
    exact ih _ h'
  | wrb a bytes k ih =>
    by_cases hb : bytes = []
    · subst hb
      rw [runReg_wrb_nil] at h
      rw [Prog.bind, after_wrb_nil]
      exact ih _ h
    · obtain ⟨r, rest, rfl, h'⟩ := (runReg_wrb_iff hb).1 h
      simp only [Prog.bind, Prog.after, hb, and_self, if_true, if_false]
      exact ih _ h'
  | rdb a n k ih =>
    by_cases hn : n = 0
    · subst hn
      rw [runReg_rdb_zero] at h
      rw [Prog.bind, after_rdb_zero]
      exact ih _ h
    · obtain ⟨r, rest, rfl, hl, h'⟩ := (runReg_rdb_iff hn).1 h
      simp only [Prog.bind, Prog.after, hn, hl, and_self, if_true, if_false]
      exact ih _ h'
  | hold us k ih =>
    obtain ⟨rest, rfl, h'⟩ := runReg_hold_iff.1 h
    simp only [Prog.bind, Prog.after, if_true]
    exact ih h'

/-- With no events to take, something is left. -/
theorem after_nil {α : Type} (c : Config) (p : Prog α) : ∃ q, p.after c [] = some q := by
  induction p with
  | ret v => exact ⟨_, rfl⟩
  | rd a k ih => exact ⟨_, rfl⟩
  | wr a v k ih => exact ⟨_, rfl⟩
  | wrb a bytes k ih =>
    by_cases hb : bytes = []
    · subst hb; rw [after_wrb_nil]; exact ih _
    · exact ⟨.wrb a bytes k, by simp [Prog.after, hb]⟩
  | rdb a n k ih =>
    by_cases hn : n = 0
    · subst hn; rw [after_rdb_zero]; exact ih _
    · exact ⟨.rdb a n k, by simp [Prog.after, hn]⟩
  | hold us k ih => exact ⟨_, rfl⟩

/-- Events that are the next ones of a first part are the next ones of the whole. -/
theorem after_bind {α β : Type} {c : Config} {p : Prog α} (f : α → Prog β) {es : List RegEvent} {q : Prog α}
    (h : p.after c es = some q) : ∃ q', (p.bind f).after c es = some q' := by
  induction p generalizing es with
  | ret v =>
    cases es with
    | nil => exact after_nil c (f v)
    | cons e es => simp [Prog.after] at h
  | rd a k ih =>
    cases es with
    | nil => exact ⟨_, rfl⟩
    | cons e es =>
      obtain ⟨r, rfl, h'⟩ := after_rd_iff.1 h
      obtain ⟨q', hq⟩ := ih _ h'
      exact ⟨q', after_rd_iff.2 ⟨r, rfl, hq⟩⟩
  | wr a v k ih =>
    cases es with
    | nil => exact ⟨_, rfl⟩
    | cons e es =>
      obtain ⟨r, rfl, h'⟩ := after_wr_iff.1 h
      obtain ⟨q', hq⟩ := ih _ h'
      exact ⟨q', after_wr_iff.2 ⟨r, rfl, hq⟩⟩
  | wrb a bytes k ih =>
    by_cases hb : bytes = []
    · subst hb
      rw [after_wrb_nil] at h
      obtain ⟨q', hq⟩ := ih _ h
      exact ⟨q', by rw [Prog.bind, after_wrb_nil]; exact hq⟩
    · cases es with
      | nil => exact ⟨.wrb a bytes fun r => (k r).bind f, by simp [Prog.bind, Prog.after, hb]⟩
      | cons e es =>
        obtain ⟨r, rfl, h'⟩ := (after_wrb_iff hb).1 h
        obtain ⟨q', hq⟩ := ih _ h'
        exact ⟨q', (after_wrb_iff hb).2 ⟨r, rfl, hq⟩⟩
  | rdb a n k ih =>
    by_cases hn : n = 0
    · subst hn
      rw [after_rdb_zero] at h
      obtain ⟨q', hq⟩ := ih _ h
      exact ⟨q', by rw [Prog.bind, after_rdb_zero]; exact hq⟩
    · cases es with
      | nil => exact ⟨.rdb a n fun r => (k r).bind f, by simp [Prog.bind, Prog.after, hn]⟩
      | cons e es =>
        obtain ⟨r, rfl, hl, h'⟩ := (after_rdb_iff hn).1 h
        obtain ⟨q', hq⟩ := ih _ h'
        exact ⟨q', (after_rdb_iff hn).2 ⟨r, rfl, hl, hq⟩⟩
  | hold us k ih =>
    cases es with
    | nil => exact ⟨_, rfl⟩
    | cons e es =>
      obtain ⟨rfl, h'⟩ := after_hold_iff.1 h
      obtain ⟨q', hq⟩ := ih h'
      exact ⟨q', after_hold_iff.2 ⟨rfl, hq⟩⟩

/-- Samples that bring the first events of a program about make its run on the lines the run of what is left. -/
theorem runLine_after {α : Type} {c : Config} {p q : Prog α} {es : List RegEvent} (hq : p.after c es = some q) (b : Bus)
    (l rest : List Level) (hl : Brings c es l) (h : b.samples = l ++ rest) :
    ∃ b', runLine c p b = runLine c q b' ∧ b'.samples = rest ∧ b'.events = es.reverse ++ b.events := by
  have base : ∀ (p : Prog α) (b : Bus) (l : List Level), Brings c [] l → b.samples = l ++ rest →
      ∃ b', runLine c p b = runLine c p b' ∧ b'.samples = rest ∧ b'.events = ([] : List RegEvent).reverse ++ b.events := by
    rintro p b l hl h
    simp only [Brings] at hl
    subst hl
    exact ⟨b, rfl, by simpa using h, rfl⟩
  induction p generalizing b es l with
  | ret v =>
    cases es with
    | nil => simp only [Prog.after, Option.some.injEq] at hq; subst hq; exact base _ b l hl h
    | cons e es => simp [Prog.after] at hq
  | rd a k ih =>
    cases es with
    | nil => simp only [Prog.after, Option.some.injEq] at hq; subst hq; exact base _ b l hl h
    | cons e es =>
      obtain ⟨r, rfl, h'⟩ := after_rd_iff.1 hq
      obtain ⟨l1, l2, h1, h2, rfl⟩ := hl
      obtain ⟨b1, e1, s1, v1⟩ := readRegister_event c a r b l1 (l2 ++ rest) h1 (by simpa using h)
      obtain ⟨b2, e2, s2, v2⟩ := ih _ h' b1 l2 h2 s1
      exact ⟨b2, by rw [runLine, e1]; exact e2, s2, by rw [v2, v1]; simp⟩
  | wr a v k ih =>
    cases es with
    | nil => simp only [Prog.after, Option.some.injEq] at hq; subst hq; exact base _ b l hl h
    | cons e es =>
      obtain ⟨r, rfl, h'⟩ := after_wr_iff.1 hq
      obtain ⟨l1, l2, h1, h2, rfl⟩ := hl
      obtain ⟨b1, e1, s1, v1⟩ := writeRegister_event c a v r b l1 (l2 ++ rest) h1 (by simpa using h)
      obtain ⟨b2, e2, s2, v2⟩ := ih _ h' b1 l2 h2 s1
      exact ⟨b2, by rw [runLine, e1]; exact e2, s2, by rw [v2, v1]; simp⟩
  | wrb a bytes k ih =>
    by_cases hb : bytes = []
    · subst hb
      rw [after_wrb_nil] at hq
      exact ih _ hq b l hl h
    · cases es with
      | nil => simp only [Prog.after, hb, if_false, Option.some.injEq] at hq; subst hq; exact base _ b l hl h
      | cons e es =>
        obtain ⟨r, rfl, h'⟩ := (after_wrb_iff hb).1 hq
        obtain ⟨l1, l2, h1, h2, rfl⟩ := hl
        obtain ⟨b1, e1, s1, v1⟩ := writeRegisterBurst_event c a bytes r b l1 (l2 ++ rest) hb h1 (by simpa using h)
        obtain ⟨b2, e2, s2, v2⟩ := ih _ h' b1 l2 h2 s1
        exact ⟨b2, by rw [runLine, e1]; exact e2, s2, by rw [v2, v1]; simp⟩
  | rdb a n k ih =>
    by_cases hn : n = 0
    · subst hn
      rw [after_rdb_zero] at hq
      exact ih _ hq b l hl h
    · cases es with
      | nil => simp only [Prog.after, hn, if_false, Option.some.injEq] at hq; subst hq; exact base _ b l hl h
      | cons e es =>
        obtain ⟨r, rfl, hlen, h'⟩ := (after_rdb_iff hn).1 hq
        obtain ⟨l1, l2, h1, h2, rfl⟩ := hl
        obtain ⟨b1, e1, s1, v1⟩ := readRegisterBurst_event c a n r b l1 (l2 ++ rest) hn hlen h1 (by simpa using h)
        obtain ⟨b2, e2, s2, v2⟩ := ih _ h' b1 l2 h2 s1
        exact ⟨b2, by rw [runLine, e1]; exact e2, s2, by rw [v2, v1]; simp⟩
  | hold us k ih =>
    cases es with
    | nil => simp only [Prog.after, Option.some.injEq] at hq; subst hq; exact base _ b l hl h
    | cons e es =>
      obtain ⟨rfl, h'⟩ := after_hold_iff.1 hq
      obtain ⟨l1, l2, h1, h2, rfl⟩ := hl
      simp only [EventBrings] at h1
      subst h1
      obtain ⟨b2, e2, s2, v2⟩ := ih h' (waitUs us b) l2 h2 (by simpa using h)
      exact ⟨b2, e2, s2, by rw [v2]; simp⟩

end Sys2Proof.Machine
end

