-- ==== Sys2Proof/Laws/Reader.lean ====
section
/-! SUPPORT. The reader-control programs at the register level: what each does on the event sequence
spec/opcode_table.json gives it, with whatever events follow left over. -/

namespace Sys2Proof.Machine

open Sys2Proof

/-! ## Tests of a flag -/

theorem anyBit_false {v m : Byte} (h : v &&& m = 0) : anyBit v m = false := by simp [anyBit, h]
theorem anyBit_true {v m : Byte} (h : v &&& m ≠ 0) : anyBit v m = true := by simpa [anyBit] using h

/-! ## Read-modify-write (41_register_access.md R115) -/

theorem runReg_setBits (c : Config) (a : RegAddr) (m v : Byte) (es : List RegEvent) :
    runReg c (setBitsProg a m) (.rd a (some v) :: .wr a (v ||| m) true :: es) = some (.ok (), es) := by
  rw [setBitsProg, runReg_try_read]; exact runReg_write c a (v ||| m) es

theorem runReg_clearBits (c : Config) (a : RegAddr) (m v : Byte) (es : List RegEvent) :
    runReg c (clearBitsProg a m) (.rd a (some v) :: .wr a (v &&& ~~~m) true :: es) = some (.ok (), es) := by
  rw [clearBitsProg, runReg_try_read]; exact runReg_write c a (v &&& ~~~m) es

/-! ## Writes in a row -/

theorem runReg_writeAll (c : Config) (l : List (RegAddr × Byte)) (es : List RegEvent) :
    runReg c (Prog.writeAll l) ((l.map fun p => RegEvent.wr p.1 p.2 true) ++ es) = some (.ok (), es) := by
  induction l with
  | nil => rfl
  | cons p l ih => rw [Prog.writeAll, List.map_cons, List.cons_append, runReg_try_write]; exact ih

/-! ## The bounded loops -/

/-- The CRC loop finds the flag after `misses` (42_reader_control.md R143). -/
theorem runReg_pollCrcDone (c : Config) (n : Nat) (misses : List Byte) (hit lo hi : Byte) (es : List RegEvent)
    (hn : misses.length < n) (hm : ∀ v ∈ misses, v &&& c.fld.crcIrq = 0) (hh : hit &&& c.fld.crcIrq ≠ 0) :
    runReg c (pollCrcDone c n) (pollEvents c.reg.divIrq misses hit ++
      (.rd c.reg.crcResultL (some lo) :: .rd c.reg.crcResultH (some hi) :: es)) = some (.ok (lo, hi), es) := by
  induction misses generalizing n with
  | nil =>
    obtain ⟨n, rfl⟩ : ∃ m, n = m + 1 := ⟨n - 1, by simp at hn; omega⟩
    have : crcDone c hit = true := anyBit_true hh
    simp only [pollEvents, List.nil_append, List.map_cons, List.map_nil, List.cons_append]
    rw [pollCrcDone, runReg_try_read, if_pos this, runReg_try_read, runReg_try_read]
    rfl
  | cons v misses ih =>
    obtain ⟨n, rfl⟩ : ∃ m, n = m + 1 := ⟨n - 1, by simp at hn; omega⟩
    have : crcDone c v = false := anyBit_false (hm v (by simp))
    simp only [pollEvents, List.cons_append, List.map_cons]
    rw [pollCrcDone, runReg_try_read, if_neg (by simp [this])]
    exact ih n (by simpa using hn) fun w hw => hm w (by simp [hw])

/-- The CRC loop ends by its bound (R143). -/
theorem runReg_pollCrcDone_timeout (c : Config) (misses : List Byte) (es : List RegEvent)
    (hm : ∀ v ∈ misses, v &&& c.fld.crcIrq = 0) :
    runReg c (pollCrcDone c misses.length) ((misses.map fun v => RegEvent.rd c.reg.divIrq (some v)) ++ es) =
      some (.err .timeout, es) := by
  induction misses with
  | nil => rfl
  | cons v misses ih =>
    have : crcDone c v = false := anyBit_false (hm v (by simp))
    rw [List.length_cons, pollCrcDone, List.map_cons, List.cons_append, runReg_try_read, if_neg (by simp [this])]
    exact ih fun w hw => hm w (by simp [hw])

/-- The wait for completion ends in success at the first read that shows a wait-mask flag (R145). -/
theorem runReg_pollIrq (c : Config) (waitMask : Byte) (n : Nat) (misses : List Byte) (hit : Byte) (es : List RegEvent)
    (hn : misses.length < n) (hm : ∀ v ∈ misses, v &&& waitMask = 0 ∧ v &&& c.fld.timerIrq = 0)
    (hh : hit &&& waitMask ≠ 0) :
    runReg c (pollIrq c waitMask n) (pollEvents c.reg.comIrq misses hit ++ es) = some (.ok (), es) := by
  induction misses generalizing n with
  | nil =>
    obtain ⟨n, rfl⟩ : ∃ m, n = m + 1 := ⟨n - 1, by simp at hn; omega⟩
    simp only [pollEvents, List.nil_append, List.map_cons, List.map_nil, List.cons_append]
    rw [pollIrq, runReg_try_read, if_pos (anyBit_true hh)]
    rfl
  | cons v misses ih =>
    obtain ⟨n, rfl⟩ : ∃ m, n = m + 1 := ⟨n - 1, by simp at hn; omega⟩
    have h1 : anyBit v waitMask = false := anyBit_false (hm v (by simp)).1
    have h2 : timerExpired c v = false := anyBit_false (hm v (by simp)).2
    simp only [pollEvents, List.cons_append, List.map_cons]
    rw [pollIrq, runReg_try_read, if_neg (by simp [h1]), if_neg (by simp [h2])]
    exact ih n (by simpa using hn) fun w hw => hm w (by simp [hw])

/-- The wait ends by the chip's timer: a read without a wait-mask flag and with the timer flag (R145, R193). -/
theorem runReg_pollIrq_timer (c : Config) (waitMask : Byte) (n : Nat) (misses : List Byte) (hit : Byte)
    (es : List RegEvent) (hn : misses.length < n) (hm : ∀ v ∈ misses, v &&& waitMask = 0 ∧ v &&& c.fld.timerIrq = 0)
    (hw : hit &&& waitMask = 0) (ht : hit &&& c.fld.timerIrq ≠ 0) :
    runReg c (pollIrq c waitMask n) (pollEvents c.reg.comIrq misses hit ++ es) = some (.err .timeout, es) := by
  induction misses generalizing n with
  | nil =>
    obtain ⟨n, rfl⟩ : ∃ m, n = m + 1 := ⟨n - 1, by simp at hn; omega⟩
    have h2 : timerExpired c hit = true := anyBit_true ht
    simp only [pollEvents, List.nil_append, List.map_cons, List.map_nil, List.cons_append]
    rw [pollIrq, runReg_try_read, if_neg (by simp [anyBit_false hw]), if_pos h2]
    rfl
  | cons v misses ih =>
    obtain ⟨n, rfl⟩ : ∃ m, n = m + 1 := ⟨n - 1, by simp at hn; omega⟩
    have h1 : anyBit v waitMask = false := anyBit_false (hm v (by simp)).1
    have h2 : timerExpired c v = false := anyBit_false (hm v (by simp)).2
    simp only [pollEvents, List.cons_append, List.map_cons]
    rw [pollIrq, runReg_try_read, if_neg (by simp [h1]), if_neg (by simp [h2])]
    exact ih n (by simpa using hn) fun w hw => hm w (by simp [hw])

/-- The wait ends by its bound (R145, R193). -/
theorem runReg_pollIrq_timeout (c : Config) (waitMask : Byte) (misses : List Byte) (es : List RegEvent)
    (hm : ∀ v ∈ misses, v &&& waitMask = 0 ∧ v &&& c.fld.timerIrq = 0) :
    runReg c (pollIrq c waitMask misses.length) ((misses.map fun v => RegEvent.rd c.reg.comIrq (some v)) ++ es) =
      some (.err .timeout, es) := by
  induction misses with
  | nil => rfl
  | cons v misses ih =>
    have h1 : anyBit v waitMask = false := anyBit_false (hm v (by simp)).1
    have h2 : timerExpired c v = false := anyBit_false (hm v (by simp)).2
    rw [List.length_cons, pollIrq, List.map_cons, List.cons_append, runReg_try_read, if_neg (by simp [h1]),
      if_neg (by simp [h2])]
    exact ih fun w hw => hm w (by simp [hw])

/-- The verification loop of `softReset` (42_reader_control.md R131). -/
theorem runReg_resetPoll (c : Config) (n : Nat) (misses : List Byte) (last : Byte) (es : List RegEvent)
    (hn : misses.length < n) (hm : ∀ v ∈ misses, v &&& c.fld.powerDown ≠ 0) (hl : last &&& c.fld.powerDown = 0) :
    runReg c (resetPoll c n)
      ((misses ++ [last]).flatMap (fun v => [RegEvent.hold c.resetWaitUs, .rd c.reg.command (some v)]) ++ es) =
      some (.ok (), es) := by
  induction misses generalizing n with
  | nil =>
    obtain ⟨n, rfl⟩ : ∃ m, n = m + 1 := ⟨n - 1, by simp at hn; omega⟩
    have : stillPoweredDown c last = false := anyBit_false hl
    simp only [List.nil_append, List.flatMap_cons, List.flatMap_nil, List.append_nil, List.cons_append]
    rw [resetPoll, runReg, if_pos rfl, runReg_try_read, if_neg (by simp [this])]
    rfl
  | cons v misses ih =>
    obtain ⟨n, rfl⟩ : ∃ m, n = m + 1 := ⟨n - 1, by simp at hn; omega⟩
    have : stillPoweredDown c v = true := anyBit_true (hm v (by simp))
    simp only [List.cons_append, List.flatMap_cons, List.nil_append]
    rw [resetPoll, runReg, if_pos rfl, runReg_try_read, if_pos this]
    exact ih n (by simpa using hn) fun w hw => hm w (by simp [hw])

theorem runReg_resetPoll_timeout (c : Config) (misses : List Byte) (es : List RegEvent)
    (hm : ∀ v ∈ misses, v &&& c.fld.powerDown ≠ 0) :
    runReg c (resetPoll c misses.length)
      (misses.flatMap (fun v => [RegEvent.hold c.resetWaitUs, .rd c.reg.command (some v)]) ++ es) =
      some (.err .timeout, es) := by
  induction misses with
  | nil => rfl
  | cons v misses ih =>
    have : stillPoweredDown c v = true := anyBit_true (hm v (by simp))
    simp only [List.length_cons, List.cons_append, List.flatMap_cons, List.nil_append]
    rw [resetPoll, runReg, if_pos rfl, runReg_try_read, if_pos this]
    exact ih fun w hw => hm w (by simp [hw])

/-! ## CRC co-processor -/

theorem runReg_crcStart (c : Config) (data : List Byte) (es : List RegEvent) :
    runReg c (calculateCRCProg c data) (crcStartEvents c data ++ es) = runReg c (pollCrcDone c c.crcPollMax) es := by
  simp only [crcStartEvents, List.cons_append, List.append_assoc, List.nil_append]
  rw [calculateCRCProg, commandByte, runReg_try_write, runReg_try_write, runReg_try_write, runReg_try_writeBurst,
    commandByte, runReg_try_write]

theorem runReg_calculateCRC (c : Config) (data : List Byte) (x : CrcRun) (es : List RegEvent) (hx : x.completes c) :
    runReg c (calculateCRCProg c data) (x.events c data ++ es) = some (.ok (x.lo, x.hi), es) := by
  obtain ⟨h1, h2, h3⟩ := hx
  simp only [CrcRun.events, List.append_assoc, List.cons_append, List.nil_append]
  rw [runReg_crcStart, runReg_pollCrcDone c _ x.misses x.hit x.lo x.hi es h1 h2 h3]

/-! ## The command transceiver -/

theorem runReg_prepare (c : Config) (command : CmdCode) (send : List Byte) (lastBits rxAlign : Bits3) (framing : Byte)
    (es : List RegEvent) :
    runReg c (prepareProg c command send lastBits rxAlign)
      (prepareEvents c command send lastBits rxAlign framing ++ es) = some (.ok (), es) := by
  simp only [prepareEvents, List.cons_append, List.append_assoc, List.nil_append]
  rw [prepareProg, commandByte, runReg_try_write, runReg_try_write, runReg_try_write, runReg_try_writeBurst,
    bitFraming, runReg_try_write, commandByte, runReg_try_write]
  split
  · exact runReg_setBits c _ _ framing es
  · rfl

/-- `communicate` up to and with the read of `ERROR`, no fatal error reported. -/
theorem runReg_exchange_error (c : Config) (command : CmdCode) (waitMask : Byte) (send : List Byte)
    (valid : Option Bits3) (recv : Option (List Byte)) (rxAlign : Bits3) (x : Exchange) (es : List RegEvent)
    (hx : x.completes c waitMask) :
    runReg c (exchangeProg c command waitMask send valid recv rxAlign)
        (x.waitEvents c command send (txLastBits valid) rxAlign ++ es) =
      runReg c ((retrieveProg c recv rxAlign).tryBind fun reply => Prog.done (x.err, reply)) es := by
  obtain ⟨h1, h2, h3, h4⟩ := hx
  have hf : fatalError c x.err = false := anyBit_false h4
  simp only [Exchange.waitEvents, List.append_assoc, List.cons_append, List.nil_append]
  rw [exchangeProg, runReg_try (runReg_prepare c command send _ rxAlign x.framing _),
    runReg_try (runReg_pollIrq c waitMask _ x.misses x.hit _ h1 h2 h3), runReg_try_read, if_neg (by simp [hf])]

theorem levelByte_toNat {n : Nat} (h : n < 256) : (BitVec.ofNat 8 n).toNat = n := by
  simp [Nat.mod_eq_of_lt h]

/-- The response read out into the caller's buffer (R145 step 4). -/
theorem runReg_retrieve (c : Config) (buf : List Byte) (rxAlign : Bits3) (bytes : List Byte) (ctl : Byte)
    (es : List RegEvent) (h1 : bytes.length < 256) (h2 : bytes.length ≤ buf.length) :
    runReg c (retrieveProg c (some buf) rxAlign)
        (.rd c.reg.fifoLevel (some (BitVec.ofNat 8 bytes.length)) :: (burstReadEvents c.reg.fifoData bytes ++
          (.rd c.reg.control (some ctl) :: es))) =
      some (.ok (some ⟨storeBurst rxAlign buf bytes, bytes.length, rxLastBits c ctl⟩), es) := by
  rw [retrieveProg, runReg_try_read, levelByte_toNat h1, if_neg (by omega), runReg_try_readBurst c _ bytes _ rfl,
    runReg_try_read]
  rfl

/-- What `communicate` stored for its caller. -/
def Exchange.reply (x : Exchange) (c : Config) (buf : List Byte) (rxAlign : Bits3) : Reply :=
  ⟨storeBurst rxAlign buf x.bytes, x.bytes.length, rxLastBits c x.ctl⟩

/-- `communicate` with its response stored: the checks of steps 5 and 6 are left. -/
theorem runReg_communicate (c : Config) (command : CmdCode) (waitMask : Byte) (send : List Byte)
    (valid : Option Bits3) (buf : List Byte) (rxAlign : Bits3) (crc : Bool) (x : Exchange) (es : List RegEvent)
    (hx : x.completes c waitMask) (hf : x.fits buf.length) :
    runReg c (communicateProg c command waitMask send valid (some buf) rxAlign crc)
        (x.events c command send (txLastBits valid) rxAlign ++ es) =
      runReg c ((validateProg c crc x.err (some (x.reply c buf rxAlign))).bind fun r =>
        .ret (r.status, some (x.reply c buf rxAlign))) es := by
  have h : runReg c (exchangeProg c command waitMask send valid (some buf) rxAlign)
      (x.events c command send (txLastBits valid) rxAlign ++ es) = some (.ok (x.err, some (x.reply c buf rxAlign)), es) := by
    simp only [Exchange.events, List.append_assoc, List.cons_append, List.nil_append]
    rw [runReg_exchange_error c command waitMask send valid (some buf) rxAlign x _ hx,
      runReg_try (runReg_retrieve c buf rxAlign x.bytes x.ctl es hf.1 hf.2)]
    rfl
  rw [communicateProg, runReg_seq h]

/-- `communicate` without a response. -/
theorem runReg_communicate_none (c : Config) (command : CmdCode) (waitMask : Byte) (send : List Byte)
    (valid : Option Bits3) (rxAlign : Bits3) (crc : Bool) (x : Exchange) (es : List RegEvent)
    (hx : x.completes c waitMask) :
    runReg c (communicateProg c command waitMask send valid none rxAlign crc)
        (x.waitEvents c command send (txLastBits valid) rxAlign ++ es) =
      runReg c ((validateProg c crc x.err none).bind fun r => .ret (r.status, none)) es := by
  have h : runReg c (exchangeProg c command waitMask send valid none rxAlign)
      (x.waitEvents c command send (txLastBits valid) rxAlign ++ es) = some (.ok (x.err, none), es) := by
    rw [runReg_exchange_error c command waitMask send valid none rxAlign x _ hx]
    rfl
  rw [communicateProg, runReg_seq h]

/-- A status raised in steps 1 to 4 ends `communicate` with nothing stored. -/
theorem runReg_communicate_err {c : Config} {command : CmdCode} {waitMask : Byte} {send : List Byte}
    {valid : Option Bits3} {recv : Option (List Byte)} {rxAlign : Bits3} {crc : Bool} {es es' : List RegEvent}
    {st : Status} (h : runReg c (exchangeProg c command waitMask send valid recv rxAlign) es = some (.err st, es')) :
    runReg c (communicateProg c command waitMask send valid recv rxAlign crc) es = some ((st, none), es') := by
  rw [communicateProg, runReg_seq h]; rfl

theorem validate_clean {c : Config} {err : Byte} (reply : Option Reply) (h : err &&& c.fld.errColl = 0) :
    validateProg c false err reply = Prog.done () := by
  have : collided c err = false := anyBit_false h
  cases reply <;> simp [validateProg, this]

theorem validate_collision {c : Config} {err : Byte} (crc : Bool) (reply : Option Reply)
    (h : err &&& c.fld.errColl ≠ 0) : validateProg c crc err reply = Prog.raise .collision := by
  have : collided c err = true := anyBit_true h
  simp [validateProg, this]

/-! ## The caller's buffer (20_memory.md R44) -/

theorem storeBurst_merged (r : Bits3) (buf bytes : List Byte) (h : bytes.length ≤ buf.length) :
    Merged r buf bytes (storeBurst r buf bytes) := by
  cases bytes with
  | nil => exact ⟨rfl, by simp, by simp, by simp [storeBurst]⟩
  | cons v rest =>
    have hl : rest.length + 1 ≤ buf.length := by simpa using h
    refine ⟨by simp [storeBurst]; omega, ?_, ?_, ?_⟩
    · intro old w ho hw
      simp at hw
      subst hw
      cases buf with
      | nil => simp at ho
      | cons o buf => simp at ho; subst ho; simp [storeBurst, mergeFirst, alignMask]
    · intro j h0 hj
      obtain ⟨j, rfl⟩ : ∃ k, j = k + 1 := ⟨j - 1, by omega⟩
      simp at hj
      simp [storeBurst, List.getElem?_append_left hj]
    · intro j hj
      obtain ⟨j, rfl⟩ : ∃ k, j = k + 1 := ⟨j - 1, by simp at hj; omega⟩
      simp at hj
      simp only [storeBurst, List.getElem?_cons_succ]
      rw [List.getElem?_append_right hj, List.getElem?_drop]
      congr 1; omega

/-- The description of the buffer leaves nothing open. -/
theorem merged_unique (r : Bits3) (buf bytes o1 o2 : List Byte) (h1 : Merged r buf bytes o1) (h2 : Merged r buf bytes o2) :
    o1 = o2 := by
  obtain ⟨a1, a2, a3, a4⟩ := h1
  obtain ⟨b1, b2, b3, b4⟩ := h2
  apply List.ext_getElem?
  intro j
  by_cases hj : bytes.length ≤ j
  · rw [a4 j hj, b4 j hj]
  · by_cases h0 : 0 < j
    · rw [a3 j h0 (by omega), b3 j h0 (by omega)]
    · obtain rfl : j = 0 := by omega
      cases bytes with
      | nil => simp at hj
      | cons v bytes =>
        cases buf with
        | nil =>
          simp at a1 b1; rw [a1, b1]
        | cons o buf =>
          have := (a2 o v rfl rfl).trans (b2 o v rfl rfl).symm
          simpa [List.head?_eq_getElem?] using this

theorem getElem?_byteAt (l : List Byte) (i : Nat) (v : Byte) (h : i < l.length) : l[i]? = some v ↔ byteAt l i = v := by
  simp [byteAt, List.getD_eq_getElem?_getD, List.getElem?_eq_getElem h]

/-! ## Antenna and reset -/

theorem runReg_antennaOn (c : Config) (v : Byte) (es : List RegEvent) :
    runReg c (antennaOnProg c) (antennaOnEvents c v ++ es) = some (.ok (), es) := by
  rw [antennaOnProg, antennaOnEvents, List.cons_append, runReg_try_read]
  by_cases h : v &&& c.fld.antenna = c.fld.antenna
  · simp [antennaIsOn, h, runReg_done]
  · simp only [antennaIsOn, h, ne_eq, not_false_eq_true, if_true, beq_iff_eq, if_false]
    exact runReg_write _ _ _ _

theorem runReg_antennaOff (c : Config) (v : Byte) (es : List RegEvent) :
    runReg c (antennaOffProg c) (antennaOffEvents c v ++ es) = some (.ok (), es) := by
  rw [antennaOffProg, antennaOffEvents, List.cons_append, runReg_try_read]
  by_cases h : v &&& c.fld.antenna = 0
  · simp [antennaIsOff, h, runReg_done]
  · simp only [antennaIsOff, h, ne_eq, not_false_eq_true, if_true, beq_iff_eq, if_false]
    exact runReg_write _ _ _ _

/-- The status a missing acknowledge is reported as (60_exceptions.md R192). -/
theorem ackFailStatus_eq (c : Config) : ackFailStatus c = if c.ackFail = .error then .error else .timeout := by
  unfold ackFailStatus; cases c.ackFail <;> rfl

/-- One event alone. -/
theorem Brings.single {c : Config} {e : RegEvent} {l : List Level} (h : Brings c [e] l) : EventBrings c e l := by
  obtain ⟨l1, l2, h1, h2, rfl⟩ := h
  simp only [Brings] at h2
  subst h2
  simpa using h1

end Sys2Proof.Machine
end

