-- ==== Sys2Proof/Laws/Discovery.lean ====
section
/-! SUPPORT. The discovery programs at the register level: one clean exchange, one request, one cascade level. -/

namespace Sys2Proof.Machine

open Sys2Proof

/-! ## Buffers -/

theorem storeBurst_zero_nil (buf : List Byte) : storeBurst 0 buf [] = buf := rfl

/-- With `rxAlign` 0 the first byte is stored whole (41_register_access.md R113). -/
theorem storeBurst_zero (buf bytes : List Byte) (h : bytes.length ≤ buf.length) :
    storeBurst 0 buf bytes = bytes ++ buf.drop bytes.length := by
  cases bytes with
  | nil => rfl
  | cons v rest =>
    have hm : mergeFirst 0 (buf.headD 0) v = v := by
      have h1 : alignMask 0 = 0xFF := by decide
      rw [mergeFirst, h1]
      have h2 : ∀ w : Byte, w &&& 0xFF#8 = w := by decide +kernel
      simp [h2]
    rw [storeBurst, hm]
    simp

/-! ## One clean exchange -/

/-- A `transceive` of the client layer that ends in OK. -/
theorem runReg_transceive_answer (c : Config) (send : List Byte) (valid : Option Bits3) (buf : List Byte)
    (rxAlign : Bits3) (x : Exchange) (bytes : List Byte) (es : List RegEvent) (hx : x.answers c bytes)
    (h1 : bytes.length < 256) (h2 : bytes.length ≤ buf.length) :
    runReg c (transceiveProg c send valid (some buf) rxAlign false)
        (x.transceiveEvents c send (txLastBits valid) rxAlign ++ es) =
      some ((.ok, some ⟨storeBurst rxAlign buf bytes, bytes.length, 0⟩), es) := by
  obtain ⟨hc, hn, hw, rfl⟩ := hx
  rw [transceiveProg, Exchange.transceiveEvents, runReg_communicate c _ _ send valid buf rxAlign false x es hc ⟨h1, h2⟩,
    validate_clean _ hn]
  have : rxLastBits c x.ctl = 0 := hw
  simp only [Exchange.reply, this]
  rfl

/-- A `transceive` that reports a collision, the response stored (60_exceptions.md R195). -/
theorem runReg_transceive_collision (c : Config) (send : List Byte) (valid : Option Bits3) (buf : List Byte)
    (rxAlign : Bits3) (crc : Bool) (x : Exchange) (es : List RegEvent) (hx : x.completes c c.waitMaskTransceive)
    (hf : x.fits buf.length) (he : x.err &&& c.fld.errColl ≠ 0) :
    runReg c (transceiveProg c send valid (some buf) rxAlign crc)
        (x.transceiveEvents c send (txLastBits valid) rxAlign ++ es) =
      some ((.collision, some (x.reply c buf rxAlign)), es) := by
  rw [transceiveProg, Exchange.transceiveEvents, runReg_communicate c _ _ send valid buf rxAlign crc x es hx hf,
    validate_collision crc _ he]
  rfl

/-! ## The request -/

/-- A request answered by two whole bytes (43_card_discovery.md R160). -/
theorem runReg_request (c : Config) (frame : Byte) (x : Exchange) (a0 a1 : Byte) (es : List RegEvent)
    (hx : x.answers c [a0, a1]) :
    runReg c (requestProg c frame) (x.requestEvents c frame ++ es) = some (.ok [a0, a1], es) := by
  rw [requestProg, Exchange.requestEvents]
  refine (runReg_seq (runReg_transceive_answer c [frame] (some 7) [0, 0] 0 x [a0, a1] es hx (by simp) (by simp))).trans ?_
  rw [storeBurst_zero _ _ (by simp)]
  simp [runReg_done]

/-- A request answered by a collision (R160, R161). -/
theorem runReg_request_collision (c : Config) (frame : Byte) (x : Exchange) (es : List RegEvent)
    (hx : x.completes c c.waitMaskTransceive) (hf : x.fits 2) (he : x.err &&& c.fld.errColl ≠ 0) :
    runReg c (requestProg c frame) (x.requestEvents c frame ++ es) = some (.err .collision, es) := by
  rw [requestProg, Exchange.requestEvents]
  exact runReg_seq (runReg_transceive_collision c [frame] (some 7) [0, 0] 0 false x es hx hf he)

/-! ## One cascade level -/

/-- The SELECT of a level whose four bytes are in the command buffer (43_card_discovery.md R166). -/
theorem runReg_antiCollision_select (c : Config) (fuel : Nat) (sel n5 n6 n7 n8 : Byte) (d : LevelCard) (x : LevelRun)
    (known : Nat) (es : List RegEvent) (hk : 32 ≤ known) (h1 : x.crc.completes c)
    (h2 : x.select.answers c [d.sak, x.sakCrc.lo, x.sakCrc.hi]) :
    runReg c (antiCollision c (fuel + 1) [sel, n5, d.u0, d.u1, d.u2, d.u3, n6, n7, n8] known)
      (x.crc.events c (d.select7 sel) ++
        (x.select.transceiveEvents c (d.select7 sel ++ [x.crc.lo, x.crc.hi]) 0 0 ++ es)) =
      some (.ok ⟨[sel, 0x70, d.u0, d.u1, d.u2, d.u3, d.sak, x.sakCrc.lo, x.sakCrc.hi], 3, 0⟩, es) := by
  have hb : slice (selectBuffer [sel, n5, d.u0, d.u1, d.u2, d.u3, n6, n7, n8]) 0 7 = d.select7 sel := rfl
  have hf : runReg c (nextFrameProg c [sel, n5, d.u0, d.u1, d.u2, d.u3, n6, n7, n8] known)
      (x.crc.events c (d.select7 sel) ++
        (x.select.transceiveEvents c (d.select7 sel ++ [x.crc.lo, x.crc.hi]) 0 0 ++ es)) =
      some (.ok (selectFrame [sel, n5, d.u0, d.u1, d.u2, d.u3, n6, n7, n8] x.crc.lo x.crc.hi),
        x.select.transceiveEvents c (d.select7 sel ++ [x.crc.lo, x.crc.hi]) 0 0 ++ es) := by
    rw [nextFrameProg, if_pos hk, hb, runReg_try (runReg_calculateCRC c _ x.crc _ h1)]
    rfl
  have ht := runReg_transceive_answer c (d.select7 sel ++ [x.crc.lo, x.crc.hi]) (some 0) [d.bcc, x.crc.lo, x.crc.hi] 0
    x.select _ es h2 (by simp) (by simp)
  rw [storeBurst_zero _ _ (by simp)] at ht
  rw [antiCollision, runReg_try hf]
  refine (runReg_seq ht).trans ?_
  simp only [hk, if_true]
  rfl

/-- The SAK of a level is checked by a second CRC (R168). -/
theorem runReg_checkSak (c : Config) (sel nv u0 u1 u2 u3 sak : Byte) (x : CrcRun) (es : List RegEvent)
    (h : x.completes c) :
    runReg c (checkSakProg c ⟨[sel, nv, u0, u1, u2, u3, sak, x.lo, x.hi], 3, 0⟩) (x.events c [sak] ++ es) =
      some (.ok (), es) := by
  rw [checkSakProg, if_neg (by simp)]
  have : [byteAt [sel, nv, u0, u1, u2, u3, sak, x.lo, x.hi] 6] = [sak] := rfl
  rw [this, runReg_try (runReg_calculateCRC c _ x _ h), if_neg (by simp [byteAt])]
  rfl

/-- The probe of a level of which no bit is known, answered without a collision (R166). -/
theorem runReg_antiCollision_probe (c : Config) (fuel : Nat) (sel b1 b2 b3 b4 b5 b6 b7 b8 : Byte) (d : LevelCard)
    (fifth : Byte) (x : Exchange) (es : List RegEvent) (hx : x.answers c [d.u0, d.u1, d.u2, d.u3, fifth]) :
    runReg c (antiCollision c (fuel + 1) [sel, b1, b2, b3, b4, b5, b6, b7, b8] 0)
        (x.transceiveEvents c [sel, 0x20] 0 0 ++ es) =
      runReg c (antiCollision c fuel [sel, 0x20, d.u0, d.u1, d.u2, d.u3, fifth, b7, b8] 32) es := by
  have hf : ∀ es, runReg c (nextFrameProg c [sel, b1, b2, b3, b4, b5, b6, b7, b8] 0) es =
      some (.ok (probeFrame [sel, b1, b2, b3, b4, b5, b6, b7, b8] 0), es) := fun es => by
    rw [nextFrameProg, if_neg (by omega)]; rfl
  have ht := runReg_transceive_answer c [sel, 0x20] (some 0) [b2, b3, b4, b5, b6, b7, b8] 0 x _ es hx (by simp) (by simp)
  rw [storeBurst_zero _ _ (by simp)] at ht
  rw [antiCollision, runReg_try (hf _)]
  exact runReg_seq ht

/-- One level of `select` that one card answers without a collision, no bit known before (R163, R168). -/
theorem runReg_selectLevel (c : Config) (left level : Nat) (hl : 1 ≤ level) (uid : Uid)
    (b0 b1 b2 b3 b4 b5 b6 b7 b8 : Byte) (d : LevelCard) (fifth : Byte) (x : LevelRun) (es : List RegEvent)
    (hx : x.resolves c d fifth) :
    runReg c (selectLevels c 0 (left + 1) level uid [b0, b1, b2, b3, b4, b5, b6, b7, b8])
        (x.events c (selByte level) d ++ es) =
      runReg c (match [selByte level, 0x70, d.u0, d.u1, d.u2, d.u3, d.sak, x.sakCrc.lo, x.sakCrc.hi] with
        | buf => if sakCascade d.sak then selectLevels c 0 left (level + 1) (confirmUid level uid buf) buf
          else .ret ({ confirmUid level uid buf with size := uidSize level, sak := d.sak }, .ok)) es := by
  obtain ⟨hp, h1, h2, h3⟩ := hx
  have hs : levelSetup level 0 uid [b0, b1, b2, b3, b4, b5, b6, b7, b8] =
      ([selByte level, b1, b2, b3, b4, b5, b6, b7, b8], 0) := by
    match level, hl with
    | 1, _ => simp [levelSetup, usesCascadeTag, bytesToCopy, splice, slice]
    | 2, _ => simp [levelSetup, usesCascadeTag, bytesToCopy, splice, slice]
    | n + 3, _ => simp [levelSetup, usesCascadeTag, bytesToCopy, splice, slice]
  have ha : runReg c (antiCollision c levelPasses [selByte level, b1, b2, b3, b4, b5, b6, b7, b8] 0)
      (x.events c (selByte level) d ++ es) =
      some (.ok ⟨[selByte level, 0x70, d.u0, d.u1, d.u2, d.u3, d.sak, x.sakCrc.lo, x.sakCrc.hi], 3, 0⟩,
        x.sakCrc.events c [d.sak] ++ es) := by
    simp only [LevelRun.events, LevelRun.selectEvents, List.append_assoc]
    rw [levelPasses, runReg_antiCollision_probe c 33 _ _ _ _ _ _ _ _ _ d fifth x.probe _ hp]
    exact runReg_antiCollision_select c 32 _ _ _ _ _ d x 32 _ (by omega) h1 h2
  have hk := runReg_checkSak c (selByte level) 0x70 d.u0 d.u1 d.u2 d.u3 d.sak x.sakCrc es h3
  rw [selectLevels, hs]
  refine (runReg_seq ha).trans ?_
  exact runReg_seq hk

/-- The first bytes of a record after a level without a cascade tag, and with one (R168). -/
theorem confirmUid_plain (level : Nat) (uid : Uid) (sel nv u0 u1 u2 u3 a b e : Byte) (h : u0 ≠ 0x88) :
    confirmUid level uid [sel, nv, u0, u1, u2, u3, a, b, e] =
      { uid with uidByte := splice uid.uidByte (uidIndex level) [u0, u1, u2, u3] } := by
  have h' : u0 ≠ 136#8 := h
  simp [confirmUid, byteAt, cascadeTag, h', slice]

theorem confirmUid_tag (level : Nat) (uid : Uid) (sel nv u1 u2 u3 a b e : Byte) :
    confirmUid level uid [sel, nv, 0x88, u1, u2, u3, a, b, e] =
      { uid with uidByte := splice uid.uidByte (uidIndex level) [u1, u2, u3] } := by
  simp [confirmUid, byteAt, cascadeTag, slice]

end Sys2Proof.Machine
end

