-- ==== Sys2Proof/Laws/Exec.lean ====
section
/-! SUPPORT. What every operation above the primitives has in common: it is one run of a program on the lines, and the
event trace only grows. -/

namespace Sys2Proof.Machine

open Sys2Proof

/-- The bus after an operation above the primitives is the bus after a run of its program. -/
theorem exec_runs_program (i : Instr) (s t : State) (hp : i.isPrimitive = false) (h : exec i s = .next t) :
    ∃ (α : Type) (p : Prog α), t.bus = (runLine s.cfg p s.bus).2 := by
  cases i <;> simp [Instr.isPrimitive] at hp <;>
    simp only [exec, execWriteRegister, execReadRegister, execWriteRegisterBurst, execReadRegisterBurst, execSetBits,
      execClearBits, execInit, execSoftReset, execAntennaOn, execAntennaOff, execCalculateCRC, execCommunicate,
      execTransceive, execRequestA, execWakeupA, execIsNewCardPresent, execSelect, execReadCardSerial, execDiscoverUid] at h
  all_goals (repeat' split at h)
  all_goals simp at h
  all_goals subst h
  all_goals first
    | exact ⟨_, _, rfl⟩
    | (rename_i e; exact ⟨_, _, by rw [e]; rfl⟩)

/-- A run of a program only adds events. -/
theorem runLine_events {α : Type} (c : Config) (p : Prog α) (b : Bus) :
    ∃ es, (runLine c p b).2.events = es ++ b.events := by
  refine runLine_rel c (fun b b' => ∃ es, b'.events = es ++ b.events) (fun b => ⟨[], rfl⟩) ?_ ?_ ?_ ?_ ?_ ?_ p b
  · rintro b1 b2 b3 ⟨e, h⟩ ⟨e', h'⟩
    exact ⟨e' ++ e, by rw [h', h]; simp⟩
  · intro a b
    obtain ⟨r, -, h, -⟩ := readRegister_cases c a b
    exact ⟨[_], h⟩
  · intro a v b
    obtain ⟨r, -, h, -⟩ := writeRegister_cases c a v b
    exact ⟨[_], h⟩
  · intro a bytes b
    by_cases hb : bytes = []
    · subst hb; exact ⟨[], by simp [writeRegisterBurst]⟩
    · obtain ⟨r, -, h, -⟩ := writeRegisterBurst_cases c a bytes b hb
      exact ⟨[_], h⟩
  · intro a n b
    by_cases hn : n = 0
    · subst hn; exact ⟨[], by simp [readRegisterBurst]⟩
    · obtain ⟨r, -, -, h, -⟩ := readRegisterBurst_cases c a n b hn
      exact ⟨[_], h⟩
  · intro us b
    exact ⟨[_], rfl⟩

/-- A run of a program is brought about by exactly the samples it takes. -/
theorem runLine_brings {α : Type} (c : Config) (p : Prog α) (b : Bus) :
    ∃ es l, (runLine c p b).2.events = es.reverse ++ b.events ∧ Brings c es l ∧ Took b l (runLine c p b).2 := by
  refine runLine_rel c (fun b b' => ∃ es l, b'.events = es.reverse ++ b.events ∧ Brings c es l ∧ Took b l b')
    (fun b => ⟨[], [], rfl, rfl, Took.nil rfl⟩) ?_ ?_ ?_ ?_ ?_ ?_ p b
  · rintro b1 b2 b3 ⟨es, l, h1, h2, h3⟩ ⟨es', l', h1', h2', h3'⟩
    exact ⟨es ++ es', l ++ l', by rw [h1', h1]; simp, h2.append h2', h3.trans h3'⟩
  · intro a b
    obtain ⟨r, -, h, l, h1, h2⟩ := readRegister_cases c a b
    exact ⟨[_], l, h, ⟨l, [], h1, rfl, by simp⟩, h2⟩
  · intro a v b
    obtain ⟨r, -, h, l, h1, h2⟩ := writeRegister_cases c a v b
    exact ⟨[_], l, h, ⟨l, [], h1, rfl, by simp⟩, h2⟩
  · intro a bytes b
    by_cases hb : bytes = []
    · subst hb; exact ⟨[], [], by simp [writeRegisterBurst], rfl, Took.nil (by simp [writeRegisterBurst])⟩
    · obtain ⟨r, -, h, l, h1, h2⟩ := writeRegisterBurst_cases c a bytes b hb
      exact ⟨[_], l, h, ⟨l, [], h1, rfl, by simp⟩, h2⟩
  · intro a n b
    by_cases hn : n = 0
    · subst hn; exact ⟨[], [], by simp [readRegisterBurst], rfl, Took.nil (by simp [readRegisterBurst])⟩
    · obtain ⟨r, -, -, h, l, h1, h2⟩ := readRegisterBurst_cases c a n b hn
      exact ⟨[_], l, h, ⟨l, [], h1, rfl, by simp⟩, h2⟩
  · intro us b
    exact ⟨[.hold us], [], rfl, ⟨[], [], rfl, rfl, rfl⟩, Took.nil rfl⟩

end Sys2Proof.Machine
end

