-- ==== Sys2Proof/Laws/Lines.lean ====
section
/-! SUPPORT. Every operation keeps the line part of the invariant (10_state.md R11, 70_reset_and_hazards.md R231): the lines
are as the trace left them, and no sample is taken from a driven line or with the clock low. -/

namespace Sys2Proof.Machine

open Sys2Proof

/-- The line part of `Inv`. -/
def LinesOk (b : Bus) : Prop := LinesFollowTrace b ∧ SamplesLegal b.trace

/-- Every line action but a sample. -/
def LineAction.drives : LineAction → Bool
  | .sdaSample _ => false
  | .sclDrive _ => true
  | .sdaDrive _ => true
  | .sdaRelease => true
  | .hold _ => true

theorem LinesOk.act {b : Bus} (h : LinesOk b) (l : LineAction) (hl : l.drives = true) : LinesOk (b.act l) := by
  obtain ⟨⟨h1, h2, h3⟩, h4⟩ := h
  cases l <;> simp [LineAction.drives] at hl <;>
    simp_all [LinesOk, LinesFollowTrace, traceScl, traceDir, traceSda, SamplesLegal, Bus.act]

theorem LinesOk.acts {b : Bus} (h : LinesOk b) (l : List LineAction) (hl : ∀ x ∈ l, x.drives = true) :
    LinesOk (b.acts l) := by
  induction l generalizing b with
  | nil => exact h
  | cons x l ih => exact ih (h.act x (hl x (by simp))) fun y hy => hl y (by simp [hy])

/-- The data line is released and the clock is 1: a sample may be taken. -/
def Sampleable (b : Bus) : Prop := traceDir b.trace = some .inp ∧ traceScl b.trace = some true

theorem LinesOk.sample {b : Bus} (h : LinesOk b) (hs : Sampleable b) : LinesOk b.sample.2 ∧ Sampleable b.sample.2 := by
  obtain ⟨⟨h1, h2, h3⟩, h4⟩ := h
  obtain ⟨h5, h6⟩ := hs
  simp_all [LinesOk, LinesFollowTrace, traceScl, traceDir, traceSda, SamplesLegal, Bus.sample, Bus.act, Sampleable]

theorem LinesOk.readBits {c : Config} {n : Nat} {acc : Byte} {b : Bus} (h : LinesOk b) (hd : traceDir b.trace = some .inp) :
    LinesOk (readBits c n acc b).2 := by
  induction n generalizing acc b with
  | zero => exact h
  | succ n ih =>
    rw [Sys2Proof.Machine.readBits]
    have h1 := h.acts [.sclDrive false, .hold c.tRdLow, .sclDrive true, .hold c.tRdHigh] (by simp [LineAction.drives])
    have hs : Sampleable (b.acts [.sclDrive false, .hold c.tRdLow, .sclDrive true, .hold c.tRdHigh]) := by
      simp [Sampleable, traceDir, traceScl, hd]
    obtain ⟨h2, hs2⟩ := h1.sample hs
    exact ih (h2.act (.hold c.tHold) rfl) (by simpa [traceDir] using hs2.1)

theorem LinesOk.readByte {c : Config} {b : Bus} (h : LinesOk b) : LinesOk (readByte c b).2 :=
  LinesOk.readBits (h.act .sdaRelease rfl) (by simp [traceDir])

theorem LinesOk.ackPoll {c : Config} {n : Nat} {b : Bus} (h : LinesOk b) (hs : Sampleable b) :
    LinesOk (ackPoll c n b).2 := by
  induction n generalizing b with
  | zero => exact h
  | succ n ih =>
    rw [Sys2Proof.Machine.ackPoll]
    obtain ⟨h2, hs2⟩ := h.sample hs
    generalize b.sample = p at *
    obtain ⟨v, b1⟩ := p
    cases v
    · exact h2
    · exact ih (h2.act (.hold c.tAckPoll) rfl) (by simpa [Sampleable, traceDir, traceScl] using hs2)

theorem LinesOk.slaveAck {c : Config} {b : Bus} (h : LinesOk b) : LinesOk (slaveAck c b).2 := by
  rw [Sys2Proof.Machine.slaveAck]
  exact (LinesOk.ackPoll (h.acts [.sdaRelease, .sclDrive true] (by simp [LineAction.drives]))
    (by simp [Sampleable, traceDir, traceScl])).act (.sclDrive false) rfl

theorem LinesOk.start {c : Config} {b : Bus} (h : LinesOk b) : LinesOk (start c b) :=
  h.acts _ (by simp [startSeq, LineAction.drives])

theorem LinesOk.stop {c : Config} {b : Bus} (h : LinesOk b) : LinesOk (stop c b) :=
  h.acts _ (by simp [stopSeq, LineAction.drives])

theorem LinesOk.writeByte {c : Config} {v : Byte} {b : Bus} (h : LinesOk b) : LinesOk (writeByte c v b) := by
  refine h.acts _ ?_
  simp only [writeByteSeq, List.mem_flatMap]
  rintro x ⟨bit, -, hx⟩
  simp only [bitCell, List.mem_cons, List.not_mem_nil, or_false] at hx
  rcases hx with rfl | rfl | rfl | rfl | rfl <;> rfl

theorem LinesOk.masterAckSeq {c : Config} {v : Level} {b : Bus} (h : LinesOk b) : LinesOk (b.acts (masterAckSeq c v)) :=
  h.acts _ (by simp [Sys2Proof.Machine.masterAckSeq, LineAction.drives])

theorem LinesOk.sendBytes {c : Config} {bytes : List Byte} {b : Bus} (h : LinesOk b) : LinesOk (sendBytes c bytes b).2 := by
  induction bytes generalizing b with
  | nil => exact h
  | cons v bytes ih =>
    rw [Sys2Proof.Machine.sendBytes, ackOrAbort]
    have h1 : LinesOk (Sys2Proof.Machine.slaveAck c (Sys2Proof.Machine.writeByte c v b)).2 := h.writeByte.slaveAck
    generalize Sys2Proof.Machine.slaveAck c (Sys2Proof.Machine.writeByte c v b) = p at *
    obtain ⟨acked, b1⟩ := p
    cases acked
    · simp only [abortActions]
      split
      · exact LinesOk.stop h1
      · exact h1
    · exact ih h1

theorem LinesOk.readBytes {c : Config} {n : Nat} {b : Bus} (h : LinesOk b) : LinesOk (readBytes c n b).2 := by
  induction n generalizing b with
  | zero => exact h
  | succ n ih =>
    rw [Sys2Proof.Machine.readBytes]
    refine ih ?_
    split
    · exact LinesOk.masterAckSeq h.readByte
    · exact LinesOk.masterAckSeq h.readByte

theorem LinesOk.writeFrameOnBus {c : Config} {a : RegAddr} {data : List Byte} {b : Bus} (h : LinesOk b) :
    LinesOk (writeFrameOnBus c a data b).2 := by
  rw [Sys2Proof.Machine.writeFrameOnBus]
  have h1 : LinesOk (Sys2Proof.Machine.sendBytes c (addrW c.chipAddr :: regByte a :: data) (Sys2Proof.Machine.start c b)).2 :=
    h.start.sendBytes
  split <;> rename_i h' <;> rw [h'] at h1
  · exact LinesOk.stop h1
  · exact h1

theorem LinesOk.readFrameOnBus {c : Config} {a : RegAddr} {n : Nat} {b : Bus} (h : LinesOk b) :
    LinesOk (readFrameOnBus c a n b).2 := by
  rw [Sys2Proof.Machine.readFrameOnBus]
  have h1 : LinesOk (Sys2Proof.Machine.writeFrameOnBus c a [] b).2 := h.writeFrameOnBus
  split <;> rename_i h' <;> rw [h'] at h1
  · exact h1
  · rename_i b1
    have h2 : LinesOk (Sys2Proof.Machine.sendBytes c [addrR c.chipAddr] (Sys2Proof.Machine.start c b1)).2 :=
      (LinesOk.start h1).sendBytes
    split <;> rename_i h3 <;> rw [h3] at h2
    · exact h2
    · exact (LinesOk.readBytes h2).stop

/-- Every program keeps it. -/
theorem LinesOk.runLine {α : Type} {c : Config} {p : Prog α} {b : Bus} (h : LinesOk b) : LinesOk (runLine c p b).2 := by
  refine runLine_rel c (fun b b' => LinesOk b → LinesOk b') (fun _ => id) (fun _ _ _ h1 h2 => h2 ∘ h1) ?_ ?_ ?_ ?_ ?_ p b h
  · intro a b h
    rw [readRegister]
    have h1 : LinesOk (Sys2Proof.Machine.readFrameOnBus c a 1 b).2 := h.readFrameOnBus
    split <;> rename_i h' <;> rw [h'] at h1 <;> exact h1
  · intro a v b h
    rw [writeRegister]
    have h1 : LinesOk (Sys2Proof.Machine.writeFrameOnBus c a [v] b).2 := h.writeFrameOnBus
    split <;> rename_i h' <;> rw [h'] at h1 <;> exact h1
  · intro a bytes b h
    rw [writeRegisterBurst]
    split
    · exact h
    · have h1 : LinesOk (Sys2Proof.Machine.writeFrameOnBus c a bytes b).2 := h.writeFrameOnBus
      split <;> rename_i h' <;> rw [h'] at h1 <;> exact h1
  · intro a n b h
    rw [readRegisterBurst]
    split
    · exact h
    · have h1 : LinesOk (Sys2Proof.Machine.readFrameOnBus c a n b).2 := h.readFrameOnBus
      split <;> rename_i h' <;> rw [h'] at h1 <;> exact h1
  · intro us b h
    exact h.act (.hold us) rfl

end Sys2Proof.Machine
end

