-- ==== Sys2Proof/Laws/Monitor.lean ====
section
/-! SUPPORT. What a receiver on the lines decodes from each part of a transaction (30_encoding.md R60 to R62), and how the
line trace grows. -/

namespace Sys2Proof.Machine

open Sys2Proof

/-! ## How the trace grows -/

/-- Between two buses the line actions `l` were done. -/
def Did (b : Bus) (l : List LineAction) (b' : Bus) : Prop := b'.trace = l.reverse ++ b.trace

theorem Did.seq {b b1 b2 : Bus} {l m : List LineAction} (h1 : Did b l b1) (h2 : Did b1 m b2) : Did b (l ++ m) b2 := by
  rw [Did, h2, h1]; simp

theorem Did.newActions {b b' : Bus} {l : List LineAction} (h : Did b l b') : newActions b b' = l := by
  rw [Sys2Proof.Machine.newActions, h]; simp

theorem acts_did (b : Bus) (l : List LineAction) : Did b l (b.acts l) := by simp [Did]

/-! ## What a receiver sees -/

/-- From every receiver with `P` the line actions leave one with `Q`, and it has decoded `ws` in between. -/
def Shows (P Q : Receiver → Prop) (l : List LineAction) (ws : List WireSym) : Prop :=
  ∀ r, P r → Q (l.foldl Receiver.see r) ∧ (l.foldl Receiver.see r).syms = ws.reverse ++ r.syms

/-- Clock low, between pulses. -/
def Low (r : Receiver) : Prop := r.scl = false ∧ r.pulse = none

/-- The idle bus as a receiver sees it. -/
def Idle (r : Receiver) : Prop := r.scl = true ∧ r.sda = true ∧ r.pulse = none

theorem Shows.seq {P Q R : Receiver → Prop} {l m : List LineAction} {ws vs : List WireSym} (h1 : Shows P Q l ws)
    (h2 : Shows Q R m vs) : Shows P R (l ++ m) (ws ++ vs) := by
  intro r hr
  obtain ⟨hq, hs⟩ := h1 r hr
  obtain ⟨hr', hs'⟩ := h2 _ hq
  rw [List.foldl_append]
  exact ⟨hr', by rw [hs', hs]; simp⟩

theorem Shows.nil (P : Receiver → Prop) : Shows P P [] [] := fun _ h => ⟨h, rfl⟩

theorem Shows.symbols {Q : Receiver → Prop} {b : Bus} {l : List LineAction} {ws : List WireSym}
    (h : Shows (· = Receiver.at b) Q l ws) : symbolsFrom b l = ws := by
  have h2 : (l.foldl Receiver.see (Receiver.at b)).syms = ws.reverse ++ [] := (h _ rfl).2
  simp [symbolsFrom, h2]

theorem start_shows (c : Config) (b : Bus) :
    Shows (· = Receiver.at b) Low (startSeq c) (leadSymbols b ++ [.start]) := by
  rintro r rfl
  cases hs : b.scl <;> cases hd : b.dataLevel <;>
    simp [startSeq, Receiver.see, Receiver.at, Receiver.data, Receiver.clock, leadSymbols, hs, hd, Low]

theorem start_shows_idle (c : Config) : Shows Idle Low (startSeq c) [.start] := by
  rintro ⟨scl, sda, pulse, syms⟩ ⟨h1, h2, h3⟩
  simp only at h1 h2 h3
  subst h1 h2 h3
  exact ⟨⟨rfl, rfl⟩, rfl⟩

theorem stop_shows (c : Config) : Shows Low Idle (stopSeq c) [.stop] := by
  rintro ⟨scl, sda, pulse, syms⟩ ⟨h1, h2⟩
  simp only at h1 h2
  subst h1 h2
  exact ⟨⟨rfl, rfl, rfl⟩, rfl⟩

theorem bitCell_shows (c : Config) (v : Level) : Shows Low Low (bitCell c v) [.bit v] := by
  rintro ⟨scl, sda, pulse, syms⟩ ⟨h1, h2⟩
  simp only at h1 h2
  subst h1 h2
  exact ⟨⟨rfl, rfl⟩, rfl⟩

theorem writeByte_shows (c : Config) (v : Byte) : Shows Low Low (writeByteSeq c v) ((byteBits v).map .bit) := by
  have h : ∀ bits : List Level, Shows Low Low (bits.flatMap (bitCell c)) (bits.map .bit) := by
    intro bits
    induction bits with
    | nil => exact Shows.nil Low
    | cons v bits ih => exact (bitCell_shows c v).seq ih
  exact h _

/-- In a pulse with clock high. -/
def High (v : Level) (r : Receiver) : Prop := r.scl = true ∧ r.pulse = some v

theorem fall_shows (v : Level) : Shows (High v) Low [.sclDrive false] [.bit v] := by
  rintro ⟨scl, sda, pulse, syms⟩ ⟨h1, h2⟩
  simp only at h1 h2
  subst h1 h2
  exact ⟨⟨rfl, rfl⟩, rfl⟩

theorem rise_shows : Shows Low (High true) [.sdaRelease, .sclDrive true] [] := by
  rintro ⟨scl, sda, pulse, syms⟩ ⟨h1, h2⟩
  simp only at h1 h2
  subst h1 h2
  exact ⟨⟨rfl, rfl⟩, rfl⟩

theorem sample_shows (v w : Level) : Shows (High v) (High w) [.sdaSample w] [] := by
  rintro ⟨scl, sda, pulse, syms⟩ ⟨h1, h2⟩
  simp only at h1 h2
  subst h1 h2
  exact ⟨⟨rfl, rfl⟩, rfl⟩

theorem hold_shows (P : Receiver → Prop) (n : Nat) : Shows P P [.hold n] [] := fun _ h => ⟨h, rfl⟩

/-- The polls of an acknowledge slot keep the pulse and leave its bit: 0 when acknowledged, 1 when not. -/
theorem ackPoll_shows (c : Config) (n : Nat) (b : Bus) :
    ∃ l, Did b l (ackPoll c n b).2 ∧ Shows (High true) (High !(ackPoll c n b).1) l [] := by
  induction n generalizing b with
  | zero => exact ⟨[], rfl, Shows.nil _⟩
  | succ n ih =>
    rw [ackPoll]
    have ht : b.sample.2.trace = .sdaSample b.sample.1 :: b.trace := rfl
    split <;> rename_i b1 h <;> rw [h] at ht
    · exact ⟨[.sdaSample false], ht, sample_shows true false⟩
    · obtain ⟨l, h1, h2⟩ := ih (b1.act (.hold c.tAckPoll))
      have hd : Did b ([.sdaSample true] ++ [.hold c.tAckPoll]) (b1.act (.hold c.tAckPoll)) := by
        simp [Did, show b1.trace = .sdaSample true :: b.trace from ht]
      exact ⟨_, hd.seq h1, ((sample_shows true true).seq (hold_shows _ _)).seq h2⟩

/-- An acknowledge slot is one bit: 0 when acknowledged, 1 when not (R61, R62). -/
theorem slaveAck_shows (c : Config) (b : Bus) :
    ∃ l, Did b l (slaveAck c b).2 ∧ Shows Low Low l [.bit !(slaveAck c b).1] := by
  obtain ⟨l, h1, h2⟩ := ackPoll_shows c c.ackPollMax (b.acts [.sdaRelease, .sclDrive true])
  refine ⟨[.sdaRelease, .sclDrive true] ++ (l ++ [.sclDrive false]), ?_, rise_shows.seq (h2.seq (fall_shows _))⟩
  exact (acts_did b _).seq (h1.seq (by simp [Did, slaveAck]))

/-- Bytes sent and all acknowledged (R62). -/
theorem sendBytes_shows (c : Config) (bytes : List Byte) (b : Bus) (h : (sendBytes c bytes b).1 = .ok ()) :
    ∃ l, Did b l (sendBytes c bytes b).2 ∧ Shows Low Low l (wireAcked bytes) := by
  induction bytes generalizing b with
  | nil => exact ⟨[], rfl, Shows.nil _⟩
  | cons v bytes ih =>
    obtain ⟨l, h1, h2⟩ := slaveAck_shows c (writeByte c v b)
    rw [sendBytes, ackOrAbort] at h ⊢
    generalize slaveAck c (writeByte c v b) = p at h h1 h2
    obtain ⟨acked, b1⟩ := p
    cases acked with
    | false => simp at h
    | true =>
      obtain ⟨m, h3, h4⟩ := ih b1 h
      refine ⟨writeByteSeq c v ++ (l ++ m), (acts_did b _).seq (h1.seq h3), ?_⟩
      have := (writeByte_shows c v).seq (h2.seq h4)
      simpa [wireAcked, wireByte] using this

/-- Bytes sent up to the first that is not acknowledged, then the abort (R70). -/
theorem sendBytes_shows_err (c : Config) (bytes : List Byte) (b : Bus) (st : Status)
    (h : (sendBytes c bytes b).1 = .err st) :
    ∃ l pre v post, bytes = pre ++ v :: post ∧ Did b l (sendBytes c bytes b).2 ∧
      Shows Low (fun _ => True) l
        (wireAcked pre ++ (wireByte v true ++ if c.abortStop then [.stop] else [])) := by
  induction bytes generalizing b with
  | nil => simp [sendBytes] at h
  | cons v bytes ih =>
    obtain ⟨l, h1, h2⟩ := slaveAck_shows c (writeByte c v b)
    rw [sendBytes, ackOrAbort] at h ⊢
    generalize slaveAck c (writeByte c v b) = p at h h1 h2
    obtain ⟨acked, b1⟩ := p
    cases acked with
    | false =>
      have h3 := (writeByte_shows c v).seq h2
      have h4 : Did b (writeByteSeq c v ++ l) b1 := (acts_did b _).seq h1
      cases hs : c.abortStop with
      | true =>
        refine ⟨writeByteSeq c v ++ l ++ stopSeq c, [], v, bytes, rfl, ?_, ?_⟩
        · have : abortActions c b1 = b1.acts (stopSeq c) := by simp [abortActions, hs, stop]
          simp only [this]
          exact h4.seq (acts_did b1 _)
        · intro r hr
          have := (h3.seq (stop_shows c)) r hr
          exact ⟨trivial, by simpa [wireAcked, wireByte] using this.2⟩
      | false =>
        refine ⟨writeByteSeq c v ++ l, [], v, bytes, rfl, ?_, ?_⟩
        · have : abortActions c b1 = b1 := by simp [abortActions, hs]
          simp only [this]
          exact h4
        · intro r hr
          exact ⟨trivial, by simpa [wireAcked, wireByte] using (h3 r hr).2⟩
    | true =>
      obtain ⟨m, pre, w, post, he, h3, h4⟩ := ih b1 h
      refine ⟨writeByteSeq c v ++ (l ++ m), v :: pre, w, post, by rw [he]; rfl, (acts_did b _).seq (h1.seq h3), ?_⟩
      have := (writeByte_shows c v).seq (h2.seq h4)
      simpa [wireAcked, wireByte] using this

/-- One bit of a read: the bit before is ended by the fall of the clock. -/
theorem readBit_shows (c : Config) (v w : Level) :
    Shows (High v) (High w) [.sclDrive false, .hold c.tRdLow, .sclDrive true, .hold c.tRdHigh, .sdaSample w, .hold c.tHold]
      [.bit v] := by
  rintro ⟨scl, sda, pulse, syms⟩ ⟨h1, h2⟩
  simp only at h1 h2
  subst h1 h2
  exact ⟨⟨rfl, rfl⟩, rfl⟩

theorem readBit_shows_low (c : Config) (w : Level) :
    Shows Low (High w) [.sclDrive false, .hold c.tRdLow, .sclDrive true, .hold c.tRdHigh, .sdaSample w, .hold c.tHold]
      [] := by
  rintro ⟨scl, sda, pulse, syms⟩ ⟨h1, h2⟩
  simp only at h1 h2
  subst h1 h2
  exact ⟨⟨rfl, rfl⟩, rfl⟩

theorem release_shows : Shows Low Low [.sdaRelease] [] := by
  rintro ⟨scl, sda, pulse, syms⟩ ⟨h1, h2⟩
  simp only at h1 h2
  subst h1 h2
  exact ⟨⟨rfl, rfl⟩, rfl⟩

/-- The bit loop, once a first bit is under way. -/
theorem readBits_shows (c : Config) (n : Nat) (acc : Byte) (b : Bus) (v : Level) :
    ∃ l bits last, Did b l (readBits c n acc b).2 ∧ bits.length = n ∧
      (readBits c n acc b).1 = bits.foldl shiftIn acc ∧ (v :: bits) = (v :: bits).dropLast ++ [last] ∧
      Shows (High v) (High last) l ((v :: bits).dropLast.map .bit) := by
  induction n generalizing acc b v with
  | zero => exact ⟨[], [], v, rfl, rfl, rfl, rfl, Shows.nil _⟩
  | succ n ih =>
    rw [readBits]
    have ht := Bus.sample_trace (b.acts [.sclDrive false, .hold c.tRdLow, .sclDrive true, .hold c.tRdHigh])
    generalize (b.acts [.sclDrive false, .hold c.tRdLow, .sclDrive true, .hold c.tRdHigh]).sample = p at ht
    obtain ⟨bit, b1⟩ := p
    obtain ⟨l, bits, last, h1, h2, h3, h4, h5⟩ := ih (shiftIn acc bit) (b1.act (.hold c.tHold)) bit
    have hd : Did b [.sclDrive false, .hold c.tRdLow, .sclDrive true, .hold c.tRdHigh, .sdaSample bit, .hold c.tHold]
        (b1.act (.hold c.tHold)) := by
      simp only at ht
      simp [Did, ht]
    refine ⟨_, bit :: bits, last, hd.seq h1, by simp [h2], h3, ?_, ?_⟩
    · rw [List.dropLast_cons_of_ne_nil (by simp), List.cons_append, ← h4]
    · rw [List.dropLast_cons_of_ne_nil (by simp)]
      exact (readBit_shows c v bit).seq h5

/-- A byte read: its first seven bits are seen, the eighth is under way with the clock high (R93). -/
theorem readByte_shows (c : Config) (b : Bus) :
    ∃ l, Did b l (readByte c b).2 ∧
      Shows Low (High ((readByte c b).1.getLsbD 0)) l ((byteBits (readByte c b).1).dropLast.map .bit) := by
  rw [readByte, readBits]
  have ht := Bus.sample_trace
    ((b.act .sdaRelease).acts [.sclDrive false, .hold c.tRdLow, .sclDrive true, .hold c.tRdHigh])
  generalize ((b.act .sdaRelease).acts [.sclDrive false, .hold c.tRdLow, .sclDrive true, .hold c.tRdHigh]).sample = p at ht
  obtain ⟨bit, b1⟩ := p
  obtain ⟨l, bits, last, h1, h2, h3, h4, h5⟩ := readBits_shows c 7 (shiftIn 0 bit) (b1.act (.hold c.tHold)) bit
  have hd : Did b ([.sdaRelease] ++
      [.sclDrive false, .hold c.tRdLow, .sclDrive true, .hold c.tRdHigh, .sdaSample bit, .hold c.tHold])
      (b1.act (.hold c.tHold)) := by
    simp only at ht
    simp [Did, ht]
  have hb : byteBits (bits.foldl shiftIn (shiftIn 0 bit)) = bit :: bits :=
    byteBits_byteOfBits (bit :: bits) (by simp [h2])
  refine ⟨_, hd.seq h1, ?_⟩
  simp only
  rw [h3, hb]
  have hl : (bits.foldl shiftIn (shiftIn 0 bit)).getLsbD 0 = last := by
    have h6 : byteBits (bits.foldl shiftIn (shiftIn 0 bit)) =
        (byteBits (bits.foldl shiftIn (shiftIn 0 bit))).dropLast ++ [last] := by rw [hb, ← h4]
    have h7 := congrArg List.getLast? h6
    rw [List.getLast?_concat] at h7
    simpa [byteBits] using h7
  rw [hl]
  exact (release_shows.seq (readBit_shows_low c bit)).seq h5

theorem masterAck_shows (c : Config) (v w : Level) : Shows (High v) Low (masterAckSeq c w) [.bit v, .bit w] := by
  rintro ⟨scl, sda, pulse, syms⟩ ⟨h1, h2⟩
  simp only at h1 h2
  subst h1 h2
  exact ⟨⟨rfl, rfl⟩, rfl⟩

theorem byteBits_split (v : Byte) : (byteBits v).dropLast ++ [v.getLsbD 0] = byteBits v := rfl

/-- The data phase of a read: each byte with the master's acknowledge, the last with its not-acknowledge (R69). -/
theorem readBytes_shows (c : Config) (n : Nat) (b : Bus) :
    ∃ l, Did b l (readBytes c n b).2 ∧ Shows Low Low l (wireRead (readBytes c n b).1) := by
  induction n generalizing b with
  | zero => exact ⟨[], rfl, Shows.nil _⟩
  | succ n ih =>
    obtain ⟨l, h1, h2⟩ := readByte_shows c b
    rw [readBytes]
    generalize readByte c b = p at h1 h2
    obtain ⟨v, b1⟩ := p
    have hlen := readBytes_length c n (if n = 0 then masterNotAck c b1 else masterAck c b1)
    obtain ⟨m, h3, h4⟩ := ih (if n = 0 then masterNotAck c b1 else masterAck c b1)
    by_cases hn : n = 0
    · subst hn
      simp only [if_true] at h3 h4 hlen ⊢
      refine ⟨l ++ (masterAckSeq c true ++ m), h1.seq ((acts_did b1 _).seq h3), ?_⟩
      have h5 := h2.seq ((masterAck_shows c (v.getLsbD 0) true).seq h4)
      rw [List.length_eq_zero_iff] at hlen
      rw [hlen] at h5 ⊢
      simpa [wireRead, wireByte, byteBits] using h5
    · simp only [hn, if_false] at h3 h4 hlen ⊢
      refine ⟨l ++ (masterAckSeq c false ++ m), h1.seq ((acts_did b1 _).seq h3), ?_⟩
      have h5 := h2.seq ((masterAck_shows c (v.getLsbD 0) false).seq h4)
      generalize (readBytes c n (masterAck c b1)).1 = bytes at hlen h5 ⊢
      cases bytes with
      | nil => simp at hlen; omega
      | cons w rest => simpa [wireRead, wireByte, byteBits] using h5

/-! ## Whole transactions -/

/-- What a receiver sees of a write-direction transaction that completes, from any receiver a start can come to. -/
theorem writeFrameOnBus_shows (c : Config) (a : RegAddr) (data : List Byte) (b : Bus) (P : Receiver → Prop)
    (ws : List WireSym) (hP : Shows P Low (startSeq c) ws) (h : (writeFrameOnBus c a data b).1 = .ok ()) :
    ∃ l, Did b l (writeFrameOnBus c a data b).2 ∧
      Shows P Idle l (ws ++ (wireAcked (addrW c.chipAddr :: regByte a :: data) ++ [.stop])) := by
  rw [writeFrameOnBus] at h ⊢
  have hs := sendBytes_shows c (addrW c.chipAddr :: regByte a :: data) (start c b)
  generalize sendBytes c (addrW c.chipAddr :: regByte a :: data) (start c b) = p at h hs
  obtain ⟨r, b1⟩ := p
  cases r with
  | err st => simp at h
  | ok u =>
    obtain ⟨l, h1, h2⟩ := hs rfl
    exact ⟨startSeq c ++ (l ++ stopSeq c), (acts_did b _).seq (h1.seq (acts_did b1 _)), hP.seq (h2.seq (stop_shows c))⟩

/-- What a receiver sees of one that is aborted (R70). -/
theorem writeFrameOnBus_shows_err (c : Config) (a : RegAddr) (data : List Byte) (b : Bus) (P : Receiver → Prop)
    (ws : List WireSym) (hP : Shows P Low (startSeq c) ws) (st : Status) (h : (writeFrameOnBus c a data b).1 = .err st) :
    ∃ l pre w post, addrW c.chipAddr :: regByte a :: data = pre ++ w :: post ∧
      Did b l (writeFrameOnBus c a data b).2 ∧
      Shows P (fun _ => True) l (ws ++ (wireAcked pre ++ (wireByte w true ++ if c.abortStop then [.stop] else []))) := by
  rw [writeFrameOnBus] at h ⊢
  have hs := sendBytes_shows_err c (addrW c.chipAddr :: regByte a :: data) (start c b)
  generalize sendBytes c (addrW c.chipAddr :: regByte a :: data) (start c b) = p at h hs
  obtain ⟨r, b1⟩ := p
  cases r with
  | ok u => simp at h
  | err st1 =>
    obtain ⟨l, pre, w, post, he, h1, h2⟩ := hs st1 rfl
    exact ⟨startSeq c ++ l, pre, w, post, he, (acts_did b _).seq h1, hP.seq h2⟩

/-- What a receiver sees of a read that completes (R67, R69). -/
theorem readFrameOnBus_shows (c : Config) (a : RegAddr) (n : Nat) (b : Bus) (bytes : List Byte)
    (h : (readFrameOnBus c a n b).1 = .ok bytes) :
    ∃ l, Did b l (readFrameOnBus c a n b).2 ∧
      Shows (· = Receiver.at b) Idle l (leadSymbols b ++ frameRead c.chipAddr a bytes) := by
  rw [readFrameOnBus] at h ⊢
  have hw := writeFrameOnBus_shows c a [] b _ _ (start_shows c b)
  generalize writeFrameOnBus c a [] b = p at h hw
  obtain ⟨r, b1⟩ := p
  cases r with
  | err st => simp at h
  | ok u =>
    obtain ⟨l, h1, h2⟩ := hw rfl
    simp only at h ⊢
    have hs := sendBytes_shows c [addrR c.chipAddr] (start c b1)
    generalize sendBytes c [addrR c.chipAddr] (start c b1) = q at h hs
    obtain ⟨r2, b2⟩ := q
    cases r2 with
    | err st => simp at h
    | ok u =>
      obtain ⟨m, h3, h4⟩ := hs rfl
      obtain ⟨k, h5, h6⟩ := readBytes_shows c n b2
      simp only [Res.ok.injEq] at h
      subst h
      refine ⟨l ++ (startSeq c ++ (m ++ (k ++ stopSeq c))),
        h1.seq ((acts_did b1 _).seq (h3.seq (h5.seq (acts_did _ _)))), ?_⟩
      have := h2.seq ((start_shows_idle c).seq (h4.seq (h6.seq (stop_shows c))))
      simpa [frameRead, frameWrite] using this

/-- What a receiver sees of one that is aborted (R70). -/
theorem readFrameOnBus_shows_err (c : Config) (a : RegAddr) (n : Nat) (b : Bus) (st : Status)
    (h : (readFrameOnBus c a n b).1 = .err st) :
    ∃ l ws, Did b l (readFrameOnBus c a n b).2 ∧ Shows (· = Receiver.at b) (fun _ => True) l (leadSymbols b ++ ws) ∧
      ((∃ pre w post, [addrW c.chipAddr, regByte a] = pre ++ w :: post ∧
        ws = .start :: (wireAcked pre ++ (wireByte w true ++ if c.abortStop then [.stop] else []))) ∨
      ws = frameWrite c.chipAddr a [] ++ (.start ::
        (wireByte (addrR c.chipAddr) true ++ if c.abortStop then [.stop] else []))) := by
  rw [readFrameOnBus] at h ⊢
  have hw := writeFrameOnBus_shows c a [] b _ _ (start_shows c b)
  have hw' := writeFrameOnBus_shows_err c a [] b _ _ (start_shows c b)
  generalize writeFrameOnBus c a [] b = p at h hw hw'
  obtain ⟨r, b1⟩ := p
  cases r with
  | err st1 =>
    obtain ⟨l, pre, w, post, he, h1, h2⟩ := hw' st1 rfl
    exact ⟨l, _, h1, by simpa using h2, .inl ⟨pre, w, post, he, by simp⟩⟩
  | ok u =>
    obtain ⟨l, h1, h2⟩ := hw rfl
    simp only at h ⊢
    have hs := sendBytes_shows_err c [addrR c.chipAddr] (start c b1)
    generalize sendBytes c [addrR c.chipAddr] (start c b1) = q at h hs
    obtain ⟨r2, b2⟩ := q
    cases r2 with
    | ok u => simp at h
    | err st1 =>
      obtain ⟨m, pre, w, post, he, h3, h4⟩ := hs st1 rfl
      have hp : pre = [] ∧ addrR c.chipAddr = w := by
        cases pre with
        | nil => simp at he; exact ⟨rfl, he.1⟩
        | cons x pre => simp at he
      obtain ⟨rfl, rfl⟩ := hp
      refine ⟨l ++ (startSeq c ++ m), _, h1.seq ((acts_did b1 _).seq h3), ?_, .inr rfl⟩
      have := h2.seq ((start_shows_idle c).seq h4)
      simpa [frameWrite, wireAcked] using this

end Sys2Proof.Machine
end

