-- ==== Sys2Proof/Laws/PerInstr.lean ====
section
/-! SUPPORT. Family `Row`: the call record of an operation begins with its row in spec/opcode_table.json, and the row is
one of the 26 (log 1). -/

namespace Sys2Proof.Laws.Row

open Sys2Proof

/-- The first byte of the record is the row, below 26. -/
def Statement (i : Instr) : Prop := (encode i).head? = some i.row ∧ i.row < 26

theorem start : Statement .start := ⟨rfl, by simp [Instr.row]⟩
theorem stop : Statement .stop := ⟨rfl, by simp [Instr.row]⟩
theorem writeByte (b : Byte) : Statement (.writeByte b) := ⟨rfl, by simp [Instr.row]⟩
theorem readByte : Statement .readByte := ⟨rfl, by simp [Instr.row]⟩
theorem masterAck : Statement .masterAck := ⟨rfl, by simp [Instr.row]⟩
theorem masterNotAck : Statement .masterNotAck := ⟨rfl, by simp [Instr.row]⟩
theorem slaveAck : Statement .slaveAck := ⟨rfl, by simp [Instr.row]⟩
theorem writeRegister (a : RegAddr) (v : Byte) : Statement (.writeRegister a v) := ⟨rfl, by simp [Instr.row]⟩
theorem readRegister (a : RegAddr) : Statement (.readRegister a) := ⟨rfl, by simp [Instr.row]⟩
theorem writeRegisterBurst (a : RegAddr) (bytes : List Byte) : Statement (.writeRegisterBurst a bytes) :=
  ⟨rfl, by simp [Instr.row]⟩
theorem readRegisterBurst (a : RegAddr) (n : Nat) (buf : List Byte) (r : Bits3) :
    Statement (.readRegisterBurst a n buf r) := ⟨rfl, by simp [Instr.row]⟩
theorem setBits (a : RegAddr) (m : Byte) : Statement (.setBits a m) := ⟨rfl, by simp [Instr.row]⟩
theorem clearBits (a : RegAddr) (m : Byte) : Statement (.clearBits a m) := ⟨rfl, by simp [Instr.row]⟩
theorem init : Statement .init := ⟨rfl, by simp [Instr.row]⟩
theorem softReset : Statement .softReset := ⟨rfl, by simp [Instr.row]⟩
theorem antennaOn : Statement .antennaOn := ⟨rfl, by simp [Instr.row]⟩
theorem antennaOff : Statement .antennaOff := ⟨rfl, by simp [Instr.row]⟩
theorem calculateCRC (data : List Byte) : Statement (.calculateCRC data) := ⟨rfl, by simp [Instr.row]⟩
theorem communicate (command : CmdCode) (mask : Byte) (send : List Byte) (valid : Option Bits3)
    (recv : Option (List Byte)) (r : Bits3) (crc : Bool) :
    Statement (.communicate command mask send valid recv r crc) := ⟨rfl, by simp [Instr.row]⟩
theorem transceive (send : List Byte) (valid : Option Bits3) (recv : Option (List Byte)) (r : Bits3) (crc : Bool) :
    Statement (.transceive send valid recv r crc) := ⟨rfl, by simp [Instr.row]⟩
theorem requestA : Statement .requestA := ⟨rfl, by simp [Instr.row]⟩
theorem wakeupA : Statement .wakeupA := ⟨rfl, by simp [Instr.row]⟩
theorem isNewCardPresent : Statement .isNewCardPresent := ⟨rfl, by simp [Instr.row]⟩
theorem select (uid : Uid) (known : Nat) : Statement (.select uid known) := ⟨rfl, by simp [Instr.row]⟩
theorem readCardSerial : Statement .readCardSerial := ⟨rfl, by simp [Instr.row]⟩
theorem discoverUid : Statement .discoverUid := ⟨rfl, by simp [Instr.row]⟩

end Sys2Proof.Laws.Row
end

