-- ==== Sys2Proof/Laws/Samples.lean ====
section
/-! SUPPORT. Samples that bring any list of register events about: every slot acknowledged on its first sample
(40_bus_primitives.md R96). The tests and the witnesses use them. -/

namespace Sys2Proof.Machine

open Sys2Proof

/-- The shortest samples that bring an event about. -/
def promptSamples (c : Config) : RegEvent → List Level
  | .rd _ (some v) => List.replicate 3 false ++ byteBits v
  | .rd _ none => List.replicate c.ackPollMax true
  | .wr _ _ true => List.replicate 3 false
  | .wr _ _ false => List.replicate c.ackPollMax true
  | .wrb _ bytes true => List.replicate (2 + bytes.length) false
  | .wrb _ _ false => List.replicate c.ackPollMax true
  | .rdb _ _ (some bytes) => List.replicate 3 false ++ bytes.flatMap byteBits
  | .rdb _ _ none => List.replicate c.ackPollMax true
  | .hold _ => []

theorem AckSlots.prompt (c : Config) (h : 0 < c.ackPollMax) (n : Nat) : AckSlots c n (List.replicate n false) := by
  induction n with
  | zero => rfl
  | succ n ih => exact ⟨0, _, h, rfl, ih⟩

theorem AckFails.first (c : Config) (n : Nat) (h : 0 < n) : AckFails c n (List.replicate c.ackPollMax true) :=
  ⟨0, [], h, rfl, rfl⟩

theorem promptSamples_bring (c : Config) (h : 0 < c.ackPollMax) (e : RegEvent) : EventBrings c e (promptSamples c e) := by
  rcases e with ⟨a, _ | v⟩ | ⟨a, v, _ | _⟩ | ⟨a, v, _ | _⟩ | ⟨a, n, _ | v⟩ | us
  · exact AckFails.first c _ (by omega)
  · exact ⟨_, AckSlots.prompt c h 3, rfl⟩
  · exact AckFails.first c _ (by omega)
  · exact AckSlots.prompt c h 3
  · exact AckFails.first c _ (by omega)
  · exact AckSlots.prompt c h _
  · exact AckFails.first c _ (by omega)
  · exact ⟨_, AckSlots.prompt c h 3, rfl⟩
  · rfl

/-- Every list of events is brought about by some samples. -/
theorem Brings.prompt (c : Config) (h : 0 < c.ackPollMax) (es : List RegEvent) : Brings c es (es.flatMap (promptSamples c)) := by
  induction es with
  | nil => rfl
  | cons e es ih => exact ⟨_, _, promptSamples_bring c h e, ih, rfl⟩

end Sys2Proof.Machine
end

