-- ==== Sys2Proof/Laws/Select.lean ====
section
/-! SUPPORT. What `select` does after any history of probes, collisions and levels (43_card_discovery.md R163 to R169): at
each point the command buffer and the program that is left are those of the point. -/

namespace Sys2Proof.Machine

open Sys2Proof

/-! ## Programs and what is left of them -/

theorem Prog.bind_assoc {α β γ : Type} (p : Prog α) (f : α → Prog β) (g : β → Prog γ) :
    (p.bind f).bind g = p.bind fun v => (f v).bind g := by
  induction p with
  | ret v => rfl
  | rd a k ih => simp only [Prog.bind, ih]
  | wr a v k ih => simp only [Prog.bind, ih]
  | wrb a bytes k ih => simp only [Prog.bind, ih]
  | rdb a n k ih => simp only [Prog.bind, ih]
  | hold us k ih => simp only [Prog.bind, ih]

/-- `try` of a part that ends in OK on the first events. -/
theorem after_try {α β : Type} {c : Config} {p : Prog (Res α)} {f : α → Prog (Res β)} {es es' : List RegEvent} {v : α}
    (h : runReg c p es = some (.ok v, es')) : (p.tryBind f).after c es = (f v).after c es' := after_seq h

/-- Events that are the next ones of a first part are the next ones of the whole. -/
theorem after_bind_exists {α β : Type} {c : Config} {p : Prog α} (f : α → Prog β) {es : List RegEvent}
    (h : ∃ q, p.after c es = some q) : ∃ q, (p.bind f).after c es = some q := by
  obtain ⟨q, hq⟩ := h
  exact after_bind f hq

/-- The first five events of `communicate` (42_reader_control.md R145). -/
theorem after_prepare (c : Config) (command : CmdCode) (send : List Byte) (hs : send ≠ []) (lb r : Bits3) :
    ∃ q, (prepareProg c command send lb r).after c
      [.wr c.reg.command (c.cmd.idle.setWidth 8) true, .wr c.reg.comIrq c.fld.comIrqClearAll true,
       .wr c.reg.fifoLevel c.fld.fifoFlush true, .wrb c.reg.fifoData send true,
       .wr c.reg.bitFraming ((r.setWidth 8 <<< 4) ||| lb.setWidth 8) true] = some q := by
  have e : [RegEvent.wrb c.reg.fifoData send true,
      .wr c.reg.bitFraming ((r.setWidth 8 <<< 4) ||| lb.setWidth 8) true] =
      burstWriteEvents c.reg.fifoData send ++
        [.wr c.reg.bitFraming ((r.setWidth 8 <<< 4) ||| lb.setWidth 8) true] := by simp [burstWriteEvents, hs]
  rw [prepareProg, commandByte, after_try (runReg_write _ _ _ _), after_try (runReg_write _ _ _ _),
    after_try (runReg_write _ _ _ _), e,
    after_try (runReg_writeBurst _ _ _ _), bitFraming, after_try (runReg_write _ _ _ _)]
  exact after_nil _ _

/-- The first events of `calculateCRC` (42_reader_control.md R143). -/
theorem after_crcStart (c : Config) (data : List Byte) :
    ∃ q, (calculateCRCProg c data).after c (crcStartEvents c data) = some q := by
  simp only [crcStartEvents, List.cons_append, List.nil_append]
  rw [calculateCRCProg, commandByte, after_try (runReg_write _ _ _ _), after_try (runReg_write _ _ _ _),
    after_try (runReg_write _ _ _ _), after_try (runReg_writeBurst _ _ _ _),
    commandByte, after_try (runReg_write _ _ _ _)]
  exact after_nil _ _

/-- The events `es` take the program `p` to `q`, for a run that ends and for one that does not. -/
def Steps {α : Type} (c : Config) (p : Prog α) (es : List RegEvent) (q : Prog α) : Prop :=
  (∀ rest, runReg c p (es ++ rest) = runReg c q rest) ∧ ∀ rest, p.after c (es ++ rest) = q.after c rest

theorem Steps.refl {α : Type} (c : Config) (p : Prog α) : Steps c p [] p := ⟨fun _ => rfl, fun _ => rfl⟩

theorem Steps.trans {α : Type} {c : Config} {p q r : Prog α} {es es' : List RegEvent} (h : Steps c p es q)
    (h' : Steps c q es' r) : Steps c p (es ++ es') r :=
  ⟨fun rest => by rw [List.append_assoc, h.1, h'.1], fun rest => by rw [List.append_assoc, h.2, h'.2]⟩

/-- A first part that ends on the events leaves the rest. -/
theorem Steps.bind {α β : Type} {c : Config} {p : Prog α} (f : α → Prog β) {es : List RegEvent} {v : α}
    (h : ∀ rest, runReg c p (es ++ rest) = some (v, rest)) : Steps c (p.bind f) es (f v) :=
  ⟨fun rest => runReg_seq (h rest), fun rest => after_seq (h rest)⟩

/-! ## The command buffer at a point -/

/-- The command buffer at a point: the command byte and the level's four bytes are in place. -/
def SelPoint.InBuffer (p : SelPoint) (buf : List Byte) : Prop :=
  ∃ n1 b0 b1 b2 b3 r6 r7 r8, p.bytes = [b0, b1, b2, b3] ∧ buf = [p.sel, n1, b0, b1, b2, b3, r6, r7, r8]

theorem list_of_length_ten {l : List Byte} (h : l.length = 10) :
    ∃ a b c d e f g i j k, l = [a, b, c, d, e, f, g, i, j, k] := by
  match l, h with
  | [a, b, c, d, e, f, g, i, j, k], _ => exact ⟨a, b, c, d, e, f, g, i, j, k, rfl⟩

/-- Level set-up puts the point it enters into the buffer (R163, R165). -/
theorem levelSetup_enter (level total : Nat) (hl : level = 1 ∨ level = 2 ∨ level = 3) (uid : Uid)
    (hu : uid.uidByte.length = 10) (s n b0 b1 b2 b3 r6 r7 r8 : Byte) :
    (SelPoint.enter total uid level [b0, b1, b2, b3]).InBuffer
        (levelSetup level total uid [s, n, b0, b1, b2, b3, r6, r7, r8]).1 ∧
      (levelSetup level total uid [s, n, b0, b1, b2, b3, r6, r7, r8]).2 =
        (SelPoint.enter total uid level [b0, b1, b2, b3]).known := by
  obtain ⟨size, ub, sak⟩ := uid
  obtain ⟨u0, u1, u2, u3, u4, u5, u6, u7, u8, u9, rfl⟩ := list_of_length_ten hu
  have hbits : total - 8 * uidIndex level = total - 24 * (level - 1) := by simp only [uidIndex]; omega
  have hceil : ∀ k : Nat, (k / 8 + if k % 8 = 0 then 0 else 1) = (k + 7) / 8 := fun k => by split <;> omega
  have htag : placedTag level total size = if usesCascadeTag level total size then [0x88] else [] := by
    rcases hl with rfl | rfl | rfl <;> simp [placedTag, usesCascadeTag]
  simp only [levelSetup, SelPoint.enter, SelPoint.InBuffer, SelPoint.sel, htag, hbits, bytesToCopy, hceil]
  generalize (total - 24 * (level - 1) + 7) / 8 = m
  cases hct : usesCascadeTag level total size
  · simp only [Bool.false_eq_true, if_false]
    have hle : min m 4 ≤ 4 := by omega
    simp only [List.length_nil, Nat.sub_zero, Nat.mul_zero, Nat.add_zero]
    generalize min m 4 = w at *
    rcases hl with rfl | rfl | rfl <;> interval_cases w <;>
      simp [uidIndex, splice, slice, selByte]
  · simp only [if_true]
    have hle : min m 3 ≤ 3 := by omega
    simp only [List.length_cons, List.length_nil, Nat.zero_add, Nat.reduceSub, Nat.mul_one]
    generalize min m 3 = w at *
    rcases hl with rfl | rfl | rfl <;> interval_cases w <;>
      simp [uidIndex, splice, slice, cascadeTag, selByte]

/-- The probe of a point is what the loop sends (R166). -/
theorem probeFrame_point (p : SelPoint) (buf : List Byte) (hb : p.InBuffer buf) (hk : p.known < 32) :
    slice (probeFrame buf p.known).buf 0 (probeFrame buf p.known).used = p.probe ∧
      (probeFrame buf p.known).lastBits = BitVec.ofNat 3 (p.known % 8) ∧
      (slice (probeFrame buf p.known).buf (probeFrame buf p.known).rIdx (probeFrame buf p.known).rCap).length =
        7 - p.known / 8 := by
  obtain ⟨n1, b0, b1, b2, b3, r6, r7, r8, h, rfl⟩ := hb
  rw [SelPoint.probe, h]
  generalize p.known = k at *
  refine ⟨?_, rfl, ?_⟩ <;> interval_cases k <;> rfl

/-- The buffer after the response to a probe (R163, 20_memory.md R44). -/
theorem absorbReply_point (p : SelPoint) (buf : List Byte) (hb : p.InBuffer buf) (hk : p.known < 32) (bytes : List Byte)
    (hl : bytes.length ≤ 7 - p.known / 8) (n : Nat) (lb : Bits3) (k : Nat) :
    SelPoint.InBuffer { p with bytes := p.received bytes, known := k }
      (absorbReply (probeFrame buf p.known) (some ⟨storeBurst (BitVec.ofNat 3 (p.known % 8))
        (slice (probeFrame buf p.known).buf (probeFrame buf p.known).rIdx (probeFrame buf p.known).rCap) bytes, n, lb⟩)) := by
  obtain ⟨n1, b0, b1, b2, b3, r6, r7, r8, h, rfl⟩ := hb
  have hr : (BitVec.ofNat 3 (p.known % 8)).toNat = p.known % 8 := by simp
  have hq : p.known / 8 < 4 := by omega
  have hm8 : p.known % 8 < 8 := by omega
  simp only [SelPoint.InBuffer, SelPoint.received, h]
  show ∃ n1 b0 b1 b2 b3 r6 r7 r8, _ ∧ _ = [p.sel, n1, b0, b1, b2, b3, r6, r7, r8]
  generalize p.sel = sel
  simp only [absorbReply, probeFrame, levelByte, List.range, List.range.loop, List.map]
  generalize p.known / 8 = q at *
  generalize p.known % 8 = m at *
  let out := splice (splice [sel, n1, b0, b1, b2, b3, r6, r7, r8] 1 [nvb (2 + q) m]) (2 + q) (storeBurst (BitVec.ofNat 3 m)
    (slice (splice [sel, n1, b0, b1, b2, b3, r6, r7, r8] 1 [nvb (2 + q) m]) (2 + q) (9 - (2 + q))) bytes)
  refine ⟨nvb (2 + q) m, _, _, _, _, byteAt out 6, byteAt out 7, byteAt out 8, rfl, ?_⟩
  simp only [out]
  rcases bytes with _ | ⟨v1, _ | ⟨v2, _ | ⟨v3, _ | ⟨v4, _ | ⟨v5, _ | ⟨v6, _ | ⟨v7, _ | ⟨v8, bytes⟩⟩⟩⟩⟩⟩⟩⟩
  on_goal 9 => simp at hl; omega
  all_goals interval_cases q <;>
    simp [hr, storeBurst, splice, slice, mergeFirst, alignMask, byteAt] at hl ⊢

/-- Forcing the collision bit (R167). -/
theorem forceBit_point (p : SelPoint) (bytes : List Byte) (pos k : Nat) (hp : 0 < pos) (hp2 : pos ≤ 32) (buf : List Byte)
    (hb : SelPoint.InBuffer { p with bytes := p.received bytes, known := k } buf) :
    SelPoint.InBuffer { p with bytes := p.forced bytes pos, known := pos } (forceBit buf pos) := by
  obtain ⟨n1, b0, b1, b2, b3, r6, r7, r8, h, rfl⟩ := hb
  simp only [SelPoint.received, List.range, List.range.loop, List.map, List.cons.injEq, and_true] at h
  obtain ⟨h0, h1, h2, h3⟩ := h
  simp only [SelPoint.InBuffer, SelPoint.forced, List.range, List.range.loop, List.map, h0, h1, h2, h3]
  refine ⟨n1, _, _, _, _, r6, r7, r8, rfl, ?_⟩
  show forceBit [p.sel, n1, b0, b1, b2, b3, r6, r7, r8] pos = [p.sel, n1, _, _, _, _, r6, r7, r8]
  interval_cases pos <;> rfl

/-! ## The program at a point -/

/-- What a level does once its SELECT has been answered, or its loop has raised (R163, R168). -/
def selectRest (c : Config) (total left level : Nat) (uid : Uid) : Res LevelReply → Prog (Uid × Status)
  | .err st => .ret (uid, st)
  | .ok r =>
    (checkSakProg c r).bind fun
      | .err st => .ret (confirmUid level uid r.buf, st)
      | .ok _ =>
        if sakCascade (byteAt r.buf 6) then
          selectLevels c total left (level + 1) (confirmUid level uid r.buf) r.buf
        else .ret ({ confirmUid level uid r.buf with size := uidSize level, sak := byteAt r.buf 6 }, .ok)

/-- The program of `select` at a point: the anti-collision loop, then the rest of the level. -/
def SelPoint.prog (p : SelPoint) (c : Config) (total fuel left : Nat) (buf : List Byte) : Prog (Uid × Status) :=
  (antiCollision c fuel buf p.known).bind (selectRest c total left p.level p.uid)

theorem selectLevels_succ (c : Config) (total left level : Nat) (uid : Uid) (buf : List Byte) :
    selectLevels c total (left + 1) level uid buf =
      (antiCollision c levelPasses (levelSetup level total uid buf).1 (levelSetup level total uid buf).2).bind
        (selectRest c total left level uid) := by
  rw [selectLevels]
  congr 1

/-- What holds at every point of a history: the buffer is the point's, the level is 1 to 3, the record has its ten bytes,
and the passes left are enough (R166). -/
structure SelPoint.At (p : SelPoint) (fuel left : Nat) (buf : List Byte) : Prop where
  buffer : p.InBuffer buf
  level : 1 ≤ p.level ∧ left + p.level = 3
  record : p.uid.uidByte.length = 10
  fuel : 34 ≤ fuel + min p.known 32

theorem SelPoint.At.fuel_pos {p : SelPoint} {fuel left : Nat} {buf : List Byte} (h : p.At fuel left buf) :
    ∃ n, fuel = n + 1 := ⟨fuel - 1, by have := h.fuel; omega⟩

/-- A pass of the loop at a point with fewer than 32 known bits (R163). -/
theorem SelPoint.prog_probe {p : SelPoint} {buf : List Byte} (c : Config) (total fuel left : Nat) (hk : p.known < 32) :
    p.prog c total (fuel + 1) left buf =
      (transceiveProg c (slice (probeFrame buf p.known).buf 0 (probeFrame buf p.known).used)
        (some (probeFrame buf p.known).lastBits)
        (some (slice (probeFrame buf p.known).buf (probeFrame buf p.known).rIdx (probeFrame buf p.known).rCap))
        (probeFrame buf p.known).lastBits false).bind fun
          | (.collision, reply) =>
            ((collisionProg c p.known).tryBind fun pos =>
              antiCollision c fuel (forceBit (absorbReply (probeFrame buf p.known) reply) pos) pos).bind
                (selectRest c total left p.level p.uid)
          | (.ok, reply) =>
            (antiCollision c fuel (absorbReply (probeFrame buf p.known) reply) 32).bind
              (selectRest c total left p.level p.uid)
          | (st, _) => .ret (p.uid, st) := by
  have hn : ¬ 32 ≤ p.known := by omega
  have hf : nextFrameProg c buf p.known = Prog.done (probeFrame buf p.known) := by rw [nextFrameProg, if_neg hn]
  rw [SelPoint.prog, antiCollision, hf]
  refine (Prog.bind_assoc (transceiveProg c _ _ _ _ _) _ _).trans ?_
  congr 1
  funext r
  obtain ⟨st, reply⟩ := r
  cases st <;> first | rfl | simp only [if_neg hn]

/-- A collision resolved gives its position (R167). -/
theorem runReg_collision (c : Config) (known : Nat) (v : Byte) (es : List RegEvent)
    (hv : v &&& c.fld.collPosNotValid = 0) (hp : known < positionOf c v) :
    runReg c (collisionProg c known) (.rd c.reg.coll (some v) :: es) = some (.ok (positionOf c v), es) := by
  have hi : collInvalid c v = false := anyBit_false hv
  have he : collPosition c v = positionOf c v := rfl
  rw [collisionProg, runReg_try_read, if_neg (by simp [hi]), he, if_neg (by omega)]
  rfl

/-- A probe answered without a collision leads to the SELECT of the level as received (R166). -/
theorem SelPoint.At.clean {p : SelPoint} {fuel left : Nat} {buf : List Byte} (c : Config) (total : Nat) (x : Exchange)
    (h : p.At (fuel + 1) left buf) (hk : p.known < 32) (hx : x.completes c c.waitMaskTransceive) (hn : x.noCollision c)
    (hf : x.fits p.room) :
    ∃ buf', SelPoint.At { p with bytes := p.received x.bytes, known := 32 } fuel left buf' ∧
      Steps c (p.prog c total (fuel + 1) left buf) (p.probeEvents c x)
        (SelPoint.prog { p with bytes := p.received x.bytes, known := 32 } c total fuel left buf') := by
  obtain ⟨h1, h2, h3⟩ := probeFrame_point p buf h.buffer hk
  have hroom : p.room = 7 - p.known / 8 := if_pos hk
  have hf' := hf
  rw [hroom] at hf
  refine ⟨_, ⟨absorbReply_point p buf h.buffer hk x.bytes hf.2 x.bytes.length (rxLastBits c x.ctl) 32, h.level, h.record,
    by have := h.fuel; simp only; omega⟩, ?_⟩
  rw [SelPoint.prog_probe c total fuel left hk, h1, h2, SelPoint.probeEvents]
  refine Steps.bind _ (v := (Status.ok, some (x.reply c (slice (probeFrame buf p.known).buf (probeFrame buf p.known).rIdx
    (probeFrame buf p.known).rCap) (BitVec.ofNat 3 (p.known % 8))))) fun rest => ?_
  rw [transceiveProg, Exchange.transceiveEvents]
  refine (runReg_communicate c _ _ _ (some (BitVec.ofNat 3 (p.known % 8))) _ _ false x rest hx (by rwa [h3])).trans ?_
  rw [validate_clean _ hn]
  rfl

/-- A probe that collides leads to the level with the bit forced (R167). -/
theorem SelPoint.At.collision {p : SelPoint} {fuel left : Nat} {buf : List Byte} (c : Config) (total : Nat) (x : Exchange)
    (v : Byte) (h : p.At (fuel + 1) left buf) (hk : p.known < 32) (hx : x.completes c c.waitMaskTransceive)
    (he : x.err &&& c.fld.errColl ≠ 0) (hf : x.fits p.room) (hv : v &&& c.fld.collPosNotValid = 0)
    (hp : p.known < positionOf c v) (hp2 : positionOf c v ≤ 32) :
    ∃ buf', SelPoint.At { p with bytes := p.forced x.bytes (positionOf c v), known := positionOf c v } fuel left buf' ∧
      Steps c (p.prog c total (fuel + 1) left buf) (p.probeEvents c x ++ [.rd c.reg.coll (some v)])
        (SelPoint.prog { p with bytes := p.forced x.bytes (positionOf c v), known := positionOf c v } c total fuel left
          buf') := by
  obtain ⟨h1, h2, h3⟩ := probeFrame_point p buf h.buffer hk
  have hroom : p.room = 7 - p.known / 8 := if_pos hk
  rw [hroom] at hf
  have hb := forceBit_point p x.bytes (positionOf c v) 32 (by omega) hp2 _
    (absorbReply_point p buf h.buffer hk x.bytes hf.2 x.bytes.length (rxLastBits c x.ctl) 32)
  refine ⟨_, ⟨hb, h.level, h.record, by have := h.fuel; simp only; omega⟩, ?_⟩
  rw [SelPoint.prog_probe c total fuel left hk, h1, h2, SelPoint.probeEvents]
  refine (Steps.bind _ (v := (Status.collision, some (x.reply c (slice (probeFrame buf p.known).buf (probeFrame buf p.known).rIdx
    (probeFrame buf p.known).rCap) (BitVec.ofNat 3 (p.known % 8))))) fun rest => ?_).trans ?_
  · exact runReg_transceive_collision c _ (some (BitVec.ofNat 3 (p.known % 8))) _ _ false x rest hx (by rwa [h3]) he
  · show Steps c (((collisionProg c p.known).bind _).bind _) _ _
    rw [Prog.bind_assoc]
    exact Steps.bind (v := Res.ok (positionOf c v)) _ fun rest => runReg_collision c p.known v rest hv hp

/-- The SELECT of a point, answered (R166). -/
theorem SelPoint.At.select {p : SelPoint} {fuel left : Nat} {buf : List Byte} (c : Config) (total : Nat) (x : LevelRun)
    (sak : Byte) (h : p.At (fuel + 1) left buf) (hk : 32 ≤ p.known) (hx : x.selects c (p.card sak)) :
    Steps c (p.prog c total (fuel + 1) left buf) (x.selectEvents c p.sel (p.card sak))
      (if sakCascade sak then
        selectLevels c total left (p.level + 1) p.confirmed
          [p.sel, 0x70, (p.card sak).u0, (p.card sak).u1, (p.card sak).u2, (p.card sak).u3, sak, x.sakCrc.lo, x.sakCrc.hi]
      else .ret (⟨uidSize p.level, p.confirmed.uidByte, sak⟩, .ok)) := by
  obtain ⟨n1, b0, b1, b2, b3, r6, r7, r8, hb, rfl⟩ := h.buffer
  have hcard : p.card sak = ⟨b0, b1, b2, b3, sak⟩ := by simp [SelPoint.card, hb]
  rw [hcard] at hx ⊢
  obtain ⟨h1, h2, h3⟩ := hx
  have hconf : confirmUid p.level p.uid [p.sel, 0x70, b0, b1, b2, b3, sak, x.sakCrc.lo, x.sakCrc.hi] = p.confirmed := by
    simp only [confirmUid, SelPoint.confirmed, hb, byteAt, cascadeTag, slice, splice, uidIndex]
    by_cases h0 : b0 = 136#8 <;> simp [h0]
  have hev : x.selectEvents c p.sel ⟨b0, b1, b2, b3, sak⟩ =
      (x.crc.events c (LevelCard.select7 ⟨b0, b1, b2, b3, sak⟩ p.sel) ++
        x.select.transceiveEvents c (LevelCard.select7 ⟨b0, b1, b2, b3, sak⟩ p.sel ++ [x.crc.lo, x.crc.hi]) 0 0) ++
      x.sakCrc.events c [sak] := by simp [LevelRun.selectEvents]
  rw [hev, SelPoint.prog]
  refine (Steps.bind (v := Res.ok ⟨[p.sel, 0x70, b0, b1, b2, b3, sak, x.sakCrc.lo, x.sakCrc.hi], 3, 0⟩) _
    fun rest => ?_).trans ?_
  · rw [List.append_assoc]
    exact runReg_antiCollision_select c fuel p.sel n1 r6 r7 r8 ⟨b0, b1, b2, b3, sak⟩ x p.known rest hk h1 h2
  · have := Steps.bind (c := c) (p := checkSakProg c ⟨[p.sel, 0x70, b0, b1, b2, b3, sak, x.sakCrc.lo, x.sakCrc.hi], 3, 0⟩)
      (fun
        | .err st => .ret (confirmUid p.level p.uid [p.sel, 0x70, b0, b1, b2, b3, sak, x.sakCrc.lo, x.sakCrc.hi], st)
        | .ok _ =>
          if sakCascade sak then
            selectLevels c total left (p.level + 1)
              (confirmUid p.level p.uid [p.sel, 0x70, b0, b1, b2, b3, sak, x.sakCrc.lo, x.sakCrc.hi])
              [p.sel, 0x70, b0, b1, b2, b3, sak, x.sakCrc.lo, x.sakCrc.hi]
          else .ret ({ confirmUid p.level p.uid [p.sel, 0x70, b0, b1, b2, b3, sak, x.sakCrc.lo, x.sakCrc.hi] with
            size := uidSize p.level, sak := sak }, .ok))
      (fun rest => runReg_checkSak c p.sel 0x70 b0 b1 b2 b3 sak x.sakCrc rest h3)
    simp only [hconf] at this
    rw [show selectRest c total left p.level p.uid
      (.ok ⟨[p.sel, 0x70, b0, b1, b2, b3, sak, x.sakCrc.lo, x.sakCrc.hi], 3, 0⟩) = _ from rfl]
    simp only [selectRest, hconf]
    exact this

theorem SelPoint.confirmed_length {p : SelPoint} (hl : 1 ≤ p.level ∧ p.level ≤ 3) (hb : p.bytes.length = 4)
    (hu : p.uid.uidByte.length = 10) : p.confirmed.uidByte.length = 10 := by
  simp only [SelPoint.confirmed]
  split <;> simp [hb, hu] <;> omega

/-- Every history takes `select` to the program of the point it ends at. -/
theorem SelHistory.steps {c : Config} {total : Nat} {p q : SelPoint} {es : List RegEvent} (h : SelHistory c total p es q) :
    ∀ {fuel left : Nat} {buf : List Byte}, p.At fuel left buf →
      ∃ fuel' left' buf', q.At fuel' left' buf' ∧
        Steps c (p.prog c total fuel left buf) es (q.prog c total fuel' left' buf') := by
  induction h with
  | here p => exact fun hp => ⟨_, _, _, hp, Steps.refl c _⟩
  | clean x hk hx hn hf _ ih =>
    intro fuel left buf hp
    obtain ⟨n, rfl⟩ := hp.fuel_pos
    obtain ⟨buf', hp', hs⟩ := hp.clean c total x hk hx hn hf
    obtain ⟨f, l, b, hq, hs'⟩ := ih hp'
    exact ⟨f, l, b, hq, hs.trans hs'⟩
  | collision x v hk hx he hf hv hpos hpos2 _ ih =>
    intro fuel left buf hp
    obtain ⟨n, rfl⟩ := hp.fuel_pos
    obtain ⟨buf', hp', hs⟩ := hp.collision c total x v hk hx he hf hv hpos hpos2
    obtain ⟨f, l, b, hq, hs'⟩ := ih hp'
    exact ⟨f, l, b, hq, by simpa using hs.trans hs'⟩
  | @cascade p q es x sak hk hl hx hs _ ih =>
    intro fuel left buf hp
    obtain ⟨n, rfl⟩ := hp.fuel_pos
    have hstep := hp.select c total x sak hk hx
    rw [if_pos (show sakCascade sak = true from anyBit_true hs)] at hstep
    obtain ⟨left, rfl⟩ : ∃ m, left = m + 1 := ⟨left - 1, by have := hp.level; omega⟩
    obtain ⟨n1, b0, b1, b2, b3, r6, r7, r8, hb, rfl⟩ := hp.buffer
    have hcard : p.card sak = ⟨b0, b1, b2, b3, sak⟩ := by simp [SelPoint.card, hb]
    rw [selectLevels_succ, hcard] at hstep
    have hlen := SelPoint.confirmed_length (p := p) ⟨hp.level.1, by omega⟩ (by simp [hb]) hp.record
    obtain ⟨hbuf, hkn⟩ := levelSetup_enter (p.level + 1) total (by have := hp.level; omega) p.confirmed hlen p.sel 0x70
      b0 b1 b2 b3 sak x.sakCrc.lo x.sakCrc.hi
    rw [hb] at ih
    obtain ⟨f, l, b, hq, hs'⟩ := ih (fuel := 34) (left := left) ⟨hbuf, ⟨by show 1 ≤ p.level + 1; omega,
      by show left + (p.level + 1) = 3; have := hp.level; omega⟩, hlen, by omega⟩
    refine ⟨f, l, b, hq, Steps.trans ?_ hs'⟩
    rw [hkn] at hstep
    rw [hcard]
    exact hstep

/-- The same from the start of `select`. -/
theorem SelHistory.select {c : Config} {total : Nat} {uid : Uid} {q : SelPoint} {es : List RegEvent}
    (h : SelHistory c total (SelPoint.first total uid) es q) (hu : uid.uidByte.length = 10) (ht : total ≤ 80) :
    ∃ fuel left buf, q.At (fuel + 1) left buf ∧
      Steps c (selectProg c uid total) es (q.prog c total (fuel + 1) left buf) := by
  obtain ⟨hbuf, hkn⟩ := levelSetup_enter 1 total (by omega) uid hu 0 0 0 0 0 0 0 0 0
  obtain ⟨f, l, b, hq, hs⟩ := h.steps (fuel := 34) (left := 2) ⟨hbuf, ⟨by show 1 ≤ 1; omega, by show 2 + 1 = 3; omega⟩, hu,
    by omega⟩
  obtain ⟨n, rfl⟩ := hq.fuel_pos
  refine ⟨n, l, b, hq, ?_⟩
  rw [selectProg, if_neg (by omega), selectLevels_succ, commandBuffer, hkn]
  exact hs

/-! ## The next frame of a point, and what ends `select` there -/

/-- The next frame of a point is the one the loop sends: the SELECT after the co-processor has given its CRC (R166). -/
theorem nextFrame_point {p : SelPoint} {buf : List Byte} (c : Config) (hb : p.InBuffer buf) (y : CrcRun)
    (hy : p.crcReady c y) (es : List RegEvent) :
    ∃ f : SelFrame, runReg c (nextFrameProg c buf p.known) (p.crcEvents c y ++ es) = some (.ok f, es) ∧
      slice f.buf 0 f.used = p.send y ∧ f.lastBits = p.lastBits ∧ (slice f.buf f.rIdx f.rCap).length = p.room ∧
      (32 ≤ p.known → f.rIdx = 6 ∧ f.buf.length = 9) := by
  by_cases hk : p.known < 32
  · obtain ⟨h1, h2, h3⟩ := probeFrame_point p buf hb hk
    rw [SelPoint.crcEvents, SelPoint.send, SelPoint.lastBits, SelPoint.room, if_pos hk, if_pos hk, if_pos hk, if_pos hk,
      nextFrameProg, if_neg (by omega)]
    exact ⟨_, rfl, h1, h2, h3, fun h => absurd hk (by omega)⟩
  · obtain ⟨n1, b0, b1, b2, b3, r6, r7, r8, h, rfl⟩ := hb
    have h7 : slice (selectBuffer [p.sel, n1, b0, b1, b2, b3, r6, r7, r8]) 0 7 = p.select7 := by
      simp only [SelPoint.select7, SelPoint.card, h]; rfl
    rw [SelPoint.crcEvents, SelPoint.send, SelPoint.lastBits, SelPoint.room, if_neg hk, if_neg hk, if_neg hk, if_neg hk,
      nextFrameProg, if_pos (by omega), h7, runReg_try (runReg_calculateCRC c p.select7 y es (hy (by omega)))]
    refine ⟨_, rfl, ?_, rfl, rfl, fun _ => ⟨rfl, rfl⟩⟩
    simp only [SelPoint.select7, SelPoint.card, h]; rfl

/-- What the exchange of a frame raises, a collision apart, `select` passes up with the record as it is (R169). -/
theorem SelPoint.prog_raises {p : SelPoint} {buf : List Byte} {c : Config} (total fuel left : Nat) (hb : p.InBuffer buf)
    {y : CrcRun} (hy : p.crcReady c y) {es : List RegEvent} {st : Status} (h1 : st ≠ .ok) (h2 : st ≠ .collision)
    (ht : ∀ recv : List Byte, recv.length = p.room →
      runReg c (exchangeProg c c.cmd.transceive c.waitMaskTransceive (p.send y) (some p.lastBits) (some recv) p.lastBits) es =
        some (.err st, [])) :
    runReg c (p.prog c total (fuel + 1) left buf) (p.crcEvents c y ++ es) = some ((p.uid, st), []) := by
  obtain ⟨f, e1, e2, e3, e4, -⟩ := nextFrame_point c hb y hy es
  have hl : runReg c (antiCollision c (fuel + 1) buf p.known) (p.crcEvents c y ++ es) = some (.err st, []) := by
    rw [antiCollision, runReg_try e1, e2, e3]
    refine (runReg_seq (runReg_communicate_err (ht _ e4))).trans ?_
    cases st <;> first | rfl | exact absurd rfl h1 | exact absurd rfl h2
  rw [SelPoint.prog, runReg_seq hl]
  rfl

/-- A collision that cannot be resolved ends `select` (R167). -/
theorem SelPoint.prog_collides {p : SelPoint} {buf : List Byte} {c : Config} (total fuel left : Nat) (hb : p.InBuffer buf)
    {y : CrcRun} {x : Exchange} {v : Byte} (hy : p.crcReady c y) (hx : x.completes c c.waitMaskTransceive)
    (he : x.err &&& c.fld.errColl ≠ 0) (hf : x.fits p.room) {st : Status}
    (hc : runReg c (collisionProg c p.known) [.rd c.reg.coll (some v)] = some (.err st, [])) :
    runReg c (p.prog c total (fuel + 1) left buf) (p.frameEvents c y x ++ [.rd c.reg.coll (some v)]) =
      some ((p.uid, st), []) := by
  have hl : runReg c (antiCollision c (fuel + 1) buf p.known) (p.frameEvents c y x ++ [.rd c.reg.coll (some v)]) =
      some (.err st, []) := by
    rw [SelPoint.frameEvents, List.append_assoc]
    obtain ⟨f, e1, e2, e3, e4, -⟩ := nextFrame_point c hb y hy
      (x.transceiveEvents c (p.send y) p.lastBits p.lastBits ++ [.rd c.reg.coll (some v)])
    rw [antiCollision, runReg_try e1, e2, e3]
    refine (runReg_seq (runReg_transceive_collision c (p.send y) (some p.lastBits) _ p.lastBits false x _ hx (by rwa [e4])
      he)).trans ?_
    exact runReg_try_err hc
  rw [SelPoint.prog, runReg_seq hl]
  rfl

/-- A SELECT answered without a collision gives the response as it was received (R166, R168). -/
theorem antiCollision_select_point {p : SelPoint} {buf : List Byte} {c : Config} (fuel : Nat) (hb : p.InBuffer buf)
    {y : CrcRun} {x : Exchange} (hk : 32 ≤ p.known) (hy : y.completes c) (hx : x.completes c c.waitMaskTransceive)
    (hn : x.noCollision c) (hf : x.fits 3) (es : List RegEvent) :
    ∃ r : LevelReply, runReg c (antiCollision c (fuel + 1) buf p.known) (p.frameEvents c y x ++ es) = some (.ok r, es) ∧
      r.recvLen = x.bytes.length ∧ r.lastBits = rxLastBits c x.ctl ∧
      ∀ sak lo hi, x.bytes = [sak, lo, hi] → byteAt r.buf 6 = sak ∧ byteAt r.buf 7 = lo ∧ byteAt r.buf 8 = hi := by
  rw [SelPoint.frameEvents, List.append_assoc]
  obtain ⟨f, e1, e2, e3, e4, e5⟩ := nextFrame_point c hb y (fun _ => hy)
    (x.transceiveEvents c (p.send y) p.lastBits p.lastBits ++ es)
  have hroom : p.room = 3 := if_neg (by omega)
  have hr := runReg_communicate c c.cmd.transceive c.waitMaskTransceive (p.send y) (some p.lastBits)
    (slice f.buf f.rIdx f.rCap) p.lastBits false x es hx (by rwa [e4, hroom])
  rw [validate_clean _ hn] at hr
  rw [antiCollision, runReg_try e1, e2, e3]
  refine ⟨⟨absorbReply f (some (x.reply c (slice f.buf f.rIdx f.rCap) p.lastBits)), x.bytes.length, rxLastBits c x.ctl⟩, ?_,
    rfl, rfl, ?_⟩
  · refine (runReg_seq (p := transceiveProg c (p.send y) (some p.lastBits) (some _) p.lastBits false) hr).trans ?_
    simp only [Res.status, if_pos hk]; rfl
  · intro a b d hb
    have hz : p.lastBits = 0 := if_neg (by omega)
    obtain ⟨h6, h9⟩ := e5 hk
    simp only [absorbReply, Exchange.reply, hb, hz]
    rw [storeBurst_zero _ _ (by rw [e4, hroom]; simp), h6]
    match hbuf : f.buf, h9 with
    | [c0, c1, c2, c3, c4, c5, c6, c7, c8], _ =>
      have : (slice [c0, c1, c2, c3, c4, c5, c6, c7, c8] 6 f.rCap).length = 3 := by rw [← h6, ← hbuf, e4, hroom]
      have hd : (slice [c0, c1, c2, c3, c4, c5, c6, c7, c8] 6 f.rCap).drop 3 = [] := List.drop_eq_nil_of_le (by omega)
      simp only [List.length_cons, List.length_nil, hd]
      exact ⟨rfl, rfl, rfl⟩

end Sys2Proof.Machine
end

