-- ==== Sys2Proof/Laws/Status.lean ====
section
/-! SUPPORT. The statuses the programs can end with, over every oracle (60_exceptions.md R190 to R196). -/

namespace Sys2Proof.Machine

open Sys2Proof

/-- The statuses the reader-control operations raise without a collision or a CRC check (60_exceptions.md R192 to R194). -/
def Plain (st : Status) : Prop := st = .error ∨ st = .timeout ∨ st = .noRoom

/-- If an error, a plain one. -/
def EndsPlain {α : Type} (r : Res α) : Prop := ∀ st, r = .err st → Plain st

theorem plain_ackFail (c : Config) : Plain (ackFailStatus c) := by
  rw [ackFailStatus_eq]; split <;> simp [Plain]

theorem EndsPlain.ok {α : Type} (v : α) : EndsPlain (.ok v) := by simp [EndsPlain]

theorem EndsPlain.err {α : Type} {st : Status} (h : Plain st) : EndsPlain (.err st : Res α) := by rintro _ ⟨⟩; exact h

theorem readOutcome_plain {α : Type} (c : Config) (r : Option α) : EndsPlain (readOutcome c r) := by
  cases r <;> simp only [readOutcome]
  · exact EndsPlain.err (plain_ackFail c)
  · exact EndsPlain.ok _

theorem writeOutcome_plain (c : Config) (r : Bool) : EndsPlain (writeOutcome c r) := by
  cases r <;> simp only [writeOutcome, if_true]
  · exact EndsPlain.err (plain_ackFail c)
  · exact EndsPlain.ok _

theorem read_leaves (c : Config) (a : RegAddr) : (Prog.read a).Leaves c EndsPlain := fun r => readOutcome_plain c r

theorem write_leaves (c : Config) (a : RegAddr) (v : Byte) : (Prog.write a v).Leaves c EndsPlain :=
  fun r => writeOutcome_plain c r

theorem writeBurst_leaves (c : Config) (a : RegAddr) (v : List Byte) : (Prog.writeBurst a v).Leaves c EndsPlain :=
  fun r => writeOutcome_plain c r

theorem readBurst_leaves (c : Config) (a : RegAddr) (n : Nat) : (Prog.readBurst a n).Leaves c EndsPlain :=
  fun r _ => readOutcome_plain c r

theorem leaves_try_plain {α β : Type} {c : Config} {p : Prog (Res α)} {f : α → Prog (Res β)}
    (h : p.Leaves c EndsPlain) (hf : ∀ v, (f v).Leaves c EndsPlain) : (p.tryBind f).Leaves c EndsPlain :=
  h.tryBind (fun v _ => hf v) (fun st hs => EndsPlain.err (hs st rfl))

theorem done_leaves {α : Type} (c : Config) (v : α) : (Prog.done v).Leaves c EndsPlain := EndsPlain.ok v

theorem raise_leaves {α : Type} (c : Config) (st : Status) (h : Plain st) :
    (Prog.raise st : Prog (Res α)).Leaves c EndsPlain := EndsPlain.err h

theorem pollCrcDone_leaves (c : Config) (n : Nat) : (pollCrcDone c n).Leaves c EndsPlain := by
  induction n with
  | zero => exact raise_leaves c _ (by simp [Plain])
  | succ n ih =>
    refine leaves_try_plain (read_leaves c _) fun v => ?_
    split
    · exact leaves_try_plain (read_leaves c _) fun _ => leaves_try_plain (read_leaves c _) fun _ => done_leaves c _
    · exact ih

theorem calculateCRC_leaves (c : Config) (data : List Byte) : (calculateCRCProg c data).Leaves c EndsPlain :=
  leaves_try_plain (write_leaves c _ _) fun _ =>
  leaves_try_plain (write_leaves c _ _) fun _ =>
  leaves_try_plain (write_leaves c _ _) fun _ =>
  leaves_try_plain (writeBurst_leaves c _ _) fun _ =>
  leaves_try_plain (write_leaves c _ _) fun _ => pollCrcDone_leaves c _

theorem pollIrq_leaves (c : Config) (m : Byte) (n : Nat) : (pollIrq c m n).Leaves c EndsPlain := by
  induction n with
  | zero => exact raise_leaves c _ (by simp [Plain])
  | succ n ih =>
    refine leaves_try_plain (read_leaves c _) fun v => ?_
    split
    · exact done_leaves c _
    · split
      · exact raise_leaves c _ (by simp [Plain])
      · exact ih

theorem setBits_leaves (c : Config) (a : RegAddr) (m : Byte) : (setBitsProg a m).Leaves c EndsPlain :=
  leaves_try_plain (read_leaves c _) fun _ => write_leaves c _ _

theorem prepare_leaves (c : Config) (cmd : CmdCode) (send : List Byte) (lb r : Bits3) :
    (prepareProg c cmd send lb r).Leaves c EndsPlain :=
  leaves_try_plain (write_leaves c _ _) fun _ =>
  leaves_try_plain (write_leaves c _ _) fun _ =>
  leaves_try_plain (write_leaves c _ _) fun _ =>
  leaves_try_plain (writeBurst_leaves c _ _) fun _ =>
  leaves_try_plain (write_leaves c _ _) fun _ =>
  leaves_try_plain (write_leaves c _ _) fun _ => by
    split
    · exact setBits_leaves c _ _
    · exact done_leaves c _

theorem retrieve_leaves (c : Config) (recv : Option (List Byte)) (r : Bits3) :
    (retrieveProg c recv r).Leaves c EndsPlain := by
  cases recv with
  | none => exact done_leaves c _
  | some buf =>
    refine leaves_try_plain (read_leaves c _) fun v => ?_
    split
    · exact raise_leaves c _ (by simp [Plain])
    · exact leaves_try_plain (readBurst_leaves c _ _) fun _ =>
    leaves_try_plain (read_leaves c _) fun _ => done_leaves c _

theorem exchange_leaves (c : Config) (cmd : CmdCode) (m : Byte) (send : List Byte) (v : Option Bits3) (recv : Option (List Byte)) (r : Bits3) :
    (exchangeProg c cmd m send v recv r).Leaves c EndsPlain :=
  leaves_try_plain (prepare_leaves c _ _ _ _) fun _ =>
  leaves_try_plain (pollIrq_leaves c _ _) fun _ =>
  leaves_try_plain (read_leaves c _) fun _ => by
    split
    · exact raise_leaves c _ (by simp [Plain])
    · exact leaves_try_plain (retrieve_leaves c _ _) fun _ => done_leaves c _

/-- The statuses of a `transceive` without CRC check (60_exceptions.md R194, R195). -/
theorem transceive_leaves (c : Config) (send : List Byte) (v : Option Bits3) (recv : Option (List Byte)) (r : Bits3) :
    (transceiveProg c send v recv r false).Leaves c (fun x => x.1 = .ok ∨ x.1 = .collision ∨ Plain x.1) := by
  rw [transceiveProg, communicateProg]
  refine (exchange_leaves c _ _ _ _ _ _).bind fun x hx => ?_
  cases x with
  | err st => exact .inr (.inr (hx st rfl))
  | ok p =>
    obtain ⟨err, reply⟩ := p
    simp only
    refine Prog.Leaves.bind (P := fun r => r = .ok () ∨ r = .err .collision) ?_ ?_
    · cases reply <;> simp only [validateProg] <;> split
      all_goals first | exact .inr rfl | exact .inl rfl
    · rintro _ (rfl | rfl)
      · exact .inl rfl
      · exact .inr (.inl rfl)

/-- If an error, one that a cascade level of `select` can raise (43_card_discovery.md R164, R167, R168). -/
def EndsSelect {α : Type} (r : Res α) : Prop :=
  ∀ st, r = .err st → Plain st ∨ st = .collision ∨ st = .internalError ∨ st = .crcWrong

theorem EndsPlain.select {α : Type} {r : Res α} (h : EndsPlain r) : EndsSelect r := fun st hs => .inl (h st hs)

theorem leaves_try_select {α β : Type} {c : Config} {p : Prog (Res α)} {f : α → Prog (Res β)}
    (h : p.Leaves c EndsSelect) (hf : ∀ v, (f v).Leaves c EndsSelect) : (p.tryBind f).Leaves c EndsSelect :=
  h.tryBind (fun v _ => hf v) (fun st hs => by rintro _ ⟨⟩; exact hs st rfl)

theorem raise_leaves_select {α : Type} (c : Config) (st : Status)
    (h : Plain st ∨ st = .collision ∨ st = .internalError ∨ st = .crcWrong) : (Prog.raise st : Prog (Res α)).Leaves c EndsSelect := by rintro _ ⟨⟩; exact h

theorem done_leaves_select {α : Type} (c : Config) (v : α) : (Prog.done v).Leaves c EndsSelect := by rintro _ ⟨⟩

/-- The statuses of the anti-collision loop. -/
theorem antiCollision_leaves (c : Config) (n : Nat) (buf : List Byte) (k : Nat) :
    (antiCollision c n buf k).Leaves c EndsSelect := by
  induction n generalizing buf k with
  | zero => exact raise_leaves_select c _ (by simp)
  | succ n ih =>
    rw [antiCollision]
    refine leaves_try_select ?_ fun f => ?_
    · rw [nextFrameProg]; split
      · exact leaves_try_select ((calculateCRC_leaves c _).mono fun _ => EndsPlain.select) fun _ => done_leaves_select c _
      · exact done_leaves_select c _
    · refine (transceive_leaves c _ _ _ _).bind fun x hx => ?_
      obtain ⟨st, reply⟩ := x
      simp only at hx
      rcases hx with rfl | rfl | hx
      · simp only; split
        · exact done_leaves_select c _
        · exact ih _ _
      · simp only
        refine leaves_try_select ?_ fun pos => ih _ _
        rw [collisionProg]
        refine leaves_try_select ((read_leaves c _).mono fun _ => EndsPlain.select) fun v => ?_
        split
        · exact raise_leaves_select c _ (by simp)
        · split
          · exact raise_leaves_select c _ (by simp)
          · exact done_leaves_select c _
      · rcases hx with rfl | rfl | rfl <;> exact raise_leaves_select c _ (by simp [Plain])

/-- The statuses of the SAK checks. -/
theorem checkSak_leaves (c : Config) (r : LevelReply) : (checkSakProg c r).Leaves c EndsSelect := by
  rw [checkSakProg]; split
  · exact raise_leaves_select c _ (by simp [Plain])
  · refine leaves_try_select ((calculateCRC_leaves c _).mono fun _ => EndsPlain.select) fun v => ?_
    split
    · exact raise_leaves_select c _ (by simp)
    · exact done_leaves_select c _

/-- How `select` can end: ten UID bytes kept, the statuses it can have, and the record after OK (R163, R168). -/
def SelectEnd (x : Uid × Status) : Prop := x.1.uidByte.length = 10 ∧ x.2 ≠ .mifareNack ∧ x.2 ≠ .invalid
    ∧ (x.2 = .ok → (x.1.size = 4 ∨ x.1.size = 7 ∨ x.1.size = 10) ∧ x.1.sak &&& 0x04 = 0)

/-- Copying the confirmed bytes of a level in keeps the ten bytes of the record (10_state.md R18). -/
theorem confirmUid_length (level : Nat) (h1 : 1 ≤ level) (h : level ≤ 3) (uid : Uid)
    (hu : uid.uidByte.length = 10) (buf : List Byte) : (confirmUid level uid buf).uidByte.length = 10 := by
  have : level = 1 ∨ level = 2 ∨ level = 3 := by omega
  simp only [confirmUid, splice, slice, uidIndex]
  rcases this with rfl | rfl | rfl <;> split <;> simp [hu] <;> omega

theorem SelectEnd.err {uid : Uid} {st : Status} (hu : uid.uidByte.length = 10)
    (h : Plain st ∨ st = .collision ∨ st = .internalError ∨ st = .crcWrong) : SelectEnd (uid, st) := by
  rcases h with (rfl | rfl | rfl) | rfl | rfl | rfl <;> simp [SelectEnd, hu]

theorem selectLevels_leaves (c : Config) (total left level : Nat) (h1 : 1 ≤ level)
    (h : left + level = 4) (uid : Uid) (hu : uid.uidByte.length = 10) (buf : List Byte) :
    (selectLevels c total left level uid buf).Leaves c SelectEnd := by
  induction left generalizing level uid buf with
  | zero => exact SelectEnd.err hu (by simp)
  | succ left ih =>
    rw [selectLevels]
    refine (antiCollision_leaves c _ _ _).bind fun r hr => ?_
    cases r with
    | err st => exact SelectEnd.err hu (hr st rfl)
    | ok r =>
      simp only
      refine (checkSak_leaves c r).bind fun q hq => ?_
      have hl := confirmUid_length level h1 (by omega) uid hu r.buf
      cases q with
      | err st => exact SelectEnd.err hl (hq st rfl)
      | ok _ =>
        simp only
        split
        · exact ih (level + 1) (by omega) (by omega) _ hl _
        · rename_i hs
          refine ⟨hl, by simp, by simp, fun _ => ⟨?_, ?_⟩⟩
          · simp [uidSize]; omega
          · simpa [sakCascade, anyBit] using hs

/-- How `select` can end, whatever the oracle. -/
theorem selectProg_leaves (c : Config) (uid : Uid) (hu : uid.uidByte.length = 10) (k : Nat) (hk : ¬ 80 < k) :
    (selectProg c uid k).Leaves c SelectEnd := by
  rw [selectProg, if_neg hk]; exact selectLevels_leaves c k 3 1 (by omega) (by omega) uid hu _

end Sys2Proof.Machine
end

