-- ==== Sys2Proof/Tests/Slice0.lean ====
section
/-! SUPPORT. Tests: ill-formed operations are refused, hand-written records and frames decode, one step of each operation
against the vectors of spec/95_test_vectors.md (the numbers V<n> and P<n> below), and for every statement with hypotheses
a concrete state and operands that meet them. -/

namespace Sys2Proof.Tests

open Sys2Proof Sys2Proof.Machine

/-! ## Helpers -/

/-- The default configuration, by a short name. -/
abbrev dc : Config := Config.default

/-- The reset state with samples to come, under a configuration. -/
def ready (c : Config) (l : List Level) : State :=
  { State.reset with cfg := c, bus := { Bus.reset with samples := l } }

/-- The reset state with samples to come. -/
def onSamples (l : List Level) : State := ready dc l

/-- The reset state with the samples that bring the events about, each slot acknowledged on its first sample. -/
def onEvents (es : List RegEvent) : State := onSamples (es.flatMap (promptSamples dc))

/-- The operation goes on to a state with the property. -/
def goesTo (i : Instr) (s : State) (p : State → Bool) : Bool :=
  match exec i s with
  | .next t => p t
  | .fault _ => false
  | .refused _ => false

/-- The operation, its oracle bringing the events about, does exactly those and answers. -/
def does (i : Instr) (es : List RegEvent) (a : Answer) : Bool :=
  goesTo i (onEvents es) fun t => t.answer == some a && t.bus.events == es.reverse && t.bus.samples == []

/-- The line actions of the operation on these samples, its answer, and how many samples are left. -/
def acts (i : Instr) (l : List Level) (done : List LineAction) (a : Answer) (left : Nat) : Bool :=
  goesTo i (onSamples l) fun t => t.bus.trace == done.reverse && t.answer == some a && t.bus.samples.length == left

/-- The line actions and microseconds of the operation, and its answer. -/
def costs (i : Instr) (l : List Level) (actions micros : Nat) (a : Answer) : Bool :=
  goesTo i (onSamples l) fun t =>
    t.bus.trace.length == actions && minMicros t.bus.trace == micros && t.answer == some a

/-- The answer of an operation without a value. -/
abbrev only (st : Status) : Answer := .status st .empty

/-! ## Ill-formed operations -/

theorem too_long (n : Nat) (h : 65536 ≤ n) : fitsRecord (List.replicate n 0) = false := by
  simp [fitsRecord, h]

theorem test_wf_burst_too_long : (Instr.writeRegisterBurst 0 (List.replicate 65536 0)).wf = false :=
  too_long _ (Nat.le_refl _)

theorem test_wf_buffer_too_long : (Instr.readRegisterBurst 0 1 (List.replicate 65536 0) 0).wf = false := by
  rw [Instr.wf, too_long _ (Nat.le_refl _), Bool.false_and]

theorem test_wf_count_beyond_buffer : (Instr.readRegisterBurst 0 3 [0, 0] 0).wf = false := by decide

theorem test_wf_crc_data_too_long : (Instr.calculateCRC (List.replicate 65536 0)).wf = false :=
  too_long _ (Nat.le_refl _)

theorem test_wf_send_too_long : (Instr.communicate 0xC 0x30 (List.replicate 65536 0) none none 0 false).wf = false := by
  rw [Instr.wf, too_long _ (Nat.le_refl _), Bool.false_and]

theorem test_wf_recv_too_long :
    (Instr.communicate 0xC 0x30 [] none (some (List.replicate 65536 0)) 0 false).wf = false := by
  rw [Instr.wf, Option.all_some, too_long _ (Nat.le_refl _), Bool.and_false]

theorem test_wf_transceive_send : (Instr.transceive (List.replicate 65536 0) none none 0 false).wf = false := by
  rw [Instr.wf, too_long _ (Nat.le_refl _), Bool.false_and]

theorem test_wf_transceive_recv : (Instr.transceive [] none (some (List.replicate 65536 0)) 0 false).wf = false := by
  rw [Instr.wf, Option.all_some, too_long _ (Nat.le_refl _), Bool.and_false]

theorem test_wf_uid_bytes : (Instr.select ⟨4, [1, 2, 3, 4], 0⟩ 0).wf = false := by decide
theorem test_wf_uid_size : (Instr.select ⟨256, List.replicate 10 0, 0⟩ 0).wf = false := by decide
theorem test_wf_known : (Instr.select ⟨4, List.replicate 10 0, 0⟩ 256).wf = false := by decide

/-- 42_reader_control.md R146, 60_exceptions.md R203: what a configuration does not admit. -/
theorem test_not_admitted :
    (Instr.readRegisterBurst 0 3 [0, 0] 0).admitted dc = false ∧ (Instr.calculateCRC (List.replicate 65 0)).admitted dc = false ∧
    (Instr.communicate 0x3 0x30 [] none none 0 false).admitted dc = false ∧
    (Instr.communicate 0xC 0x30 (List.replicate 65 0) none none 0 false).admitted dc = false ∧
    (Instr.transceive (List.replicate 65 0) none none 0 false).admitted dc = false ∧
    (Instr.select ⟨4, [1], 0⟩ 0).admitted dc = false := by decide +kernel

/-! ## Decoding -/

/-- The primitives' records (30_encoding.md R77, log 1). -/
theorem test_decode_primitives :
    decode [0x00] = .ok .start ∧ decode [0x01] = .ok .stop ∧ decode [0x02, 0xA5] = .ok (.writeByte 0xA5) ∧
    decode [0x03] = .ok .readByte ∧ decode [0x04] = .ok .masterAck ∧ decode [0x05] = .ok .masterNotAck ∧
    decode [0x06] = .ok .slaveAck := by decide +kernel

/-- The register operations' records. -/
theorem test_decode_register :
    decode [0x07, 0x01, 0x0F] = .ok (.writeRegister 0x01 0x0F) ∧ decode [0x08, 0x37] = .ok (.readRegister 0x37) ∧
    decode [0x09, 0x09, 0x00, 0x02, 0x93, 0x20] = .ok (.writeRegisterBurst 0x09 [0x93, 0x20]) ∧
    decode [0x0A, 0x09, 0x00, 0x03, 0x00, 0x03, 0x0B, 0x00, 0x00, 0x04] =
      .ok (.readRegisterBurst 0x09 3 [0x0B, 0x00, 0x00] 4) ∧
    decode [0x0B, 0x0D, 0x80] = .ok (.setBits 0x0D 0x80) ∧ decode [0x0C, 0x14, 0x03] = .ok (.clearBits 0x14 0x03) := by
  decide +kernel

/-- The reader-control operations' records. -/
theorem test_decode_reader :
    decode [0x0D] = .ok .init ∧ decode [0x0E] = .ok .softReset ∧ decode [0x0F] = .ok .antennaOn ∧
    decode [0x10] = .ok .antennaOff ∧ decode [0x11, 0x00, 0x02, 0x93, 0x20] = .ok (.calculateCRC [0x93, 0x20]) ∧
    decode [0x12, 0x08, 0x30, 0x00, 0x00, 0xFF, 0x00, 0x07, 0x01] =
      .ok (.communicate 0x8 0x30 [] none none 7 true) ∧
    decode [0x13, 0x00, 0x01, 0x26, 0x07, 0x01, 0x00, 0x02, 0x00, 0x00, 0x00, 0x00] =
      .ok (.transceive [0x26] (some 7) (some [0x00, 0x00]) 0 false) := by decide +kernel

/-- The discovery operations' records. -/
theorem test_decode_discovery :
    decode [0x14] = .ok .requestA ∧ decode [0x15] = .ok .wakeupA ∧ decode [0x16] = .ok .isNewCardPresent ∧
    decode [0x17, 0x04, 0xDE, 0xAD, 0xBE, 0xEF, 0, 0, 0, 0, 0, 0, 0x08, 0x0C] =
      .ok (.select ⟨4, [0xDE, 0xAD, 0xBE, 0xEF, 0, 0, 0, 0, 0, 0], 0x08⟩ 12) ∧
    decode [0x18] = .ok .readCardSerial ∧ decode [0x19] = .ok .discoverUid := by decide +kernel

/-- Records that are no operation, each by its name (30_encoding.md R73, R74, 60_exceptions.md R203). -/
theorem test_decode_rejects :
    decode [] = .error .emptyRecord ∧ decode [0x1A] = .error (.unknownOperation 0x1A) ∧
    decode [0x07, 0x01] = .error .truncated ∧ decode [0x00, 0x00] = .error .trailingBytes ∧
    decode [0x07, 0x40, 0x00] = .error (.registerAddress 0x40) ∧
    decode [0x13, 0x00, 0x00, 0x08, 0x00, 0x00, 0x00] = .error (.threeBitField 0x08) ∧
    decode [0x12, 0x10, 0x30, 0x00, 0x00, 0xFF, 0x00, 0x00, 0x00] = .error (.commandByte 0x10) ∧
    decode [0x13, 0x00, 0x00, 0xFF, 0x02, 0x00, 0x00] = .error (.flagByte 0x02) ∧
    decode [0x0A, 0x09, 0x00, 0x02, 0x00, 0x01, 0x0B, 0x00] = .error .bufferTooShort := by decide +kernel

/-- Bits as wire symbols. -/
def wire (bits : List Bool) : List WireSym := bits.map .bit

/-- The bits between start and stop of V10, from 30_encoding.md R66: 01010000 0 00000001 0 00001111 0. -/
theorem test_frame_write :
    decodeFrame (.start :: (wire [false, true, false, true, false, false, false, false, false,
      false, false, false, false, false, false, false, true, false,
      false, false, false, false, true, true, true, true, false] ++ [.stop])) = .ok (0x28, .writeRegister 0x01 0x0F) := by
  decide +kernel

/-- V12, from R67: 01010000 0 00110111 0, then 01010001 0 10010010 1. -/
theorem test_frame_read :
    decodeFrame (.start :: (wire [false, true, false, true, false, false, false, false, false,
      false, false, true, true, false, true, true, true, false] ++ (.stop :: .start ::
      (wire [false, true, false, true, false, false, false, true, false,
      true, false, false, true, false, false, true, false, true] ++ [.stop])))) = .ok (0x28, .readRegister 0x37) := by
  decide +kernel

/-- A burst of two bytes (R68), a register address above 0x3F (R74), no stop. -/
theorem test_frame_others :
    decodeFrame (.start :: (wire [false, true, false, true, false, false, false, false, false,
      false, false, false, false, true, false, false, true, false,
      true, false, false, true, false, false, true, true, false,
      false, false, true, false, false, false, false, false, false] ++ [.stop])) =
        .ok (0x28, .writeRegisterBurst 0x09 [0x93, 0x20]) ∧
    decodeFrame (.start :: (wire [false, true, false, true, false, false, false, false, false,
      false, true, false, false, false, false, false, false, false,
      false, false, false, false, true, true, true, true, false] ++ [.stop])) = .error .unknownFrame ∧
    decodeFrame (.start :: wire [false, true]) = .error .notAFrame := by decide +kernel

/-- The FRAME rows' word for V10's first two bytes: pulses 01010000 0 00000001 0 (R78); what follows is zeros (log 3). -/
theorem test_table_word : decodeTableWord 24 0x14002 = some (.writeRegister 0x01 0x00) ∧ decodeTableWord 0 0x40000 = none := by
  decide +kernel

/-- The same word placed with `withFetchWord` runs as the first step after reset. -/
theorem test_fetch_word :
    (match step (State.reset.withFetchWord 24 0x14002) with
      | .next t => t.answer == some (only .error) && t.calls == []
      | .fault _ => false
      | .refused _ => false) = true := by decide +kernel

/-! ## Bus primitives -/

/-- V1 -/
theorem test_start : acts .start []
    [.sdaDrive true, .sclDrive true, .hold 5, .sdaDrive false, .hold 5, .sclDrive false] .done 0 = true := by decide +kernel

/-- V2 -/
theorem test_stop : acts .stop []
    [.sclDrive false, .sdaDrive false, .hold 5, .sclDrive true, .sdaDrive true, .hold 5] .done 0 = true := by decide +kernel

/-- V3 -/
theorem test_writeByte : acts (.writeByte 0xA5) []
    [.sdaDrive true, .sclDrive true, .hold 5, .sclDrive false, .hold 5, .sdaDrive false, .sclDrive true, .hold 5,
    .sclDrive false, .hold 5, .sdaDrive true, .sclDrive true, .hold 5, .sclDrive false, .hold 5, .sdaDrive false,
    .sclDrive true, .hold 5, .sclDrive false, .hold 5, .sdaDrive false, .sclDrive true, .hold 5, .sclDrive false,
    .hold 5, .sdaDrive true, .sclDrive true, .hold 5, .sclDrive false, .hold 5, .sdaDrive false, .sclDrive true,
    .hold 5, .sclDrive false, .hold 5, .sdaDrive true, .sclDrive true, .hold 5, .sclDrive false, .hold 5] .done 0 = true := by decide +kernel

/-- V4; a ninth sample is not taken -/
theorem test_readByte : acts .readByte [true, false, true, false, false, true, false, true, false]
    [.sdaRelease, .sclDrive false, .hold 3, .sclDrive true, .hold 2, .sdaSample true, .hold 5, .sclDrive false,
    .hold 3, .sclDrive true, .hold 2, .sdaSample false, .hold 5, .sclDrive false, .hold 3, .sclDrive true,
    .hold 2, .sdaSample true, .hold 5, .sclDrive false, .hold 3, .sclDrive true, .hold 2, .sdaSample false,
    .hold 5, .sclDrive false, .hold 3, .sclDrive true, .hold 2, .sdaSample false, .hold 5, .sclDrive false,
    .hold 3, .sclDrive true, .hold 2, .sdaSample true, .hold 5, .sclDrive false, .hold 3, .sclDrive true,
    .hold 2, .sdaSample false, .hold 5, .sclDrive false, .hold 3, .sclDrive true, .hold 2, .sdaSample true,
    .hold 5] (.byte 0xA5) 1 = true := by decide +kernel

/-- V4c, V4a -/
theorem test_readByte_ends : goesTo .readByte (onSamples [true, false, false, false, false, false, false, false]) (fun t => t.answer == some (.byte 0x80)) &&
    goesTo .readByte (onSamples []) (fun t => t.answer == some (.byte 0xFF)) = true := by decide +kernel

/-- V5 -/
theorem test_masterAck : acts .masterAck [] [.sclDrive false, .sdaDrive false, .sclDrive true, .hold 5, .sclDrive false, .hold 5] .done 0 = true := by decide +kernel

/-- V6 -/
theorem test_masterNotAck : acts .masterNotAck [] [.sclDrive false, .sdaDrive true, .sclDrive true, .hold 5, .sclDrive false, .hold 5] .done 0 = true := by decide +kernel

/-- V7b: the 20th sample counts -/
theorem test_slaveAck_last : acts .slaveAck (List.replicate 19 true ++ [false])
    ([.sdaRelease, .sclDrive true] ++ (List.replicate 19 [.sdaSample true, .hold 1]).flatten ++
      [.sdaSample false, .sclDrive false]) (.flag true) 0 = true := by decide +kernel

/-- V8: never a 21st sample -/
theorem test_slaveAck_never : acts .slaveAck (List.replicate 21 true)
    ([.sdaRelease, .sclDrive true] ++ (List.replicate 20 [.sdaSample true, .hold 1]).flatten ++
      [.sclDrive false]) (.flag false) 1 = true := by decide +kernel

/-! ## Register operations -/

/-- V10 -/
theorem test_writeRegister : acts (.writeRegister 0x01 0x0F) [false, false, false]
    [.sdaDrive true, .sclDrive true, .hold 5, .sdaDrive false, .hold 5, .sclDrive false, .sdaDrive false,
    .sclDrive true, .hold 5, .sclDrive false, .hold 5, .sdaDrive true, .sclDrive true, .hold 5, .sclDrive false,
    .hold 5, .sdaDrive false, .sclDrive true, .hold 5, .sclDrive false, .hold 5, .sdaDrive true, .sclDrive true,
    .hold 5, .sclDrive false, .hold 5, .sdaDrive false, .sclDrive true, .hold 5, .sclDrive false, .hold 5,
    .sdaDrive false, .sclDrive true, .hold 5, .sclDrive false, .hold 5, .sdaDrive false, .sclDrive true, .hold 5,
    .sclDrive false, .hold 5, .sdaDrive false, .sclDrive true, .hold 5, .sclDrive false, .hold 5, .sdaRelease,
    .sclDrive true, .sdaSample false, .sclDrive false, .sdaDrive false, .sclDrive true, .hold 5, .sclDrive false,
    .hold 5, .sdaDrive false, .sclDrive true, .hold 5, .sclDrive false, .hold 5, .sdaDrive false, .sclDrive true,
    .hold 5, .sclDrive false, .hold 5, .sdaDrive false, .sclDrive true, .hold 5, .sclDrive false, .hold 5,
    .sdaDrive false, .sclDrive true, .hold 5, .sclDrive false, .hold 5, .sdaDrive false, .sclDrive true, .hold 5,
    .sclDrive false, .hold 5, .sdaDrive false, .sclDrive true, .hold 5, .sclDrive false, .hold 5, .sdaDrive true,
    .sclDrive true, .hold 5, .sclDrive false, .hold 5, .sdaRelease, .sclDrive true, .sdaSample false,
    .sclDrive false, .sdaDrive false, .sclDrive true, .hold 5, .sclDrive false, .hold 5, .sdaDrive false,
    .sclDrive true, .hold 5, .sclDrive false, .hold 5, .sdaDrive false, .sclDrive true, .hold 5, .sclDrive false,
    .hold 5, .sdaDrive false, .sclDrive true, .hold 5, .sclDrive false, .hold 5, .sdaDrive true, .sclDrive true,
    .hold 5, .sclDrive false, .hold 5, .sdaDrive true, .sclDrive true, .hold 5, .sclDrive false, .hold 5,
    .sdaDrive true, .sclDrive true, .hold 5, .sclDrive false, .hold 5, .sdaDrive true, .sclDrive true, .hold 5,
    .sclDrive false, .hold 5, .sdaRelease, .sclDrive true, .sdaSample false, .sclDrive false, .sclDrive false,
    .sdaDrive false, .hold 5, .sclDrive true, .sdaDrive true, .hold 5] (only .ok) 0 = true := by decide +kernel

/-- V11, V13 -/
theorem test_writeRegister_missed : costs (.writeRegister 0x01 0x0F) (List.replicate 20 true) 95 120 (only .error) &&
    costs (.writeRegister 0x01 0x0F) (false :: List.replicate 20 true) 139 200 (only .error) = true := by decide +kernel

/-- V12 -/
theorem test_readRegister : acts (.readRegister 0x37) [false, false, false, true, false, false, true, false, false, true, false]
    [.sdaDrive true, .sclDrive true, .hold 5, .sdaDrive false, .hold 5, .sclDrive false, .sdaDrive false,
    .sclDrive true, .hold 5, .sclDrive false, .hold 5, .sdaDrive true, .sclDrive true, .hold 5, .sclDrive false,
    .hold 5, .sdaDrive false, .sclDrive true, .hold 5, .sclDrive false, .hold 5, .sdaDrive true, .sclDrive true,
    .hold 5, .sclDrive false, .hold 5, .sdaDrive false, .sclDrive true, .hold 5, .sclDrive false, .hold 5,
    .sdaDrive false, .sclDrive true, .hold 5, .sclDrive false, .hold 5, .sdaDrive false, .sclDrive true, .hold 5,
    .sclDrive false, .hold 5, .sdaDrive false, .sclDrive true, .hold 5, .sclDrive false, .hold 5, .sdaRelease,
    .sclDrive true, .sdaSample false, .sclDrive false, .sdaDrive false, .sclDrive true, .hold 5, .sclDrive false,
    .hold 5, .sdaDrive false, .sclDrive true, .hold 5, .sclDrive false, .hold 5, .sdaDrive true, .sclDrive true,
    .hold 5, .sclDrive false, .hold 5, .sdaDrive true, .sclDrive true, .hold 5, .sclDrive false, .hold 5,
    .sdaDrive false, .sclDrive true, .hold 5, .sclDrive false, .hold 5, .sdaDrive true, .sclDrive true, .hold 5,
    .sclDrive false, .hold 5, .sdaDrive true, .sclDrive true, .hold 5, .sclDrive false, .hold 5, .sdaDrive true,
    .sclDrive true, .hold 5, .sclDrive false, .hold 5, .sdaRelease, .sclDrive true, .sdaSample false,
    .sclDrive false, .sclDrive false, .sdaDrive false, .hold 5, .sclDrive true, .sdaDrive true, .hold 5,
    .sdaDrive true, .sclDrive true, .hold 5, .sdaDrive false, .hold 5, .sclDrive false, .sdaDrive false,
    .sclDrive true, .hold 5, .sclDrive false, .hold 5, .sdaDrive true, .sclDrive true, .hold 5, .sclDrive false,
    .hold 5, .sdaDrive false, .sclDrive true, .hold 5, .sclDrive false, .hold 5, .sdaDrive true, .sclDrive true,
    .hold 5, .sclDrive false, .hold 5, .sdaDrive false, .sclDrive true, .hold 5, .sclDrive false, .hold 5,
    .sdaDrive false, .sclDrive true, .hold 5, .sclDrive false, .hold 5, .sdaDrive false, .sclDrive true, .hold 5,
    .sclDrive false, .hold 5, .sdaDrive true, .sclDrive true, .hold 5, .sclDrive false, .hold 5, .sdaRelease,
    .sclDrive true, .sdaSample false, .sclDrive false, .sdaRelease, .sclDrive false, .hold 3, .sclDrive true,
    .hold 2, .sdaSample true, .hold 5, .sclDrive false, .hold 3, .sclDrive true, .hold 2, .sdaSample false,
    .hold 5, .sclDrive false, .hold 3, .sclDrive true, .hold 2, .sdaSample false, .hold 5, .sclDrive false,
    .hold 3, .sclDrive true, .hold 2, .sdaSample true, .hold 5, .sclDrive false, .hold 3, .sclDrive true,
    .hold 2, .sdaSample false, .hold 5, .sclDrive false, .hold 3, .sclDrive true, .hold 2, .sdaSample false,
    .hold 5, .sclDrive false, .hold 3, .sclDrive true, .hold 2, .sdaSample true, .hold 5, .sclDrive false,
    .hold 3, .sclDrive true, .hold 2, .sdaSample false, .hold 5, .sclDrive false, .sdaDrive true, .sclDrive true,
    .hold 5, .sclDrive false, .hold 5, .sclDrive false, .sdaDrive false, .hold 5, .sclDrive true, .sdaDrive true,
    .hold 5] (.status .ok (.byte 0x92)) 0 = true := by decide +kernel

/-- V15 -/
theorem test_readRegister_missed : costs (.readRegister 0x37) (false :: false :: List.replicate 20 true) 195 300 (only .error) = true := by decide +kernel

/-- V17, V17b -/
theorem test_writeRegisterBurst : costs (.writeRegisterBurst 0x09 [0x93, 0x20]) (List.replicate 4 false) 188 340 (only .ok) &&
    costs (.writeRegisterBurst 0x09 []) [] 0 0 (only .ok) = true := by decide +kernel

/-- V17d -/
theorem test_writeRegisterBurst_missed : costs (.writeRegisterBurst 0x09 [0x93, 0x20]) (false :: false :: List.replicate 20 true) 183 280 (only .error) = true := by decide +kernel

/-- V18: the slave supplies 0xD7, 0x12, 0x34 -/
theorem test_readRegisterBurst : costs (.readRegisterBurst 0x09 3 [0x0B, 0x00, 0x00] 4) ([false, false, false] ++
    [true, true, false, true, false, true, true, true, false, false, false, true, false, false, true, false,
     false, false, true, true, false, true, false, false]) 321 550 (.status .ok (.buffer [0xDB, 0x12, 0x34])) = true := by decide +kernel

/-- V18c, from 20_memory.md R44 -/
theorem test_rxAlign_merge :
    ([0, 1, 2, 3, 4, 5, 6, 7].map fun r => mergeFirst r 0x0B 0xD7) =
      [0xD7, 0xD7, 0xD7, 0xD3, 0xDB, 0xCB, 0xCB, 0x8B] := by decide +kernel

/-- V19 -/
theorem test_setBits : does (.setBits 0x0D 0x80)
    [.rd 0x0D (some 0x07), .wr 0x0D 0x87 true] (only .ok) = true := by decide +kernel

/-- V19a -/
theorem test_clearBits : does (.clearBits 0x14 0x03)
    [.rd 0x14 (some 0x83), .wr 0x14 0x80 true] (only .ok) = true := by decide +kernel

/-! ## Reader control -/

/-- The 14 events of V20. -/
def eventsV20 : List RegEvent :=
  [.wr 0x01 0x00 true, .wr 0x04 0x7F true, .wr 0x0A 0x80 true, .wrb 0x09 [0x26] true, .wr 0x0D 0x07 true,
   .wr 0x01 0x0C true, .rd 0x0D (some 0x07), .wr 0x0D 0x87 true, .rd 0x04 (some 0x40), .rd 0x04 (some 0x74),
   .rd 0x06 (some 0x00), .rd 0x0A (some 0x02), .rdb 0x09 2 (some [0x04,0x00]), .rd 0x0C (some 0x10)]

/-- P3, line 1 -/
theorem test_init : does .init
    [.wr 0x01 0x0F true, .hold 50000, .rd 0x01 (some 0x1F), .hold 50000, .rd 0x01 (some 0x20),
   .wr 0x2A 0x80 true, .wr 0x2B 0xA9 true, .wr 0x2C 0x03 true, .wr 0x2D 0xE8 true, .wr 0x15 0x40 true,
   .wr 0x11 0x3D true, .rd 0x14 (some 0x80), .wr 0x14 0x83 true] (only .ok) = true := by decide +kernel

/-- V42a: no timer register is written -/
theorem test_init_timeout : does .init
    [.wr 0x01 0x0F true, .hold 50000, .rd 0x01 (some 0x1F), .hold 50000, .rd 0x01 (some 0x1F), .hold 50000,
   .rd 0x01 (some 0x1F)] (only .timeout) = true := by decide +kernel

/-- V42 -/
theorem test_softReset : does .softReset
    [.wr 0x01 0x0F true, .hold 50000, .rd 0x01 (some 0x1F), .hold 50000, .rd 0x01 (some 0x20)] (only .ok) = true := by decide +kernel

/-- V42b -/
theorem test_softReset_missed : does .softReset [.wr 0x01 0x0F true, .hold 50000, .rd 0x01 none] (only .error) = true := by decide +kernel

/-- V40b, V40a -/
theorem test_antennaOn : does .antennaOn [.rd 0x14 (some 0x82), .wr 0x14 0x83 true] (only .ok) &&
    does .antennaOn [.rd 0x14 (some 0x83)] (only .ok) = true := by decide +kernel

/-- V41b, V41a -/
theorem test_antennaOff : does .antennaOff [.rd 0x14 (some 0x81), .wr 0x14 0x80 true] (only .ok) &&
    does .antennaOff [.rd 0x14 (some 0x80)] (only .ok) = true := by decide +kernel

/-- V35 -/
theorem test_calculateCRC : does (.calculateCRC [0x93, 0x20])
    [.wr 0x01 0x00 true, .wr 0x05 0x04 true, .wr 0x0A 0x80 true, .wrb 0x09 [0x93,0x20] true, .wr 0x01 0x03 true,
   .rd 0x05 (some 0x00), .rd 0x05 (some 0x04), .rd 0x22 (some 0x97), .rd 0x21 (some 0x0C)] (.status .ok (.crc 0x97 0x0C)) = true := by decide +kernel

/-- V36 -/
theorem test_calculateCRC_empty : does (.calculateCRC [])
    [.wr 0x01 0x00 true, .wr 0x05 0x04 true, .wr 0x0A 0x80 true, .wr 0x01 0x03 true, .rd 0x05 (some 0x04),
   .rd 0x22 (some 0x63), .rd 0x21 (some 0x63)] (.status .ok (.crc 0x63 0x63)) = true := by decide +kernel

/-- V31 with R145 and V18c: no StartSend, the response merged at `rxAlign` 4, no valid-bit count for a caller without one -/
theorem test_communicate_receive : does (.communicate 0x8 0x30 [] none (some [0x0B, 0x55]) 4 false)
    [.wr 0x01 0x00 true, .wr 0x04 0x7F true, .wr 0x0A 0x80 true, .wr 0x0D 0x40 true, .wr 0x01 0x08 true,
   .rd 0x04 (some 0x20), .rd 0x06 (some 0x00), .rd 0x0A (some 0x01), .rdb 0x09 1 (some [0xD7]),
   .rd 0x0C (some 0x03)]
    (.status .ok (.response [0xDB, 0x55] 1 none)) = true := by decide +kernel

/-- V21 with another wait mask -/
theorem test_communicate_irq : does (.communicate 0xC 0x10 [0x26] (some 7) none 0 true)
    [.wr 0x01 0x00 true, .wr 0x04 0x7F true, .wr 0x0A 0x80 true, .wrb 0x09 [0x26] true, .wr 0x0D 0x07 true,
   .wr 0x01 0x0C true, .rd 0x0D (some 0x07), .wr 0x0D 0x87 true, .rd 0x04 (some 0x40), .rd 0x04 (some 0x41)] (only .timeout) = true := by decide +kernel

/-- V20 -/
theorem test_transceive : does (.transceive [0x26] (some 7) (some [0, 0]) 0 false) eventsV20
    (.status .ok (.response [0x04, 0x00] 2 (some 0))) = true := by decide +kernel

/-- V30a -/
theorem test_transceive_nack : does (.transceive [0x26] (some 7) (some [0, 0]) 0 true)
    [.wr 0x01 0x00 true, .wr 0x04 0x7F true, .wr 0x0A 0x80 true, .wrb 0x09 [0x26] true, .wr 0x0D 0x07 true,
   .wr 0x01 0x0C true, .rd 0x0D (some 0x07), .wr 0x0D 0x87 true, .rd 0x04 (some 0x20), .rd 0x06 (some 0x00),
   .rd 0x0A (some 0x01), .rdb 0x09 1 (some [0x04]), .rd 0x0C (some 0x14)]
    (.status .mifareNack (.response [0x04, 0x00] 1 (some 4))) = true := by decide +kernel

/-! ## Card discovery -/

/-- The 46 events of `select` in P3. -/
def eventsP3 : List RegEvent :=
  [.wr 0x01 0x00 true, .wr 0x04 0x7F true, .wr 0x0A 0x80 true, .wrb 0x09 [0x93,0x20] true, .wr 0x0D 0x00 true,
   .wr 0x01 0x0C true, .rd 0x0D (some 0x00), .wr 0x0D 0x80 true, .rd 0x04 (some 0x40), .rd 0x04 (some 0x74),
   .rd 0x06 (some 0x00), .rd 0x0A (some 0x05), .rdb 0x09 5 (some [0xDE,0xAD,0xBE,0xEF,0x22]),
   .rd 0x0C (some 0x10), .wr 0x01 0x00 true, .wr 0x05 0x04 true, .wr 0x0A 0x80 true,
   .wrb 0x09 [0x93,0x70,0xDE,0xAD,0xBE,0xEF,0x22] true, .wr 0x01 0x03 true, .rd 0x05 (some 0x00),
   .rd 0x05 (some 0x04), .rd 0x22 (some 0xB9), .rd 0x21 (some 0x9C), .wr 0x01 0x00 true, .wr 0x04 0x7F true,
   .wr 0x0A 0x80 true, .wrb 0x09 [0x93,0x70,0xDE,0xAD,0xBE,0xEF,0x22,0xB9,0x9C] true, .wr 0x0D 0x00 true,
   .wr 0x01 0x0C true, .rd 0x0D (some 0x00), .wr 0x0D 0x80 true, .rd 0x04 (some 0x40), .rd 0x04 (some 0x74),
   .rd 0x06 (some 0x00), .rd 0x0A (some 0x03), .rdb 0x09 3 (some [0x08,0xB6,0xDD]), .rd 0x0C (some 0x10),
   .wr 0x01 0x00 true, .wr 0x05 0x04 true, .wr 0x0A 0x80 true, .wrb 0x09 [0x08] true, .wr 0x01 0x03 true,
   .rd 0x05 (some 0x00), .rd 0x05 (some 0x04), .rd 0x22 (some 0xB6), .rd 0x21 (some 0xDD)]

/-- The 58 events of P4. -/
def eventsP4 : List RegEvent :=
  [.wr 0x01 0x00 true, .wr 0x04 0x7F true, .wr 0x0A 0x80 true, .wrb 0x09 [0x93,0x20] true, .wr 0x0D 0x00 true,
   .wr 0x01 0x0C true, .rd 0x0D (some 0x00), .wr 0x0D 0x80 true, .rd 0x04 (some 0x74), .rd 0x06 (some 0x08),
   .rd 0x0A (some 0x05), .rdb 0x09 5 (some [0xDE,0x05,0x00,0x00,0x00]), .rd 0x0C (some 0x10),
   .rd 0x0E (some 0x8C), .wr 0x01 0x00 true, .wr 0x04 0x7F true, .wr 0x0A 0x80 true,
   .wrb 0x09 [0x93,0x34,0xDE,0x0D] true, .wr 0x0D 0x44 true, .wr 0x01 0x0C true, .rd 0x0D (some 0x44),
   .wr 0x0D 0xC4 true, .rd 0x04 (some 0x74), .rd 0x06 (some 0x00), .rd 0x0A (some 0x04),
   .rdb 0x09 4 (some [0xA0,0xBE,0xEF,0x22]), .rd 0x0C (some 0x10), .wr 0x01 0x00 true, .wr 0x05 0x04 true,
   .wr 0x0A 0x80 true, .wrb 0x09 [0x93,0x70,0xDE,0xAD,0xBE,0xEF,0x22] true, .wr 0x01 0x03 true,
   .rd 0x05 (some 0x00), .rd 0x05 (some 0x04), .rd 0x22 (some 0xB9), .rd 0x21 (some 0x9C), .wr 0x01 0x00 true,
   .wr 0x04 0x7F true, .wr 0x0A 0x80 true, .wrb 0x09 [0x93,0x70,0xDE,0xAD,0xBE,0xEF,0x22,0xB9,0x9C] true,
   .wr 0x0D 0x00 true, .wr 0x01 0x0C true, .rd 0x0D (some 0x00), .wr 0x0D 0x80 true, .rd 0x04 (some 0x74),
   .rd 0x06 (some 0x00), .rd 0x0A (some 0x03), .rdb 0x09 3 (some [0x08,0xB6,0xDD]), .rd 0x0C (some 0x10),
   .wr 0x01 0x00 true, .wr 0x05 0x04 true, .wr 0x0A 0x80 true, .wrb 0x09 [0x08] true, .wr 0x01 0x03 true,
   .rd 0x05 (some 0x00), .rd 0x05 (some 0x04), .rd 0x22 (some 0xB6), .rd 0x21 (some 0xDD)]

/-- The card of P3. -/
def uidP3 : Uid := ⟨4, [0xDE, 0xAD, 0xBE, 0xEF, 0, 0, 0, 0, 0, 0], 0x08⟩

/-- `select` on a blank record does these events and leaves this record. -/
def selects (i : Instr) (es : List RegEvent) (a : Answer) (u : Uid) : Bool :=
  goesTo i (onEvents es) fun t =>
    t.answer == some a && t.bus.events == es.reverse && t.uid == u && t.uidMeaningful

/-- P3, line 3 -/
theorem test_requestA : does .requestA eventsV20 (.status .ok (.atqa [0x04, 0x00])) = true := by decide +kernel

/-- V52a -/
theorem test_requestA_bits : does .requestA
    [.wr 0x01 0x00 true, .wr 0x04 0x7F true, .wr 0x0A 0x80 true, .wrb 0x09 [0x26] true, .wr 0x0D 0x07 true,
   .wr 0x01 0x0C true, .rd 0x0D (some 0x07), .wr 0x0D 0x87 true, .rd 0x04 (some 0x20), .rd 0x06 (some 0x00),
   .rd 0x0A (some 0x02), .rdb 0x09 2 (some [0x04,0x00]), .rd 0x0C (some 0x14)] (only .error) = true := by decide +kernel

/-- R160: V20 with the WUPA frame 0x52 -/
theorem test_wakeupA : does .wakeupA
    [.wr 0x01 0x00 true, .wr 0x04 0x7F true, .wr 0x0A 0x80 true, .wrb 0x09 [0x52] true, .wr 0x0D 0x07 true,
   .wr 0x01 0x0C true, .rd 0x0D (some 0x07), .wr 0x0D 0x87 true, .rd 0x04 (some 0x40), .rd 0x04 (some 0x74),
   .rd 0x06 (some 0x00), .rd 0x0A (some 0x02), .rdb 0x09 2 (some [0x04,0x00]), .rd 0x0C (some 0x10)] (.status .ok (.atqa [0x04, 0x00])) = true := by decide +kernel

/-- V51 -/
theorem test_isNewCardPresent : does .isNewCardPresent eventsV20 (.flag true) = true := by decide +kernel

/-- V50 -/
theorem test_isNewCardPresent_none : does .isNewCardPresent
    [.wr 0x01 0x00 true, .wr 0x04 0x7F true, .wr 0x0A 0x80 true, .wrb 0x09 [0x26] true, .wr 0x0D 0x07 true,
   .wr 0x01 0x0C true, .rd 0x0D (some 0x07), .wr 0x0D 0x87 true, .rd 0x04 (some 0x40), .rd 0x04 (some 0x41)] (.flag false) = true := by decide +kernel

/-- V60, P3 -/
theorem test_select : selects (.select blankUid 0) eventsP3 (only .ok) uidP3 = true := by decide +kernel

/-- V63, P4 -/
theorem test_select_collision : selects (.select blankUid 0) eventsP4 (only .ok) uidP3 = true := by decide +kernel

/-- P5, R170 -/
theorem test_readCardSerial : selects .readCardSerial eventsP3 (.flag true) uidP3 = true := by decide +kernel

/-- P3, line 3: the four bytes of the UID and no other byte of the record are handed over (R18). -/
theorem test_discoverUid : selects .discoverUid (eventsV20 ++ eventsP3) (.status .ok (.uid 4 [0xDE, 0xAD, 0xBE, 0xEF] 0x08)) uidP3 =
    true := by decide +kernel

/-- R171 with V21 -/
theorem test_discoverUid_none : does .discoverUid
    [.wr 0x01 0x00 true, .wr 0x04 0x7F true, .wr 0x0A 0x80 true, .wrb 0x09 [0x26] true, .wr 0x0D 0x07 true,
   .wr 0x01 0x0C true, .rd 0x0D (some 0x07), .wr 0x0D 0x87 true, .rd 0x04 (some 0x40), .rd 0x04 (some 0x41)] (only .timeout) = true := by decide +kernel

/-! ## Witnesses: what meets the hypotheses of each statement -/

/-- The samples that bring the events about are there, and nothing after them. -/
theorem meets (c : Config) (h : 0 < c.ackPollMax) (es : List RegEvent) :
    ∃ l rest, Brings c es l ∧ (ready c (es.flatMap (promptSamples c))).bus.samples = l ++ rest :=
  ⟨_, [], Brings.prompt c h es, (List.append_nil _).symm⟩

/-- The same the other way round. -/
theorem meets' (c : Config) (h : 0 < c.ackPollMax) (es : List RegEvent) :
    ∃ l rest, (ready c (es.flatMap (promptSamples c))).bus.samples = l ++ rest ∧ Brings c es l :=
  ⟨_, [], (List.append_nil _).symm, Brings.prompt c h es⟩

theorem pos : 0 < dc.ackPollMax := by decide

/-- An operation that goes on to a state with a property. -/
theorem goes_to {i : Instr} {s : State} {p : State → Bool} (h : goesTo i s p = true) :
    ∃ t, exec i s = .next t ∧ p t = true := by
  rw [goesTo] at h
  split at h
  · exact ⟨_, by assumption, h⟩
  · simp at h
  · simp at h

/-- What it answers. -/
theorem goes_to_answer {i : Instr} {s : State} {a : Answer} (h : goesTo i s (fun t => decide (t.answer = some a)) = true) :
    ∃ t, exec i s = .next t ∧ t.answer = some a := by
  obtain ⟨t, h1, h2⟩ := goes_to h
  exact ⟨t, h1, of_decide_eq_true h2⟩

/-- What it does not answer. -/
theorem goes_to_other {i : Instr} {s : State} {a : Answer} (h : goesTo i s (fun t => decide (t.answer ≠ some a)) = true) :
    ∃ t, exec i s = .next t ∧ t.answer ≠ some a := by
  obtain ⟨t, h1, h2⟩ := goes_to h
  exact ⟨t, h1, of_decide_eq_true h2⟩

/-! ### Encodings -/

theorem witness_CallRecordRoundTrip : ∃ i : Instr, i.wf = true :=
  ⟨.select ⟨255, List.replicate 10 0xFF, 0xFF⟩ 255, by decide⟩

theorem witness_CallRecordUnique : ∃ (bytes : List Byte) (i : Instr), decode bytes = .ok i :=
  ⟨[0x12, 0x0F, 0xFF, 0x00, 0x00, 0xFF, 0x00, 0x07, 0x01], .communicate 0xF 0xFF [] none none 7 true, by decide +kernel⟩

theorem witness_FrameRoundTrip : ∃ data : List Byte, 2 ≤ data.length := ⟨[0x93, 0x20], by decide⟩

theorem witness_WriteRegisterFrameOnWire : ∃ (a : RegAddr) (v : Byte) (s t : State),
    BusIdle s.bus ∧ exec (.writeRegister a v) s = .next t ∧ t.answer = some (.status .ok .empty) :=
  ⟨0x3F, 0xFF, { onSamples [false, false, false] with
      bus := { Bus.reset with scl := true, sdaDir := .out, sdaLvl := true, samples := [false, false, false] } },
    (goes_to_answer (by decide +kernel)).imp fun _ h => ⟨⟨rfl, rfl, rfl⟩, h⟩⟩

theorem witness_ReadRegisterFrameOnWire : ∃ (a : RegAddr) (v : Byte) (s t : State),
    exec (.readRegister a) s = .next t ∧ t.answer = some (.status .ok (.byte v)) :=
  ⟨0x37, 0x92, onEvents [.rd 0x37 (some 0x92)], goes_to_answer (by decide +kernel)⟩

theorem witness_BurstFramesOnWire_write : ∃ (a : RegAddr) (data : List Byte) (s t : State), data ≠ [] ∧
    exec (.writeRegisterBurst a data) s = .next t ∧ t.answer = some (.status .ok .empty) :=
  ⟨0x09, [0x26], onEvents [.wrb 0x09 [0x26] true],
    (goes_to_answer (by decide +kernel)).imp fun _ h => ⟨by decide, h⟩⟩

theorem witness_BurstFramesOnWire_read : ∃ (a : RegAddr) (n : Nat) (buf out : List Byte) (r : Bits3) (s t : State), n ≠ 0 ∧
    exec (.readRegisterBurst a n buf r) s = .next t ∧ t.answer = some (.status .ok (.buffer out)) :=
  ⟨0x09, 2, [0x0B, 0x00], [0xDB, 0x12], 4, onEvents [.rdb 0x09 2 (some [0xD7, 0x12])],
    (goes_to_answer (by decide +kernel)).imp fun _ h => ⟨by decide, h⟩⟩

theorem witness_AbortedFrameOnWire_write : ∃ (a : RegAddr) (v : Byte) (s t : State),
    exec (.writeRegister a v) s = .next t ∧ t.answer ≠ some (.status .ok .empty) :=
  ⟨0x01, 0x0F, onEvents [.wr 0x01 0x0F false], goes_to_other (by decide +kernel)⟩

theorem witness_AbortedFrameOnWire_burst : ∃ (a : RegAddr) (data : List Byte) (s t : State), data ≠ [] ∧
    exec (.writeRegisterBurst a data) s = .next t ∧ t.answer ≠ some (.status .ok .empty) :=
  ⟨0x09, [0x93, 0x20], onSamples ([false, false] ++ List.replicate 20 true),
    (goes_to_other (by decide +kernel)).imp fun _ h => ⟨by decide, h⟩⟩

theorem witness_AbortedFrameOnWire_read : ∃ (a : RegAddr) (s t : State) (st : Status) (x : Value),
    exec (.readRegister a) s = .next t ∧ st ≠ .ok ∧ t.answer = some (.status st x) := by
  obtain ⟨t, h1, h2⟩ := goes_to_answer (i := .readRegister 0x37) (s := onSamples ([false, false] ++ List.replicate 20 true))
    (a := only .error) (by decide +kernel)
  exact ⟨_, _, t, _, _, h1, by decide, h2⟩

theorem witness_AbortedFrameOnWire_readBurst : ∃ (a : RegAddr) (n : Nat) (buf : List Byte) (r : Bits3) (s t : State)
    (st : Status) (x : Value), n ≠ 0 ∧ exec (.readRegisterBurst a n buf r) s = .next t ∧ st ≠ .ok ∧
      t.answer = some (.status st x) := by
  obtain ⟨t, h1, h2⟩ := goes_to_answer (i := .readRegisterBurst 0x09 1 [0x0B] 7) (s := onEvents [.rdb 0x09 1 none])
    (a := .status .error (.buffer [0x0B])) (by decide +kernel)
  exact ⟨_, _, _, _, _, t, _, _, by decide, h1, by decide, h2⟩

/-! ### Primitives -/

theorem witness_SlaveAckRule_acked : ∃ (s : State) (j : Nat) (rest : List Level), j < s.cfg.ackPollMax ∧
    s.bus.samples = List.replicate j true ++ (false :: rest) :=
  ⟨onSamples (List.replicate 19 true ++ [false]), 19, [], by decide, rfl⟩

theorem witness_SlaveAckRule_missed : ∃ (s : State) (rest : List Level),
    s.bus.samples = List.replicate s.cfg.ackPollMax true ++ rest :=
  ⟨onSamples (List.replicate 20 true), [], rfl⟩

theorem witness_ReadInvertsWrite : ∃ (b : Byte) (s t u : State) (levels rest : List Level), s.bus.scl = false ∧
    exec (.writeByte b) s = .next t ∧ symbolsFrom s.bus (newActions s.bus t.bus) = levels.map .bit ∧
    u.bus.samples = levels ++ rest :=
  ⟨0xA5, onSamples [], _, onSamples [true, false, true, false, false, true, false, true],
    [true, false, true, false, false, true, false, true], [], rfl, rfl, by decide +kernel, rfl⟩

/-! ### Register operations -/

/-- Every slot acknowledged on the last sample `ACK_POLL_MAX` allows. -/
theorem witness_WriteRegisterCompletes : ∃ (a : RegAddr) (v : Byte) (s : State) (l rest : List Level),
    Brings s.cfg [.wr a v true] l ∧ s.bus.samples = l ++ rest :=
  ⟨0x01, 0x0F, onSamples (List.replicate 3 (List.replicate 19 true ++ [false])).flatten, _, [],
    ⟨_, [], ⟨19, _, by decide, rfl, 19, _, by decide, rfl, 19, _, by decide, rfl, rfl⟩, rfl, rfl⟩, rfl⟩

theorem witness_ReadRegisterCompletes : ∃ (a : RegAddr) (v : Byte) (s : State) (l rest : List Level),
    Brings s.cfg [.rd a (some v)] l ∧ s.bus.samples = l ++ rest :=
  ⟨0x37, 0x92, onEvents [.rd 0x37 (some 0x92)], meets dc pos _⟩

theorem witness_WriteBurstCompletes : ∃ (a : RegAddr) (bytes : List Byte) (s : State), bytes ≠ [] ∧ ∃ l rest,
    Brings s.cfg [.wrb a bytes true] l ∧ s.bus.samples = l ++ rest :=
  ⟨0x09, [0x26], onEvents [.wrb 0x09 [0x26] true], by decide, meets dc pos _⟩

theorem witness_ReadBurstCompletes : ∃ (a : RegAddr) (bytes buf : List Byte) (s : State), bytes ≠ [] ∧
    bytes.length ≤ buf.length ∧ ∃ l rest, Brings s.cfg [.rdb a bytes.length (some bytes)] l ∧ s.bus.samples = l ++ rest :=
  ⟨0x09, [0xD7], [0x0B], onEvents [.rdb 0x09 1 (some [0xD7])], by decide, by decide, meets dc pos _⟩

theorem witness_MissingAcknowledge_write : ∃ (a : RegAddr) (v : Byte) (s : State) (l rest : List Level),
    s.bus.samples = l ++ rest ∧ Brings s.cfg [.wr a v false] l :=
  ⟨0x01, 0x0F, onEvents [.wr 0x01 0x0F false], meets' dc pos _⟩

/-- The last slot fails. -/
theorem witness_MissingAcknowledge_read : ∃ (a : RegAddr) (s : State) (l rest : List Level),
    s.bus.samples = l ++ rest ∧ Brings s.cfg [.rd a none] l :=
  ⟨0x37, onSamples ([false, false] ++ List.replicate 20 true), _, [], rfl,
    _, [], ⟨2, [false, false], by decide, AckSlots.prompt dc pos 2, rfl⟩, rfl, rfl⟩

theorem witness_MissingAcknowledge_burst : ∃ (a : RegAddr) (bytes : List Byte) (s : State), bytes ≠ [] ∧ ∃ l rest,
    s.bus.samples = l ++ rest ∧ Brings s.cfg [.wrb a bytes false] l :=
  ⟨0x09, [0x93, 0x20], onEvents [.wrb 0x09 [0x93, 0x20] false], by decide, meets' dc pos _⟩

theorem witness_MissingAcknowledge_readBurst : ∃ (a : RegAddr) (n : Nat) (buf : List Byte) (s : State), n ≠ 0 ∧
    n ≤ buf.length ∧ ∃ l rest, s.bus.samples = l ++ rest ∧ Brings s.cfg [.rdb a n none] l :=
  ⟨0x09, 2, [0, 0], onEvents [.rdb 0x09 2 none], by decide, by decide, meets' dc pos _⟩

theorem witness_ReadModifyWrite_set : ∃ (a : RegAddr) (m v : Byte) (s : State) (l rest : List Level),
    s.bus.samples = l ++ rest ∧ Brings s.cfg [.rd a (some v), .wr a (v ||| m) true] l :=
  ⟨0x0D, 0x80, 0x07, onEvents [.rd 0x0D (some 0x07), .wr 0x0D 0x87 true], meets' dc pos _⟩

theorem witness_ReadModifyWrite_clear : ∃ (a : RegAddr) (m v : Byte) (s : State) (l rest : List Level),
    s.bus.samples = l ++ rest ∧ Brings s.cfg [.rd a (some v), .wr a (v &&& ~~~m) true] l :=
  ⟨0x14, 0x03, 0x83, onEvents [.rd 0x14 (some 0x83), .wr 0x14 0x80 true], meets' dc pos _⟩

/-! ### Reader control -/

theorem witness_AntennaOnRule : ∃ (v : Byte) (s : State) (l rest : List Level),
    Brings s.cfg (antennaOnEvents s.cfg v) l ∧ s.bus.samples = l ++ rest :=
  ⟨0x82, onEvents (antennaOnEvents dc 0x82), meets dc pos _⟩

theorem witness_AntennaOnRule_any : ∃ s t : State, exec .antennaOn s = .next t := ⟨onSamples [], _, rfl⟩

theorem witness_AntennaOffRule : ∃ (v : Byte) (s : State) (l rest : List Level),
    Brings s.cfg (antennaOffEvents s.cfg v) l ∧ s.bus.samples = l ++ rest :=
  ⟨0x81, onEvents (antennaOffEvents dc 0x81), meets dc pos _⟩

theorem witness_AntennaOffRule_any : ∃ s t : State, exec .antennaOff s = .next t := ⟨onSamples [], _, rfl⟩

/-- The last read the bound allows shows the bit clear. -/
theorem witness_SoftResetCompletes : ∃ (misses : List Byte) (last : Byte) (s : State),
    misses.length < s.cfg.resetPollMax ∧ (∀ v ∈ misses, v &&& s.cfg.fld.powerDown ≠ 0) ∧
    last &&& s.cfg.fld.powerDown = 0 ∧ ∃ l rest,
    Brings s.cfg (resetEvents s.cfg (misses ++ [last])) l ∧ s.bus.samples = l ++ rest :=
  ⟨[0x1F, 0x1F], 0x20, onEvents (resetEvents dc [0x1F, 0x1F, 0x20]), by decide, by decide, by decide, meets dc pos _⟩

theorem witness_InitCompletes : ∃ (misses : List Byte) (last v : Byte) (s : State),
    misses.length < s.cfg.resetPollMax ∧ (∀ w ∈ misses, w &&& s.cfg.fld.powerDown ≠ 0) ∧
    last &&& s.cfg.fld.powerDown = 0 ∧ ∃ l rest,
    Brings s.cfg (resetEvents s.cfg (misses ++ [last]) ++ initWriteEvents s.cfg ++ antennaOnEvents s.cfg v) l ∧
    s.bus.samples = l ++ rest :=
  ⟨[0x1F], 0x20, 0x80, onEvents (resetEvents dc [0x1F, 0x20] ++ initWriteEvents dc ++ antennaOnEvents dc 0x80),
    by decide, by decide, by decide,
    meets dc pos _⟩

/-- The chip's part in the CRC of V35. -/
def crcV35 : CrcRun := ⟨[0x00], 0x04, 0x97, 0x0C⟩

/-- The chip's part in the CRC of a SAK 0x08. -/
def crcSak : CrcRun := ⟨[0x00], 0x04, 0xB6, 0xDD⟩

theorem crcV35_completes : crcV35.completes dc := by unfold CrcRun.completes; decide +kernel
theorem crcSak_completes : crcSak.completes dc := by unfold CrcRun.completes; decide +kernel

theorem witness_CalculateCRCCompletes : ∃ (data : List Byte) (x : CrcRun) (s : State), data.length ≤ s.cfg.fifoSize ∧
    x.completes s.cfg ∧ ∃ l rest, Brings s.cfg (x.events s.cfg data) l ∧ s.bus.samples = l ++ rest :=
  ⟨List.replicate 64 0, crcV35, onEvents (crcV35.events dc (List.replicate 64 0)), by decide, crcV35_completes,
    meets dc pos _⟩

/-- The chip's part in V20. -/
def exchangeV20 : Exchange := ⟨0x07, [0x40], 0x74, 0x00, [0x04, 0x00], 0x10⟩

/-- An exchange as V20's with another error byte, response and `CONTROL`. -/
def answering (err : Byte) (bytes : List Byte) (ctl : Byte) : Exchange := ⟨0x07, [0x40], 0x74, err, bytes, ctl⟩

theorem answering_completes (err ctl : Byte) (bytes : List Byte) (h : err &&& 0x13 = 0) :
    (answering err bytes ctl).completes dc 0x30 :=
  ⟨(by decide : 1 < 2000), (by decide : ∀ v ∈ [(0x40 : Byte)], v &&& 0x30 = 0 ∧ v &&& 0x01 = 0),
    (by decide : (0x74 : Byte) &&& 0x30 ≠ 0), h⟩

theorem witness_CommunicateCompletes_none : ∃ (command : CmdCode) (mask : Byte) (send : List Byte) (valid : Option Bits3)
    (r : Bits3) (x : Exchange) (s : State), send.length ≤ s.cfg.fifoSize ∧ x.noCollision s.cfg ∧
    (command = s.cfg.cmd.transceive ∨ command = s.cfg.cmd.receive) ∧ x.completes s.cfg mask ∧ ∃ l rest,
    s.bus.samples = l ++ rest ∧ Brings s.cfg (x.waitEvents s.cfg command send (valid.getD 0) r) l :=
  ⟨0x8, 0x30, [], none, 7, exchangeV20, onEvents (exchangeV20.waitEvents dc 0x8 [] 0 7), by decide,
    rfl, .inr rfl,
    answering_completes 0 _ _ rfl, meets' dc pos _⟩

theorem witness_CommunicateCompletes_response : ∃ (command : CmdCode) (mask : Byte) (send : List Byte)
    (valid : Option Bits3) (r : Bits3) (x : Exchange) (s : State) (buf : List Byte), send.length ≤ s.cfg.fifoSize ∧
    x.noCollision s.cfg ∧ (command = s.cfg.cmd.transceive ∨ command = s.cfg.cmd.receive) ∧ x.completes s.cfg mask ∧
    x.fits buf.length ∧ ∃ l rest, s.bus.samples = l ++ rest ∧
      Brings s.cfg (x.events s.cfg command send (valid.getD 0) r) l :=
  ⟨0xC, 0x30, List.replicate 64 0, some 7, 4, exchangeV20,
    onEvents (exchangeV20.events dc 0xC (List.replicate 64 0) 7 4), [0x0B, 0x00], by decide,
    rfl, .inl rfl, answering_completes 0 _ _ rfl, ⟨by decide, by decide⟩,
    meets' dc pos _⟩

theorem witness_CommunicateCompletes_transceive : ∃ (send : List Byte) (valid : Option Bits3) (r : Bits3) (x : Exchange)
    (s : State) (buf : List Byte), send.length ≤ s.cfg.fifoSize ∧ x.noCollision s.cfg ∧
    x.completes s.cfg s.cfg.waitMaskTransceive ∧ x.fits buf.length ∧ ∃ l rest, s.bus.samples = l ++ rest ∧
      Brings s.cfg (x.events s.cfg s.cfg.cmd.transceive send (valid.getD 0) r) l :=
  ⟨[0x26], some 7, 0, exchangeV20, onEvents (exchangeV20.events dc 0xC [0x26] 7 0), [0, 0], by decide,
    rfl,
    answering_completes 0 _ _ rfl, ⟨by decide, by decide⟩, meets' dc pos _⟩

/-- V30f -/
theorem witness_CommunicateChecksCrc : ∃ (command : CmdCode) (mask : Byte) (send buf out : List Byte)
    (valid : Option Bits3) (r : Bits3) (x : Exchange) (y : CrcRun) (s : State), send.length ≤ s.cfg.fifoSize ∧
    (command = s.cfg.cmd.transceive ∨ command = s.cfg.cmd.receive) ∧ x.completes s.cfg mask ∧ x.noCollision s.cfg ∧
    x.wholeBytes s.cfg ∧ x.fits buf.length ∧ 2 ≤ x.bytes.length ∧ Merged r buf x.bytes out ∧ y.completes s.cfg ∧
    out[x.bytes.length - 2]? = some y.lo ∧ out[x.bytes.length - 1]? = some y.hi ∧ ∃ l rest,
    Brings s.cfg (x.events s.cfg command send (valid.getD 0) r ++ y.events s.cfg (out.take (x.bytes.length - 2))) l ∧
    s.bus.samples = l ++ rest :=
  ⟨0xC, 0x30, [0x26], [0, 0, 0], [0x08, 0xB6, 0xDD], none, 0, answering 0x00 [0x08, 0xB6, 0xDD] 0x10, crcSak,
    onEvents ((answering 0x00 [0x08, 0xB6, 0xDD] 0x10).events dc 0xC [0x26] 0 0 ++ crcSak.events dc [0x08]),
    by decide,
    .inl rfl, answering_completes 0 _ _ rfl, rfl,
    rfl, ⟨by decide, by decide⟩, by decide,
    storeBurst_merged 0 [0, 0, 0] [0x08, 0xB6, 0xDD] (by decide), crcSak_completes, rfl, rfl,
    meets dc pos _⟩

/-- Each error bit alone is fatal; here the protocol error 0x01. -/
theorem witness_CommunicateStatusCauses_error : ∃ (command : CmdCode) (mask : Byte) (send : List Byte)
    (valid : Option Bits3) (r : Bits3) (x : Exchange) (s : State), send.length ≤ s.cfg.fifoSize ∧
    (command = s.cfg.cmd.transceive ∨ command = s.cfg.cmd.receive) ∧ x.waits s.cfg mask ∧
    x.err &&& s.cfg.fld.errFatal ≠ 0 ∧ ∃ l rest, s.bus.samples = l ++ rest ∧
    Brings s.cfg (x.waitEvents s.cfg command send (valid.getD 0) r) l :=
  ⟨0xC, 0x30, [0x26], none, 0, answering 0x01 [] 0, onEvents ((answering 0x01 [] 0).waitEvents dc 0xC [0x26] 0 0),
    by decide, .inl rfl, ⟨by decide, by decide, by decide⟩, by decide,
    meets' dc pos _⟩

/-- One byte more than the buffer holds. -/
theorem witness_CommunicateStatusCauses_noRoom : ∃ (command : CmdCode) (mask : Byte) (send buf : List Byte)
    (valid : Option Bits3) (r : Bits3) (level : Byte) (x : Exchange) (s : State), send.length ≤ s.cfg.fifoSize ∧
    (command = s.cfg.cmd.transceive ∨ command = s.cfg.cmd.receive) ∧ x.completes s.cfg mask ∧
    buf.length < level.toNat ∧ ∃ l rest, s.bus.samples = l ++ rest ∧
    Brings s.cfg (x.waitEvents s.cfg command send (valid.getD 0) r ++ [.rd s.cfg.reg.fifoLevel (some level)]) l :=
  ⟨0xC, 0x30, [0x26], [0, 0], none, 0, 3, answering 0x00 [] 0,
    onEvents ((answering 0x00 [] 0).waitEvents dc 0xC [0x26] 0 0 ++ [RegEvent.rd 0x0A (some 3)]), by decide, .inl rfl,
    answering_completes 0 _ _ rfl,
    by decide, meets' dc pos _⟩

/-- The hypotheses of the third clause of `CommunicateStatusCauses` on a response. -/
def ShortResponse (x : Exchange) : Prop :=
  ∃ (command : CmdCode) (mask : Byte) (send buf : List Byte) (valid : Option Bits3) (r : Bits3) (s : State),
    send.length ≤ s.cfg.fifoSize ∧ (command = s.cfg.cmd.transceive ∨ command = s.cfg.cmd.receive) ∧
    x.completes s.cfg mask ∧ x.noCollision s.cfg ∧ x.fits buf.length ∧
    (x.bytes.length < 2 ∨ (x.ctl &&& s.cfg.fld.rxLastBits).setWidth 3 ≠ (0 : Bits3)) ∧ ∃ l rest,
    s.bus.samples = l ++ rest ∧ Brings s.cfg (x.events s.cfg command send (valid.getD 0) r) l

/-- V30a, a NACK: one byte of four bits. -/
theorem witness_CommunicateStatusCauses_nack : ShortResponse (answering 0x00 [0x04] 0x14) :=
  ⟨0xC, 0x30, [0x26], [0, 0], none, 0, onEvents ((answering 0x00 [0x04] 0x14).events dc 0xC [0x26] 0 0), by decide,
    .inl rfl, answering_completes 0 _ _ rfl,
    rfl, ⟨by decide, by decide⟩, .inl (by decide),
    meets' dc pos _⟩

/-- V30d, three bytes not byte-aligned. -/
theorem witness_CommunicateStatusCauses_bits : ShortResponse (answering 0x00 [0x08, 0xB6, 0xDD] 0x15) :=
  ⟨0xC, 0x30, [0x26], [0, 0, 0], none, 0, onEvents ((answering 0x00 [0x08, 0xB6,
    0xDD] 0x15).events dc 0xC [0x26] 0 0), by decide, .inl rfl, answering_completes 0 _ _ rfl,
    rfl, ⟨by decide, by decide⟩, .inr (by decide),
    meets' dc pos _⟩

/-- V30g, the high byte of the CRC differs. -/
theorem witness_CommunicateStatusCauses_crc : ∃ (command : CmdCode) (mask : Byte) (send buf out : List Byte)
    (valid : Option Bits3) (r : Bits3) (x : Exchange) (y : CrcRun) (s : State), send.length ≤ s.cfg.fifoSize ∧
    (command = s.cfg.cmd.transceive ∨ command = s.cfg.cmd.receive) ∧ x.completes s.cfg mask ∧ x.noCollision s.cfg ∧
    x.wholeBytes s.cfg ∧ x.fits buf.length ∧ 2 ≤ x.bytes.length ∧ Merged r buf x.bytes out ∧ y.completes s.cfg ∧
    (out[x.bytes.length - 2]? ≠ some y.lo ∨ out[x.bytes.length - 1]? ≠ some y.hi) ∧ ∃ l rest,
    s.bus.samples = l ++ rest ∧
    Brings s.cfg (x.events s.cfg command send (valid.getD 0) r ++ y.events s.cfg (out.take (x.bytes.length - 2))) l :=
  ⟨0xC, 0x30, [0x26], [0, 0, 0], [0x08, 0xB6, 0xDC], none, 0, answering 0x00 [0x08, 0xB6, 0xDC] 0x10, crcSak,
    onEvents ((answering 0x00 [0x08, 0xB6, 0xDC] 0x10).events dc 0xC [0x26] 0 0 ++ crcSak.events dc [0x08]),
    by decide,
    .inl rfl, answering_completes 0 _ _ rfl, rfl,
    rfl, ⟨by decide, by decide⟩, by decide,
    storeBurst_merged 0 [0, 0, 0] [0x08, 0xB6, 0xDC] (by decide), crcSak_completes, .inr (by decide),
    meets' dc pos _⟩

theorem witness_CollisionKeepsResponse : ∃ (command : CmdCode) (mask : Byte) (send buf : List Byte)
    (valid : Option Bits3) (r : Bits3) (x : Exchange) (s : State), send.length ≤ s.cfg.fifoSize ∧
    (command = s.cfg.cmd.transceive ∨ command = s.cfg.cmd.receive) ∧ x.completes s.cfg mask ∧
    x.err &&& s.cfg.fld.errColl ≠ 0 ∧ x.fits buf.length ∧ ∃ l rest, s.bus.samples = l ++ rest ∧
    Brings s.cfg (x.events s.cfg command send (valid.getD 0) r) l :=
  ⟨0xC, 0x30, [0x26], [0, 0], some 7, 0, answering 0x08 [0x04, 0x00] 0x10, onEvents ((answering 0x08 [0x04,
    0x00] 0x10).events dc 0xC [0x26] 7 0), by decide, .inl rfl,
    answering_completes _ _ _ rfl, by decide, ⟨by decide, by decide⟩,
    meets' dc pos _⟩

/-- V28a: no response buffer, `ERROR` 0x08. -/
theorem witness_CollisionKeepsResponse_absent : ∃ (command : CmdCode) (mask : Byte) (send : List Byte)
    (valid : Option Bits3) (r : Bits3) (x : Exchange) (s : State), send.length ≤ s.cfg.fifoSize ∧
    (command = s.cfg.cmd.transceive ∨ command = s.cfg.cmd.receive) ∧ x.completes s.cfg mask ∧
    x.err &&& s.cfg.fld.errColl ≠ 0 ∧ ∃ l rest, s.bus.samples = l ++ rest ∧
    Brings s.cfg (x.waitEvents s.cfg command send (valid.getD 0) r) l :=
  ⟨0xC, 0x30, [0x26], none, 0, answering 0x08 [] 0, onEvents ((answering 0x08 [] 0).waitEvents dc 0xC [0x26] 0 0),
    by decide, .inl rfl, answering_completes _ _ _ rfl, by decide, meets' dc pos _⟩

/-- The reset state under a configuration, with the samples that bring the events about. -/
def onEventsUnder (c : Config) (es : List RegEvent) : State := ready c (es.flatMap (promptSamples c))

/-- A configuration with short poll bounds. -/
abbrev short : Config := { dc with crcPollMax := 3, irqPollMax := 2 }

theorem witness_TimeoutCauses_reset : ∃ (reads : List Byte) (s : State), reads.length = s.cfg.resetPollMax ∧
    (∀ v ∈ reads, v &&& s.cfg.fld.powerDown ≠ 0) ∧ ∃ l rest, s.bus.samples = l ++ rest ∧
    Brings s.cfg (resetEvents s.cfg reads) l :=
  ⟨[0x1F, 0x1F, 0x1F], onEvents (resetEvents dc [0x1F, 0x1F, 0x1F]), rfl, by decide, meets' dc pos _⟩

/-- V37a -/
theorem witness_TimeoutCauses_crc : ∃ (reads data : List Byte) (s : State), data.length ≤ s.cfg.fifoSize ∧
    reads.length = s.cfg.crcPollMax ∧ (∀ v ∈ reads, v &&& s.cfg.fld.crcIrq = 0) ∧ ∃ l rest,
    s.bus.samples = l ++ rest ∧
    Brings s.cfg (crcStartEvents s.cfg data ++ reads.map fun v => RegEvent.rd s.cfg.reg.divIrq (some v)) l :=
  ⟨[0x00, 0x00, 0x00], [0x00, 0x00], onEventsUnder short (crcStartEvents short [0x00, 0x00] ++ [0x00, 0x00,
    0x00].map fun v => RegEvent.rd short.reg.divIrq (some v)), by decide, rfl, by decide, meets' short (by decide) _⟩

/-- V21 -/
theorem witness_TimeoutCauses_timer : ∃ (reads : List Byte) (command : CmdCode) (mask framing hit : Byte)
    (send : List Byte) (valid : Option Bits3) (r : Bits3) (s : State), send.length ≤ s.cfg.fifoSize ∧
    (command = s.cfg.cmd.transceive ∨ command = s.cfg.cmd.receive) ∧
    (∀ v ∈ reads, v &&& mask = 0 ∧ v &&& s.cfg.fld.timerIrq = 0) ∧ reads.length < s.cfg.irqPollMax ∧
    hit &&& mask = 0 ∧ hit &&& s.cfg.fld.timerIrq ≠ 0 ∧ ∃ l rest, s.bus.samples = l ++ rest ∧
    Brings s.cfg (prepareEvents s.cfg command send (valid.getD 0) r framing ++
      pollEvents s.cfg.reg.comIrq reads hit) l :=
  ⟨[0x40], 0xC, 0x30, 0x07, 0x41, [0x26], some 7, 0,
    onEventsUnder short (prepareEvents short 0xC [0x26] 7 0 0x07 ++ pollEvents short.reg.comIrq [0x40] 0x41),
    by decide, .inl rfl, by decide, by decide, by decide, by decide,
    meets' short (by decide) _⟩

theorem witness_TimeoutCauses_polls : ∃ (reads : List Byte) (command : CmdCode) (mask framing : Byte)
    (send : List Byte) (valid : Option Bits3) (r : Bits3) (s : State), send.length ≤ s.cfg.fifoSize ∧
    (command = s.cfg.cmd.transceive ∨ command = s.cfg.cmd.receive) ∧
    (∀ v ∈ reads, v &&& mask = 0 ∧ v &&& s.cfg.fld.timerIrq = 0) ∧ reads.length = s.cfg.irqPollMax ∧
    ∃ l rest, s.bus.samples = l ++ rest ∧
    Brings s.cfg (prepareEvents s.cfg command send (valid.getD 0) r framing ++
      reads.map fun v => RegEvent.rd s.cfg.reg.comIrq (some v)) l :=
  ⟨[0x00, 0x00], 0x8, 0x30, 0x07, [], none, 0, onEventsUnder short (prepareEvents short 0x8 [] 0 0 0x07 ++ [0x00,
    0x00].map fun v => RegEvent.rd short.reg.comIrq (some v)), by decide, .inr rfl, by decide, rfl,
    meets' short (by decide) _⟩

theorem witness_RefusedCalls : ∃ (s : State) (command : CmdCode) (send data buf : List Byte) (n : Nat) (uid : Uid),
    command ≠ s.cfg.cmd.transceive ∧ command ≠ s.cfg.cmd.receive ∧ s.cfg.fifoSize < send.length ∧
    s.cfg.fifoSize < data.length ∧ buf.length < n ∧ uid.uidByte.length ≠ 10 :=
  ⟨onSamples [], 0x3, List.replicate 65 0, List.replicate 65 0, [0], 2, ⟨4, List.replicate 9 0, 0⟩, by decide, by decide,
    by decide, by decide, by decide, by decide⟩

/-! ### Card discovery -/

/-- The hypotheses of `RequestCompletes` on an exchange, for one outcome and one request frame. -/
def RequestEnds (frame : Byte) (x : Exchange) (st : Status) (value : Value) : Prop :=
  ∃ (s : State) (events : Byte → List RegEvent), x.completes s.cfg s.cfg.waitMaskTransceive ∧
    ((x.fits 2 ∧ events = (fun frame => x.requestEvents s.cfg frame) ∧
        ((x.noCollision s.cfg ∧ x.wholeBytes s.cfg ∧ x.bytes.length = 2 ∧ st = .ok ∧ value = .atqa x.bytes) ∨
          (x.err &&& s.cfg.fld.errColl ≠ 0 ∧ st = .collision ∧ value = .empty) ∨
          (x.noCollision s.cfg ∧ ¬(x.wholeBytes s.cfg ∧ x.bytes.length = 2) ∧ st = .error ∧ value = .empty))) ∨
      (∃ level : Byte, 2 < level.toNat ∧ st = .noRoom ∧ value = .empty ∧
        events = fun frame => x.waitEvents s.cfg s.cfg.cmd.transceive [frame] 7 0 ++
          [.rd s.cfg.reg.fifoLevel (some level)])) ∧
    (frame = s.cfg.reqa ∨ frame = s.cfg.wupa) ∧ ∃ l rest, s.bus.samples = l ++ rest ∧ Brings s.cfg (events frame) l

theorem witness_RequestCompletes_ok : RequestEnds 0x26 exchangeV20 .ok (.atqa [0x04, 0x00]) :=
  ⟨onEvents (exchangeV20.requestEvents dc 0x26), _, answering_completes 0 _ _ rfl,
    .inl ⟨⟨by decide, by decide⟩, rfl, .inl ⟨rfl, rfl, rfl, rfl, rfl⟩⟩, .inl rfl, meets' dc pos _⟩

theorem witness_RequestCompletes_wupa : RequestEnds 0x52 exchangeV20 .ok (.atqa [0x04, 0x00]) :=
  ⟨onEvents (exchangeV20.requestEvents dc 0x52), _, answering_completes 0 _ _ rfl,
    .inl ⟨⟨by decide, by decide⟩, rfl, .inl ⟨rfl, rfl, rfl, rfl, rfl⟩⟩, .inr rfl, meets' dc pos _⟩

theorem witness_RequestCompletes_collision : RequestEnds 0x26 (answering 0x08 [0x04, 0x00] 0x10) .collision .empty :=
  ⟨onEvents ((answering 0x08 [0x04, 0x00] 0x10).requestEvents dc 0x26), _, answering_completes _ _ _ rfl,
    .inl ⟨⟨by decide, by decide⟩, rfl, .inr (.inl ⟨by decide, rfl, rfl⟩)⟩, .inl rfl, meets' dc pos _⟩

/-- V52a: two bytes, the last of four bits. -/
theorem witness_RequestCompletes_error : RequestEnds 0x26 (answering 0x00 [0x04, 0x00] 0x14) .error .empty :=
  ⟨onEvents ((answering 0x00 [0x04, 0x00] 0x14).requestEvents dc 0x26), _, answering_completes 0 _ _ rfl,
    .inl ⟨⟨by decide, by decide⟩, rfl, .inr (.inr ⟨rfl, fun h => absurd h.1 (by unfold Exchange.wholeBytes; decide),
      rfl, rfl⟩)⟩, .inl rfl, meets' dc pos _⟩

/-- V52b: `FIFO_LEVEL` 3. -/
theorem witness_RequestCompletes_noRoom : RequestEnds 0x26 (answering 0x00 [] 0) .noRoom .empty :=
  ⟨onEvents ((answering 0x00 [] 0).waitEvents dc 0xC [0x26] 7 0 ++ [RegEvent.rd 0x0A (some 3)]), _,
    answering_completes 0 _ _ rfl, .inr ⟨3, by decide, rfl, rfl, rfl⟩, .inl rfl, meets' dc pos _⟩

/-- One level a card answers: the four bytes, the fifth, and its SAK with the CRC bytes. -/
def levelRun (u0 u1 u2 u3 fifth sak lo hi : Byte) : LevelRun :=
  ⟨answering 0x00 [u0, u1, u2, u3, fifth] 0x10, crcV35, answering 0x00 [sak, lo, hi] 0x10, ⟨[], 0x04, lo, hi⟩⟩

theorem levelRun_selects (u0 u1 u2 u3 fifth sak lo hi : Byte) :
    (levelRun u0 u1 u2 u3 fifth sak lo hi).selects dc ⟨u0, u1, u2, u3, sak⟩ :=
  ⟨crcV35_completes,
    ⟨answering_completes 0 _ _ rfl, (by decide : (0x00 : Byte) &&& 0x08 = 0),
      (by decide : ((0x10 : Byte) &&& 0x07).setWidth 3 = (0 : Bits3)), rfl⟩,
    (by decide : 0 < 2000), by simp [levelRun], (by decide : (0x04 : Byte) &&& 0x04 ≠ 0)⟩

theorem levelRun_resolves (u0 u1 u2 u3 fifth sak lo hi : Byte) :
    (levelRun u0 u1 u2 u3 fifth sak lo hi).resolves dc ⟨u0, u1, u2, u3, sak⟩ fifth :=
  ⟨⟨answering_completes 0 _ _ rfl, (by decide : (0x00 : Byte) &&& 0x08 = 0),
      (by decide : ((0x10 : Byte) &&& 0x07).setWidth 3 = (0 : Bits3)), rfl⟩,
    levelRun_selects u0 u1 u2 u3 fifth sak lo hi⟩

/-- The card of V60, and the levels of V61 and V62. -/
def card60 : LevelCard := ⟨0xDE, 0xAD, 0xBE, 0xEF, 0x08⟩
def run60 : LevelRun := levelRun 0xDE 0xAD 0xBE 0xEF 0x22 0x08 0xB6 0xDD
def card61a : LevelCard := ⟨0x88, 0x04, 0x12, 0x34, 0x04⟩
def run61a : LevelRun := levelRun 0x88 0x04 0x12 0x34 0xAA 0x04 0xDA 0x17
def card61b : LevelCard := ⟨0x56, 0x78, 0x9A, 0xBC, 0x08⟩
def run61b : LevelRun := levelRun 0x56 0x78 0x9A 0xBC 0x08 0x08 0xB6 0xDD
def card62b : LevelCard := ⟨0x88, 0x56, 0x78, 0x9A, 0x04⟩
def run62b : LevelRun := levelRun 0x88 0x56 0x78 0x9A 0x3C 0x04 0xDA 0x17
def card62c : LevelCard := ⟨0xBC, 0xDE, 0xF0, 0x11, 0x08⟩
def run62c : LevelRun := levelRun 0xBC 0xDE 0xF0 0x11 0x83 0x08 0xB6 0xDD
def card69b : LevelCard := ⟨0xBC, 0xDE, 0xF0, 0x11, 0x04⟩
def run69b : LevelRun := levelRun 0xBC 0xDE 0xF0 0x11 0x83 0x04 0xDA 0x17

theorem witness_SelectFourByteUid : ∃ (d : LevelCard) (fifth : Byte) (x : LevelRun) (uid : Uid) (s : State),
    uid.uidByte.length = 10 ∧ x.resolves s.cfg d fifth ∧ d.u0 ≠ 0x88 ∧ d.sak &&& 0x04 = 0 ∧ s.uid = uid ∧ ∃ l rest,
    Brings s.cfg (x.events s.cfg 0x93 d) l ∧ s.bus.samples = l ++ rest :=
  ⟨card60, 0x22, run60, blankUid, onEvents (run60.events dc 0x93 card60), rfl, levelRun_resolves _ _ _ _ _ _ _ _,
    by decide, by decide, rfl,
    meets dc pos _⟩

theorem witness_SelectSevenByteUid : ∃ (d1 d2 : LevelCard) (f1 f2 : Byte) (x1 x2 : LevelRun) (uid : Uid) (s : State),
    uid.uidByte.length = 10 ∧ x1.resolves s.cfg d1 f1 ∧ x2.resolves s.cfg d2 f2 ∧ d1.u0 = 0x88 ∧
    d1.sak &&& 0x04 ≠ 0 ∧ d2.u0 ≠ 0x88 ∧ d2.sak &&& 0x04 = 0 ∧ ∃ l rest,
    Brings s.cfg (x1.events s.cfg 0x93 d1 ++ x2.events s.cfg 0x95 d2) l ∧ s.bus.samples = l ++ rest :=
  ⟨card61a, card61b, 0xAA, 0x08, run61a, run61b, blankUid,
    onEvents (run61a.events dc 0x93 card61a ++ run61b.events dc 0x95 card61b), rfl, levelRun_resolves _ _ _ _ _ _ _ _,
    levelRun_resolves _ _ _ _ _ _ _ _, rfl, by decide, by decide, by decide,
    meets dc pos _⟩

theorem witness_SelectTenByteUid : ∃ (d1 d2 d3 : LevelCard) (f1 f2 f3 : Byte) (x1 x2 x3 : LevelRun) (uid : Uid)
    (s : State), uid.uidByte.length = 10 ∧ x1.resolves s.cfg d1 f1 ∧ x2.resolves s.cfg d2 f2 ∧
    x3.resolves s.cfg d3 f3 ∧ d1.u0 = 0x88 ∧ d1.sak &&& 0x04 ≠ 0 ∧ d2.u0 = 0x88 ∧ d2.sak &&& 0x04 ≠ 0 ∧
    d3.u0 ≠ 0x88 ∧ d3.sak &&& 0x04 = 0 ∧ ∃ l rest,
    Brings s.cfg (x1.events s.cfg 0x93 d1 ++ x2.events s.cfg 0x95 d2 ++ x3.events s.cfg 0x97 d3) l ∧
    s.bus.samples = l ++ rest :=
  ⟨card61a, card62b, card62c, 0xAA, 0x3C, 0x83, run61a, run62b, run62c, blankUid,
    onEvents (run61a.events dc 0x93 card61a ++ run62b.events dc 0x95 card62b ++ run62c.events dc 0x97 card62c), rfl,
    levelRun_resolves _ _ _ _ _ _ _ _, levelRun_resolves _ _ _ _ _ _ _ _, levelRun_resolves _ _ _ _ _ _ _ _, rfl,
    by decide, rfl, by decide, by decide, by decide,
    meets dc pos _⟩

/-- V68 -/
theorem witness_SelectKnownUid_four : ∃ (d : LevelCard) (x : LevelRun) (size : Nat) (others : List Byte) (s : State),
    size ≤ 4 ∧ others.length = 6 ∧ x.selects s.cfg d ∧ d.u0 ≠ 0x88 ∧ d.sak &&& 0x04 = 0 ∧ ∃ l rest,
    Brings s.cfg (x.selectEvents s.cfg 0x93 d) l ∧ s.bus.samples = l ++ rest :=
  ⟨card60, run60, 4, List.replicate 6 0, onEvents (run60.selectEvents dc 0x93 card60), by decide, rfl,
    levelRun_selects _ _ _ _ 0x22 _ _ _, by decide, by decide,
    meets dc pos _⟩

/-- V68b -/
theorem witness_SelectKnownUid_seven : ∃ (d1 d2 : LevelCard) (x1 x2 : LevelRun) (others : List Byte) (s : State),
    others.length = 3 ∧ x1.selects s.cfg d1 ∧ x2.selects s.cfg d2 ∧ d1.u0 = 0x88 ∧ d1.sak &&& 0x04 ≠ 0 ∧
    d2.u0 ≠ 0x88 ∧ d2.sak &&& 0x04 = 0 ∧ ∃ l rest,
    Brings s.cfg (x1.selectEvents s.cfg 0x93 d1 ++ x2.selectEvents s.cfg 0x95 d2) l ∧ s.bus.samples = l ++ rest :=
  ⟨card61a, card61b, run61a, run61b, List.replicate 3 0,
    onEvents (run61a.selectEvents dc 0x93 card61a ++ run61b.selectEvents dc 0x95 card61b), rfl,
    levelRun_selects _ _ _ _ 0xAA _ _ _,
    levelRun_selects _ _ _ _ 0x08 _ _ _, rfl, by decide, by decide, by decide,
    meets dc pos _⟩

/-- V67a -/
theorem witness_SelectKnownUid_ten : ∃ (d1 d2 d3 : LevelCard) (x1 x2 x3 : LevelRun) (s : State), x1.selects s.cfg d1 ∧
    x2.selects s.cfg d2 ∧ x3.selects s.cfg d3 ∧ d1.u0 = 0x88 ∧ d1.sak &&& 0x04 ≠ 0 ∧ d2.u0 = 0x88 ∧
    d2.sak &&& 0x04 ≠ 0 ∧ d3.u0 ≠ 0x88 ∧ d3.sak &&& 0x04 = 0 ∧ ∃ l rest,
    Brings s.cfg (x1.selectEvents s.cfg 0x93 d1 ++ x2.selectEvents s.cfg 0x95 d2 ++ x3.selectEvents s.cfg 0x97 d3) l ∧
    s.bus.samples = l ++ rest :=
  ⟨card61a, card62b, card62c, run61a, run62b, run62c,
    onEvents (run61a.selectEvents dc 0x93 card61a ++ run62b.selectEvents dc 0x95 card62b ++
      run62c.selectEvents dc 0x97 card62c),
    levelRun_selects _ _ _ _ 0xAA _ _ _, levelRun_selects _ _ _ _ 0x3C _ _ _, levelRun_selects _ _ _ _ 0x83 _ _ _, rfl,
    by decide, rfl, by decide, by decide, by decide,
    meets dc pos _⟩

theorem witness_SelectArgumentChecks_known : ∃ (uid : Uid) (known : Nat), uid.uidByte.length = 10 ∧ 80 < known :=
  ⟨blankUid, 81, rfl, by decide⟩

/-- V69b -/
theorem witness_SelectArgumentChecks_level : ∃ (d1 d2 d3 : LevelCard) (f1 f2 f3 : Byte) (x1 x2 x3 : LevelRun) (uid : Uid)
    (s : State), uid.uidByte.length = 10 ∧ x1.resolves s.cfg d1 f1 ∧ x2.resolves s.cfg d2 f2 ∧
    x3.resolves s.cfg d3 f3 ∧ d1.sak &&& 0x04 ≠ 0 ∧ d2.sak &&& 0x04 ≠ 0 ∧ d3.sak &&& 0x04 ≠ 0 ∧ ∃ l rest,
    Brings s.cfg (x1.events s.cfg 0x93 d1 ++ x2.events s.cfg 0x95 d2 ++ x3.events s.cfg 0x97 d3) l ∧
    s.bus.samples = l ++ rest :=
  ⟨card61a, card62b, card69b, 0xAA, 0x3C, 0x83, run61a, run62b, run69b, blankUid,
    onEvents (run61a.events dc 0x93 card61a ++ run62b.events dc 0x95 card62b ++ run69b.events dc 0x97 card69b), rfl,
    levelRun_resolves _ _ _ _ _ _ _ _, levelRun_resolves _ _ _ _ _ _ _ _, levelRun_resolves _ _ _ _ _ _ _ _,
    by decide,
    by decide, by decide,
    meets dc pos _⟩

/-- The ten-byte record of V62. -/
def uidV62 : Uid := ⟨10, [0x04, 0x12, 0x34, 0x56, 0x78, 0x9A, 0xBC, 0xDE, 0xF0, 0x11], 0⟩

/-- A level of these cards is answered at a point that has their bytes. -/
theorem selects_at {p : SelPoint} {u0 u1 u2 u3 sak : Byte} (fifth lo hi : Byte) (h : p.card sak = ⟨u0, u1, u2, u3, sak⟩) :
    (levelRun u0 u1 u2 u3 fifth sak lo hi).selects dc (p.card sak) := h ▸ levelRun_selects u0 u1 u2 u3 fifth sak lo hi

/-- A history that has got to a point. -/
theorem here_at {c : Config} {total : Nat} {p q : SelPoint} (h : p = q) : SelHistory c total p [] q := h ▸ .here p

/-- The levels of V62 with `total` known bits, more than those of a level: SELECT, and the next level. -/
theorem history_V62_level2 (total : Nat) (p : SelPoint) (h1 : 32 ≤ (SelPoint.first total uidV62).known)
    (h2 : (SelPoint.first total uidV62).card 0x04 = card61a)
    (h3 : SelPoint.enter total (SelPoint.first total uidV62).confirmed 2 (SelPoint.first total uidV62).bytes = p) :
    ∃ before, SelHistory dc total (SelPoint.first total uidV62) before p :=
  ⟨_, .cascade run61a 0x04 h1 (by show 1 < 3; omega) (selects_at 0xAA 0xDA 0x17 h2) (by decide) (here_at h3)⟩

/-- Two levels of V62. -/
theorem history_V62_level3 (total : Nat) (p q : SelPoint) (h1 : 32 ≤ (SelPoint.first total uidV62).known)
    (h2 : (SelPoint.first total uidV62).card 0x04 = card61a)
    (h3 : SelPoint.enter total (SelPoint.first total uidV62).confirmed 2 (SelPoint.first total uidV62).bytes = p)
    (h4 : 32 ≤ p.known) (h5 : p.card 0x04 = card62b) (h6 : p.level = 2)
    (h7 : SelPoint.enter total p.confirmed 3 p.bytes = q) :
    ∃ before, SelHistory dc total (SelPoint.first total uidV62) before q :=
  ⟨_, .cascade run61a 0x04 h1 (by show 1 < 3; omega) (selects_at 0xAA 0xDA 0x17 h2) (by decide)
    (h3.symm ▸ SelHistory.cascade run62b 0x04 h4 (by omega) (selects_at 0x3C 0xDA 0x17 h5) (by decide)
      (here_at (by rw [h6]; exact h7)))⟩

/-- The hypotheses of `CollisionExtendsKnownBits`. -/
def CollidesAt (uid : Uid) (total : Nat) (p : SelPoint) (x : Exchange) (v : Byte) (pos : Nat) (next : List RegEvent) :
    Prop :=
  ∃ (before : List RegEvent) (s : State), uid.uidByte.length = 10 ∧ total ≤ 80 ∧
    SelHistory s.cfg total (SelPoint.first total uid) before p ∧ p.known < 32 ∧
    x.completes s.cfg s.cfg.waitMaskTransceive ∧ x.err &&& s.cfg.fld.errColl ≠ 0 ∧ x.fits (7 - p.known / 8) ∧
    v &&& s.cfg.fld.collPosNotValid = 0 ∧
    pos = (if v &&& s.cfg.fld.collPos = 0 then 32 else (v &&& s.cfg.fld.collPos).toNat) ∧ p.known < pos ∧
    ((pos ≤ 31 ∧ next =
        [.wr s.cfg.reg.command (s.cfg.cmd.idle.setWidth 8) true, .wr s.cfg.reg.comIrq s.cfg.fld.comIrqClearAll true,
         .wr s.cfg.reg.fifoLevel s.cfg.fld.fifoFlush true,
         .wrb s.cfg.reg.fifoData ([p.sel, nvbOf pos] ++ (p.forced x.bytes pos).take ((pos + 7) / 8)) true,
         .wr s.cfg.reg.bitFraming ((BitVec.ofNat 8 (pos % 8) <<< 4) ||| BitVec.ofNat 8 (pos % 8)) true]) ∨
      (pos = 32 ∧ next = crcStartEvents s.cfg { p with bytes := p.forced x.bytes pos }.select7)) ∧
    ∃ l rest, Brings s.cfg (before ++ (p.probeEvents s.cfg x ++ .rd s.cfg.reg.coll (some v) :: next)) l ∧
      s.bus.samples = l ++ rest

/-- A history under the default configuration and a collision after it, the next frame written out. -/
theorem collides_at {uid : Uid} {total : Nat} {p : SelPoint} {bytes : List Byte} {v : Byte} {at_ : Nat}
    {next : List RegEvent} (hu : uid.uidByte.length = 10) (ht : total ≤ 80)
    (hh : ∃ before, SelHistory dc total (SelPoint.first total uid) before p) (hk : p.known < 32)
    (hf : bytes.length < 256 ∧ bytes.length ≤ 7 - p.known / 8) (hv : v &&& dc.fld.collPosNotValid = 0)
    (hp : at_ = (if v &&& dc.fld.collPos = 0 then 32 else (v &&& dc.fld.collPos).toNat)) (hkp : p.known < at_)
    (hn : (at_ ≤ 31 ∧ next =
        [.wr 0x01 0x00 true, .wr 0x04 0x7F true, .wr 0x0A 0x80 true,
         .wrb 0x09 ([p.sel, nvbOf at_] ++ (p.forced bytes at_).take ((at_ + 7) / 8)) true,
         .wr 0x0D ((BitVec.ofNat 8 (at_ % 8) <<< 4) ||| BitVec.ofNat 8 (at_ % 8)) true]) ∨
      (at_ = 32 ∧ next = crcStartEvents dc { p with bytes := p.forced bytes at_ }.select7)) :
    CollidesAt uid total p (answering 0x08 bytes 0x10) v at_ next := by
  obtain ⟨before, hb⟩ := hh
  exact ⟨before, onEvents (before ++ (p.probeEvents dc (answering 0x08 bytes 0x10) ++ RegEvent.rd 0x0E (some v) :: next)), hu,
    ht, hb, hk, answering_completes _ _ _ rfl, (by decide : (0x08 : Byte) &&& 0x08 ≠ 0), hf, hv, hp, hkp, hn,
    meets dc pos _⟩

/-- V63: no bit known, position 12; the frame sent next is `93 34 DE 0D`, `BIT_FRAMING` 0x44. -/
theorem witness_CollisionExtendsKnownBits_12 : CollidesAt blankUid 0 (SelPoint.first 0 blankUid)
    (answering 0x08 [0xDE, 0x05, 0, 0, 0] 0x10) 0x8C 12
    [.wr 0x01 0x00 true, .wr 0x04 0x7F true, .wr 0x0A 0x80 true, .wrb 0x09 [0x93, 0x34, 0xDE, 0x0D] true,
     .wr 0x0D 0x44 true] :=
  collides_at rfl (by decide) ⟨_, .here _⟩ (by decide) (by decide) (by decide) (by decide) (by decide)
    (.inl ⟨by decide, by decide +kernel⟩)

/-- 12 bits known, position 31: the last position below 32. -/
theorem witness_CollisionExtendsKnownBits_31 : CollidesAt uidP3 12 (SelPoint.first 12 uidP3)
    (answering 0x08 [0xA0, 0xBE, 0xAF, 0] 0x10) 0x9F 31
    [.wr 0x01 0x00 true, .wr 0x04 0x7F true, .wr 0x0A 0x80 true,
     .wrb 0x09 [0x93, 0x57, 0xDE, 0xAD, 0xBE, 0xEF] true, .wr 0x0D 0x77 true] :=
  collides_at rfl (by decide) ⟨_, .here _⟩ (by decide) (by decide) (by decide) (by decide) (by decide)
    (.inl ⟨by decide, by decide +kernel⟩)

/-- 31 bits known, position 32, the field's 0: the SELECT of DE AD BE EF is next. -/
theorem witness_CollisionExtendsKnownBits_32 : CollidesAt uidP3 31 (SelPoint.first 31 uidP3)
    (answering 0x08 [0x00, 0x22] 0x10) 0x80 32 (crcStartEvents dc [0x93, 0x70, 0xDE, 0xAD, 0xBE, 0xEF, 0x22]) :=
  collides_at rfl (by decide) ⟨_, .here _⟩ (by decide) (by decide) (by decide) (by decide) (by decide)
    (.inr ⟨rfl, by decide +kernel⟩)

/-- A second collision of the level: V63's at 12, then 13. -/
theorem witness_CollisionExtendsKnownBits_second : CollidesAt blankUid 0 ⟨blankUid, 1, [0xDE, 0x0D, 0, 0], 12⟩
    (answering 0x08 [0xA0, 0, 0, 0] 0x10) 0x8D 13
    [.wr 0x01 0x00 true, .wr 0x04 0x7F true, .wr 0x0A 0x80 true, .wrb 0x09 [0x93, 0x35, 0xDE, 0xBD] true,
     .wr 0x0D 0x55 true] :=
  collides_at rfl (by decide)
    ⟨_, .collision (answering 0x08 [0xDE, 0x05, 0, 0, 0] 0x10) 0x8C (by decide) (answering_completes _ _ _ rfl) (by decide)
      ⟨by decide, by decide⟩ (by decide) (by decide) (by decide)
      (here_at (by decide +kernel))⟩
    (by decide) (by decide) (by decide) (by decide) (by decide) (.inl ⟨by decide, by decide +kernel⟩)

/-- A cascade tag placed at level 1: 12 bits of a seven-byte UID are 20 of the level; position 24. -/
theorem witness_CollisionExtendsKnownBits_tag : CollidesAt ⟨7, uidV62.uidByte, 0⟩ 12
    (SelPoint.first 12 ⟨7, uidV62.uidByte, 0⟩) (answering 0x08 [0x30, 0, 0] 0x10) 0x98 24
    [.wr 0x01 0x00 true, .wr 0x04 0x7F true, .wr 0x0A 0x80 true, .wrb 0x09 [0x93, 0x50, 0x88, 0x04, 0xB2] true,
     .wr 0x0D 0x00 true] :=
  collides_at rfl (by decide) ⟨_, .here _⟩ (by decide) (by decide) (by decide) (by decide) (by decide)
    (.inl ⟨by decide, by decide +kernel⟩)

/-- Level 2 with a cascade tag placed: 30 bits of a ten-byte UID, of which 6 are left; position 15. -/
theorem witness_CollisionExtendsKnownBits_level2 : CollidesAt uidV62 30 ⟨uidV62, 2, [0x88, 0x56, 0x12, 0x34], 14⟩
    (answering 0x08 [0x00, 0, 0] 0x10) 0x8F 15
    [.wr 0x01 0x00 true, .wr 0x04 0x7F true, .wr 0x0A 0x80 true, .wrb 0x09 [0x95, 0x37, 0x88, 0x56] true,
     .wr 0x0D 0x77 true] :=
  collides_at rfl (by decide) (history_V62_level2 30 _ (by decide) (by decide +kernel) (by decide +kernel)) (by decide)
    (by decide) (by decide) (by decide) (by decide) (.inl ⟨by decide, by decide +kernel⟩)

/-- Level 3 with 2 bits left of 50; position 3. -/
theorem witness_CollisionExtendsKnownBits_level3 : CollidesAt uidV62 50 ⟨uidV62, 3, [0xBC, 0x56, 0x78, 0x9A], 2⟩
    (answering 0x08 [0x00] 0x10) 0x83 3
    [.wr 0x01 0x00 true, .wr 0x04 0x7F true, .wr 0x0A 0x80 true, .wrb 0x09 [0x97, 0x23, 0x04] true,
     .wr 0x0D 0x33 true] :=
  collides_at rfl (by decide)
    (history_V62_level3 50 ⟨uidV62, 2, [0x88, 0x56, 0x78, 0x9A], 34⟩ _ (by decide) (by decide +kernel) (by decide +kernel)
      (by decide) (by decide +kernel) rfl (by decide +kernel))
    (by decide) (by decide) (by decide) (by decide) (by decide) (.inl ⟨by decide, by decide +kernel⟩)

/-- The hypotheses of `SelectCompletes`. -/
def CompletesAt (uid : Uid) (total : Nat) (p : SelPoint) (x : LevelRun) (sak : Byte) : Prop :=
  ∃ (before : List RegEvent) (s : State), uid.uidByte.length = 10 ∧ total ≤ 80 ∧
    SelHistory s.cfg total (SelPoint.first total uid) before p ∧ 32 ≤ p.known ∧ x.selects s.cfg (p.card sak) ∧
    sak &&& 0x04 = 0 ∧ ∃ l rest, Brings s.cfg (before ++ x.selectEvents s.cfg p.sel (p.card sak)) l ∧
    s.bus.samples = l ++ rest

/-- V68: all bits known at level 1. -/
theorem witness_SelectCompletes_level1 : CompletesAt uidP3 32 (SelPoint.first 32 uidP3) run60 0x08 :=
  ⟨[], onEvents ([] ++ run60.selectEvents dc (SelPoint.first 32 uidP3).sel ((SelPoint.first 32 uidP3).card 0x08)), rfl,
    by decide, .here _, by decide, selects_at 0x22 0xB6 0xDD (by decide +kernel), by decide, meets dc pos _⟩

/-- V63: a collision at 12, an answered probe, the SELECT. -/
theorem witness_SelectCompletes_collision : CompletesAt blankUid 0 ⟨blankUid, 1, [0xDE, 0xAD, 0xBE, 0xEF], 32⟩ run60 0x08 := by
  have hh : ∃ before, SelHistory dc 0 (SelPoint.first 0 blankUid) before ⟨blankUid, 1, [0xDE, 0xAD, 0xBE, 0xEF], 32⟩ :=
    ⟨_, .collision (answering 0x08 [0xDE, 0x05, 0, 0, 0] 0x10) 0x8C (by decide) (answering_completes _ _ _ rfl) (by decide)
      ⟨by decide, by decide⟩ (by decide) (by decide) (by decide)
      (.clean (answering 0x00 [0xA0, 0xBE, 0xEF, 0x22] 0x10) (by decide) (answering_completes _ _ _ rfl)
        (by unfold Exchange.noCollision; decide) ⟨by decide, by decide⟩
        (here_at (by decide +kernel)))⟩
  obtain ⟨before, hb⟩ := hh
  exact ⟨before, onEvents (before ++ run60.selectEvents dc 0x93 card60), rfl, by decide, hb, by decide,
    levelRun_selects _ _ _ _ 0x22 _ _ _, by decide, meets dc pos _⟩

/-- V67a: level 3 of a ten-byte UID, all bits known. -/
theorem witness_SelectCompletes_level3 : CompletesAt uidV62 80 ⟨uidV62, 3, [0xBC, 0xDE, 0xF0, 0x11], 32⟩ run62c 0x08 := by
  obtain ⟨before, hb⟩ := history_V62_level3 80 ⟨uidV62, 2, [0x88, 0x56, 0x78, 0x9A], 64⟩
    ⟨uidV62, 3, [0xBC, 0xDE, 0xF0, 0x11], 32⟩ (by decide) (by decide +kernel) (by decide +kernel) (by decide)
    (by decide +kernel) rfl (by decide +kernel)
  exact ⟨before, onEvents (before ++ run62c.selectEvents dc 0x97 card62c), rfl, by decide, hb, by decide,
    levelRun_selects _ _ _ _ 0x83 _ _ _, by decide, meets dc pos _⟩

/-- The hypotheses of `SelectFailures`. -/
def FailsAt (uid : Uid) (total : Nat) (p : SelPoint) (st : Status) (es : List RegEvent) : Prop :=
  ∃ (before : List RegEvent) (s : State), uid.uidByte.length = 10 ∧ total ≤ 80 ∧
    SelHistory s.cfg total (SelPoint.first total uid) before p ∧ SelFailure s.cfg p st es ∧
    ∃ l rest, Brings s.cfg (before ++ es) l ∧ s.bus.samples = l ++ rest

/-- A failure at the first frame under the default configuration. -/
theorem fails_first {uid : Uid} {total : Nat} {st : Status} {es : List RegEvent} (hu : uid.uidByte.length = 10)
    (ht : total ≤ 80) (h : SelFailure dc (SelPoint.first total uid) st es) :
    FailsAt uid total (SelPoint.first total uid) st es :=
  ⟨[], onEvents ([] ++ es), hu, ht, .here _, h, meets dc pos _⟩

/-- The first frames of V60 (a probe), V68a (a probe with 12 known bits) and V68 (the SELECT). -/
abbrev probe60 : SelPoint := SelPoint.first 0 blankUid
abbrev probe68a : SelPoint := SelPoint.first 12 uidP3
abbrev select68 : SelPoint := SelPoint.first 32 uidP3

/-- V65: `COLL` 0xA0. -/
theorem witness_SelectFailures_noPosition : FailsAt blankUid 0 probe60 .collision
    (probe60.frameEvents dc crcV35 (answering 0x08 [0xDE] 0x10) ++ [.rd 0x0E (some 0xA0)]) :=
  fails_first rfl (by decide) (.noPosition crcV35 (answering 0x08 [0xDE] 0x10) 0xA0 (fun h => absurd h (by decide))
    (answering_completes _ _ _ rfl) (by decide) ⟨by decide, by decide⟩ (by decide))

/-- V66: 12 bits known, `COLL` 0x8C. -/
theorem witness_SelectFailures_notBeyond : FailsAt uidP3 12 probe68a .internalError
    (probe68a.frameEvents dc crcV35 (answering 0x08 [0xA0] 0x10) ++ [.rd 0x0E (some 0x8C)]) :=
  fails_first rfl (by decide) (.notBeyond crcV35 (answering 0x08 [0xA0] 0x10) 0x8C (fun h => absurd h (by decide))
    (answering_completes _ _ _ rfl) (by decide) ⟨by decide, by decide⟩ (by decide) (by decide))

/-- The same at a SELECT: no position is beyond 32. -/
theorem witness_SelectFailures_select : FailsAt uidP3 32 select68 .internalError
    (select68.frameEvents dc crcV35 (answering 0x08 [0x08] 0x10) ++ [.rd 0x0E (some 0x80)]) :=
  fails_first rfl (by decide) (.notBeyond crcV35 (answering 0x08 [0x08] 0x10) 0x80 (fun _ => crcV35_completes)
    (answering_completes _ _ _ rfl) (by decide) ⟨by decide, by decide⟩ (by decide) (by decide))

/-- V69a: two bytes. -/
theorem witness_SelectFailures_sakShape : FailsAt uidP3 32 select68 .error
    (select68.frameEvents dc crcV35 (answering 0x00 [0x08, 0xB6] 0x10)) :=
  fails_first rfl (by decide) (.sakShape crcV35 (answering 0x00 [0x08, 0xB6] 0x10) (by decide) crcV35_completes
    (answering_completes _ _ _ rfl) (by unfold Exchange.noCollision; decide) ⟨by decide, by decide⟩
    (fun h => absurd h.1 (by decide)))

/-- V69a: three bytes with `CONTROL` 0x11. -/
theorem witness_SelectFailures_sakBits : FailsAt uidP3 32 select68 .error
    (select68.frameEvents dc crcV35 (answering 0x00 [0x08, 0xB6, 0xDD] 0x11)) :=
  fails_first rfl (by decide) (.sakShape crcV35 (answering 0x00 [0x08, 0xB6, 0xDD] 0x11) (by decide) crcV35_completes
    (answering_completes _ _ _ rfl) (by unfold Exchange.noCollision; decide) ⟨by decide, by decide⟩
    (fun h => absurd h.2 (by unfold Exchange.wholeBytes; decide)))

/-- V69: `08 B6 DC`. -/
theorem witness_SelectFailures_sakCrc : FailsAt uidP3 32 select68 .crcWrong
    (select68.frameEvents dc crcV35 (answering 0x00 [0x08, 0xB6, 0xDC] 0x10) ++ crcSak.events dc [0x08]) :=
  fails_first rfl (by decide) (.sakCrc crcV35 crcSak (answering 0x00 [0x08, 0xB6, 0xDC] 0x10) 0x08 0xB6 0xDC (by decide)
    crcV35_completes
    ⟨answering_completes _ _ _ rfl, by unfold Exchange.noCollision; decide, by unfold Exchange.wholeBytes; decide, rfl⟩
    crcSak_completes (.inr (by decide)))

/-- V69b, with all 80 bits known. -/
theorem witness_SelectFailures_fourthLevel : FailsAt uidV62 80 ⟨uidV62, 3, [0xBC, 0xDE, 0xF0, 0x11], 32⟩ .internalError
    (run69b.selectEvents dc 0x97 card69b) := by
  obtain ⟨before, hb⟩ := history_V62_level3 80 ⟨uidV62, 2, [0x88, 0x56, 0x78, 0x9A], 64⟩
    ⟨uidV62, 3, [0xBC, 0xDE, 0xF0, 0x11], 32⟩ (by decide) (by decide +kernel) (by decide +kernel) (by decide)
    (by decide +kernel) rfl (by decide +kernel)
  exact ⟨before, onEvents (before ++ run69b.selectEvents dc 0x97 card69b), rfl, by decide, hb,
    .fourthLevel (p := ⟨uidV62, 3, [0xBC, 0xDE, 0xF0, 0x11], 32⟩) run69b 0x04 (by decide) rfl
      (levelRun_selects _ _ _ _ 0x83 _ _ _) (by decide), meets dc pos _⟩

/-- Each error bit alone is fatal; here the protocol error 0x01 after the SELECT. -/
theorem witness_SelectFailures_chipError : FailsAt uidP3 32 select68 .error
    (select68.errorEvents dc crcV35 (answering 0x01 [] 0)) :=
  fails_first rfl (by decide) (.chipError crcV35 (answering 0x01 [] 0) (fun _ => crcV35_completes)
    ⟨by decide, by decide, by decide⟩ (by decide))

/-- Eight bytes where seven fit. -/
theorem witness_SelectFailures_noRoom : FailsAt blankUid 0 probe60 .noRoom
    (probe60.errorEvents dc crcV35 (answering 0x00 [] 0) ++ [.rd 0x0A (some 8)]) :=
  fails_first rfl (by decide) (.noRoom crcV35 (answering 0x00 [] 0) 8 (fun h => absurd h (by decide))
    (answering_completes _ _ _ rfl) (by decide))

/-- V69c: the timer flag. -/
theorem witness_SelectFailures_timer : FailsAt blankUid 0 probe60 .timeout
    (probe60.sendEvents dc crcV35 0x00 ++ pollEvents 0x04 [0x40] 0x41) :=
  fails_first rfl (by decide) (.timer crcV35 0x00 0x41 [0x40] (fun h => absurd h (by decide)) (by decide) (by decide)
    (by decide) (by decide))

/-- A failure at the first frame under a configuration with short poll bounds. -/
theorem fails_short {uid : Uid} {total : Nat} {st : Status} {es : List RegEvent} (hu : uid.uidByte.length = 10)
    (ht : total ≤ 80) (h : SelFailure short (SelPoint.first total uid) st es) :
    FailsAt uid total (SelPoint.first total uid) st es :=
  ⟨[], onEventsUnder short ([] ++ es), hu, ht, .here _, h, meets short (by decide) _⟩

theorem witness_SelectFailures_polls : FailsAt blankUid 0 probe60 .timeout
    (probe60.sendEvents short crcV35 0x00 ++ [0x00, 0x00].map fun v => .rd 0x04 (some v)) :=
  fails_short rfl (by decide) (.polls crcV35 0x00 [0x00, 0x00] (fun h => absurd h (by decide)) (by decide) rfl)

theorem witness_SelectFailures_frameCrc : FailsAt uidP3 32 select68 .timeout
    (crcStartEvents short select68.select7 ++ [0x00, 0x00, 0x00].map fun v => .rd 0x05 (some v)) :=
  fails_short rfl (by decide) (.frameCrc [0x00, 0x00, 0x00] (by decide) (by decide) rfl)

theorem witness_SelectFailures_sakCrcPolls : FailsAt uidP3 32 select68 .timeout
    (select68.frameEvents short crcV35 (answering 0x00 [0x08, 0xB6, 0xDD] 0x10) ++
      (crcStartEvents short [0x08] ++ [0x00, 0x00, 0x00].map fun v => .rd 0x05 (some v))) :=
  fails_short rfl (by decide) (.sakCrcPolls crcV35 (answering 0x00 [0x08, 0xB6, 0xDD] 0x10) 0x08 0xB6 0xDD
    [0x00, 0x00, 0x00] (by decide) (by unfold CrcRun.completes; decide)
    ⟨⟨by decide, by decide, by decide, rfl⟩, by unfold Exchange.noCollision; decide,
      by unfold Exchange.wholeBytes; decide, rfl⟩ (by decide) rfl)

theorem witness_SelectOutcomes : ∃ (uid : Uid) (known : Nat) (s t : State), exec (.select uid known) s = .next t :=
  ⟨uidP3, 80, onSamples [], _, rfl⟩

theorem witness_PassBoundIsEnough : ∃ c : Config, c.fld.collPos &&& 0xE0 = 0 := ⟨dc, by decide⟩

theorem witness_ReadCardSerialIsSelect : ∃ s : State, s.uid.uidByte.length = 10 := ⟨State.reset, rfl⟩

/-- V50a: the chip is absent. -/
theorem witness_DiscoverIsRequestThenSelect_none : ∃ (s t : State) (st : Status) (value : Value),
    s.uid.uidByte.length = 10 ∧ exec .requestA s = .next t ∧ t.answer = some (.status st value) ∧ st ≠ .ok ∧
    st ≠ .collision := by
  obtain ⟨t, h1, h2⟩ := goes_to_answer (i := .requestA) (s := onSamples []) (a := only .error) (by decide +kernel)
  exact ⟨_, t, _, _, rfl, h1, h2, by decide, by decide⟩

theorem witness_DiscoverIsRequestThenSelect_card : ∃ (s t : State) (st : Status) (value : Value),
    s.uid.uidByte.length = 10 ∧ exec .requestA s = .next t ∧ t.answer = some (.status st value) ∧
    (st = .ok ∨ st = .collision) := by
  obtain ⟨t, h1, h2⟩ := goes_to_answer (i := .requestA) (s := onEvents eventsV20) (a := .status .ok (.atqa [0x04, 0x00]))
    (by decide +kernel)
  exact ⟨_, t, _, _, rfl, h1, h2, .inl rfl⟩

theorem witness_DiscoverFourByteUid : ∃ (y : Exchange) (a0 a1 : Byte) (d : LevelCard) (fifth : Byte) (x : LevelRun)
    (s : State), s.uid.uidByte.length = 10 ∧ y.answers s.cfg [a0, a1] ∧ x.resolves s.cfg d fifth ∧ d.u0 ≠ 0x88 ∧
    d.sak &&& 0x04 = 0 ∧ ∃ l rest,
    Brings s.cfg (y.requestEvents s.cfg s.cfg.reqa ++ x.events s.cfg 0x93 d) l ∧ s.bus.samples = l ++ rest :=
  ⟨exchangeV20, 0x04, 0x00, card60, 0x22, run60,
    onEvents (exchangeV20.requestEvents dc 0x26 ++ run60.events dc 0x93 card60), rfl,
    ⟨answering_completes 0 _ _ rfl, rfl, rfl,
    rfl⟩,
    levelRun_resolves _ _ _ _ _ _ _ _, by decide, by decide,
    meets dc pos _⟩

/-- P3: an answer that carries a record. -/
theorem witness_CallerReadsUid_record : ∃ (s t : State) (size : Nat) (bytes : List Byte) (sak : Byte),
    s.uid.uidByte.length = 10 ∧ exec .discoverUid s = .next t ∧ t.answer = some (.status .ok (.uid size bytes sak)) := by
  obtain ⟨t, h1, h2⟩ := goes_to_answer (i := .discoverUid) (s := onEvents (eventsV20 ++ eventsP3))
    (a := .status .ok (.uid 4 [0xDE, 0xAD, 0xBE, 0xEF] 0x08)) (by decide +kernel)
  exact ⟨_, t, _, _, _, rfl, h1, h2⟩

/-- V67: a `select` that fails. -/
theorem witness_CallerReadsUid_select : ∃ (uid : Uid) (known : Nat) (s t : State) (st : Status) (value : Value),
    s.uid.uidByte.length = 10 ∧ exec (.select uid known) s = .next t ∧ t.answer = some (.status st value) ∧ st ≠ .ok := by
  obtain ⟨t, h1, h2⟩ := goes_to_answer (i := .select uidP3 81) (s := onSamples []) (a := only .invalid) (by decide +kernel)
  exact ⟨_, _, _, t, _, _, rfl, h1, h2, by decide⟩

/-- The chip is absent. -/
theorem witness_CallerReadsUid_serial : ∃ s t : State, s.uid.uidByte.length = 10 ∧ exec .readCardSerial s = .next t ∧
    t.answer = some (.flag false) := by
  obtain ⟨t, h1, h2⟩ := goes_to_answer (i := .readCardSerial) (s := onSamples []) (a := .flag false) (by decide +kernel)
  exact ⟨_, t, rfl, h1, h2⟩

/-- V20, and then the chip is absent. -/
theorem witness_CallerReadsUid_discover : ∃ (s t : State) (st : Status) (value : Value), s.uid.uidByte.length = 10 ∧
    exec .discoverUid s = .next t ∧ t.answer = some (.status st value) ∧ st ≠ .ok := by
  obtain ⟨t, h1, h2⟩ := goes_to_answer (i := .discoverUid) (s := onEvents eventsV20) (a := only .error) (by decide +kernel)
  exact ⟨_, t, _, _, rfl, h1, h2, by decide⟩

/-! ### The machine -/

/-- The reset state with calls to make. -/
def calling (calls : List (List Byte)) : State := { State.reset with calls := calls }

theorem witness_StepRunsDecodedCall : ∃ (s : State) (record : List Byte) (later : List (List Byte)) (i : Instr),
    s.calls = record :: later ∧ decode record = .ok i :=
  ⟨calling [[0x0F], [0x19]], [0x0F], [[0x19]], .antennaOn, rfl, by decide +kernel⟩

theorem witness_StepRunsDecodedCall_idle : ∃ s : State, s.calls = [] := ⟨State.reset, rfl⟩

theorem witness_StepRunsDecodedCall_bad : ∃ (s : State) (record : List Byte) (later : List (List Byte)) (why : Reject),
    s.calls = record :: later ∧ decode record = .error why :=
  ⟨calling [[0x08, 0x40]], [0x08, 0x40], [], .registerAddress 0x40, rfl, by decide +kernel⟩

theorem witness_StepKeepsInv : ∃ s t : State, Inv s ∧ step s = .next t ∧ t ≠ s := by
  refine ⟨calling [[0x03]], _, ⟨⟨?_, ?_, ?_⟩, trivial, rfl⟩, rfl, by decide +kernel⟩ <;> rintro _ ⟨⟩

theorem witness_OperationFrame : ∃ (i : Instr) (s t : State), exec i s = .next t ∧ (∀ uid known, i ≠ .select uid known) ∧
    i ≠ .readCardSerial ∧ i ≠ .discoverUid := ⟨.antennaOn, onSamples [], _, rfl, by simp, by simp, by simp⟩

theorem witness_OperationFrame_primitive : ∃ (i : Instr) (s t : State), exec i s = .next t ∧ i.isPrimitive = true :=
  ⟨.readByte, onSamples [], _, rfl, rfl⟩

theorem witness_BusIdleBetweenOperations : ∃ (i : Instr) (s t : State), i.isPrimitive = false ∧ exec i s = .next t ∧
    t.bus.trace ≠ s.bus.trace := by
  obtain ⟨t, h1, h2⟩ := goes_to (i := .antennaOn) (s := onSamples [])
    (p := fun t => decide (t.bus.trace ≠ (onSamples []).bus.trace)) (by decide +kernel)
  exact ⟨_, _, t, rfl, h1, of_decide_eq_true h2⟩

theorem witness_LineStateDoesNotMatter : ∃ (i : Instr) (s t : State), i.isPrimitive = false ∧ exec i s = .next t :=
  ⟨.antennaOn, onSamples [], _, rfl, rfl⟩

theorem witness_FailureEndsOperation : ∃ (i : Instr) (s t : State) (later : List RegEvent) (e : RegEvent)
    (earlier : List RegEvent), exec i s = .next t ∧ t.bus.events = later ++ e :: (earlier ++ s.bus.events) ∧
    ∃ a, e = .rd a none := by
  obtain ⟨t, h1, h2⟩ := goes_to (i := .softReset) (s := onEvents [.wr 0x01 0x0F true, .hold 50000, .rd 0x01 none])
    (p := fun t => decide (t.bus.events = [.rd 0x01 none, .hold 50000, .wr 0x01 0x0F true])) (by decide +kernel)
  exact ⟨_, _, t, [], .rd 0x01 none, [.hold 50000, .wr 0x01 0x0F true], h1, of_decide_eq_true h2, 0x01, rfl⟩

theorem witness_FailureEndsOperation_write : ∃ (i : Instr) (s t : State) (later : List RegEvent) (e : RegEvent)
    (earlier : List RegEvent), exec i s = .next t ∧ t.bus.events = later ++ e :: (earlier ++ s.bus.events) ∧
    ∃ a v, e = .wr a v false := by
  obtain ⟨t, h1, h2⟩ := goes_to (i := .discoverUid) (s := onEvents [.wr 0x01 0x00 false])
    (p := fun t => decide (t.bus.events = [.wr 0x01 0x00 false])) (by decide +kernel)
  exact ⟨_, _, t, [], _, [], h1, of_decide_eq_true h2, _, _, rfl⟩

theorem witness_FailureEndsOperation_bursts : ∃ (s t u v : State), exec (.writeRegisterBurst 0x09 [0x26]) s = .next t ∧
    t.bus.events = .wrb 0x09 [0x26] false :: s.bus.events ∧ exec (.readRegisterBurst 0x09 1 [0] 0) u = .next v ∧
    v.bus.events = .rdb 0x09 1 none :: u.bus.events := by
  obtain ⟨t, h1, h2⟩ := goes_to (i := .writeRegisterBurst 0x09 [0x26]) (s := onSamples [])
    (p := fun t => decide (t.bus.events = [.wrb 0x09 [0x26] false])) (by decide +kernel)
  obtain ⟨v, h3, h4⟩ := goes_to (i := .readRegisterBurst 0x09 1 [0] 0) (s := onSamples [])
    (p := fun t => decide (t.bus.events = [.rdb 0x09 1 none])) (by decide +kernel)
  exact ⟨_, t, _, v, h1, of_decide_eq_true h2, h3, of_decide_eq_true h4⟩

theorem witness_EventsMatchSamples : ∃ (i : Instr) (s t : State), i.isPrimitive = false ∧ exec i s = .next t :=
  ⟨.init, onSamples [], _, rfl, rfl⟩

theorem witness_EveryAdmittedCallReturns : ∃ (i j : Instr) (s : State), i.admitted s.cfg = true ∧
    j.admitted s.cfg = false :=
  ⟨.transceive (List.replicate 64 0) none none 0 false, .transceive (List.replicate 65 0) none none 0 false, onSamples [],
    by decide, by decide⟩

/-- The hypotheses of `RegisterOperationDurations` on the state. -/
theorem witness_RegisterOperationDurations : ∃ (s t u v w x : State) (a : RegAddr), s.cfg.tHold = 5 ∧ s.cfg.tRdLow = 3 ∧
    s.cfg.tRdHigh = 2 ∧ s.cfg.tAckPoll = 1 ∧ 0 < s.cfg.ackPollMax ∧
    exec (.writeRegister a 0x0F) s = .next t ∧ s.bus.samples = List.replicate 3 false ++ (byteBits 0x92 ++ []) ∧
    exec (.readRegister a) s = .next u ∧ exec (.writeRegisterBurst a [0x26]) s = .next v ∧
    exec (.readRegisterBurst a 1 [0] 7) s = .next w ∧ exec (.writeRegister a 0x0F) (onSamples (List.replicate 20 true)) = .next x :=
  ⟨onEvents [.rd 0x37 (some 0x92)], _, _, _, _, _, 0x37, rfl, rfl, rfl, rfl, by decide, rfl, rfl, rfl, rfl, rfl, rfl⟩

end Sys2Proof.Tests
end

section
/-! PROOFS. The family of 10_state.md: the frame of every operation (the traces only grow, the oracle's answers are only
taken), how an operation hands over (`Finishes`), the invariant, and what the caller reads of the `Uid` record. -/

namespace Sys2Proof.Machine

open Sys2Proof

/-! ## The trace grows and samples are taken -/

/-- `b'` comes after `b`: its line trace has `b`'s as its older part, and its oracle has what is left of `b`'s answers. -/
def Continues (b b' : Bus) : Prop := b.trace <:+ b'.trace ∧ b'.samples <:+ b.samples

theorem Continues.refl (b : Bus) : Continues b b := ⟨List.suffix_rfl, List.suffix_rfl⟩

theorem Continues.trans {b b1 b2 : Bus} (h1 : Continues b b1) (h2 : Continues b1 b2) : Continues b b2 :=
  ⟨h1.1.trans h2.1, h2.2.trans h1.2⟩

theorem act_continues (b : Bus) (l : LineAction) : Continues b (b.act l) := by simp [Continues]

theorem acts_continues (b : Bus) (l : List LineAction) : Continues b (b.acts l) := by simp [Continues]

theorem sample_continues (b : Bus) : Continues b b.sample.2 := by simp [Continues, List.tail_suffix]

theorem record_continues (b : Bus) (e : RegEvent) : Continues b (b.record e) := Continues.refl b

theorem waitUs_continues (us : Nat) (b : Bus) : Continues b (waitUs us b) := act_continues b (.hold us)

theorem readBits_continues (c : Config) (n : Nat) (acc : Byte) (b : Bus) : Continues b (readBits c n acc b).2 := by
  induction n generalizing acc b with
  | zero => exact Continues.refl b
  | succ n ih => exact (((acts_continues b _).trans (sample_continues _)).trans (act_continues _ _)).trans (ih _ _)

theorem readByte_continues (c : Config) (b : Bus) : Continues b (readByte c b).2 :=
  (act_continues b _).trans (readBits_continues c 8 0 _)

theorem ackPoll_continues (c : Config) (n : Nat) (b : Bus) : Continues b (ackPoll c n b).2 := by
  induction n generalizing b with
  | zero => exact Continues.refl b
  | succ n ih =>
    have hs := sample_continues b
    rw [ackPoll]
    split <;> rename_i b1 h <;> rw [h] at hs
    · exact hs
    · exact (hs.trans (act_continues _ _)).trans (ih _)

theorem slaveAck_continues (c : Config) (b : Bus) : Continues b (slaveAck c b).2 :=
  ((acts_continues b _).trans (ackPoll_continues c _ _)).trans (act_continues _ _)

theorem ackOrAbort_continues (c : Config) (b : Bus) : Continues b (ackOrAbort c b).2 := by
  have hs := slaveAck_continues c b
  rw [ackOrAbort]
  split <;> rename_i b1 h <;> rw [h] at hs
  · exact hs
  · rw [abortActions]
    split
    · exact hs.trans (acts_continues b1 _)
    · exact hs

theorem sendBytes_continues (c : Config) (bytes : List Byte) (b : Bus) : Continues b (sendBytes c bytes b).2 := by
  induction bytes generalizing b with
  | nil => exact Continues.refl b
  | cons v bytes ih =>
    have ha := (acts_continues b _).trans (ackOrAbort_continues c (writeByte c v b))
    rw [sendBytes]
    split <;> rename_i h <;> rw [h] at ha
    · exact ha.trans (ih _)
    · exact ha

theorem readBytes_continues (c : Config) (n : Nat) (b : Bus) : Continues b (readBytes c n b).2 := by
  induction n generalizing b with
  | zero => exact Continues.refl b
  | succ n ih =>
    have hm : Continues b (if n = 0 then masterNotAck c (readByte c b).2 else masterAck c (readByte c b).2) := by
      split <;> exact (readByte_continues c b).trans (acts_continues _ _)
    exact hm.trans (ih _)

theorem writeFrameOnBus_continues (c : Config) (a : RegAddr) (data : List Byte) (b : Bus) :
    Continues b (writeFrameOnBus c a data b).2 := by
  have hs := (acts_continues b _).trans (sendBytes_continues c (addrW c.chipAddr :: regByte a :: data) (start c b))
  rw [writeFrameOnBus]
  split <;> rename_i h <;> rw [h] at hs
  · exact hs.trans (acts_continues _ _)
  · exact hs

theorem readFrameOnBus_continues (c : Config) (a : RegAddr) (n : Nat) (b : Bus) :
    Continues b (readFrameOnBus c a n b).2 := by
  have hw := writeFrameOnBus_continues c a [] b
  rw [readFrameOnBus]
  split <;> rename_i b1 h <;> rw [h] at hw
  · exact hw
  · have hs := (hw.trans (acts_continues b1 _)).trans (sendBytes_continues c [addrR c.chipAddr] (start c b1))
    split <;> rename_i b2 h2 <;> rw [h2] at hs
    · exact hs
    · exact (hs.trans (readBytes_continues c n b2)).trans (acts_continues _ _)

theorem readRegister_continues (c : Config) (a : RegAddr) (b : Bus) : Continues b (readRegister c a b).2 := by
  have hf := readFrameOnBus_continues c a 1 b
  rw [readRegister]
  split <;> rename_i h <;> rw [h] at hf <;> exact hf.trans (record_continues _ _)

theorem writeRegister_continues (c : Config) (a : RegAddr) (v : Byte) (b : Bus) :
    Continues b (writeRegister c a v b).2 := by
  have hf := writeFrameOnBus_continues c a [v] b
  rw [writeRegister]
  split <;> rename_i h <;> rw [h] at hf <;> exact hf.trans (record_continues _ _)

theorem writeRegisterBurst_continues (c : Config) (a : RegAddr) (bytes : List Byte) (b : Bus) :
    Continues b (writeRegisterBurst c a bytes b).2 := by
  have hf := writeFrameOnBus_continues c a bytes b
  rw [writeRegisterBurst]
  split
  · exact Continues.refl b
  · split <;> rename_i h <;> rw [h] at hf <;> exact hf.trans (record_continues _ _)

theorem readRegisterBurst_continues (c : Config) (a : RegAddr) (n : Nat) (b : Bus) :
    Continues b (readRegisterBurst c a n b).2 := by
  have hf := readFrameOnBus_continues c a n b
  rw [readRegisterBurst]
  split
  · exact Continues.refl b
  · split <;> rename_i h <;> rw [h] at hf <;> exact hf.trans (record_continues _ _)

theorem runLine_continues {α : Type} (c : Config) (p : Prog α) (b : Bus) : Continues b (runLine c p b).2 :=
  runLine_rel c Continues Continues.refl (fun _ _ _ => Continues.trans) (readRegister_continues c)
    (writeRegister_continues c) (writeRegisterBurst_continues c) (readRegisterBurst_continues c) waitUs_continues p b

/-! ## The bus after an operation -/

/-- The bus after the sequence of 40_bus_primitives.md that a primitive names. -/
def primitiveBus (c : Config) (b : Bus) : Instr → Bus
  | .start => start c b
  | .stop => stop c b
  | .writeByte v => writeByte c v b
  | .readByte => (readByte c b).2
  | .masterAck => masterAck c b
  | .masterNotAck => masterNotAck c b
  | .slaveAck => (slaveAck c b).2
  | _ => b

theorem exec_primitive_bus {i : Instr} {s t : State} (hp : i.isPrimitive = true) (h : exec i s = .next t) :
    t.bus = primitiveBus s.cfg s.bus i := by
  cases i with
  | start | stop | writeByte | readByte | masterAck | masterNotAck | slaveAck => cases h; rfl
  | _ => exact absurd hp Bool.false_ne_true

theorem primitiveBus_continues (c : Config) (b : Bus) (i : Instr) : Continues b (primitiveBus c b i) := by
  cases i with
  | start | stop | writeByte | masterAck | masterNotAck => exact acts_continues b _
  | readByte => exact readByte_continues c b
  | slaveAck => exact slaveAck_continues c b
  | _ => exact Continues.refl b

@[simp] theorem primitiveBus_events (c : Config) (b : Bus) (i : Instr) : (primitiveBus c b i).events = b.events := by
  cases i <;> simp [primitiveBus]

theorem LinesOk.primitiveBus {b : Bus} (h : LinesOk b) (c : Config) (i : Instr) :
    LinesOk (Sys2Proof.Machine.primitiveBus c b i) := by
  cases i with
  | start => exact LinesOk.start h
  | stop => exact LinesOk.stop h
  | writeByte => exact LinesOk.writeByte h
  | readByte => exact LinesOk.readByte h
  | masterAck | masterNotAck => exact LinesOk.masterAckSeq h
  | slaveAck => exact LinesOk.slaveAck h
  | _ => exact h

/-- The bus after an operation is the bus after a primitive's sequence or after a run of a program. -/
theorem exec_bus {i : Instr} {s t : State} (h : exec i s = .next t) :
    t.bus = primitiveBus s.cfg s.bus i ∨ ∃ (α : Type) (p : Prog α), t.bus = (runLine s.cfg p s.bus).2 := by
  cases hp : i.isPrimitive with
  | true => exact .inl (exec_primitive_bus hp h)
  | false => exact .inr (exec_runs_program i s t hp h)

theorem exec_continues {i : Instr} {s t : State} (h : exec i s = .next t) : Continues s.bus t.bus := by
  obtain e | ⟨α, p, e⟩ := exec_bus h <;> rw [e]
  · exact primitiveBus_continues _ _ _
  · exact runLine_continues _ _ _

theorem exec_events {i : Instr} {s t : State} (h : exec i s = .next t) : ∃ es, t.bus.events = es ++ s.bus.events := by
  obtain e | ⟨α, p, e⟩ := exec_bus h <;> rw [e]
  · exact ⟨[], primitiveBus_events _ _ _⟩
  · exact runLine_events _ _ _

/-- Every operation keeps the line part of the invariant. -/
theorem exec_linesOk {i : Instr} {s t : State} (hs : LinesOk s.bus) (h : exec i s = .next t) : LinesOk t.bus := by
  obtain e | ⟨α, p, e⟩ := exec_bus h <;> rw [e]
  · exact hs.primitiveBus _ _
  · exact hs.runLine

/-! ## How an operation hands over -/

/-- The operations that fill the `Uid` record (10_state.md R18). -/
def fillsUid : Instr → Bool
  | .select _ _ => true
  | .readCardSerial => true
  | .discoverUid => true
  | _ => false

/-- An answer that carries a `Uid` record. -/
def Answer.carriesUid : Answer → Bool
  | .status _ (.uid _ _ _) => true
  | _ => false

/-- How an operation of the block can end: what it leaves in the record and hands its caller. -/
inductive Finishes (s : State) : Instr → State → Prop
  /-- any operation but the three that fill the record -/
  | plain (i : Instr) (b : Bus) (a : Answer) (hi : fillsUid i = false) (ha : a.carriesUid = false) :
      Finishes s i (s.finish b a)
  | select (uid u : Uid) (known : Nat) (st : Status) (b : Bus) (hu : uid.uidByte.length = 10)
      (hr : runLine s.cfg (selectProg s.cfg uid known) s.bus = ((u, st), b)) :
      Finishes s (.select uid known) ((s.withUid u st).finish b (.status st .empty))
  | readCardSerial (u : Uid) (st : Status) (b : Bus)
      (hr : runLine s.cfg (selectProg s.cfg s.uid 0) s.bus = ((u, st), b)) :
      Finishes s .readCardSerial ((s.withUid u st).finish b (.flag (st == .ok)))
  /-- `discover_uid`, the request failed -/
  | unanswered (st : Status) (b : Bus) (hr : runLine s.cfg (discoverProg s.cfg s.uid) s.bus = ((none, st), b)) :
      Finishes s .discoverUid (s.finish b (.status st .empty))
  /-- `discover_uid`, the card selected -/
  | discovered (u : Uid) (b : Bus) (hr : runLine s.cfg (discoverProg s.cfg s.uid) s.bus = ((some u, .ok), b)) :
      Finishes s .discoverUid ((s.withUid u .ok).finish b (.status .ok (uidValue u)))
  /-- `discover_uid`, the selection failed -/
  | unselected (u : Uid) (st : Status) (b : Bus) (hst : st ≠ .ok)
      (hr : runLine s.cfg (discoverProg s.cfg s.uid) s.bus = ((some u, st), b)) :
      Finishes s .discoverUid ((s.withUid u st).finish b (.status st .empty))

theorem Finishes.of_answer {α : Type} {i : Instr} {s t : State} {r : Res α} {b : Bus} {f : α → Value}
    (hi : fillsUid i = false) (hf : ∀ v, (Answer.status .ok (f v)).carriesUid = false)
    (h : (.next (s.finish b (r.answer f)) : Outcome) = .next t) : Finishes s i t := by
  cases h
  refine .plain i b _ hi ?_
  cases r with
  | ok v => exact hf v
  | err st => rfl

theorem replyValue_carries_no_uid (st : Status) (valid : Option Bits3) (reply : Option Reply) :
    (Answer.status st (replyValue valid reply)).carriesUid = false := by cases reply <;> rfl

/-- Every operation that goes on ends in one of the ways of `Finishes`. -/
theorem exec_finishes {i : Instr} {s t : State} (h : exec i s = .next t) : Finishes s i t := by
  cases i with
  | start | stop | writeByte | readByte | masterAck | masterNotAck | slaveAck | isNewCardPresent =>
    cases h; exact .plain _ _ _ rfl rfl
  | writeRegister | readRegister | writeRegisterBurst | setBits | clearBits | init | softReset | antennaOn | antennaOff
  | requestA | wakeupA => exact .of_answer rfl (fun _ => rfl) h
  | readRegisterBurst a n buf rxAlign =>
    rw [exec, execReadRegisterBurst] at h
    split at h
    · split at h <;> cases h <;> exact .plain _ _ _ rfl rfl
    · cases h
  | calculateCRC data =>
    rw [exec, execCalculateCRC] at h
    split at h
    · exact .of_answer rfl (fun _ => rfl) h
    · cases h
  | communicate command waitMask send validBits recv rxAlign checkCrc =>
    rw [exec, execCommunicate] at h
    split at h
    · split at h
      · cases h; exact .plain _ _ _ rfl (replyValue_carries_no_uid _ _ _)
      · cases h
    · cases h
  | transceive send validBits recv rxAlign checkCrc =>
    rw [exec, execTransceive] at h
    split at h
    · cases h; exact .plain _ _ _ rfl (replyValue_carries_no_uid _ _ _)
    · cases h
  | select uid known =>
    rw [exec, execSelect] at h
    split at h
    · rename_i hu
      cases h
      exact .select uid _ known _ _ (of_decide_eq_true hu) rfl
    · cases h
  | readCardSerial => cases h; exact .readCardSerial _ _ _ rfl
  | discoverUid =>
    rw [exec, execDiscoverUid] at h
    split at h <;> rename_i hr <;> cases h
    · exact .unanswered _ _ hr
    · exact .discovered _ _ hr
    · rename_i hst
      exact .unselected _ _ _ (fun e => hst (by rw [e])) hr

/-! ## The record after an operation -/

/-- How `select` can end, whatever is known: a record of ten bytes, and after OK a complete one (10_state.md R18, R164). -/
theorem selectProg_ends (c : Config) (uid : Uid) (hu : uid.uidByte.length = 10) (k : Nat) :
    (selectProg c uid k).Leaves c fun x =>
      x.1.uidByte.length = 10 ∧ (x.2 = .ok → x.1.size = 4 ∨ x.1.size = 7 ∨ x.1.size = 10) := by
  by_cases hk : 80 < k
  · rw [selectProg, if_pos hk]
    exact ⟨hu, nofun⟩
  · refine (selectProg_leaves c uid hu k hk).mono fun x hx => ?_
    obtain ⟨hl, -, -, hok⟩ := hx
    exact ⟨hl, fun h => (hok h).1⟩

theorem Prog.leaves_true {α : Type} (c : Config) (p : Prog α) : p.Leaves c fun _ => True := by
  induction p with
  | ret v => exact True.intro
  | rd a k ih => exact fun r => ih _
  | wr a v k ih => exact fun r => ih _
  | wrb a bytes k ih => exact fun r => ih _
  | rdb a n k ih => exact fun r _ => ih _
  | hold us k ih => exact ih

/-- How `discover_uid` can end once the card was selected or its selection failed (R171). -/
theorem discoverProg_ends (c : Config) (uid : Uid) (hu : uid.uidByte.length = 10) :
    (discoverProg c uid).Leaves c fun x => ∀ u, x.1 = some u →
      u.uidByte.length = 10 ∧ (x.2 = .ok → u.size = 4 ∨ u.size = 7 ∨ u.size = 10) := by
  rw [discoverProg]
  refine (Prog.leaves_true c _).bind fun r _ => ?_
  split
  · refine (selectProg_ends c uid hu 0).bind fun p hp => ?_
    rintro _ ⟨⟩
    exact hp
  · exact nofun

theorem runLine_select_ends {c : Config} {uid u : Uid} {k : Nat} {st : Status} {b b' : Bus}
    (hu : uid.uidByte.length = 10) (hr : runLine c (selectProg c uid k) b = ((u, st), b')) :
    u.uidByte.length = 10 ∧ (st = .ok → u.size = 4 ∨ u.size = 7 ∨ u.size = 10) := by
  have h := runLine_leaves (selectProg_ends c uid hu k) b
  rwa [hr] at h

theorem runLine_discover_ends {c : Config} {uid u : Uid} {st : Status} {b b' : Bus} (hu : uid.uidByte.length = 10)
    (hr : runLine c (discoverProg c uid) b = ((some u, st), b')) :
    u.uidByte.length = 10 ∧ (st = .ok → u.size = 4 ∨ u.size = 7 ∨ u.size = 10) := by
  have h := runLine_leaves (discoverProg_ends c uid hu) b
  rw [hr] at h
  exact h u rfl

/-- Every operation keeps the ten bytes of the record (R18). -/
theorem Finishes.uidByte_length {s t : State} {i : Instr} (h : Finishes s i t) (hs : s.uid.uidByte.length = 10) :
    t.uid.uidByte.length = 10 := by
  cases h with
  | plain | unanswered => exact hs
  | select uid u known st b hu hr => exact (runLine_select_ends hu hr).1
  | readCardSerial u st b hr => exact (runLine_select_ends hs hr).1
  | discovered u b hr => exact (runLine_discover_ends hs hr).1
  | unselected u st b hst hr => exact (runLine_discover_ends hs hr).1

theorem Finishes.cfg {s t : State} {i : Instr} (h : Finishes s i t) : t.cfg = s.cfg := by cases h <;> simp

theorem Finishes.calls {s t : State} {i : Instr} (h : Finishes s i t) : t.calls = s.calls := by cases h <;> simp

theorem Finishes.uid_of_not_fillsUid {s t : State} {i : Instr} (h : Finishes s i t) (hi : fillsUid i = false) :
    t.uid = s.uid ∧ t.uidMeaningful = s.uidMeaningful := by
  cases h with
  | plain => exact ⟨rfl, rfl⟩
  | select | readCardSerial | unanswered | discovered | unselected => cases hi

/-! ## The invariant -/

/-- A step that goes on moves nothing or runs one operation, its call off the queue (10_state.md R14, 60_exceptions.md
R214). -/
theorem step_next {s t : State} (h : step s = .next t) :
    t = s ∨ ∃ (i : Instr) (later : List (List Byte)), exec i { s with calls := later } = .next t := by
  rw [step] at h
  split at h
  · cases h
    exact .inl rfl
  · split at h
    · cases h
    · exact .inr ⟨_, _, h⟩

theorem inv_iff (s : State) : Inv s ↔ LinesOk s.bus ∧ s.uid.uidByte.length = 10 := by rw [Inv, LinesOk, and_assoc]

/-- Lines on which nothing has been done are as the trace left them, whatever their levels. -/
theorem linesOk_of_trace_nil {b : Bus} (h : b.trace = []) : LinesOk b := by
  simp [LinesOk, LinesFollowTrace, SamplesLegal, traceScl, traceDir, traceSda, h]

theorem exec_keeps_inv {i : Instr} {s t : State} (hs : Inv s) (h : exec i s = .next t) : Inv t := by
  obtain ⟨hl, hu⟩ := (inv_iff s).1 hs
  exact (inv_iff t).2 ⟨exec_linesOk hl h, (exec_finishes h).uidByte_length hu⟩

/-! ## What the caller reads of the record -/

theorem readUid_eq_none_iff (s : State) : readUid s = none ↔ s.uidMeaningful = false := by simp [readUid]

theorem readUidByte_of_size_le {s : State} {j : Nat} (h : s.uid.size ≤ j) : readUidByte s j = none := by
  simp [readUidByte, Nat.not_lt.2 h]

theorem readUidByte_of_readUid_none {s : State} (h : readUid s = none) (j : Nat) : readUidByte s j = none := by
  simp [readUidByte, (readUid_eq_none_iff s).1 h]

theorem readUidByte_of_meaningful {s : State} (h : s.uidMeaningful = true) (j : Nat) :
    readUidByte s j = (s.uid.uidByte.take s.uid.size)[j]? := by
  simp [readUidByte, h, List.getElem?_take]

/-- After a `select` that did not end in OK the record may not be read. -/
theorem readUid_withUid_none {s : State} {u : Uid} {st : Status} {b : Bus} {a : Answer} (h : st ≠ .ok) :
    readUid ((s.withUid u st).finish b a) = none := by simp [readUid_eq_none_iff, h]

/-- Only `discover_uid` hands a record over, with OK: the complete record it leaves, as the caller reads it. -/
theorem Finishes.answer_carries_uid {s t : State} {i : Instr} {st : Status} {size : Nat} {bytes : List Byte} {sak : Byte}
    (h : Finishes s i t) (hs : s.uid.uidByte.length = 10) (ha : t.answer = some (.status st (.uid size bytes sak))) :
    i = .discoverUid ∧ st = .ok ∧ (size = 4 ∨ size = 7 ∨ size = 10) ∧ bytes.length = size ∧
      readUid t = some (.uid size bytes sak) ∧ ∀ j, readUidByte t j = bytes[j]? := by
  cases h with
  | plain _ b a hi hc => cases ha; cases hc
  | select | readCardSerial | unanswered | unselected => cases ha
  | discovered u b hr =>
    obtain ⟨hl, hok⟩ := runLine_discover_ends hs hr
    have hsize := hok rfl
    cases ha
    refine ⟨rfl, rfl, hsize, ?_, rfl, readUidByte_of_meaningful rfl⟩
    rw [List.length_take, hl]
    omega

theorem Finishes.select_failed {s t : State} {uid : Uid} {known : Nat} {st : Status} {value : Value}
    (h : Finishes s (.select uid known) t) (ha : t.answer = some (.status st value)) (hst : st ≠ .ok) :
    readUid t = none := by
  cases h with
  | plain _ b a hi => cases hi
  | select => cases ha; exact readUid_withUid_none hst

theorem Finishes.readCardSerial_failed {s t : State} (h : Finishes s .readCardSerial t)
    (ha : t.answer = some (.flag false)) : readUid t = none := by
  cases h with
  | plain _ b a hi => cases hi
  | readCardSerial u st b hr => exact readUid_withUid_none (by simpa using ha)

theorem Finishes.discoverUid_failed {s t : State} {st : Status} {value : Value} (h : Finishes s .discoverUid t)
    (ha : t.answer = some (.status st value)) (hst : st ≠ .ok) :
    readUid t = none ∨ (t.uid = s.uid ∧ t.uidMeaningful = s.uidMeaningful) := by
  cases h with
  | plain _ b a hi => cases hi
  | unanswered => exact .inr ⟨rfl, rfl⟩
  | discovered => cases ha; exact absurd rfl hst
  | unselected u st' b hst' => exact .inl (readUid_withUid_none hst')

/-! ## The obligations -/

/-- Settles O47: an operation keeps the lines' part of the invariant and the ten bytes of the record; an idle step moves
nothing. -/
theorem stepKeepsInv : Obligations.StepKeepsInv := by
  intro s t hs h
  obtain rfl | ⟨i, later, h⟩ := step_next h
  · exact hs
  · exact exec_keeps_inv (s := { s with calls := later }) hs h

/-- Settles O50: the frame of the record from `Finishes`, that of the traces and the oracle from the bus after. -/
theorem operationFrame : Obligations.OperationFrame := by
  intro i s t h
  have hf := exec_finishes h
  obtain ⟨⟨l, htrace⟩, hsamples⟩ := exec_continues h
  refine ⟨hf.cfg, hf.calls, ⟨l, htrace.symm⟩, exec_events h, ⟨_, List.suffix_iff_eq_drop.1 hsamples⟩,
    fun hp => by rw [exec_primitive_bus hp h, primitiveBus_events], fun hsel hser hdis => hf.uid_of_not_fillsUid ?_⟩
  cases i with
  | select uid known => exact absurd rfl (hsel uid known)
  | readCardSerial => exact absurd rfl hser
  | discoverUid => exact absurd rfl hdis
  | _ => rfl

/-- Settles O59, by how an operation can finish (`Finishes`). -/
theorem callerReadsUid : Obligations.CallerReadsUid := by
  intro i s t hs h
  have hf := exec_finishes h
  refine ⟨fun st size bytes sak ha => hf.answer_carries_uid hs ha, fun j => readUidByte_of_size_le,
    readUidByte_of_readUid_none, ?_, ?_, ?_⟩
  · rintro uid known st value rfl ha hst
    exact hf.select_failed ha hst
  · rintro rfl ha
    exact hf.readCardSerial_failed ha
  · rintro st value rfl ha hst
    exact hf.discoverUid_failed ha hst

/-- Settles O48: the trace is empty at reset, so any line levels have the invariant. -/
theorem resetHasInv : Obligations.ResetHasInv := (inv_iff _).2 ⟨linesOk_of_trace_nil rfl, rfl⟩

end Sys2Proof.Machine
end

section
/-! PROOFS. The family of 30_encoding.md, the two codings: call records and well-formed operations are one to one (log 1),
and a wire frame decodes to its operation (R63 to R69, R75). -/

namespace Sys2Proof

/-! ## Call records (30_encoding.md R77) -/

theorem finishRecord_nil (i : Instr) : finishRecord i [] = .ok i := rfl

/-- A sequence that is the last operand. -/
theorem takeSeq_putSeq (bytes : List Byte) (h : fitsRecord bytes = true) : takeSeq (putSeq bytes) = .ok (bytes, []) := by
  simpa using takeSeq_put bytes [] h

/-- A boolean that is the last operand. -/
theorem takeFlag_putFlag (b : Bool) : takeFlag (putFlag b) = .ok (b, []) := takeFlag_put b []

/-- The operands of a well-formed operation are taken off in the order they were put. -/
theorem decodeOperands_operandBytes (i : Instr) (h : i.wf = true) : decodeOperands i.row i.operandBytes = .ok i := by
  cases i with
  | start | stop | readByte | masterAck | masterNotAck | slaveAck | init | softReset | antennaOn | antennaOff | requestA
  | wakeupA | isNewCardPresent | readCardSerial | discoverUid | writeByte => rfl
  | writeRegister a v | setBits a v | clearBits a v | readRegister a =>
    simp only [Instr.row, Instr.operandBytes, decodeOperands, BitVec.reduceToNat, takeAddr_put, takeByte_put,
      taken_bind, finishRecord_nil]
  | writeRegisterBurst a bytes =>
    simp only [Instr.row, Instr.operandBytes, decodeOperands, BitVec.reduceToNat, takeAddr_put,
      takeSeq_putSeq bytes h, taken_bind, finishRecord_nil]
  | readRegisterBurst a n buf r =>
    obtain ⟨hb, hn⟩ : fitsRecord buf = true ∧ n ≤ buf.length := by simpa [Instr.wf] using h
    have hc : n < 65536 := lt_of_le_of_lt hn (of_decide_eq_true hb)
    simp only [Instr.row, Instr.operandBytes, decodeOperands, BitVec.reduceToNat, takeAddr_put,
      takeCount_put n _ hc, takeSeq_put buf _ hb, takeBits3_put, taken_bind, hn, if_true, finishRecord_nil]
  | calculateCRC data =>
    simp only [Instr.row, Instr.operandBytes, decodeOperands, BitVec.reduceToNat, takeSeq_putSeq data h,
      taken_bind, finishRecord_nil]
  | communicate command mask send valid recv r crc =>
    obtain ⟨hs, hr⟩ := Bool.and_eq_true_iff.1 h
    simp only [Instr.row, Instr.operandBytes, decodeOperands, BitVec.reduceToNat, takeCode_put, takeByte_put,
      takeSeq_put send _ hs, takeOptBits3_put, takeOptSeq_put recv _ hr, takeBits3_put, takeFlag_putFlag,
      taken_bind, finishRecord_nil]
  | transceive send valid recv r crc =>
    obtain ⟨hs, hr⟩ := Bool.and_eq_true_iff.1 h
    simp only [Instr.row, Instr.operandBytes, decodeOperands, BitVec.reduceToNat, takeSeq_put send _ hs,
      takeOptBits3_put, takeOptSeq_put recv _ hr, takeBits3_put, takeFlag_putFlag, taken_bind, finishRecord_nil]
  | select uid known =>
    obtain ⟨⟨hu, hs⟩, hk⟩ : (uid.wf = true ∧ uid.size < 256) ∧ known < 256 := by simpa [Instr.wf] using h
    simp only [Instr.row, Instr.operandBytes, decodeOperands, BitVec.reduceToNat, takeUid_put uid _ hu hs,
      takeByte_put, taken_bind, BitVec.toNat_ofNat, Nat.mod_eq_of_lt hk, finishRecord_nil]

theorem decode_encode (i : Instr) (h : i.wf = true) : decode (encode i) = .ok i := decodeOperands_operandBytes i h

/-- What is known of an operand taken off a record, and what is done with it (`taken_inv` through an inversion lemma). -/
theorem taken_bind_inv {α β : Type} {m : Except Reject (α × List Byte)} {P : α → List Byte → Prop}
    {f : α × List Byte → Except Reject β} {y : β} (hinv : ∀ {rest v}, m = .ok (v, rest) → P v rest)
    (h : (m >>= f) = .ok y) : ∃ v rest, P v rest ∧ f (v, rest) = .ok y := by
  obtain ⟨v, rest, hm, hf⟩ := taken_inv h
  exact ⟨v, rest, hinv hm, hf⟩

/-- At the end of a record the operands taken are all there was. -/
theorem finishRecord_operands {op : Byte} {bytes rest : List Byte} {i j : Instr} (h : finishRecord i rest = .ok j)
    (hop : op.toNat = i.row.toNat) (hw : i.wf = true) (hb : bytes = i.operandBytes ++ rest) :
    j.wf = true ∧ j.row = op ∧ j.operandBytes = bytes := by
  obtain ⟨rfl, rfl⟩ := finishRecord_inv h
  exact ⟨hw, BitVec.eq_of_toNat_eq hop.symm, by rw [hb, List.append_nil]⟩

/-- Operands that decode are those of the operation they decode to, which is well formed. The case `h_<k + 1>` is row `k`
of the table. -/
theorem operandBytes_of_decodeOperands {op : Byte} {bytes : List Byte} {i : Instr}
    (h : decodeOperands op bytes = .ok i) : i.wf = true ∧ i.row = op ∧ i.operandBytes = bytes := by
  rw [decodeOperands] at h
  split at h
  case h_3 hop =>
    obtain ⟨b, rest, rfl, h1⟩ := taken_bind_inv takeByte_inv h
    exact finishRecord_operands h1 hop rfl rfl
  case h_8 hop | h_12 hop | h_13 hop =>
    obtain ⟨a, rest, rfl, h1⟩ := taken_bind_inv takeAddr_inv h
    obtain ⟨v, rest, rfl, h2⟩ := taken_bind_inv takeByte_inv h1
    exact finishRecord_operands h2 hop rfl rfl
  case h_9 hop =>
    obtain ⟨a, rest, rfl, h1⟩ := taken_bind_inv takeAddr_inv h
    exact finishRecord_operands h1 hop rfl rfl
  case h_10 hop =>
    obtain ⟨a, rest, rfl, h1⟩ := taken_bind_inv takeAddr_inv h
    obtain ⟨data, rest, ⟨rfl, hd⟩, h2⟩ := taken_bind_inv takeSeq_inv h1
    exact finishRecord_operands h2 hop hd rfl
  case h_11 hop =>
    obtain ⟨a, rest, rfl, h1⟩ := taken_bind_inv takeAddr_inv h
    obtain ⟨n, rest, ⟨rfl, -⟩, h2⟩ := taken_bind_inv takeCount_inv h1
    obtain ⟨buf, rest, ⟨rfl, hb⟩, h3⟩ := taken_bind_inv takeSeq_inv h2
    obtain ⟨r, rest, rfl, h4⟩ := taken_bind_inv takeBits3_inv h3
    simp only at h4
    split at h4
    · rename_i hn
      exact finishRecord_operands h4 hop (by simp [Instr.wf, hb, hn]) (by simp [Instr.operandBytes])
    · cases h4
  case h_18 hop =>
    obtain ⟨data, rest, ⟨rfl, hd⟩, h1⟩ := taken_bind_inv takeSeq_inv h
    exact finishRecord_operands h1 hop hd rfl
  case h_19 hop =>
    obtain ⟨command, rest, rfl, h1⟩ := taken_bind_inv takeCode_inv h
    obtain ⟨mask, rest, rfl, h2⟩ := taken_bind_inv takeByte_inv h1
    obtain ⟨send, rest, ⟨rfl, hs⟩, h3⟩ := taken_bind_inv takeSeq_inv h2
    obtain ⟨valid, rest, rfl, h4⟩ := taken_bind_inv takeOptBits3_inv h3
    obtain ⟨recv, rest, ⟨rfl, hr⟩, h5⟩ := taken_bind_inv takeOptSeq_inv h4
    obtain ⟨r, rest, rfl, h6⟩ := taken_bind_inv takeBits3_inv h5
    obtain ⟨crc, rest, rfl, h7⟩ := taken_bind_inv takeFlag_inv h6
    exact finishRecord_operands h7 hop (by simp [Instr.wf, hs, hr]) (by simp [Instr.operandBytes])
  case h_20 hop =>
    obtain ⟨send, rest, ⟨rfl, hs⟩, h1⟩ := taken_bind_inv takeSeq_inv h
    obtain ⟨valid, rest, rfl, h2⟩ := taken_bind_inv takeOptBits3_inv h1
    obtain ⟨recv, rest, ⟨rfl, hr⟩, h3⟩ := taken_bind_inv takeOptSeq_inv h2
    obtain ⟨r, rest, rfl, h4⟩ := taken_bind_inv takeBits3_inv h3
    obtain ⟨crc, rest, rfl, h5⟩ := taken_bind_inv takeFlag_inv h4
    exact finishRecord_operands h5 hop (by simp [Instr.wf, hs, hr]) (by simp [Instr.operandBytes])
  case h_24 hop =>
    obtain ⟨uid, rest, ⟨rfl, hu, hs⟩, h1⟩ := taken_bind_inv takeUid_inv h
    obtain ⟨known, rest, rfl, h2⟩ := taken_bind_inv takeByte_inv h1
    exact finishRecord_operands h2 hop (by simp [Instr.wf, hu, hs, known.isLt]) (by simp [Instr.operandBytes])
  case h_27 => cases h
  all_goals
    rename_i hop
    exact finishRecord_operands h hop rfl rfl

/-- A record decodes to the well-formed operation whose record it is, and to no other. -/
theorem encode_of_decode {bytes : List Byte} {i : Instr} (h : decode bytes = .ok i) : i.wf = true ∧ encode i = bytes := by
  cases bytes with
  | nil => cases h
  | cons op bytes =>
    obtain ⟨hw, hr, hb⟩ := operandBytes_of_decodeOperands h
    exact ⟨hw, by rw [encode, hr, hb]⟩

/-! ## Wire frames (30_encoding.md R63 to R69, R75) -/

theorem readFrame_put (chip : ChipAddr) (data : List (Byte × Bool)) (h : readAcks data = true) :
    readFrame ((addrR chip, false) :: data) = .ok (chip, data.length) := by
  simp only [readFrame, addrR_bit0, addrR_chip, h, and_self, if_true]

/-- A write frame carries its register and its data (R66, R68). -/
theorem decodeFrame_frameWrite (chip : ChipAddr) (a : RegAddr) (data : List Byte) :
    decodeFrame (frameWrite chip a data) = writeOf chip a data := by
  simp only [frameWrite, decodeFrame, takeTransaction_acked, writeFrame_put]

/-- A read frame carries its register and how many bytes were read (R67, R69). -/
theorem decodeFrame_frameRead (chip : ChipAddr) (a : RegAddr) (data : List Byte) (h : data ≠ []) :
    decodeFrame (frameRead chip a data) = readOf chip a data.length := by
  obtain ⟨l, hl, hlen, hacks⟩ := takeTransaction_read data []
  have hread : takeTransaction (wireAcked [addrR chip] ++ (wireRead data ++ [.stop])) =
      .ok ((addrR chip, false) :: l, []) := takeTransaction_wireByte _ _ _ _ _ hl
  simp only [frameRead, frameWrite, List.cons_append, List.append_assoc, List.nil_append, decodeFrame,
    takeTransaction_acked, hread, writeFrame_put, readFrame_put chip l (hacks h), hlen, if_true]

theorem writeOf_burst (chip : ChipAddr) (a : RegAddr) (data : List Byte) (h : 2 ≤ data.length) :
    writeOf chip a data = .ok (chip, .writeRegisterBurst a data) := by
  match data, h with
  | _ :: _ :: _, _ => rfl

theorem readOf_burst (chip : ChipAddr) (a : RegAddr) (n : Nat) (h : 2 ≤ n) :
    readOf chip a n = .ok (chip, .readRegisterBurst a n (List.replicate n 0) 0) := by
  rw [readOf, if_neg (by omega), if_neg (by omega)]

end Sys2Proof

namespace Sys2Proof.Machine

open Sys2Proof

/-! ## Obligations on the two codings -/

/-- Settles O2: the operands are taken off in the order they were put. -/
theorem callRecordRoundTrip : Obligations.CallRecordRoundTrip := decode_encode

/-- Settles O3: each operand is what was put for it, and nothing is left over. -/
theorem callRecordUnique : Obligations.CallRecordUnique := fun _ _ => encode_of_decode

/-- Settles O4: a frame decodes to what its register and its data, or the number of bytes read, stand for. -/
theorem frameRoundTrip : Obligations.FrameRoundTrip := by
  refine ⟨fun chip a v => decodeFrame_frameWrite chip a [v], fun chip a data h => ?_,
    fun chip a v => decodeFrame_frameRead chip a [v] (List.cons_ne_nil v []), fun chip a data h => ?_⟩
  · rw [decodeFrame_frameWrite, writeOf_burst chip a data h]
  · rw [decodeFrame_frameRead chip a data (List.ne_nil_of_length_pos (by omega)), readOf_burst chip a _ h]

/-- Settles O1: the records are those of their operations, the frames those of R66 and R67. -/
theorem decodedWords : Obligations.DecodedWords :=
  ⟨decode_encode .start rfl, decode_encode (.writeByte 0xA5) rfl, decode_encode .slaveAck rfl,
    decode_encode (.writeRegister 0x01 0x0F) rfl, decode_encode (.readRegister 0x37) rfl,
    decode_encode (.writeRegisterBurst 0x09 [0x93, 0x20]) rfl,
    decode_encode (.readRegisterBurst 0x09 1 [0x0B, 0x00] 4) rfl, decode_encode .antennaOn rfl,
    decode_encode (.calculateCRC [0x93, 0x20]) rfl,
    decode_encode (.communicate 0xC 0x30 [0x26] (some 7) (some [0x00, 0x00]) 0 false) rfl,
    decode_encode (.transceive [0x30] none none 2 true) rfl, decode_encode .requestA rfl,
    decode_encode .discoverUid rfl, rfl, decodeFrame_frameWrite 0x28 0x01 [0x0F],
    decodeFrame_frameRead 0x28 0x37 [0x92] (List.cons_ne_nil _ _)⟩

/-- Settles O46, by the three branches of `step`. -/
theorem stepRunsDecodedCall : Obligations.StepRunsDecodedCall := by
  refine ⟨fun s record later i hc hd => ?_, fun s hc => ?_, fun s record later why hc hd => ?_⟩
  · simp only [step, hc, hd]
  · simp only [step, hc]
  · simp only [step, hc, hd]

end Sys2Proof.Machine
end

section
/-! PROOFS. The family of 30_encoding.md, the lines: what a receiver decodes from a register operation is its frame, or the
frame cut short at a missing acknowledge (R66 to R70). -/

namespace Sys2Proof.Machine

open Sys2Proof

/-! ## What a register operation shows on the lines (R66 to R70) -/

/-- What a receiver decodes from the line actions between two buses. -/
def shown (b b' : Bus) : List WireSym := symbolsFrom b (newActions b b')

theorem Did.shown_eq {Q : Receiver → Prop} {b b' : Bus} {l : List LineAction} {ws : List WireSym} (hd : Did b l b')
    (hs : Shows (· = Receiver.at b) Q l ws) : shown b b' = ws := by
  rw [shown, hd.newActions, hs.symbols]

theorem leadSymbols_of_idle {b : Bus} (h : BusIdle b) : leadSymbols b = [] := by
  obtain ⟨hscl, hdir, hlvl⟩ := h
  simp [leadSymbols, Bus.dataLevel, hdir, hlvl]

theorem ackFailStatus_ne_ok (c : Config) : ackFailStatus c ≠ .ok := by
  rw [ackFailStatus]
  split <;> nofun

/-- A write-direction transaction of `bytes` cut short: the bytes up to one that is not acknowledged, its acknowledge slot
reading 1, and the abort (R70, 41_register_access.md R114). -/
def CutShort (c : Config) (bytes : List Byte) (b b' : Bus) : Prop :=
  ∃ pre w post, bytes = pre ++ w :: post ∧ shown b b' = leadSymbols b ++ (.start :: (wireAcked pre ++
    (wireByte w true ++ if c.abortStop then [.stop] else [])))

/-- A read cut short in its first transaction, or in its second after the address byte (R70). -/
def ReadCutShort (c : Config) (a : RegAddr) (b b' : Bus) : Prop :=
  CutShort c [addrW c.chipAddr, regByte a] b b' ∨
    shown b b' = leadSymbols b ++ (frameWrite c.chipAddr a [] ++ (.start ::
      (wireByte (addrR c.chipAddr) true ++ if c.abortStop then [.stop] else [])))

/-- From `b` to `b'` a write of `data` to register `a` ended with `r`: with OK its frame is on the wire, with another
status the frame cut short. -/
structure WriteShown (c : Config) (a : RegAddr) (data : List Byte) (b : Bus) (r : Res Unit) (b' : Bus) : Prop where
  completed : r.status = .ok → shown b b' = leadSymbols b ++ frameWrite c.chipAddr a data
  aborted : r.status ≠ .ok → CutShort c (addrW c.chipAddr :: regByte a :: data) b b'

/-- From `b` to `b'` a read of `n` bytes from register `a` ended with `r`: with OK its frame is on the wire, carrying the
bytes the result is made of, with another status the frame cut short. -/
structure ReadShown {α : Type} (f : List Byte → α) (c : Config) (a : RegAddr) (n : Nat) (b : Bus) (r : Res α) (b' : Bus) :
    Prop where
  completed : r.status = .ok → ∃ bytes, r = .ok (f bytes) ∧ bytes.length = n ∧
    shown b b' = leadSymbols b ++ frameRead c.chipAddr a bytes
  aborted : r.status ≠ .ok → ReadCutShort c a b b'

theorem writeFrameOnBus_shown (c : Config) (a : RegAddr) (data : List Byte) (b : Bus) :
    WriteShown c a data b (writeFrameOnBus c a data b).1 (writeFrameOnBus c a data b).2 := by
  obtain ⟨_, hr, -⟩ | ⟨_, hr, -⟩ := writeFrameOnBus_cases c a data b
  · obtain ⟨l, hd, hs⟩ := writeFrameOnBus_shows c a data b _ _ (start_shows c b) hr
    refine ⟨fun _ => ?_, fun h => absurd (congrArg Res.status hr) h⟩
    rw [hd.shown_eq hs, List.append_assoc]
    rfl
  · obtain ⟨l, pre, w, post, he, hd, hs⟩ := writeFrameOnBus_shows_err c a data b _ _ (start_shows c b) _ hr
    refine ⟨fun h => absurd ((congrArg Res.status hr).symm.trans h) (ackFailStatus_ne_ok c),
      fun _ => ⟨pre, w, post, he, ?_⟩⟩
    rw [hd.shown_eq hs, List.append_assoc]
    rfl

theorem readFrameOnBus_shown (c : Config) (a : RegAddr) (n : Nat) (b : Bus) :
    ReadShown id c a n b (readFrameOnBus c a n b).1 (readFrameOnBus c a n b).2 := by
  obtain ⟨bytes, _, hlen, hr, -⟩ | ⟨_, hr, -⟩ := readFrameOnBus_cases c a n b
  · obtain ⟨l, hd, hs⟩ := readFrameOnBus_shows c a n b bytes hr
    exact ⟨fun _ => ⟨bytes, hr, hlen, hd.shown_eq hs⟩, fun h => absurd (congrArg Res.status hr) h⟩
  · obtain ⟨l, ws, hd, hs, hws⟩ := readFrameOnBus_shows_err c a n b _ hr
    refine ⟨fun h => absurd ((congrArg Res.status hr).symm.trans h) (ackFailStatus_ne_ok c), fun _ => ?_⟩
    rw [ReadCutShort, CutShort, hd.shown_eq hs]
    obtain ⟨pre, w, post, he, rfl⟩ | rfl := hws
    · exact .inl ⟨pre, w, post, he, rfl⟩
    · exact .inr rfl

/-! The register operations record an event, which no line shows. -/

theorem writeRegister_shown (c : Config) (a : RegAddr) (v : Byte) (b : Bus) :
    WriteShown c a [v] b (writeRegister c a v b).1 (writeRegister c a v b).2 := by
  have h := writeFrameOnBus_shown c a [v] b
  rw [writeRegister]
  split <;> rename_i e <;> rw [e] at h <;> exact ⟨h.completed, h.aborted⟩

theorem writeRegisterBurst_shown (c : Config) (a : RegAddr) (data : List Byte) (b : Bus) (hd : data ≠ []) :
    WriteShown c a data b (writeRegisterBurst c a data b).1 (writeRegisterBurst c a data b).2 := by
  have h := writeFrameOnBus_shown c a data b
  rw [writeRegisterBurst, if_neg hd]
  split <;> rename_i e <;> rw [e] at h <;> exact ⟨h.completed, h.aborted⟩

theorem readRegister_shown (c : Config) (a : RegAddr) (b : Bus) :
    ReadShown (List.headD · 0) c a 1 b (readRegister c a b).1 (readRegister c a b).2 := by
  have h := readFrameOnBus_shown c a 1 b
  rw [readRegister]
  split <;> rename_i e <;> rw [e] at h
  · obtain ⟨bytes, hr, hbytes⟩ := h.completed rfl
    cases hr
    exact ⟨fun _ => ⟨bytes, rfl, hbytes⟩, h.aborted⟩
  · exact ⟨fun hok => (nomatch h.completed hok), h.aborted⟩

theorem readRegisterBurst_shown (c : Config) (a : RegAddr) (n : Nat) (b : Bus) (hn : n ≠ 0) :
    ReadShown id c a n b (readRegisterBurst c a n b).1 (readRegisterBurst c a n b).2 := by
  have h := readFrameOnBus_shown c a n b
  rw [readRegisterBurst, if_neg hn]
  split <;> rename_i e <;> rw [e] at h <;> exact ⟨h.completed, h.aborted⟩

/-- A burst read that ends with `bytes` has recorded them (41_register_access.md R116). -/
theorem readRegisterBurst_events_ok {c : Config} {a : RegAddr} {n : Nat} {b : Bus} {bytes : List Byte} (hn : n ≠ 0)
    (h : (readRegisterBurst c a n b).1 = .ok bytes) :
    (readRegisterBurst c a n b).2.events = .rdb a n (some bytes) :: b.events := by
  obtain ⟨r, -, hr, he, -⟩ := readRegisterBurst_cases c a n b hn
  rw [h] at hr
  cases r <;> cases hr
  exact he

/-! ## What the caller is answered -/

theorem exec_writeRegister {a : RegAddr} {v : Byte} {s t : State} (h : exec (.writeRegister a v) s = .next t) :
    t = s.finish (writeRegister s.cfg a v s.bus).2 ((writeRegister s.cfg a v s.bus).1.answer fun _ => .empty) := by
  cases h; rfl

theorem exec_writeRegisterBurst {a : RegAddr} {data : List Byte} {s t : State}
    (h : exec (.writeRegisterBurst a data) s = .next t) :
    t = s.finish (writeRegisterBurst s.cfg a data s.bus).2
      ((writeRegisterBurst s.cfg a data s.bus).1.answer fun _ => .empty) := by cases h; rfl

theorem exec_readRegister {a : RegAddr} {s t : State} (h : exec (.readRegister a) s = .next t) :
    t = s.finish (readRegister s.cfg a s.bus).2 ((readRegister s.cfg a s.bus).1.answer .byte) := by cases h; rfl

/-- The answer of a burst read: the buffer with the bytes read merged into it, or untouched (R113). -/
def burstAnswer (r : Bits3) (buf : List Byte) : Res (List Byte) → Answer
  | .ok bytes => .status .ok (.buffer (storeBurst r buf bytes))
  | .err st => .status st (.buffer buf)

theorem exec_readRegisterBurst {a : RegAddr} {n : Nat} {buf : List Byte} {r : Bits3} {s t : State}
    (h : exec (.readRegisterBurst a n buf r) s = .next t) :
    t = s.finish (readRegisterBurst s.cfg a n s.bus).2 (burstAnswer r buf (readRegisterBurst s.cfg a n s.bus).1) := by
  rw [exec, execReadRegisterBurst] at h
  split at h
  · split at h <;> rename_i e <;> cases h <;> rw [show readRegisterBurst s.cfg a n s.bus = _ from e] <;> rfl
  · cases h

/-! The status answered is the one the operation ended with (60_exceptions.md R190). -/

theorem Res.status_of_answer {α : Type} {r : Res α} {f : α → Value} {st : Status} {x : Value}
    (h : some (r.answer f) = some (.status st x)) : r.status = st := by
  cases r <;> cases h <;> rfl

theorem Res.status_ne_ok_of_answer {r : Res Unit} (h : some (r.answer fun _ => .empty) ≠ some (.status .ok .empty)) :
    r.status ≠ .ok := by
  cases r with
  | ok u => exact absurd rfl h
  | err st => exact fun hst => h (congrArg (fun st => some (Answer.status st .empty)) hst)

theorem status_of_burstAnswer {r : Bits3} {buf : List Byte} {res : Res (List Byte)} {st : Status} {x : Value}
    (h : some (burstAnswer r buf res) = some (.status st x)) : res.status = st := by
  cases res <;> cases h <;> rfl

/-! ## The frames, bit by bit -/

theorem frameWrite_single (chip : ChipAddr) (a : RegAddr) (v : Byte) : frameWrite chip a [v] =
    .start :: ((byteBits (addrW chip) ++ [false] ++ byteBits (regByte a) ++ [false] ++ byteBits v ++ [false]).map .bit ++
      [.stop]) := rfl

theorem frameRead_single (chip : ChipAddr) (a : RegAddr) (v : Byte) : frameRead chip a [v] =
    .start :: ((byteBits (addrW chip) ++ [false] ++ byteBits (regByte a) ++ [false]).map .bit ++ (.stop :: .start ::
      ((byteBits (addrR chip) ++ [false] ++ byteBits v ++ [true]).map .bit ++ [.stop]))) := rfl

/-! ## The obligations on the wire -/

/-- Settles O5: OK leaves the write frame on the wire, written out bit by bit. -/
theorem writeRegisterFrameOnWire : Obligations.WriteRegisterFrameOnWire := by
  intro a v s t h ha
  obtain rfl := exec_writeRegister h
  have hw := (writeRegister_shown s.cfg a v s.bus).completed (Res.status_of_answer ha)
  exact ⟨_, rfl, rfl, hw.trans (congrArg _ (frameWrite_single _ _ _)), leadSymbols_of_idle⟩

/-- Settles O6: OK leaves the read frame of one byte on the wire, and that byte is the answer. -/
theorem readRegisterFrameOnWire : Obligations.ReadRegisterFrameOnWire := by
  intro a v s t h ha
  obtain rfl := exec_readRegister h
  obtain ⟨bytes, hr, hlen, hw⟩ := (readRegister_shown s.cfg a s.bus).completed (Res.status_of_answer ha)
  obtain ⟨w, rfl⟩ := List.length_eq_one_iff.1 hlen
  rw [hr] at ha
  cases ha
  exact ⟨_, _, rfl, rfl, rfl, rfl, hw.trans (congrArg _ (frameRead_single _ _ _)), leadSymbols_of_idle⟩

/-- Settles O7: OK leaves the frame of all bytes on the wire; those of a read are the ones its event records. -/
theorem burstFramesOnWire : Obligations.BurstFramesOnWire := by
  refine ⟨fun a data s t hd h ha => ?_, fun a n buf out r s t hn h ha => ?_⟩
  · obtain rfl := exec_writeRegisterBurst h
    exact (writeRegisterBurst_shown s.cfg a data s.bus hd).completed (Res.status_of_answer ha)
  · obtain rfl := exec_readRegisterBurst h
    obtain ⟨bytes, hr, hlen, hw⟩ := (readRegisterBurst_shown s.cfg a n s.bus hn).completed (status_of_burstAnswer ha)
    exact ⟨bytes, hlen, readRegisterBurst_events_ok hn hr, hw⟩

/-- Settles O8: a status other than OK leaves the frame cut short. -/
theorem abortedFrameOnWire : Obligations.AbortedFrameOnWire := by
  refine ⟨fun a v s t h ha => ?_, fun a data s t hd h ha => ?_, fun a s t st x h hst ha => ?_,
    fun a n buf r s t st x hn h hst ha => ?_⟩
  · obtain rfl := exec_writeRegister h
    exact (writeRegister_shown s.cfg a v s.bus).aborted (Res.status_ne_ok_of_answer ha)
  · obtain rfl := exec_writeRegisterBurst h
    exact (writeRegisterBurst_shown s.cfg a data s.bus hd).aborted (Res.status_ne_ok_of_answer ha)
  · obtain rfl := exec_readRegister h
    exact (readRegister_shown s.cfg a s.bus).aborted (Res.status_of_answer ha ▸ hst)
  · obtain rfl := exec_readRegisterBurst h
    exact (readRegisterBurst_shown s.cfg a n s.bus hn).aborted (status_of_burstAnswer ha ▸ hst)

end Sys2Proof.Machine
end

section
/-! PROOFS. The family of 40_bus_primitives.md: the bus after each of the seven primitives, from any line state, and
reading back what was written (R90 to R99). -/

namespace Sys2Proof.Machine

open Sys2Proof

/-! ## Fixed sequences (R90 to R92, R94, R95) -/

/-- Line actions move the lines and the trace only, so the lines they leave determine the bus. -/
theorem Bus.acts_eq {b : Bus} {l : List LineAction} {v w : Level} {d : SdaDir}
    (h : (b.acts l).scl = v ∧ (b.acts l).sdaDir = d ∧ (b.acts l).sdaLvl = w) :
    b.acts l = { b with scl := v, sdaDir := d, sdaLvl := w, trace := l.reverse ++ b.trace } := by
  obtain ⟨rfl, rfl, rfl⟩ := h
  rw [← b.acts_samples l, ← b.acts_events l, ← b.acts_trace l]

theorem masterAckSeq_lines (c : Config) (v : Level) (b : Bus) :
    (b.acts (masterAckSeq c v)).scl = false ∧ (b.acts (masterAckSeq c v)).sdaDir = .out ∧
      (b.acts (masterAckSeq c v)).sdaLvl = v := ⟨rfl, rfl, rfl⟩

/-- Handing over a bus, in the form the statements give the next state: the bus written out as `b'`. -/
theorem next_finish_congr (s : State) (a : Answer) {b b' : Bus} (h : b = b') :
    (.next (s.finish b a) : Outcome) = .next { s with bus := b', answer := some a } := h ▸ rfl

theorem bitCells_length (c : Config) (bits : List Level) : (bits.flatMap (bitCell c)).length = bits.length * 5 := by
  simp [List.length_flatMap, bitCell]

theorem minMicros_append (l m : List LineAction) : minMicros (l ++ m) = minMicros l + minMicros m := by simp [minMicros]

theorem minMicros_bitCell (c : Config) (v : Level) : minMicros (bitCell c v) = 2 * c.tHold := by
  simp [minMicros, bitCell, actionMicros, Nat.two_mul]

theorem minMicros_bitCells (c : Config) (bits : List Level) :
    minMicros (bits.flatMap (bitCell c)) = 2 * bits.length * c.tHold := by
  induction bits with
  | nil => simp [minMicros]
  | cons v bits ih => rw [List.flatMap_cons, minMicros_append, minMicros_bitCell, ih, List.length_cons]; ring

/-! ## Reading a byte (R93) -/

/-- The next `n` answers of the oracle `l`, 1 when it is used up (log 4). -/
def nextSamples (n : Nat) (l : List Level) : List Level := (l ++ List.replicate n true).take n

theorem nextSamples_length (n : Nat) (l : List Level) : (nextSamples n l).length = n := by simp [nextSamples]

theorem nextSamples_succ (n : Nat) (l : List Level) : nextSamples (n + 1) l = l.headD true :: nextSamples n l.tail := by
  cases l with
  | nil => simp [nextSamples, List.replicate_succ]
  | cons v l =>
    rw [nextSamples, nextSamples, List.replicate_succ', ← List.append_assoc, List.take_append_of_le_length (by simp)]
    rfl

/-- The line actions of one bit of `readByte` that reads `v` (R93). -/
def readCell (c : Config) (v : Level) : List LineAction :=
  [.sclDrive false, .hold c.tRdLow, .sclDrive true, .hold c.tRdHigh, .sdaSample v, .hold c.tHold]

theorem readBits_succ (c : Config) (n : Nat) (acc : Byte) (b : Bus) :
    readBits c (n + 1) acc b = readBits c n (shiftIn acc (b.samples.headD true)) { b with
      scl := true, samples := b.samples.tail
      trace := (readCell c (b.samples.headD true)).reverse ++ b.trace } := rfl

/-- The bit loop, for every oracle: it takes the next `n` answers, one cell each, and ends with the clock high (R93). -/
theorem readBits_eq (c : Config) (n : Nat) (acc : Byte) (b : Bus) :
    readBits c n acc b = ((nextSamples n b.samples).foldl shiftIn acc, { b with
      scl := if n = 0 then b.scl else true, samples := b.samples.drop n
      trace := ((nextSamples n b.samples).flatMap (readCell c)).reverse ++ b.trace }) := by
  induction n generalizing acc b with
  | zero => rfl
  | succ n ih => rw [readBits_succ, ih, nextSamples_succ]; simp

theorem readByte_eq (c : Config) (b : Bus) :
    readByte c b = (byteOfBits (nextSamples 8 b.samples), { b with
      scl := true, sdaDir := .inp, samples := b.samples.drop 8
      trace := (.sdaRelease :: (nextSamples 8 b.samples).flatMap (readCell c)).reverse ++ b.trace }) := by
  rw [readByte, readBits_eq, List.reverse_cons, List.append_assoc]
  rfl

/-! ## The acknowledge slot (R96) -/

/-- The poll actions of samples that read 1, in order, are the newest first ones reversed. -/
theorem polls_reverse (c : Config) (n : Nat) :
    (List.replicate n [LineAction.sdaSample true, .hold c.tAckPoll]).flatten.reverse =
      (List.replicate n [LineAction.hold c.tAckPoll, .sdaSample true]).flatten := by
  simp [List.reverse_flatten]

/-- The acknowledged slot: `ackPoll_acked` between the release and the fall of the clock. -/
theorem slaveAck_acked (c : Config) (j : Nat) (b : Bus) (rest : List Level) (hj : j < c.ackPollMax)
    (h : b.samples = List.replicate j true ++ false :: rest) :
    slaveAck c b = (true, { b with
      scl := false, sdaDir := .inp, samples := rest
      trace := ([LineAction.sdaRelease, .sclDrive true] ++
        (List.replicate j [LineAction.sdaSample true, .hold c.tAckPoll]).flatten ++
          [LineAction.sdaSample false, .sclDrive false]).reverse ++ b.trace }) := by
  rw [slaveAck, ackPoll_acked c _ j _ rest (by simpa using h) hj, List.reverse_append, List.reverse_append,
    polls_reverse]
  simp [Bus.acts, Bus.act]

/-- The missed slot: `ackPoll_missed` between the release and the fall of the clock. -/
theorem slaveAck_missed (c : Config) (b : Bus) (rest : List Level)
    (h : b.samples = List.replicate c.ackPollMax true ++ rest) :
    slaveAck c b = (false, { b with
      scl := false, sdaDir := .inp, samples := rest
      trace := ([LineAction.sdaRelease, .sclDrive true] ++
        (List.replicate c.ackPollMax [LineAction.sdaSample true, .hold c.tAckPoll]).flatten ++
          [LineAction.sclDrive false]).reverse ++ b.trace }) := by
  rw [slaveAck, ackPoll_missed c _ _ rest (by simpa using h), List.reverse_append, List.reverse_append, polls_reverse]
  simp [Bus.acts, Bus.act]

/-! ## What a primitive answers -/

theorem exec_readByte (s : State) :
    exec .readByte s = .next (s.finish (readByte s.cfg s.bus).2 (.byte (readByte s.cfg s.bus).1)) := rfl

theorem exec_slaveAck (s : State) :
    exec .slaveAck s = .next (s.finish (slaveAck s.cfg s.bus).2 (.flag (slaveAck s.cfg s.bus).1)) := rfl

/-- With the clock low at entry a receiver decodes the eight wire bits and nothing else (R60, R92). -/
theorem symbols_writeByte {v : Byte} {s t : State} (hscl : s.bus.scl = false) (h : exec (.writeByte v) s = .next t) :
    symbolsFrom s.bus (newActions s.bus t.bus) = (byteBits v).map .bit := by
  have hdid : Did s.bus (writeByteSeq s.cfg v) t.bus := by rw [exec_primitive_bus rfl h]; exact writeByte_trace _ _ _
  rw [hdid.newActions]
  refine Shows.symbols (Q := Low) ?_
  rintro _ rfl
  exact writeByte_shows s.cfg v _ ⟨hscl, rfl⟩

/-! ## The obligations -/

/-- Settles O9: six fixed actions, and the lines they leave. -/
theorem startAndStop : Obligations.StartAndStop :=
  ⟨fun s => next_finish_congr s .done (Bus.acts_eq (start_lines s.cfg s.bus)),
    fun s => next_finish_congr s .done (Bus.acts_eq (stop_idle s.cfg s.bus))⟩

/-- Settles O12: `masterAckSeq` with 0 and with 1. -/
theorem masterAckRules : Obligations.MasterAckRules :=
  ⟨fun s => next_finish_congr s .done (Bus.acts_eq (masterAckSeq_lines s.cfg false s.bus)),
    fun s => next_finish_congr s .done (Bus.acts_eq (masterAckSeq_lines s.cfg true s.bus))⟩

/-- Settles O10: the sequence is a bit cell for each of the eight wire bits. -/
theorem writeByteRule : Obligations.WriteByteRule := fun v s =>
  ⟨writeByteSeq s.cfg v, rfl, bitCells_length s.cfg (byteBits v), minMicros_bitCells s.cfg (byteBits v),
    next_finish_congr s .done (Bus.acts_eq (writeByte_lines s.cfg v s.bus))⟩

/-- Settles O11: the byte is the one whose wire bits are the next eight answers. -/
theorem readByteRule : Obligations.ReadByteRule := by
  intro s
  refine ⟨byteOfBits (nextSamples 8 s.bus.samples), nextSamples 8 s.bus.samples, rfl,
    byteBits_byteOfBits _ (nextSamples_length _ _), ?_⟩
  rw [exec_readByte, readByte_eq]
  rfl

/-- Settles O13: the two outcomes of the acknowledge slot. -/
theorem slaveAckRule : Obligations.SlaveAckRule := by
  refine ⟨fun s j rest hj h => ?_, fun s rest h => ?_⟩
  · rw [exec_slaveAck, slaveAck_acked s.cfg j s.bus rest hj h]
    rfl
  · rw [exec_slaveAck, slaveAck_missed s.cfg s.bus rest h]
    rfl

/-- Settles O14: the receiver decodes the wire bits of the byte, and reading them back gives the byte. -/
theorem readInvertsWrite : Obligations.ReadInvertsWrite := by
  intro b s t u levels hscl h hlevels rest hu
  have hbits : levels = byteBits b :=
    List.map_injective_iff.2 (fun _ _ => WireSym.bit.inj) (hlevels.symm.trans (symbols_writeByte hscl h))
  obtain ⟨bus, hread, hrest⟩ := readByte_bits u.cfg b u.bus rest (hbits ▸ hu)
  exact ⟨bus, by rw [exec_readByte, hread]; rfl, hrest⟩

end Sys2Proof.Machine
end

section
/-! PROOFS. The family of 41_register_access.md: how a register operation ends when the slave brings its event about,
acknowledged throughout or not (R110 to R115), and the samples behind the events of any operation (R116). -/

namespace Sys2Proof.Machine

open Sys2Proof

/-! ## The lines an event leaves (R114, 70_reset_and_hazards.md R222) -/

/-- The lines after a register operation whose event was `e`: the idle bus, or, when `e` failed, those of an abort. -/
def LinesAfter (c : Config) (e : RegEvent) (b : Bus) : Prop :=
  match e.failed with
  | false => BusIdle b
  | true => Aborted c b

theorem writeRegister_linesAfter {c : Config} {a : RegAddr} {v : Byte} {acked : Bool} {b b' : Bus}
    (h : writeRegister c a v b = (writeOutcome c acked, b')) : LinesAfter c (.wr a v acked) b' := by
  obtain ⟨hidle, habort⟩ := writeRegister_lines c a v b b' _ h
  cases acked with
  | true => exact hidle rfl
  | false => exact habort nofun

theorem writeRegisterBurst_linesAfter {c : Config} {a : RegAddr} {bytes : List Byte} {acked : Bool} {b b' : Bus}
    (hb : bytes ≠ []) (h : writeRegisterBurst c a bytes b = (writeOutcome c acked, b')) :
    LinesAfter c (.wrb a bytes acked) b' := by
  obtain ⟨hidle, habort⟩ := writeRegisterBurst_lines c a bytes b b' _ hb h
  cases acked with
  | true => exact hidle rfl
  | false => exact habort nofun

theorem readRegister_linesAfter {c : Config} {a : RegAddr} {r : Option Byte} {b b' : Bus}
    (h : readRegister c a b = (readOutcome c r, b')) : LinesAfter c (.rd a r) b' := by
  obtain ⟨hidle, habort⟩ := readRegister_lines c a b b' _ h
  cases r with
  | some v => exact hidle v rfl
  | none => exact habort _ rfl

theorem readRegisterBurst_linesAfter {c : Config} {a : RegAddr} {n : Nat} {r : Option (List Byte)} {b b' : Bus}
    (hn : n ≠ 0) (h : readRegisterBurst c a n b = (readOutcome c r, b')) : LinesAfter c (.rdb a n r) b' := by
  obtain ⟨hidle, habort⟩ := readRegisterBurst_lines c a n b b' _ hn h
  cases r with
  | some bytes => exact hidle bytes rfl
  | none => exact habort _ rfl

/-! ## The next state, from how the run on the lines ends -/

/-- The next state of an operation that answers with the result of its run. -/
def nextOf {α : Type} (s : State) (f : Res α → Answer) (x : Res α × Bus) : Outcome := .next (s.finish x.2 (f x.1))

theorem exec_writeRegister_eq (a : RegAddr) (v : Byte) (s : State) :
    exec (.writeRegister a v) s = nextOf s (Res.answer fun _ => .empty) (writeRegister s.cfg a v s.bus) := rfl

theorem exec_readRegister_eq (a : RegAddr) (s : State) :
    exec (.readRegister a) s = nextOf s (Res.answer .byte) (readRegister s.cfg a s.bus) := rfl

theorem exec_writeRegisterBurst_eq (a : RegAddr) (bytes : List Byte) (s : State) :
    exec (.writeRegisterBurst a bytes) s =
      nextOf s (Res.answer fun _ => .empty) (writeRegisterBurst s.cfg a bytes s.bus) := rfl

theorem exec_readRegisterBurst_eq {n : Nat} {buf : List Byte} (a : RegAddr) (r : Bits3) (s : State)
    (hn : n ≤ buf.length) :
    exec (.readRegisterBurst a n buf r) s = nextOf s (burstAnswer r buf) (readRegisterBurst s.cfg a n s.bus) := by
  rw [exec, execReadRegisterBurst, if_pos hn]
  split <;> rename_i e <;> rw [show readRegisterBurst s.cfg a n s.bus = _ from e] <;> rfl

theorem exec_setBits_eq (a : RegAddr) (m : Byte) (s : State) :
    exec (.setBits a m) s = nextOf s (Res.answer fun _ => .empty) (runLine s.cfg (setBitsProg a m) s.bus) := rfl

theorem exec_clearBits_eq (a : RegAddr) (m : Byte) (s : State) :
    exec (.clearBits a m) s = nextOf s (Res.answer fun _ => .empty) (runLine s.cfg (clearBitsProg a m) s.bus) := rfl

/-! ## Register operations whose event the slave brings about (R110 to R114) -/

/-- From `s` the operation `i` is the one event `e`: it hands over `ans`, leaves the samples `rest` and the lines that `e`
leaves, and changes nothing else but the line trace. -/
def EndsAs (i : Instr) (s : State) (e : RegEvent) (rest : List Level) (ans : Answer) : Prop :=
  ∃ b, exec i s = .next (s.finish b ans) ∧ b.samples = rest ∧ b.events = e :: s.bus.events ∧ LinesAfter s.cfg e b

section Events
variable {a : RegAddr} {s : State} {l rest : List Level} (hs : s.bus.samples = l ++ rest)
include hs

theorem writeRegister_endsAs {v : Byte} (acked : Bool) (hl : Brings s.cfg [.wr a v acked] l) :
    EndsAs (.writeRegister a v) s (.wr a v acked) rest ((writeOutcome s.cfg acked).answer fun _ => .empty) := by
  obtain ⟨b, e, hrest, hev⟩ := writeRegister_event s.cfg a v acked s.bus l rest hl.single hs
  exact ⟨b, by rw [exec_writeRegister_eq, e]; rfl, hrest, hev, writeRegister_linesAfter e⟩

theorem readRegister_endsAs (r : Option Byte) (hl : Brings s.cfg [.rd a r] l) :
    EndsAs (.readRegister a) s (.rd a r) rest ((readOutcome s.cfg r).answer .byte) := by
  obtain ⟨b, e, hrest, hev⟩ := readRegister_event s.cfg a r s.bus l rest hl.single hs
  exact ⟨b, by rw [exec_readRegister_eq, e]; rfl, hrest, hev, readRegister_linesAfter e⟩

theorem writeRegisterBurst_endsAs {bytes : List Byte} (acked : Bool) (hb : bytes ≠ [])
    (hl : Brings s.cfg [.wrb a bytes acked] l) :
    EndsAs (.writeRegisterBurst a bytes) s (.wrb a bytes acked) rest
      ((writeOutcome s.cfg acked).answer fun _ => .empty) := by
  obtain ⟨b, e, hrest, hev⟩ := writeRegisterBurst_event s.cfg a bytes acked s.bus l rest hb hl.single hs
  exact ⟨b, by rw [exec_writeRegisterBurst_eq, e]; rfl, hrest, hev, writeRegisterBurst_linesAfter hb e⟩

theorem readRegisterBurst_endsAs {n : Nat} {buf : List Byte} {rxAlign : Bits3} (r : Option (List Byte)) (hn : n ≠ 0)
    (hbuf : n ≤ buf.length) (hr : (r.all fun bytes => bytes.length == n) = true)
    (hl : Brings s.cfg [.rdb a n r] l) :
    EndsAs (.readRegisterBurst a n buf rxAlign) s (.rdb a n r) rest (burstAnswer rxAlign buf (readOutcome s.cfg r)) := by
  obtain ⟨b, e, hrest, hev⟩ := readRegisterBurst_event s.cfg a n r s.bus l rest hn hr hl.single hs
  exact ⟨b, by rw [exec_readRegisterBurst_eq a rxAlign s hbuf, e]; rfl, hrest, hev, readRegisterBurst_linesAfter hn e⟩

/-! ## Programs whose events the slave brings about -/

/-- A program that ends in OK on the events `es`, run on the lines and answered without a value: it hands over
`STATUS_OK` and leaves the events recorded. -/
theorem runLine_completes {p : Prog (Res Unit)} {es : List RegEvent} (hp : runReg s.cfg p es = some (.ok (), []))
    (hl : Brings s.cfg es l) :
    ∃ b, nextOf s (Res.answer fun _ => .empty) (runLine s.cfg p s.bus) = .next (s.finish b (.status .ok .empty)) ∧
      b.samples = rest ∧ b.events = es.reverse ++ s.bus.events := by
  obtain ⟨b, e, hrest, hev⟩ := runLine_of_runReg s.cfg p s.bus es l rest _ hp hl hs
  exact ⟨b, by rw [e]; rfl, hrest, hev⟩

end Events

/-! ## The obligations -/

/-- Settles O54: every operation above the primitives is a run of its program on the lines, and a run takes the samples
that bring its events about. -/
theorem eventsMatchSamples : Obligations.EventsMatchSamples := by
  intro i s t hi h
  obtain ⟨α, p, hbus⟩ := exec_runs_program i s t hi h
  rw [hbus]
  obtain ⟨es, l, hev, hbrings, k, htook⟩ := runLine_brings s.cfg p s.bus
  exact ⟨es, l, k, hev, hbrings, htook⟩

/-- Settles O15: the acknowledged event of `writeRegister`. -/
theorem writeRegisterCompletes : Obligations.WriteRegisterCompletes :=
  fun _ _ _ _ _ hl hs => writeRegister_endsAs hs true hl

/-- Settles O16: the completed event of `readRegister`. -/
theorem readRegisterCompletes : Obligations.ReadRegisterCompletes :=
  fun _ v _ _ _ hl hs => readRegister_endsAs hs (some v) hl

/-- Settles O17: the acknowledged event of `writeRegisterBurst`; without a byte to send its run is empty. -/
theorem writeBurstCompletes : Obligations.WriteBurstCompletes :=
  ⟨fun _ _ _ _ _ hb hl hs => writeRegisterBurst_endsAs hs true hb hl, fun _ _ => rfl⟩

/-- Settles O18: the completed event of `readRegisterBurst`, whose bytes `storeBurst` merges; with `n = 0` its run is
empty. -/
theorem readBurstCompletes : Obligations.ReadBurstCompletes := by
  refine ⟨fun a bytes buf r s l rest hb hbuf hl hs => ?_, fun a buf r s => ?_⟩
  · obtain ⟨b, e, hafter⟩ := readRegisterBurst_endsAs (rxAlign := r) hs (some bytes) (by simpa using hb) hbuf (by simp) hl
    exact ⟨b, _, e, storeBurst_merged r buf bytes hbuf, hafter⟩
  · rw [exec_readRegisterBurst_eq a r s (Nat.zero_le _)]
    rfl

/-- Settles O19: the failed event of each of the four register operations. -/
theorem missingAcknowledge : Obligations.MissingAcknowledge := by
  intro s l rest hs
  rw [← ackFailStatus_eq]
  exact ⟨fun _ _ hl => writeRegister_endsAs hs false hl, fun _ hl => readRegister_endsAs hs none hl,
    fun _ _ hb hl => writeRegisterBurst_endsAs hs false hb hl,
    fun _ _ _ _ hn hbuf hl => readRegisterBurst_endsAs hs none hn hbuf rfl hl⟩

/-- Settles O20: each helper ends in OK on its read and its write. -/
theorem readModifyWrite : Obligations.ReadModifyWrite := by
  refine fun a m v s l rest hs => ⟨fun hl => ?_, fun hl => ?_⟩
  · rw [exec_setBits_eq]
    exact runLine_completes hs (runReg_setBits s.cfg a m v []) hl
  · rw [exec_clearBits_eq]
    exact runLine_completes hs (runReg_clearBits s.cfg a m v []) hl

end Sys2Proof.Machine
end

section
/-! PROOFS. The family of 42_reader_control.md, completions: what an operation hands over once the slave has brought the
event sequence of its row about (R130 to R147), and the calls that are refused (R146, 60_exceptions.md R203). -/

namespace Sys2Proof.Machine

open Sys2Proof

/-! ## The next state, from how the run on the lines ends -/

/-- The next state of an operation that answers with what its run ends with. -/
def nextFrom {α : Type} (s : State) (f : α → Answer) (x : α × Bus) : Outcome := .next (s.finish x.2 (f x.1))

/-- The answer of `communicate` and `transceive`: the status, with the outputs stored by then (R145). -/
def exchangeAnswer (valid : Option Bits3) (x : Status × Option Reply) : Answer := .status x.1 (replyValue valid x.2)

theorem exec_antennaOn_eq (s : State) :
    exec .antennaOn s = nextOf s (Res.answer fun _ => .empty) (runLine s.cfg (antennaOnProg s.cfg) s.bus) := rfl

theorem exec_antennaOff_eq (s : State) :
    exec .antennaOff s = nextOf s (Res.answer fun _ => .empty) (runLine s.cfg (antennaOffProg s.cfg) s.bus) := rfl

theorem exec_softReset_eq (s : State) :
    exec .softReset s = nextOf s (Res.answer fun _ => .empty) (runLine s.cfg (softResetProg s.cfg) s.bus) := rfl

theorem exec_init_eq (s : State) :
    exec .init s = nextOf s (Res.answer fun _ => .empty) (runLine s.cfg (initProg s.cfg) s.bus) := rfl

theorem exec_calculateCRC_eq {data : List Byte} {s : State} (hdata : data.length ≤ s.cfg.fifoSize) :
    exec (.calculateCRC data) s =
      nextFrom s (Res.answer fun crc => .crc crc.1 crc.2) (runLine s.cfg (calculateCRCProg s.cfg data) s.bus) := by
  rw [exec, execCalculateCRC, if_pos hdata]; rfl

section Exchange
variable {command : CmdCode} {mask : Byte} {send : List Byte} {valid : Option Bits3} {recv : Option (List Byte)}
  {r : Bits3} {crc : Bool} {s : State}

theorem exec_communicate_eq (hcmd : command = s.cfg.cmd.transceive ∨ command = s.cfg.cmd.receive)
    (hsend : send.length ≤ s.cfg.fifoSize) :
    exec (.communicate command mask send valid recv r crc) s = nextFrom s (exchangeAnswer valid)
      (runLine s.cfg (communicateProg s.cfg command mask send valid recv r crc) s.bus) := by
  rw [exec, execCommunicate, if_pos hcmd, if_pos hsend]; rfl

/-! ## Refused calls (R146) -/

theorem exec_communicate_tooLong (hcmd : command = s.cfg.cmd.transceive ∨ command = s.cfg.cmd.receive)
    (hsend : s.cfg.fifoSize < send.length) :
    exec (.communicate command mask send valid recv r crc) s = .refused (.longerThanFifo send.length) := by
  rw [exec, execCommunicate, if_pos hcmd, if_neg (by omega)]

theorem exec_communicate_otherCode (ht : command ≠ s.cfg.cmd.transceive) (hr : command ≠ s.cfg.cmd.receive) :
    exec (.communicate command mask send valid recv r crc) s = .refused (.commandCode command) := by
  rw [exec, execCommunicate, if_neg (not_or.2 ⟨ht, hr⟩)]

/-- `transceive` is `communicate` for a command code that is never refused (R147). -/
theorem exec_transceive_eq : exec (.transceive send valid recv r crc) s =
    exec (.communicate s.cfg.cmd.transceive s.cfg.waitMaskTransceive send valid recv r crc) s := by
  rw [exec, exec, execCommunicate, if_pos (.inl rfl)]; rfl

end Exchange

theorem exec_calculateCRC_tooLong {data : List Byte} {s : State} (hdata : s.cfg.fifoSize < data.length) :
    exec (.calculateCRC data) s = .refused (.longerThanFifo data.length) := by
  rw [exec, execCalculateCRC, if_neg (by omega)]

theorem exec_readRegisterBurst_tooShort {n : Nat} {buf : List Byte} (a : RegAddr) (r : Bits3) (s : State)
    (hbuf : buf.length < n) :
    exec (.readRegisterBurst a n buf r) s = .refused (.bufferTooShort buf.length n) := by
  rw [exec, execReadRegisterBurst, if_neg (by omega)]

theorem exec_select_badRecord {uid : Uid} (known : Nat) (s : State) (huid : uid.uidByte.length ≠ 10) :
    exec (.select uid known) s = .refused (.uidRecord uid.uidByte.length) := by
  rw [exec, execSelect, if_neg (by simpa [Uid.wf] using huid)]

/-! ## Only a missing acknowledge can fail (R140, R141) -/

/-- If an error, `ACK_FAIL_STATUS`. -/
def EndsAckFail {α : Type} (c : Config) (r : Res α) : Prop := ∀ st, r = .err st → st = ackFailStatus c

theorem read_leaves_ackFail (c : Config) (a : RegAddr) : (Prog.read a).Leaves c (EndsAckFail c) := by
  rintro (_ | v) _ ⟨⟩; rfl

theorem write_leaves_ackFail (c : Config) (a : RegAddr) (v : Byte) : (Prog.write a v).Leaves c (EndsAckFail c) := by
  rintro (_ | _) _ ⟨⟩; rfl

theorem done_leaves_ackFail {α : Type} (c : Config) (v : α) : (Prog.done v).Leaves c (EndsAckFail c) := by
  rintro _ ⟨⟩

theorem leaves_try_ackFail {α β : Type} {c : Config} {p : Prog (Res α)} {f : α → Prog (Res β)}
    (h : p.Leaves c (EndsAckFail c)) (hf : ∀ v, (f v).Leaves c (EndsAckFail c)) :
    (p.tryBind f).Leaves c (EndsAckFail c) :=
  h.tryBind (fun v _ => hf v) fun st hst => by rintro _ ⟨⟩; exact hst st rfl

/-- A read, then a write of the same register unless the value read needs none. -/
theorem update_leaves_ackFail (c : Config) (a : RegAddr) (settled : Byte → Bool) (f : Byte → Byte) :
    ((Prog.read a).tryBind fun v => if settled v then Prog.done () else Prog.write a (f v)).Leaves c (EndsAckFail c) :=
  leaves_try_ackFail (read_leaves_ackFail c a) fun v => by
    split
    · exact done_leaves_ackFail c ()
    · exact write_leaves_ackFail c a (f v)

theorem antennaOn_leaves (c : Config) : (antennaOnProg c).Leaves c (EndsAckFail c) :=
  update_leaves_ackFail c c.reg.txControl (antennaIsOn c) fun v => setMask v c.fld.antenna

theorem antennaOff_leaves (c : Config) : (antennaOffProg c).Leaves c (EndsAckFail c) :=
  update_leaves_ackFail c c.reg.txControl (antennaIsOff c) fun v => clearMask v c.fld.antenna

/-- A program that fails by a missing acknowledge only, run on the lines and answered without a value, answers
`STATUS_OK` or `ACK_FAIL_STATUS`. -/
theorem answer_ok_or_ackFail {p : Prog (Res Unit)} {s t : State} (hp : p.Leaves s.cfg (EndsAckFail s.cfg))
    (h : nextOf s (Res.answer fun _ => .empty) (runLine s.cfg p s.bus) = .next t) :
    t.answer = some (.status .ok .empty) ∨
      t.answer = some (.status (if s.cfg.ackFail = .error then .error else .timeout) .empty) := by
  rw [← ackFailStatus_eq]
  have hend := runLine_leaves hp s.bus
  cases h
  generalize (runLine s.cfg p s.bus).1 = res at hend
  cases res with
  | ok _ => exact .inl rfl
  | err st => exact .inr (by rw [hend st rfl]; rfl)

/-! ## The programs on their event sequences -/

/-- A program that ends in `v` on `es`, whatever events follow, ends so when none do. -/
theorem runReg_whole {α : Type} {c : Config} {p : Prog α} {es : List RegEvent} {v : α}
    (h : ∀ es', runReg c p (es ++ es') = some (v, es')) : runReg c p es = some (v, []) := by
  simpa using h []

theorem runReg_softReset (c : Config) (misses : List Byte) (last : Byte) (es : List RegEvent)
    (hn : misses.length < c.resetPollMax) (hm : ∀ v ∈ misses, v &&& c.fld.powerDown ≠ 0)
    (hl : last &&& c.fld.powerDown = 0) :
    runReg c (softResetProg c) (resetEvents c (misses ++ [last]) ++ es) = some (.ok (), es) := by
  rw [softResetProg, resetEvents, List.cons_append, commandByte, runReg_try_write,
    runReg_resetPoll c _ misses last es hn hm hl]

theorem runReg_initWrites (c : Config) (es : List RegEvent) :
    runReg c (Prog.writeAll (initWrites c)) (initWriteEvents c ++ es) = some (.ok (), es) :=
  runReg_writeAll c (initWrites c) es

theorem runReg_init (c : Config) (misses : List Byte) (last v : Byte) (es : List RegEvent)
    (hn : misses.length < c.resetPollMax) (hm : ∀ w ∈ misses, w &&& c.fld.powerDown ≠ 0)
    (hl : last &&& c.fld.powerDown = 0) :
    runReg c (initProg c) (resetEvents c (misses ++ [last]) ++ initWriteEvents c ++ antennaOnEvents c v ++ es) =
      some (.ok (), es) := by
  rw [List.append_assoc, List.append_assoc, initProg, runReg_try (runReg_softReset c misses last _ hn hm hl),
    runReg_try (runReg_initWrites c _), runReg_antennaOn]

/-- Without a response buffer and a collision nothing is left to check (R145 steps 5 and 6). -/
theorem validate_no_reply {c : Config} {err : Byte} (crc : Bool) (h : err &&& c.fld.errColl = 0) :
    validateProg c crc err none = Prog.done () := by
  have : collided c err = false := anyBit_false h
  simp [validateProg, this]

/-- Without a collision the CRC check is what is left (R145 step 6). -/
theorem validate_checks_reply {c : Config} {err : Byte} (reply : Reply) (h : err &&& c.fld.errColl = 0) :
    validateProg c true err (some reply) = checkReplyProg c reply := by
  have : collided c err = false := anyBit_false h
  simp [validateProg, this]

theorem byteAt_of_getElem? {l : List Byte} {i : Nat} {v : Byte} (h : l[i]? = some v) : byteAt l i = v := by
  simp [byteAt, h]

/-- The CRC check of a response of whole bytes whose last two are the co-processor's (R145 step 6). -/
theorem runReg_checkReply {c : Config} {reply : Reply} {y : CrcRun} (es : List RegEvent) (hlen : 2 ≤ reply.recvLen)
    (hbits : reply.lastBits = 0) (hy : y.completes c) (hlo : reply.recv[reply.recvLen - 2]? = some y.lo)
    (hhi : reply.recv[reply.recvLen - 1]? = some y.hi) :
    runReg c (checkReplyProg c reply) (y.events c (reply.recv.take (reply.recvLen - 2)) ++ es) = some (.ok (), es) := by
  rw [checkReplyProg, if_neg (by omega), if_neg (by simp [hbits]; omega)]
  refine (runReg_try (runReg_calculateCRC c _ y es hy)).trans ?_
  rw [if_neg (by simp [byteAt_of_getElem? hlo, byteAt_of_getElem? hhi])]
  rfl

/-! ## From the event sequence to the answer -/

section Brought
variable {s : State} {es : List RegEvent} {l rest : List Level} (hs : s.bus.samples = l ++ rest)
include hs

/-- A program that ends in `v` on the events `es`, run on the lines: the answer is that of `v`, and the events are
recorded. -/
theorem runLine_answers {α : Type} {p : Prog α} {v : α} (f : α → Answer) (hp : runReg s.cfg p es = some (v, []))
    (hl : Brings s.cfg es l) :
    ∃ b, nextFrom s f (runLine s.cfg p s.bus) = .next (s.finish b (f v)) ∧ b.samples = rest ∧
      b.events = es.reverse ++ s.bus.events := by
  obtain ⟨b, e, hrest, hev⟩ := runLine_of_runReg s.cfg p s.bus es l rest v hp hl hs
  exact ⟨b, by rw [e]; rfl, hrest, hev⟩

/-- An admitted `communicate`, from how its program ends on the events (R145). -/
theorem communicate_answers {command : CmdCode} {mask : Byte} {send : List Byte} {valid : Option Bits3}
    {recv : Option (List Byte)} {r : Bits3} {crc : Bool} {st : Status} {reply : Option Reply}
    (hcmd : command = s.cfg.cmd.transceive ∨ command = s.cfg.cmd.receive) (hsend : send.length ≤ s.cfg.fifoSize)
    (hp : runReg s.cfg (communicateProg s.cfg command mask send valid recv r crc) es = some ((st, reply), []))
    (hl : Brings s.cfg es l) :
    ∃ b, exec (.communicate command mask send valid recv r crc) s =
        .next (s.finish b (.status st (replyValue valid reply))) ∧ b.samples = rest ∧
      b.events = es.reverse ++ s.bus.events := by
  rw [exec_communicate_eq hcmd hsend]
  exact runLine_answers hs (exchangeAnswer valid) hp hl

section Exchange
variable {command : CmdCode} {mask : Byte} {send : List Byte} {r : Bits3} {x : Exchange}
  (hcmd : command = s.cfg.cmd.transceive ∨ command = s.cfg.cmd.receive) (hsend : send.length ≤ s.cfg.fifoSize)
  (hx : x.completes s.cfg mask) (hno : x.noCollision s.cfg)
include hcmd hsend hx hno

/-- A clean exchange without a response buffer ends after the read of `ERROR` (R145). -/
theorem communicate_without_buffer (valid : Option Bits3) (crc : Bool)
    (hl : Brings s.cfg (x.waitEvents s.cfg command send (valid.getD 0) r) l) :
    ∃ b, exec (.communicate command mask send valid none r crc) s = .next (s.finish b (.status .ok .empty)) ∧
      b.samples = rest ∧ b.events = (x.waitEvents s.cfg command send (valid.getD 0) r).reverse ++ s.bus.events := by
  refine communicate_answers hs (reply := none) hcmd hsend (runReg_whole fun es' => ?_) hl
  refine (runReg_communicate_none s.cfg command mask send valid r crc x es' hx).trans ?_
  rw [validate_no_reply crc hno]
  rfl

/-- A clean exchange with a response buffer, no CRC requested, ends with the response merged into it (R145). -/
theorem communicate_with_buffer (valid : Option Bits3) {buf : List Byte} (hfit : x.fits buf.length)
    (hl : Brings s.cfg (x.events s.cfg command send (valid.getD 0) r) l) :
    ∃ b out, exec (.communicate command mask send valid (some buf) r false) s =
        .next (s.finish b (.status .ok (.response out x.bytes.length
          (valid.map fun _ => (x.ctl &&& s.cfg.fld.rxLastBits).setWidth 3)))) ∧
      Merged r buf x.bytes out ∧ b.samples = rest ∧
      b.events = (x.events s.cfg command send (valid.getD 0) r).reverse ++ s.bus.events := by
  have hrun := fun es' => runReg_communicate s.cfg command mask send valid buf r false x es' hx hfit
  rw [validate_clean _ hno] at hrun
  obtain ⟨b, e, hafter⟩ :=
    communicate_answers hs (reply := some (x.reply s.cfg buf r)) hcmd hsend (runReg_whole hrun) hl
  exact ⟨b, storeBurst r buf x.bytes, e, storeBurst_merged r buf x.bytes hfit.2, hafter⟩

/-- A clean exchange whose response ends in its own CRC passes the CRC check (R145 step 6). -/
theorem communicate_checked (valid : Option Bits3) {buf : List Byte} {y : CrcRun} (hwhole : x.wholeBytes s.cfg)
    (hfit : x.fits buf.length) (hlen : 2 ≤ x.bytes.length) (hy : y.completes s.cfg)
    (hlo : (storeBurst r buf x.bytes)[x.bytes.length - 2]? = some y.lo)
    (hhi : (storeBurst r buf x.bytes)[x.bytes.length - 1]? = some y.hi)
    (hl : Brings s.cfg (x.events s.cfg command send (valid.getD 0) r ++
      y.events s.cfg ((storeBurst r buf x.bytes).take (x.bytes.length - 2))) l) :
    ∃ b, exec (.communicate command mask send valid (some buf) r true) s =
        .next (s.finish b (.status .ok (.response (storeBurst r buf x.bytes) x.bytes.length (valid.map fun _ => 0)))) ∧
      b.samples = rest ∧
      b.events = (x.events s.cfg command send (valid.getD 0) r ++
        y.events s.cfg ((storeBurst r buf x.bytes).take (x.bytes.length - 2))).reverse ++ s.bus.events := by
  have hbits : rxLastBits s.cfg x.ctl = 0 := hwhole
  have hcheck := runReg_whole fun es' => runReg_checkReply (reply := x.reply s.cfg buf r) es' hlen hbits hy hlo hhi
  have hrun := runReg_communicate s.cfg command mask send valid buf r true x
    (y.events s.cfg ((storeBurst r buf x.bytes).take (x.bytes.length - 2))) hx hfit
  rw [validate_checks_reply _ hno] at hrun
  obtain ⟨b, e, hafter⟩ := communicate_answers hs hcmd hsend (hrun.trans (runReg_seq hcheck)) hl
  refine ⟨b, e.trans ?_, hafter⟩
  rw [← hbits]
  rfl

end Exchange
end Brought

/-! ## The obligations -/

/-- Settles O31: the command code of `transceive` is one that `communicate` admits. -/
theorem transceiveIsCommunicate : Obligations.TransceiveIsCommunicate := fun _ _ _ _ _ _ => exec_transceive_eq

/-- Settles O32: each refusal is the failing test of its operation, a `transceive` being a `communicate`. -/
theorem refusedCalls : Obligations.RefusedCalls := by
  refine fun s => ⟨fun _ _ _ _ _ _ _ ht hr => exec_communicate_otherCode ht hr, fun _ _ _ _ _ _ hsend => ?_,
    fun _ hdata => exec_calculateCRC_tooLong hdata, fun a _ _ r hbuf => exec_readRegisterBurst_tooShort a r s hbuf,
    fun _ known huid => exec_select_badRecord known s huid⟩
  exact ⟨exec_communicate_tooLong (.inl rfl) hsend, exec_communicate_tooLong (.inr rfl) hsend,
    exec_transceive_eq.trans (exec_communicate_tooLong (.inl rfl) hsend)⟩

/-- Settles O21: the read and the write that is due, and the failures of these two events. -/
theorem antennaOnRule : Obligations.AntennaOnRule := by
  refine ⟨fun v s l rest hl hs => ?_, fun s t h => ?_⟩
  · rw [exec_antennaOn_eq]
    exact runLine_completes hs (runReg_whole (runReg_antennaOn s.cfg v)) hl
  · rw [exec_antennaOn_eq] at h
    exact answer_ok_or_ackFail (antennaOn_leaves s.cfg) h

/-- Settles O22: the read and the write that is due, and the failures of these two events. -/
theorem antennaOffRule : Obligations.AntennaOffRule := by
  refine ⟨fun v s l rest hl hs => ?_, fun s t h => ?_⟩
  · rw [exec_antennaOff_eq]
    exact runLine_completes hs (runReg_whole (runReg_antennaOff s.cfg v)) hl
  · rw [exec_antennaOff_eq] at h
    exact answer_ok_or_ackFail (antennaOff_leaves s.cfg) h

/-- Settles O23: the verification loop ends at the first read without the power-down bit. -/
theorem softResetCompletes : Obligations.SoftResetCompletes := by
  intro misses last s l rest hn hm hlast hl hs
  rw [exec_softReset_eq]
  exact runLine_completes hs (runReg_whole fun es' => runReg_softReset s.cfg misses last es' hn hm hlast) hl

/-- Settles O24: the reset, the six writes and `antennaOn`, one after the other. -/
theorem initCompletes : Obligations.InitCompletes := by
  intro misses last v s l rest hn hm hlast hl hs
  rw [exec_init_eq]
  exact runLine_completes hs (runReg_whole fun es' => runReg_init s.cfg misses last v es' hn hm hlast) hl

/-- Settles O25: the five writes, the poll loop up to its hit, and the two result bytes. -/
theorem calculateCRCCompletes : Obligations.CalculateCRCCompletes := by
  intro data x s l rest hdata hx hl hs
  rw [exec_calculateCRC_eq hdata]
  exact runLine_answers hs _ (runReg_whole fun es' => runReg_calculateCRC s.cfg data x es' hx) hl

/-- Settles O26: the exchange without and with a response buffer; `transceive` is `communicate` (R147). -/
theorem communicateCompletes : Obligations.CommunicateCompletes := by
  intro command mask send valid r crc x s l rest hsend hs hno
  refine ⟨fun hcmd hx hl => communicate_without_buffer hs hcmd hsend hx hno valid crc hl,
    fun buf hcmd hx hfit hl => communicate_with_buffer hs hcmd hsend hx hno valid hfit hl, fun buf hx hfit hl => ?_⟩
  rw [exec_transceive_eq]
  exact communicate_with_buffer hs (.inl rfl) hsend hx hno valid hfit hl

/-- Settles O27: the merged buffer is the one stored, so the CRC check runs over its bytes. -/
theorem communicateChecksCrc : Obligations.CommunicateChecksCrc := by
  intro command mask send buf out valid r x y s l rest hsend hcmd hx hno hwhole hfit hlen hout hy hlo hhi hl hs
  obtain rfl := merged_unique r buf x.bytes _ _ hout (storeBurst_merged r buf x.bytes hfit.2)
  exact communicate_checked hs hcmd hsend hx hno valid hwhole hfit hlen hy hlo hhi hl

end Sys2Proof.Machine
end

section
/-! PROOFS. The family of 43_card_discovery.md: requests (R160, R161), how `select` can end for every oracle (R163, R169),
and what it does after any history of probes, collisions and levels (R163 to R168), from which the runs of one card, with
and without known bits, and `discover_uid` (R170, R171) follow. -/

namespace Sys2Proof.Machine

open Sys2Proof

/-! ## The next state, from how the run on the lines ends -/

theorem exec_requestA_eq (s : State) :
    exec .requestA s = nextFrom s (Res.answer .atqa) (runLine s.cfg (requestProg s.cfg s.cfg.reqa) s.bus) := rfl

theorem exec_wakeupA_eq (s : State) :
    exec .wakeupA s = nextFrom s (Res.answer .atqa) (runLine s.cfg (requestProg s.cfg s.cfg.wupa) s.bus) := rfl

theorem exec_isNewCardPresent_eq (s : State) : exec .isNewCardPresent s =
    nextFrom s (fun r => .flag (presentStatus r.status)) (runLine s.cfg (requestProg s.cfg s.cfg.reqa) s.bus) := rfl

/-- The next state of an operation that runs `select`, `f` giving the answer to how it ends. -/
def nextSelect (s : State) (f : Uid × Status → Answer) (x : (Uid × Status) × Bus) : Outcome :=
  .next ((s.withUid x.1.1 x.1.2).finish x.2 (f x.1))

theorem exec_select_eq {uid : Uid} (hu : uid.uidByte.length = 10) (known : Nat) (s : State) : exec (.select uid known) s =
    nextSelect s (fun x => .status x.2 .empty) (runLine s.cfg (selectProg s.cfg uid known) s.bus) := by
  rw [exec, execSelect, if_pos (show uid.wf = true from decide_eq_true hu)]; rfl

theorem exec_readCardSerial_eq (s : State) : exec .readCardSerial s =
    nextSelect s (fun x => .flag (x.2 == .ok)) (runLine s.cfg (selectProg s.cfg s.uid 0) s.bus) := rfl

theorem presentStatus_eq (st : Status) : presentStatus st = decide (st = .ok ∨ st = .collision) := by cases st <;> rfl

theorem answer_eq_status {α : Type} (f : α → Value) (r : Res α) : ∃ v, r.answer f = .status r.status v := by
  cases r <;> exact ⟨_, rfl⟩

theorem status_of_answer {α : Type} {f : α → Value} {r : Res α} {st : Status} {v : Value}
    (h : r.answer f = .status st v) : r.status = st := by
  cases r <;> cases h <;> rfl

section Discover
variable {s : State} {r : Res (List Byte)} {b : Bus}
  (hr : runLine s.cfg (requestProg s.cfg s.cfg.reqa) s.bus = (r, b))
include hr

/-- `discover_uid` raises the status of a request that finds no card (R171). -/
theorem exec_discoverUid_absent (hp : presentStatus r.status = false) :
    exec .discoverUid s = .next (s.finish b (.status r.status .empty)) := by
  have hd : runLine s.cfg (discoverProg s.cfg s.uid) s.bus = ((none, r.status), b) := by
    rw [discoverProg, runLine_bind, hr, hp]; rfl
  rw [exec, execDiscoverUid, hd]

/-- `discover_uid` goes on with `select` on the bus the request left when a card is present (R171). -/
theorem exec_discoverUid_present (hp : presentStatus r.status = true) : exec .discoverUid s =
    nextSelect s (fun x => .status x.2 (if x.2 = .ok then uidValue x.1 else .empty))
      (runLine s.cfg (selectProg s.cfg s.uid 0) b) := by
  obtain ⟨⟨⟨u, st⟩, b2⟩, hsel⟩ : ∃ x, runLine s.cfg (selectProg s.cfg s.uid 0) b = x := ⟨_, rfl⟩
  have hd : runLine s.cfg (discoverProg s.cfg s.uid) s.bus = ((some u, st), b2) := by
    rw [discoverProg, runLine_bind, hr, if_pos hp, runLine_bind, hsel]; rfl
  rw [exec, execDiscoverUid, hd, hsel]
  cases st <;> rfl

end Discover

/-! ## Every oracle (R161, R163, R169 to R171) -/

/-- Settles O41: the statuses and records `select` can end with, and that more than 80 known bits end it at once. -/
theorem selectOutcomes : Obligations.SelectOutcomes := by
  intro uid known s t h
  cases exec_finishes h with
  | plain _ b a hi => cases hi
  | select _ u _ st b hu hr =>
    refine ⟨st, rfl, ?_⟩
    by_cases hk : 80 < known
    · rw [selectProg, if_pos hk] at hr
      cases hr
      exact ⟨hu, nofun, iff_of_true rfl hk, nofun, fun _ => rfl⟩
    · have hend := runLine_leaves (selectProg_leaves s.cfg uid hu known hk) s.bus
      rw [hr] at hend
      obtain ⟨hlen, hnack, hinv, hok⟩ := hend
      exact ⟨hlen, hnack, iff_of_false hinv hk, fun hst => ⟨beq_iff_eq.2 hst, hok hst⟩, fun hst => beq_false_of_ne hst⟩

/-- Settles O34: both run the request and differ in the answer. -/
theorem presenceIsRequest : Obligations.PresenceIsRequest := by
  intro s
  obtain ⟨r, b, hr⟩ : ∃ r b, runLine s.cfg (requestProg s.cfg s.cfg.reqa) s.bus = (r, b) := ⟨_, _, rfl⟩
  obtain ⟨value, ha⟩ := answer_eq_status .atqa r
  refine ⟨b, r.status, value, ?_, ?_⟩
  · rw [exec_requestA_eq, hr, nextFrom, ha]; rfl
  · rw [exec_isNewCardPresent_eq, hr, ← presentStatus_eq]; rfl

/-- Settles O43: both run `select` on the reader's record with no bit known and differ in the answer. -/
theorem readCardSerialIsSelect : Obligations.ReadCardSerialIsSelect := by
  intro s hu
  refine ⟨_, _, exec_select_eq hu 0 s, rfl, ?_⟩
  rw [exec_readCardSerial_eq, nextSelect, beq_eq_decide]; rfl

/-- Settles O44: the run of the request, then that of `select` on the bus the request left. -/
theorem discoverIsRequestThenSelect : Obligations.DiscoverIsRequestThenSelect := by
  intro s t st value hu h ha
  obtain ⟨r, b, hr⟩ : ∃ r b, runLine s.cfg (requestProg s.cfg s.cfg.reqa) s.bus = (r, b) := ⟨_, _, rfl⟩
  rw [exec_requestA_eq, hr] at h
  cases h
  obtain rfl := status_of_answer (Option.some.inj ha)
  refine ⟨fun h1 h2 => ?_, fun hp => ?_⟩
  · exact exec_discoverUid_absent hr (by simp [presentStatus_eq, h1, h2])
  · refine ⟨_, _, exec_select_eq hu 0 _, rfl, ?_⟩
    exact exec_discoverUid_present hr (by simpa [presentStatus_eq] using hp)

/-! ## The bound on the passes (R166, R172) -/

/-- A position is a field of five bits, 0 standing for 32 (R167). -/
theorem collPosition_le {c : Config} (hc : c.fld.collPos &&& 0xE0 = 0) (v : Byte) : collPosition c v ≤ 32 := by
  have hmask : ∀ m : Byte, m &&& 0xE0 = 0 → m.toNat ≤ 32 := by decide +kernel
  rw [collPosition]
  split
  · exact le_rfl
  · rw [BitVec.toNat_and]
    exact Nat.and_le_right.trans (hmask _ hc)

/-- What follows a collision matters only at the positions a collision can have (R167). -/
theorem collisionProg_congr {c : Config} (hc : c.fld.collPos &&& 0xE0 = 0) {known : Nat}
    {f g : Nat → Prog (Res LevelReply)} (h : ∀ pos, known < pos → pos ≤ 32 → f pos = g pos) :
    (collisionProg c known).tryBind f = (collisionProg c known).tryBind g := by
  simp only [collisionProg, Prog.read, Prog.tryBind, Prog.bind, Prog.rd.injEq, true_and]
  funext r
  cases r with
  | err st => rfl
  | ok v =>
    simp only
    split
    · rfl
    · split
      · rfl
      · exact h _ (by omega) (collPosition_le hc v)

/-- A pass makes at least one more bit known, so the passes that `known` leaves are enough (R166). -/
theorem antiCollision_more_passes {c : Config} (hc : c.fld.collPos &&& 0xE0 = 0) (more n : Nat) (buf : List Byte)
    (known : Nat) (hn : 34 ≤ n + min known 32) : antiCollision c (n + more) buf known = antiCollision c n buf known := by
  induction n generalizing buf known with
  | zero => omega
  | succ n ih =>
    rw [Nat.add_right_comm, antiCollision, antiCollision]
    congr 1
    funext f
    congr 1
    funext ⟨st, reply⟩
    cases st with
    | ok =>
      simp only
      split
      · rfl
      · exact ih _ 32 (by omega)
    | collision => exact collisionProg_congr hc fun pos h1 h2 => ih _ pos (by omega)
    | _ => rfl

/-- Settles O42: 34 passes are those of a level of which no bit is known. -/
theorem passBoundIsEnough : Obligations.PassBoundIsEnough :=
  fun _ more buf known hc => antiCollision_more_passes hc more 34 buf known (by omega)

/-! ## `select` after a history (R163 to R169) -/

/-- A run of `select` that ends with the record `u` and the status `st` on the events `es`, on the lines. -/
theorem select_answers {s : State} {l rest : List Level} (hs : s.bus.samples = l ++ rest) {uid u : Uid} {total : Nat}
    {st : Status} {es : List RegEvent} (hu : uid.uidByte.length = 10)
    (hp : runReg s.cfg (selectProg s.cfg uid total) es = some ((u, st), [])) (hl : Brings s.cfg es l) :
    ∃ b, exec (.select uid total) s = .next ((s.withUid u st).finish b (.status st .empty)) ∧ b.samples = rest ∧
      b.events = es.reverse ++ s.bus.events := by
  obtain ⟨b, e, hrest, hev⟩ := runLine_of_runReg s.cfg _ s.bus es l rest _ hp hl hs
  exact ⟨b, by rw [exec_select_eq hu, e]; rfl, hrest, hev⟩

theorem runReg_steps {α : Type} {c : Config} {p q : Prog α} {es : List RegEvent} (h : Steps c p es q) :
    runReg c p es = runReg c q [] := by simpa using h.1 []

/-- A SELECT answered by a SAK without the cascade bit ends `select` with the complete record (R168). -/
theorem SelHistory.completes {c : Config} {total : Nat} {uid : Uid} {p : SelPoint} {before : List RegEvent} {x : LevelRun}
    {sak : Byte} (h : SelHistory c total (SelPoint.first total uid) before p) (hu : uid.uidByte.length = 10)
    (ht : total ≤ 80) (hk : 32 ≤ p.known) (hx : x.selects c (p.card sak)) (hsak : sak &&& 0x04 = 0) :
    (p.level = 1 ∨ p.level = 2 ∨ p.level = 3) ∧
      runReg c (selectProg c uid total) (before ++ x.selectEvents c p.sel (p.card sak)) =
        some ((⟨uidSize p.level, p.confirmed.uidByte, sak⟩, .ok), []) := by
  obtain ⟨fuel, left, buf, hat, hsteps⟩ := h.select hu ht
  have hsel := hat.select c total x sak hk hx
  rw [sakCascade, anyBit_false hsak, if_neg nofun] at hsel
  exact ⟨by have := hat.level; omega, runReg_steps (hsteps.trans hsel)⟩

/-- Settles O57: the history leads to the point, whose SELECT completes the record. -/
theorem selectCompletes : Obligations.SelectCompletes := by
  intro uid total p before x sak s l rest hu ht h hk hx hsak hl hs
  obtain ⟨hlevel, hrun⟩ := h.completes hu ht hk hx hsak
  exact ⟨hlevel, select_answers hs hu hrun hl⟩

/-! ## Failures (R164, R167 to R169) -/

theorem runReg_collision_invalid {c : Config} {known : Nat} {v : Byte} (hv : v &&& c.fld.collPosNotValid ≠ 0) :
    runReg c (collisionProg c known) [.rd c.reg.coll (some v)] = some (.err .collision, []) := by
  rw [collisionProg, runReg_try_read, if_pos (show collInvalid c v = true from anyBit_true hv)]
  rfl

theorem runReg_collision_notBeyond {c : Config} {known : Nat} {v : Byte} (hv : v &&& c.fld.collPosNotValid = 0)
    (hp : positionOf c v ≤ known) :
    runReg c (collisionProg c known) [.rd c.reg.coll (some v)] = some (.err .internalError, []) := by
  have hi : collInvalid c v = false := anyBit_false hv
  rw [collisionProg, runReg_try_read, if_neg (by simp [hi]), if_pos (show collPosition c v ≤ known from hp)]
  rfl

theorem runReg_calculateCRC_timeout (c : Config) (data : List Byte) {reads : List Byte}
    (hm : ∀ v ∈ reads, v &&& c.fld.crcIrq = 0) (hn : reads.length = c.crcPollMax) :
    runReg c (calculateCRCProg c data) (crcStartEvents c data ++ reads.map fun v => .rd c.reg.divIrq (some v)) =
      some (.err .timeout, []) := by
  rw [runReg_crcStart, ← hn]
  simpa using runReg_pollCrcDone_timeout c reads [] hm

section Exchange
variable {c : Config} {command : CmdCode} {mask : Byte} {send : List Byte} {valid : Option Bits3}
  {recv : Option (List Byte)} {r : Bits3}

/-- A fatal error in the error byte (42_reader_control.md R145, 60_exceptions.md R194). -/
theorem runReg_exchange_fatal {x : Exchange} (hx : x.waits c mask) (he : x.err &&& c.fld.errFatal ≠ 0) :
    runReg c (exchangeProg c command mask send valid recv r) (x.waitEvents c command send (txLastBits valid) r) =
      some (.err .error, []) := by
  obtain ⟨hn, hm, hh⟩ := hx
  rw [Exchange.waitEvents, exchangeProg, runReg_try (runReg_prepare c command send _ r x.framing _),
    runReg_try (runReg_pollIrq c mask _ x.misses x.hit _ hn hm hh), runReg_try_read,
    if_pos (show fatalError c x.err = true from anyBit_true he)]
  rfl

/-- A response longer than the caller's buffer: nothing of it is read (R145). -/
theorem runReg_exchange_noRoom {x : Exchange} {buf : List Byte} {level : Byte} (hx : x.completes c mask)
    (hl : buf.length < level.toNat) :
    runReg c (exchangeProg c command mask send valid (some buf) r)
        (x.waitEvents c command send (txLastBits valid) r ++ [.rd c.reg.fifoLevel (some level)]) =
      some (.err .noRoom, []) := by
  have hr : runReg c (retrieveProg c (some buf) r) [.rd c.reg.fifoLevel (some level)] = some (.err .noRoom, []) := by
    rw [retrieveProg, runReg_try_read, if_pos hl]; rfl
  rw [runReg_exchange_error c command mask send valid (some buf) r x _ hx, runReg_try_err hr]

/-- What the wait for completion raises (R145 step 2). -/
theorem runReg_exchange_unanswered (framing : Byte) {es : List RegEvent} {st : Status}
    (h : runReg c (pollIrq c mask c.irqPollMax) es = some (.err st, [])) :
    runReg c (exchangeProg c command mask send valid recv r)
      (prepareEvents c command send (txLastBits valid) r framing ++ es) = some (.err st, []) := by
  rw [exchangeProg, runReg_try (runReg_prepare c command send _ r framing _), runReg_try_err h]

end Exchange

section Point
variable {c : Config} {p : SelPoint} {total fuel left : Nat} {buf : List Byte}

theorem SelPoint.InBuffer.select7 (hb : p.InBuffer buf) : slice (selectBuffer buf) 0 7 = p.select7 := by
  obtain ⟨n1, b0, b1, b2, b3, r6, r7, r8, h, rfl⟩ := hb
  rw [SelPoint.select7, SelPoint.card, h]; rfl

/-- What the co-processor raises for the SELECT frame ends `select` (R169). -/
theorem SelPoint.prog_frameCrc {es : List RegEvent} {st : Status} (hb : p.InBuffer buf) (hk : 32 ≤ p.known)
    (h : runReg c (calculateCRCProg c p.select7) es = some (.err st, [])) :
    runReg c (p.prog c total (fuel + 1) left buf) es = some ((p.uid, st), []) := by
  have hf : runReg c (nextFrameProg c buf p.known) es = some (.err st, []) := by
    rw [nextFrameProg, if_pos hk, hb.select7, runReg_try_err h]
  have hl : runReg c (antiCollision c (fuel + 1) buf p.known) es = some (.err st, []) := by
    rw [antiCollision, runReg_try_err hf]
  rw [SelPoint.prog, runReg_seq hl]
  rfl

/-- What the checks of the SAK response raise ends `select`, the record overwritten (R168). -/
theorem SelPoint.prog_sakRejected {es es' : List RegEvent} {reply : LevelReply} {st : Status}
    (ha : runReg c (antiCollision c fuel buf p.known) es = some (.ok reply, es'))
    (h : runReg c (checkSakProg c reply) es' = some (.err st, [])) :
    runReg c (p.prog c total fuel left buf) es = some ((confirmUid p.level p.uid reply.buf, st), []) := by
  rw [SelPoint.prog, runReg_seq ha]
  exact runReg_seq h

/-- A SELECT answered by three whole bytes: the CRC of the first is left to compare with the other two (R168). -/
theorem antiCollision_sak_point (hb : p.InBuffer buf) {y : CrcRun} {x : Exchange} {sak lo hi : Byte} (hk : 32 ≤ p.known)
    (hy : y.completes c) (hx : x.answers c [sak, lo, hi]) (es : List RegEvent) :
    ∃ reply, runReg c (antiCollision c (fuel + 1) buf p.known) (p.frameEvents c y x ++ es) = some (.ok reply, es) ∧
      checkSakProg c reply = (calculateCRCProg c [sak]).tryBind fun crc =>
        if crc.1 ≠ lo ∨ crc.2 ≠ hi then Prog.raise .crcWrong else Prog.done () := by
  obtain ⟨hc, hn, hw, hbytes⟩ := hx
  obtain ⟨reply, hrun, hlen, hbits, hthree⟩ :=
    antiCollision_select_point fuel hb hk hy hc hn (by simp [Exchange.fits, hbytes]) es
  obtain ⟨h6, h7, h8⟩ := hthree sak lo hi hbytes
  have hbits' : reply.lastBits = 0 := hbits.trans hw
  refine ⟨reply, hrun, ?_⟩
  rw [checkSakProg, if_neg (by simp [hlen, hbytes, hbits']), h6, h7, h8]

/-- Every failure ends `select` at its point with the status of its cause (R164, R167 to R169). -/
theorem SelFailure.runReg_prog {st : Status} {es : List RegEvent} (h : SelFailure c p st es)
    (hat : p.At (fuel + 1) left buf) : ∃ u, runReg c (p.prog c total (fuel + 1) left buf) es = some ((u, st), []) := by
  have hb := hat.buffer
  cases h with
  | noPosition y x v hy hx he hf hv =>
    exact ⟨_, SelPoint.prog_collides total fuel left hb hy hx he hf (runReg_collision_invalid hv)⟩
  | notBeyond y x v hy hx he hf hv hp =>
    exact ⟨_, SelPoint.prog_collides total fuel left hb hy hx he hf (runReg_collision_notBeyond hv hp)⟩
  | sakShape y x hk hy hx hn hf hshape =>
    obtain ⟨reply, hrun, hlen, hbits, -⟩ := antiCollision_select_point fuel hb hk hy hx hn hf []
    rw [List.append_nil] at hrun
    have hbad : reply.recvLen ≠ 3 ∨ reply.lastBits ≠ 0 := by
      rw [hlen, hbits, ← not_and_or]; exact hshape
    exact ⟨_, SelPoint.prog_sakRejected hrun (by rw [checkSakProg, if_pos hbad]; exact runReg_raise ..)⟩
  | sakCrc y z x sak lo hi hk hy hx hz hne =>
    obtain ⟨reply, hrun, hcheck⟩ := antiCollision_sak_point hb hk hy hx (z.events c [sak])
    refine ⟨_, SelPoint.prog_sakRejected hrun ?_⟩
    rw [hcheck, runReg_try (runReg_whole fun es' => runReg_calculateCRC c [sak] z es' hz), if_pos hne]
    rfl
  | fourthLevel x sak hk hl hx hs =>
    have hsel := runReg_steps (hat.select c total x sak hk hx)
    obtain rfl : left = 0 := by have := hat.level; omega
    rw [sakCascade, anyBit_true hs, if_pos rfl] at hsel
    exact ⟨_, hsel⟩
  | chipError y x hy hx he =>
    exact ⟨_, SelPoint.prog_raises total fuel left hb hy nofun nofun fun _ _ => runReg_exchange_fatal hx he⟩
  | noRoom y x level hy hx hroom =>
    rw [SelPoint.errorEvents, List.append_assoc]
    exact ⟨_, SelPoint.prog_raises total fuel left hb hy nofun nofun fun _ hr =>
      runReg_exchange_noRoom hx (by rwa [hr])⟩
  | timer y framing hit reads hy hm hn hw ht =>
    have hpoll := runReg_whole fun es' => runReg_pollIrq_timer c c.waitMaskTransceive c.irqPollMax reads hit es' hn hm hw ht
    rw [SelPoint.sendEvents, List.append_assoc]
    exact ⟨_, SelPoint.prog_raises total fuel left hb hy nofun nofun fun _ _ => runReg_exchange_unanswered framing hpoll⟩
  | polls y framing reads hy hm hn =>
    have hpoll := runReg_whole fun es' => runReg_pollIrq_timeout c c.waitMaskTransceive reads es' hm
    rw [hn] at hpoll
    rw [SelPoint.sendEvents, List.append_assoc]
    exact ⟨_, SelPoint.prog_raises total fuel left hb hy nofun nofun fun _ _ => runReg_exchange_unanswered framing hpoll⟩
  | frameCrc reads hk hm hn => exact ⟨_, SelPoint.prog_frameCrc hb hk (runReg_calculateCRC_timeout c p.select7 hm hn)⟩
  | sakCrcPolls y x sak lo hi reads hk hy hx hm hn =>
    obtain ⟨reply, hrun, hcheck⟩ := antiCollision_sak_point hb hk hy hx
      (crcStartEvents c [sak] ++ reads.map fun v => .rd c.reg.divIrq (some v))
    refine ⟨_, SelPoint.prog_sakRejected hrun ?_⟩
    rw [hcheck, runReg_try_err (runReg_calculateCRC_timeout c [sak] hm hn)]

theorem SelFailure.ne_ok {st : Status} {es : List RegEvent} (h : SelFailure c p st es) : st ≠ .ok := by
  cases h <;> nofun

end Point

/-- A failure after a history ends `select` with the status of its cause. -/
theorem SelHistory.fails {c : Config} {total : Nat} {uid : Uid} {p : SelPoint} {before es : List RegEvent} {st : Status}
    (h : SelHistory c total (SelPoint.first total uid) before p) (hu : uid.uidByte.length = 10) (ht : total ≤ 80)
    (hf : SelFailure c p st es) : ∃ u, runReg c (selectProg c uid total) (before ++ es) = some ((u, st), []) := by
  obtain ⟨fuel, left, buf, hat, hsteps⟩ := h.select hu ht
  obtain ⟨u, hrun⟩ := hf.runReg_prog (total := total) hat
  exact ⟨u, (hsteps.1 es).trans hrun⟩

theorem withUid_of_ne_ok (s : State) (u : Uid) {st : Status} (h : st ≠ .ok) :
    s.withUid u st = { s with uid := u, uidMeaningful := false } := by rw [State.withUid, beq_false_of_ne h]

/-- Settles O58: the history leads to the point, where the failure has the status of its cause. -/
theorem selectFailures : Obligations.SelectFailures := by
  intro uid total p before es st s l rest hu ht h hf hl hs
  obtain ⟨u, hrun⟩ := h.fails hu ht hf
  obtain ⟨b, e, hafter⟩ := select_answers hs hu hrun hl
  rw [withUid_of_ne_ok s u hf.ne_ok] at e
  exact ⟨b, u, e, hafter⟩

/-! ## The frame after a collision (R166, R167) -/

theorem ofNat_three_setWidth (k : Nat) : (BitVec.ofNat 3 (k % 8)).setWidth 8 = BitVec.ofNat 8 (k % 8) := by
  apply BitVec.eq_of_toNat_eq
  simp only [BitVec.toNat_setWidth, BitVec.toNat_ofNat]
  omega

/-- The first five events of a point with fewer than 32 known bits are those of its probe (R166). -/
theorem SelPoint.At.after_probe {p : SelPoint} {fuel left : Nat} {buf : List Byte} (c : Config) (total : Nat)
    (h : p.At fuel left buf) (hk : p.known < 32) : ∃ q, (p.prog c total fuel left buf).after c
      [.wr c.reg.command (c.cmd.idle.setWidth 8) true, .wr c.reg.comIrq c.fld.comIrqClearAll true,
       .wr c.reg.fifoLevel c.fld.fifoFlush true, .wrb c.reg.fifoData p.probe true,
       .wr c.reg.bitFraming ((BitVec.ofNat 8 (p.known % 8) <<< 4) ||| BitVec.ofNat 8 (p.known % 8)) true] = some q := by
  obtain ⟨n, rfl⟩ := h.fuel_pos
  obtain ⟨h1, h2, -⟩ := probeFrame_point p buf h.buffer hk
  have hprep := after_prepare c c.cmd.transceive p.probe nofun (BitVec.ofNat 3 (p.known % 8)) (BitVec.ofNat 3 (p.known % 8))
  rw [ofNat_three_setWidth] at hprep
  rw [SelPoint.prog_probe c total n left hk, h1, h2, transceiveProg, communicateProg, exchangeProg]
  exact after_bind_exists _ (after_bind_exists _ (after_bind_exists _ hprep))

/-- The first events of a point with 32 known bits are those of the CRC of its SELECT (R166). -/
theorem SelPoint.At.after_selectCrc {p : SelPoint} {fuel left : Nat} {buf : List Byte} (c : Config) (total : Nat)
    (h : p.At fuel left buf) (hk : 32 ≤ p.known) :
    ∃ q, (p.prog c total fuel left buf).after c (crcStartEvents c p.select7) = some q := by
  obtain ⟨n, rfl⟩ := h.fuel_pos
  rw [SelPoint.prog, antiCollision, nextFrameProg, if_pos hk, h.buffer.select7]
  exact after_bind_exists _ (after_bind_exists _ (after_bind_exists _ (after_crcStart c p.select7)))

/-- Settles O40: the history and the collision lead to the point with the bit forced, whose next frame is its probe or,
all 32 bits known, its SELECT. -/
theorem collisionExtendsKnownBits : Obligations.CollisionExtendsKnownBits := by
  rintro uid total p before x v pos s l rest next hu ht h hk hx he hf hv rfl hpos hnext hl hs
  have hle : positionOf s.cfg v ≤ 32 := by
    rcases hnext with ⟨h31, -⟩ | ⟨h32, -⟩
    · exact h31.trans (by omega)
    · exact h32.le
  have hroom : p.room = 7 - p.known / 8 := if_pos hk
  obtain ⟨fuel, left, buf, hat, hsteps⟩ := h.select hu ht
  obtain ⟨buf', hat', hcoll⟩ := hat.collision s.cfg total x v hk hx he (by rwa [hroom]) hv hpos hle
  have hafter : ∃ q, (SelPoint.prog { p with bytes := p.forced x.bytes (positionOf s.cfg v), known := positionOf s.cfg v }
      s.cfg total fuel left buf').after s.cfg next = some q := by
    rcases hnext with ⟨h31, rfl⟩ | ⟨h32, rfl⟩
    · exact hat'.after_probe s.cfg total (Nat.lt_succ_of_le h31)
    · exact hat'.after_selectCrc s.cfg total (Nat.le_of_eq (Eq.symm h32))
  obtain ⟨q, hq⟩ := hafter
  rw [← (hsteps.trans hcoll).2 next] at hq
  have hevents : before ++ (p.probeEvents s.cfg x ++ [.rd s.cfg.reg.coll (some v)]) ++ next =
      before ++ (p.probeEvents s.cfg x ++ .rd s.cfg.reg.coll (some v) :: next) := by simp
  rw [hevents] at hq
  obtain ⟨b, hrun, -, hev⟩ := runLine_after hq s.bus l rest hl hs
  obtain ⟨more, hmore⟩ := runLine_events s.cfg q b
  refine ⟨_, more, exec_select_eq hu total s, ?_⟩
  rw [← hev, ← hmore, ← hrun]
  rfl

/-! ## Requests (R160, R161) -/

/-- A `transceive` of the client layer without a collision, its response stored (42_reader_control.md R147). -/
theorem runReg_transceive_clean {c : Config} {send : List Byte} {valid : Option Bits3} {buf : List Byte} (r : Bits3)
    {x : Exchange} (es : List RegEvent) (hx : x.completes c c.waitMaskTransceive) (hf : x.fits buf.length)
    (hn : x.noCollision c) :
    runReg c (transceiveProg c send valid (some buf) r false) (x.transceiveEvents c send (txLastBits valid) r ++ es) =
      some ((.ok, some (x.reply c buf r)), es) := by
  rw [transceiveProg, Exchange.transceiveEvents, runReg_communicate c _ _ send valid buf r false x es hx hf,
    validate_clean _ hn]
  rfl

section Request
variable {c : Config} {frame : Byte} {x : Exchange} (hx : x.completes c c.waitMaskTransceive)
include hx

/-- A response of at most two bytes that is not two whole ones (R160). -/
theorem runReg_request_malformed (hf : x.fits 2) (hn : x.noCollision c) (hbad : ¬(x.wholeBytes c ∧ x.bytes.length = 2)) :
    runReg c (requestProg c frame) (x.requestEvents c frame) = some (.err .error, []) := by
  have hshape : (x.reply c [0, 0] 0).recvLen ≠ 2 ∨ (x.reply c [0, 0] 0).lastBits ≠ 0 := by
    rw [← not_and_or, and_comm]; exact hbad
  rw [requestProg]
  refine (runReg_seq (runReg_whole fun es' =>
    runReg_transceive_clean (send := [frame]) (valid := some 7) (buf := [0, 0]) 0 es' hx hf hn)).trans ?_
  simp only [if_pos hshape]
  rfl

/-- A response of more than two bytes (R160, 60_exceptions.md R194). -/
theorem runReg_request_noRoom {level : Byte} (hl : 2 < level.toNat) :
    runReg c (requestProg c frame)
        (x.waitEvents c c.cmd.transceive [frame] 7 0 ++ [.rd c.reg.fifoLevel (some level)]) =
      some (.err .noRoom, []) := by
  rw [requestProg, transceiveProg]
  exact runReg_seq (runReg_communicate_err (runReg_exchange_noRoom (valid := some 7) (buf := [0, 0]) hx hl))

end Request

/-- Settles O33: the request ends with the same result in all three operations, which differ in the frame they send and in
the answer they make of it. -/
theorem requestCompletes : Obligations.RequestCompletes := by
  intro x s l rest hx hs st value events hcase
  suffices h : ∃ r : Res (List Byte), r.answer .atqa = .status st value ∧
      ∀ frame, runReg s.cfg (requestProg s.cfg frame) (events frame) = some (r, []) by
    obtain ⟨r, ha, hrun⟩ := h
    rw [← ha, ← status_of_answer ha]
    refine ⟨fun hl => ?_, fun hl => ?_, fun hl => ?_⟩
    · rw [exec_requestA_eq]
      exact runLine_answers hs (Res.answer .atqa) (hrun _) hl
    · rw [exec_wakeupA_eq]
      exact runLine_answers hs (Res.answer .atqa) (hrun _) hl
    · rw [exec_isNewCardPresent_eq, ← presentStatus_eq]
      exact runLine_answers hs (fun r => .flag (presentStatus r.status)) (hrun _) hl
  rcases hcase with ⟨hf, rfl, ⟨hn, hw, hlen, rfl, rfl⟩ | ⟨he, rfl, rfl⟩ | ⟨hn, hbad, rfl, rfl⟩⟩ |
    ⟨level, hlevel, rfl, rfl, rfl⟩
  · obtain ⟨a0, a1, hbytes⟩ := List.length_eq_two.1 hlen
    rw [hbytes]
    exact ⟨.ok _, rfl, fun frame => runReg_whole fun es' => runReg_request s.cfg frame x a0 a1 es' ⟨hx, hn, hw, hbytes⟩⟩
  · exact ⟨.err .collision, rfl, fun frame => runReg_whole fun es' => runReg_request_collision s.cfg frame x es' hx hf he⟩
  · exact ⟨.err .error, rfl, fun frame => runReg_request_malformed hx hf hn hbad⟩
  · exact ⟨.err .noRoom, rfl, fun frame => runReg_request_noRoom hx hlevel⟩

/-! ## One card (R165, R168) -/

/-- The four bytes of a level as the card sends them. -/
def LevelCard.bytes (d : LevelCard) : List Byte := [d.u0, d.u1, d.u2, d.u3]

theorem SelPoint.card_of_bytes {p : SelPoint} {d : LevelCard} (hb : p.bytes = d.bytes) : p.card d.sak = d := by
  rw [SelPoint.card, hb]; rfl

/-- A level that begins with the cascade tag gives three bytes to the record (R168). -/
theorem SelPoint.confirmed_tag {p : SelPoint} {d : LevelCard} (hb : p.bytes = d.bytes) (h : d.u0 = 0x88) :
    p.confirmed = { p.uid with uidByte := splice p.uid.uidByte (3 * (p.level - 1)) [d.u1, d.u2, d.u3] } := by
  simp only [SelPoint.confirmed, hb, LevelCard.bytes, h, List.head?_cons, if_true, List.drop_succ_cons, List.drop_zero,
    splice]

/-- Another level gives four (R168). -/
theorem SelPoint.confirmed_plain {p : SelPoint} {d : LevelCard} (hb : p.bytes = d.bytes) (h : d.u0 ≠ 0x88) :
    p.confirmed = { p.uid with uidByte := splice p.uid.uidByte (3 * (p.level - 1)) d.bytes } := by
  simp only [SelPoint.confirmed, hb, LevelCard.bytes, List.head?_cons, Option.some.injEq, h, if_false, splice]

/-- Five bytes in answer to a probe of which no bit was known: the first four are the level (R166). -/
theorem SelPoint.received_of_known_zero {p : SelPoint} (hk : p.known = 0) (d : LevelCard) (fifth : Byte) :
    p.received [d.u0, d.u1, d.u2, d.u3, fifth] = d.bytes := by
  have hmask : ∀ w : Byte, w &&& 0xFF#8 = w := fun _ => BitVec.and_allOnes
  simp [SelPoint.received, levelByte, hk, hmask, List.range, List.range.loop, LevelCard.bytes]

theorem SelPoint.enter_zero (uid : Uid) (level : Nat) (stale : List Byte) :
    SelPoint.enter 0 uid level stale = ⟨uid, level, stale, 0⟩ := by
  simp [SelPoint.enter, placedTag]

theorem SelHistory.trans {c : Config} {total : Nat} {p q r : SelPoint} {es es' : List RegEvent}
    (h : SelHistory c total p es q) (h' : SelHistory c total q es' r) : SelHistory c total p (es ++ es') r := by
  induction h with
  | here => exact h'
  | clean x hk hx hn hf _ ih =>
    rw [List.append_assoc]
    exact .clean x hk hx hn hf (ih h')
  | collision x v hk hx he hf hv h1 h2 _ ih =>
    rw [List.append_assoc, List.cons_append]
    exact .collision x v hk hx he hf hv h1 h2 (ih h')
  | cascade x sak hk hl hx hs _ ih =>
    rw [List.append_assoc]
    exact .cascade x sak hk hl hx hs (ih h')

section Card
variable {c : Config} {total : Nat} {start p : SelPoint} {before : List RegEvent} {d : LevelCard} {x : LevelRun}
  (h : SelHistory c total start before p)
include h

/-- A card answers the probe of a level of which no bit was known with its four bytes (R166). -/
theorem SelHistory.probed {fifth : Byte} (hk : p.known = 0) (hx : x.probe.answers c [d.u0, d.u1, d.u2, d.u3, fifth]) :
    SelHistory c total start (before ++ x.probe.transceiveEvents c [p.sel, 0x20] 0 0)
      ⟨p.uid, p.level, d.bytes, 32⟩ := by
  obtain ⟨hc, hn, -, hbytes⟩ := hx
  have hclean := SelHistory.clean (total := total) x.probe (p := p) (by omega) hc hn
    (by simp [Exchange.fits, hbytes, SelPoint.room, hk]) (.here _)
  rw [hbytes, SelPoint.received_of_known_zero hk, SelPoint.probeEvents, SelPoint.probe, hk, List.append_nil] at hclean
  exact h.trans hclean

/-- The card answers the SELECT of its level with the cascade bit: the next level is entered (R168). -/
theorem SelHistory.selected (hb : p.bytes = d.bytes) (hk : 32 ≤ p.known) (hl : p.level < 3) (hx : x.selects c d)
    (hs : d.sak &&& 0x04 ≠ 0) : SelHistory c total start (before ++ x.selectEvents c p.sel d)
      (SelPoint.enter total p.confirmed (p.level + 1) d.bytes) := by
  have hcascade := SelHistory.cascade (total := total) x d.sak hk hl (by rwa [SelPoint.card_of_bytes hb]) hs (.here _)
  rw [SelPoint.card_of_bytes hb, hb, List.append_nil] at hcascade
  exact h.trans hcascade

end Card

section Card
variable {c : Config} {total : Nat} {uid : Uid} {p : SelPoint} {before : List RegEvent} {d : LevelCard} {x : LevelRun}
  (h : SelHistory c total (SelPoint.first total uid) before p) (hu : uid.uidByte.length = 10) (ht : total ≤ 80)
include h hu ht

/-- The card answers the SELECT of its level without the cascade bit (R168). -/
theorem SelHistory.ends_with_card (hb : p.bytes = d.bytes) (hk : 32 ≤ p.known) (hx : x.selects c d)
    (hs : d.sak &&& 0x04 = 0) : runReg c (selectProg c uid total) (before ++ x.selectEvents c p.sel d) =
      some ((⟨uidSize p.level, p.confirmed.uidByte, d.sak⟩, .ok), []) := by
  have hend := h.completes hu ht hk (by rwa [SelPoint.card_of_bytes hb]) hs
  rw [SelPoint.card_of_bytes hb] at hend
  exact hend.2

end Card

/-- A level of which no bit is known, one card, the cascade bit in its SAK (R165, R168). -/
theorem SelHistory.resolved {c : Config} {start : SelPoint} {before : List RegEvent} {u : Uid} {level : Nat}
    {stale : List Byte} {d : LevelCard} {fifth : Byte} {x : LevelRun} (h : SelHistory c 0 start before ⟨u, level, stale, 0⟩)
    (hl : level < 3) (hx : x.resolves c d fifth) (hs : d.sak &&& 0x04 ≠ 0) :
    SelHistory c 0 start (before ++ x.events c (SelPoint.sel ⟨u, level, stale, 0⟩) d)
      ⟨SelPoint.confirmed ⟨u, level, d.bytes, 32⟩, level + 1, d.bytes, 0⟩ := by
  have hnext := (h.probed rfl hx.1).selected rfl le_rfl hl hx.2 hs
  rw [SelPoint.enter_zero, List.append_assoc] at hnext
  exact hnext

/-- The same without the cascade bit: the UID is complete (R165, R168). -/
theorem SelHistory.ends_resolved {c : Config} {uid u : Uid} {before : List RegEvent} {level : Nat} {stale : List Byte}
    {d : LevelCard} {fifth : Byte} {x : LevelRun}
    (h : SelHistory c 0 (SelPoint.first 0 uid) before ⟨u, level, stale, 0⟩) (hu : uid.uidByte.length = 10)
    (hx : x.resolves c d fifth) (hs : d.sak &&& 0x04 = 0) (hplain : d.u0 ≠ 0x88) :
    runReg c (selectProg c uid 0) (before ++ x.events c (SelPoint.sel ⟨u, level, stale, 0⟩) d) =
      some ((⟨uidSize level, splice u.uidByte (3 * (level - 1)) d.bytes, d.sak⟩, .ok), []) := by
  have hend := (h.probed rfl hx.1).ends_with_card hu (Nat.zero_le _) rfl le_rfl hx.2 hs
  rw [SelPoint.confirmed_plain rfl hplain, List.append_assoc] at hend
  exact hend

/-- Before its first frame `select` with no bit known is at level 1, over zeros (R165, 92 D36). -/
theorem SelHistory.first (c : Config) (uid : Uid) :
    SelHistory c 0 (SelPoint.first 0 uid) [] ⟨uid, 1, [0, 0, 0, 0], 0⟩ := by
  rw [SelPoint.first, SelPoint.enter_zero]
  exact .here _

/-- Settles O35: level 1 completes; `readCardSerial` is the same `select` (R170). -/
theorem selectFourByteUid : Obligations.SelectFourByteUid := by
  intro d fifth x uid s l rest hu hx hplain hsak hl hs
  have hselect := select_answers hs hu ((SelHistory.first s.cfg uid).ends_resolved hu hx hsak hplain) hl
  refine ⟨hselect, ?_⟩
  rintro rfl
  obtain ⟨b, e, hafter⟩ := hselect
  obtain ⟨t, st, et, ha, hread⟩ := readCardSerialIsSelect s hu
  obtain rfl := Host.Outcome.next.inj (e.symm.trans et)
  cases ha
  exact ⟨b, hread, hafter⟩

/-- Settles O36: level 1 gives the three bytes behind its tag, level 2 completes. -/
theorem selectSevenByteUid : Obligations.SelectSevenByteUid := by
  rintro d1 d2 f1 f2 x1 x2 ⟨size, bytes, sak⟩ s l rest hu h1 h2 htag1 hsak1 hplain2 hsak2 hl hs
  have hrun := ((SelHistory.first s.cfg _).resolved (by omega) h1 hsak1).ends_resolved hu h2 hsak2 hplain2
  rw [SelPoint.confirmed_tag rfl htag1] at hrun
  obtain ⟨a, b, c, d, e, f, g, i, j, k, rfl⟩ := list_of_length_ten hu
  exact select_answers hs hu hrun hl

/-- Settles O37: levels 1 and 2 give the three bytes behind their tags, level 3 completes. -/
theorem selectTenByteUid : Obligations.SelectTenByteUid := by
  rintro d1 d2 d3 f1 f2 f3 x1 x2 x3 ⟨size, bytes, sak⟩ s l rest hu h1 h2 h3 htag1 hsak1 htag2 hsak2 hplain3 hsak3 hl hs
  have hrun := (((SelHistory.first s.cfg _).resolved (by omega) h1 hsak1).resolved (by omega) h2 hsak2).ends_resolved hu h3
    hsak3 hplain3
  rw [SelPoint.confirmed_tag rfl htag1, SelPoint.confirmed_tag rfl htag2] at hrun
  obtain ⟨a, b, c, d, e, f, g, i, j, k, rfl⟩ := list_of_length_ten hu
  exact select_answers hs hu hrun hl

/-- Settles O39: the test before the first level, and the fourth level after three. -/
theorem selectArgumentChecks : Obligations.SelectArgumentChecks := by
  refine ⟨fun uid known s hu hk => ⟨uid, ?_⟩, ?_⟩
  · rw [exec_select_eq hu, selectProg, if_pos hk]; rfl
  · intro d1 d2 d3 f1 f2 f3 x1 x2 x3 uid s l rest hu h1 h2 h3 hsak1 hsak2 hsak3 hl hs
    have hist := (((SelHistory.first s.cfg uid).resolved (by omega) h1 hsak1).resolved (by omega) h2 hsak2).probed rfl h3.1
    have hfail := selectFailures uid 0 _ _ _ _ s l rest hu (by omega) hist (.fourthLevel x3 d3.sak le_rfl rfl h3.2 hsak3)
    rw [List.append_assoc] at hfail
    exact hfail hl hs

/-! ## A card whose UID is known (R165, R166) -/

/-- Writing bytes over themselves changes nothing. -/
theorem splice_self {l bytes : List Byte} {i : Nat} (h : (l.drop i).take bytes.length = bytes) : splice l i bytes = l := by
  have hrest : bytes ++ (l.drop i).drop bytes.length = l.drop i := by
    calc bytes ++ (l.drop i).drop bytes.length
      _ = (l.drop i).take bytes.length ++ (l.drop i).drop bytes.length := by rw [h]
      _ = l.drop i := List.take_append_drop _ _
  rw [splice, ← List.drop_drop, hrest, List.take_append_drop]

theorem SelPoint.confirmed_tag_self {p : SelPoint} {d : LevelCard} (hb : p.bytes = d.bytes) (hd : d.u0 = 0x88)
    (h : (p.uid.uidByte.drop (3 * (p.level - 1))).take 3 = [d.u1, d.u2, d.u3]) : p.confirmed = p.uid := by
  have hself : splice p.uid.uidByte (3 * (p.level - 1)) [d.u1, d.u2, d.u3] = p.uid.uidByte := splice_self h
  rw [SelPoint.confirmed_tag hb hd, hself]

theorem SelPoint.confirmed_plain_self {p : SelPoint} {d : LevelCard} (hb : p.bytes = d.bytes) (hd : d.u0 ≠ 0x88)
    (h : (p.uid.uidByte.drop (3 * (p.level - 1))).take 4 = d.bytes) : p.confirmed = p.uid := by
  have hself : splice p.uid.uidByte (3 * (p.level - 1)) d.bytes = p.uid.uidByte := splice_self h
  rw [SelPoint.confirmed_plain hb hd, hself]

/-- A level entered with all its bits known and a tag placed: the tag and three bytes of the record (R165). -/
theorem SelPoint.enter_tagged {total level : Nat} {uid : Uid} {stale : List Byte} {d : LevelCard}
    (htag : placedTag level total uid.size = [0x88]) (hd : d.u0 = 0x88) (hbits : 24 ≤ total - 24 * (level - 1))
    (hbytes : (uid.uidByte.drop (3 * (level - 1))).take 3 = [d.u1, d.u2, d.u3]) (hstale : stale.length = 4) :
    SelPoint.enter total uid level stale = ⟨uid, level, d.bytes, total - 24 * (level - 1) + 8⟩ := by
  have hcopy : min ((total - 24 * (level - 1) + 7) / 8) 3 = 3 := by omega
  simp [SelPoint.enter, htag, hcopy, hbytes, LevelCard.bytes, hd, hstale]

/-- A level entered with all its bits known and no tag: four bytes of the record (R165). -/
theorem SelPoint.enter_untagged {total level : Nat} {uid : Uid} {stale : List Byte} {d : LevelCard}
    (htag : placedTag level total uid.size = []) (hbits : 32 ≤ total - 24 * (level - 1))
    (hbytes : (uid.uidByte.drop (3 * (level - 1))).take 4 = d.bytes) (hstale : stale.length = 4) :
    SelPoint.enter total uid level stale = ⟨uid, level, d.bytes, total - 24 * (level - 1)⟩ := by
  have hcopy : min ((total - 24 * (level - 1) + 7) / 8) 4 = 4 := by omega
  simp [SelPoint.enter, htag, hcopy, hbytes, LevelCard.bytes, hstale]

section Known
variable {c : Config} {total level : Nat} {uid : Uid} {before : List RegEvent} {stale : List Byte} {d : LevelCard}
  {x : LevelRun}
  (h : SelHistory c total (SelPoint.first total uid) before (SelPoint.enter total uid level stale))
  (hstale : stale.length = 4) (hx : x.selects c d)
include h hstale hx

/-- A tagged level, all bits known: its SELECT confirms the record's own bytes (R165, R168). -/
theorem SelHistory.known_tagged (htag : placedTag level total uid.size = [0x88])
    (hbits : 24 ≤ total - 24 * (level - 1))
    (hbytes : (uid.uidByte.drop (3 * (level - 1))).take 3 = [d.u1, d.u2, d.u3]) (hd : d.u0 = 0x88) (hl : level < 3)
    (hs : d.sak &&& 0x04 ≠ 0) :
    SelHistory c total (SelPoint.first total uid)
      (before ++ x.selectEvents c (SelPoint.sel ⟨uid, level, d.bytes, 0⟩) d)
      (SelPoint.enter total uid (level + 1) d.bytes) := by
  rw [SelPoint.enter_tagged htag hd hbits hbytes hstale] at h
  have hnext := h.selected rfl (by simp only; omega) hl hx hs
  rw [SelPoint.confirmed_tag_self rfl hd (by exact hbytes)] at hnext
  exact hnext

/-- A level without a tag, all bits known: the UID is complete, its bytes the record's own (R165, R168). -/
theorem SelHistory.ends_known (hu : uid.uidByte.length = 10) (ht : total ≤ 80)
    (htag : placedTag level total uid.size = []) (hbits : 32 ≤ total - 24 * (level - 1))
    (hbytes : (uid.uidByte.drop (3 * (level - 1))).take 4 = d.bytes) (hplain : d.u0 ≠ 0x88) (hs : d.sak &&& 0x04 = 0) :
    runReg c (selectProg c uid total) (before ++ x.selectEvents c (SelPoint.sel ⟨uid, level, d.bytes, 0⟩) d) =
      some ((⟨uidSize level, uid.uidByte, d.sak⟩, .ok), []) := by
  rw [SelPoint.enter_untagged htag hbits hbytes hstale] at h
  have hend := h.ends_with_card hu ht rfl hbits hx hs
  rw [SelPoint.confirmed_plain_self rfl hplain (by exact hbytes)] at hend
  exact hend

end Known

/-- Settles O38: level set-up puts the record's bytes into the command buffer, so each level is one SELECT. -/
theorem selectKnownUid : Obligations.SelectKnownUid := by
  refine ⟨?_, ?_, ?_⟩
  · intro d x size others sak s l rest hsize hothers hx hplain hsak hl hs
    have hu : ([d.u0, d.u1, d.u2, d.u3] ++ others).length = 10 := by simp [hothers]
    have hrun := (SelHistory.here (c := s.cfg) (SelPoint.first 32 ⟨size, _, sak⟩)).ends_known rfl hx hu (by omega)
      (by simp [placedTag, hsize]) (by omega) rfl hplain hsak
    exact select_answers hs hu hrun hl
  · intro d1 d2 x1 x2 others sak s l rest hothers h1 h2 htag1 hsak1 hplain2 hsak2 hl hs
    have hu : ([d1.u1, d1.u2, d1.u3, d2.u0, d2.u1, d2.u2, d2.u3] ++ others).length = 10 := by simp [hothers]
    have hlevel1 := (SelHistory.here (c := s.cfg) (SelPoint.first 56
      ⟨7, [d1.u1, d1.u2, d1.u3, d2.u0, d2.u1, d2.u2, d2.u3] ++ others, sak⟩)).known_tagged rfl h1 rfl (by omega)
      rfl htag1 (by omega) hsak1
    exact select_answers hs hu (hlevel1.ends_known rfl h2 hu (by omega) rfl (by omega) rfl hplain2 hsak2) hl
  · intro d1 d2 d3 x1 x2 x3 sak s l rest h1 h2 h3 htag1 hsak1 htag2 hsak2 hplain3 hsak3 hl hs
    have hlevel1 := (SelHistory.here (c := s.cfg) (SelPoint.first 80
      ⟨10, [d1.u1, d1.u2, d1.u3, d2.u1, d2.u2, d2.u3, d3.u0, d3.u1, d3.u2, d3.u3], sak⟩)).known_tagged rfl h1 rfl
      (by omega) rfl htag1 (by omega) hsak1
    have hlevel2 := hlevel1.known_tagged rfl h2 rfl (by omega) rfl htag2 (by omega) hsak2
    exact select_answers hs rfl (hlevel2.ends_known rfl h3 rfl (by omega) rfl (by omega) rfl hplain3 hsak3) hl

/-- Settles O45: the request, whose answer O33 gives, then the `select` of O35 (R171). -/
theorem discoverFourByteUid : Obligations.DiscoverFourByteUid := by
  intro y a0 a1 d fifth x s l rest hu hy hx hplain hsak hl hs
  obtain ⟨l1, l2, rfl, hl1, hl2⟩ := hl.split
  rw [List.append_assoc] at hs
  obtain ⟨hc, hn, hw, hbytes⟩ := hy
  obtain ⟨hreq, -⟩ := requestCompletes y s l1 (l2 ++ rest) hc hs .ok (.atqa y.bytes) _
    (.inl ⟨by simp [Exchange.fits, hbytes], rfl, .inl ⟨hn, hw, by simp [hbytes], rfl, rfl⟩⟩)
  obtain ⟨b1, e1, hs1, hev1⟩ := hreq hl1
  obtain ⟨⟨b2, e2, hs2, hev2⟩, -⟩ := selectFourByteUid d fifth x s.uid
    { s with bus := b1, answer := some (.status .ok (.atqa y.bytes)) } l2 rest hu hx hplain hsak hl2 hs1
  obtain ⟨-, hgo⟩ := discoverIsRequestThenSelect s _ .ok _ hu e1 rfl
  obtain ⟨u, st2, e2', ha, hd⟩ := hgo (.inl rfl)
  obtain rfl := Host.Outcome.next.inj (e2.symm.trans e2')
  cases ha
  exact ⟨b2, hd, hs2, by rw [hev2, hev1]; simp⟩

end Sys2Proof.Machine
end

section
/-! PROOFS. The family of 60_exceptions.md: every operation ends with its first failed register event (R200, R201), the
statuses `communicate` derives from what it reads, each from its cause (R193 to R195), and the calls that return (R190,
R199) or are refused (R203). -/

namespace Sys2Proof.Machine

open Sys2Proof

/-! ## Admitted calls (R190, R199, R203) -/

/-- The operation returns, and hands its caller a status (R190). -/
def ReturnsStatus (o : Outcome) : Prop := ∃ t, o = .next t ∧ ∃ st x, t.answer = some (.status st x)

theorem returnsStatus_of_answer {α : Type} (s : State) (f : α → Value) (x : Res α × Bus) :
    ReturnsStatus (nextOf s (Res.answer f) x) := by
  obtain ⟨v, ha⟩ := answer_eq_status f x.1
  exact ⟨_, rfl, _, v, congrArg some ha⟩

theorem returnsStatus_of_select (s : State) (f : Uid × Status → Value) (x : (Uid × Status) × Bus) :
    ReturnsStatus (nextSelect s (fun y => .status y.2 (f y)) x) := ⟨_, rfl, _, _, rfl⟩

theorem communicate_returnsStatus {command : CmdCode} {mask : Byte} {send : List Byte} {valid : Option Bits3}
    {recv : Option (List Byte)} {r : Bits3} {crc : Bool} {s : State}
    (hcmd : command = s.cfg.cmd.transceive ∨ command = s.cfg.cmd.receive) (hsend : send.length ≤ s.cfg.fifoSize) :
    ReturnsStatus (exec (.communicate command mask send valid recv r crc) s) := by
  rw [exec_communicate_eq hcmd hsend]
  exact ⟨_, rfl, _, _, rfl⟩

theorem readRegisterBurst_returnsStatus {n : Nat} {buf : List Byte} (a : RegAddr) (r : Bits3) (s : State)
    (hbuf : n ≤ buf.length) : ReturnsStatus (exec (.readRegisterBurst a n buf r) s) := by
  rw [exec_readRegisterBurst_eq a r s hbuf]
  refine ⟨_, rfl, ?_⟩
  generalize (readRegisterBurst s.cfg a n s.bus).1 = res
  cases res with
  | ok bytes => exact ⟨_, _, rfl⟩
  | err st => exact ⟨_, _, rfl⟩

theorem discoverUid_returnsStatus (s : State) : ReturnsStatus (exec .discoverUid s) := by
  obtain ⟨r, b, hr⟩ : ∃ r b, runLine s.cfg (requestProg s.cfg s.cfg.reqa) s.bus = (r, b) := ⟨_, _, rfl⟩
  cases hp : presentStatus r.status with
  | false => exact ⟨_, exec_discoverUid_absent hr hp, _, _, rfl⟩
  | true =>
    rw [exec_discoverUid_present hr hp]
    exact returnsStatus_of_select s _ _

/-- A status is handed over, unless the operation cannot fail or reports by a boolean (R190). -/
def HandsStatus (i : Instr) (t : State) : Prop :=
  i.isPrimitive = true ∨ i = .isNewCardPresent ∨ i = .readCardSerial ∨ ∃ st x, t.answer = some (.status st x)

theorem ReturnsStatus.handsStatus {i : Instr} {s : State} (h : ReturnsStatus (exec i s)) :
    ∃ t, exec i s = .next t ∧ HandsStatus i t := by
  obtain ⟨t, ht, hst⟩ := h
  exact ⟨t, ht, .inr (.inr (.inr hst))⟩

theorem exec_returns {i : Instr} {s : State} (h : i.admitted s.cfg = true) :
    ∃ t, exec i s = .next t ∧ HandsStatus i t := by
  cases i with
  | start | stop | writeByte | readByte | masterAck | masterNotAck | slaveAck => exact ⟨_, rfl, .inl rfl⟩
  | isNewCardPresent => exact ⟨_, rfl, .inr (.inl rfl)⟩
  | readCardSerial => exact ⟨_, rfl, .inr (.inr (.inl rfl))⟩
  | writeRegister | readRegister | writeRegisterBurst | setBits | clearBits | init | softReset | antennaOn | antennaOff
  | requestA | wakeupA => exact ReturnsStatus.handsStatus (returnsStatus_of_answer s _ _)
  | readRegisterBurst a n buf r => exact (readRegisterBurst_returnsStatus a r s (of_decide_eq_true h)).handsStatus
  | calculateCRC data =>
    have heq := exec_calculateCRC_eq (of_decide_eq_true h)
    exact ReturnsStatus.handsStatus (heq ▸ returnsStatus_of_answer s _ _)
  | communicate =>
    obtain ⟨hcmd, hsend⟩ : _ ∧ _ := by simpa [Instr.admitted] using h
    exact (communicate_returnsStatus hcmd hsend).handsStatus
  | transceive =>
    exact ReturnsStatus.handsStatus (exec_transceive_eq ▸ communicate_returnsStatus (.inl rfl) (of_decide_eq_true h))
  | select uid known =>
    have heq := exec_select_eq (of_decide_eq_true h) known s
    exact ReturnsStatus.handsStatus (heq ▸ returnsStatus_of_select s _ _)
  | discoverUid => exact (discoverUid_returnsStatus s).handsStatus

/-- A call that is not admitted is refused (R203). -/
theorem exec_refused {i : Instr} {s : State} (h : i.admitted s.cfg = false) : ∃ why, exec i s = .refused why := by
  cases i with
  | readRegisterBurst a n buf r =>
    exact ⟨_, exec_readRegisterBurst_tooShort a r s (by simpa [Instr.admitted] using h)⟩
  | calculateCRC data => exact ⟨_, exec_calculateCRC_tooLong (by simpa [Instr.admitted] using h)⟩
  | communicate command mask send =>
    by_cases hcmd : command = s.cfg.cmd.transceive ∨ command = s.cfg.cmd.receive
    · exact ⟨_, exec_communicate_tooLong hcmd (by simpa [Instr.admitted, hcmd] using h)⟩
    · obtain ⟨ht, hr⟩ := not_or.1 hcmd
      exact ⟨_, exec_communicate_otherCode ht hr⟩
  | transceive send =>
    exact ⟨_, exec_transceive_eq.trans (exec_communicate_tooLong (.inl rfl) (by simpa [Instr.admitted] using h))⟩
  | select uid known => exact ⟨_, exec_select_badRecord known s (of_decide_eq_false h)⟩
  | _ => cases h

theorem admitted_of_exec_next {i : Instr} {s t : State} (h : exec i s = .next t) : i.admitted s.cfg = true := by
  by_contra hn
  obtain ⟨why, hw⟩ := exec_refused (Bool.eq_false_iff.2 hn)
  cases h.symm.trans hw

/-! ## Programs that end with their first failed event (R200, R201) -/

theorem ackFailStatus_cases (c : Config) : ackFailStatus c = .error ∨ ackFailStatus c = .timeout := by
  rw [ackFailStatus]
  cases c.ackFail with
  | error => exact .inl rfl
  | timeout => exact .inr rfl

theorem presentStatus_ackFail (c : Config) : presentStatus (ackFailStatus c) = false := by
  obtain h | h := ackFailStatus_cases c <;> rw [h] <;> rfl

theorem Prog.Strict.ite {α : Type} {c : Config} {B : α → Prop} {P : Prop} [Decidable P] {p q : Prog α}
    (hp : p.Strict c B) (hq : q.Strict c B) : (if P then p else q).Strict c B := by
  split
  · exact hp
  · exact hq

/-- A program that raises on what a strict exchange ends with when its status is neither OK nor a collision. -/
theorem Prog.Strict.bindStatus {β : Type} {c : Config} {p : Prog (Status × Option Reply)}
    {f : Status × Option Reply → Prog (Res β)} (h : p.Strict c fun x => x.1 = ackFailStatus c)
    (hraise : ∀ st reply, st = .error ∨ st = .timeout → f (st, reply) = Prog.raise st)
    (hf : ∀ st reply, (f (st, reply)).Strict c (AckFailed c)) : (p.bind f).Strict c (AckFailed c) := by
  refine h.bind ?_ fun x => hf x.1 x.2
  rintro ⟨_, reply⟩ rfl
  exact ⟨_, hraise _ reply (ackFailStatus_cases c), rfl⟩

theorem strict_done {α : Type} {c : Config} {B : Res α → Prop} (v : α) : (Prog.done v).Strict c B := trivial

theorem strict_raise {α : Type} {c : Config} {B : Res α → Prop} (st : Status) :
    (Prog.raise st : Prog (Res α)).Strict c B := trivial

section Programs
variable (c : Config)

theorem strict_setBits (a : RegAddr) (m : Byte) : (setBitsProg a m).Strict c (AckFailed c) :=
  (strict_read c a).tryBind fun _ => strict_write c a _

theorem strict_clearBits (a : RegAddr) (m : Byte) : (clearBitsProg a m).Strict c (AckFailed c) :=
  (strict_read c a).tryBind fun _ => strict_write c a _

theorem strict_antennaOn : (antennaOnProg c).Strict c (AckFailed c) :=
  (strict_read c _).tryBind fun _ => .ite (strict_done ()) (strict_write c _ _)

theorem strict_antennaOff : (antennaOffProg c).Strict c (AckFailed c) :=
  (strict_read c _).tryBind fun _ => .ite (strict_done ()) (strict_write c _ _)

theorem strict_resetPoll (n : Nat) : (resetPoll c n).Strict c (AckFailed c) := by
  induction n with
  | zero => exact strict_raise _
  | succ n ih => exact (strict_read c c.reg.command).tryBind fun _ => .ite ih (strict_done ())

theorem strict_softReset : (softResetProg c).Strict c (AckFailed c) :=
  (strict_write c _ _).tryBind fun _ => strict_resetPoll c _

theorem strict_writeAll (l : List (RegAddr × Byte)) : (Prog.writeAll l).Strict c (AckFailed c) := by
  induction l with
  | nil => exact strict_done ()
  | cons p l ih => exact (strict_write c _ _).tryBind fun _ => ih

theorem strict_init : (initProg c).Strict c (AckFailed c) :=
  (strict_softReset c).tryBind fun _ => (strict_writeAll c _).tryBind fun _ => strict_antennaOn c

theorem strict_pollCrcDone (n : Nat) : (pollCrcDone c n).Strict c (AckFailed c) := by
  induction n with
  | zero => exact strict_raise _
  | succ n ih =>
    exact (strict_read c _).tryBind fun _ =>
      .ite ((strict_read c _).tryBind fun _ => (strict_read c _).tryBind fun _ => strict_done _) ih

theorem strict_calculateCRC (data : List Byte) : (calculateCRCProg c data).Strict c (AckFailed c) :=
  (strict_write c _ _).tryBind fun _ => (strict_write c _ _).tryBind fun _ => (strict_write c _ _).tryBind fun _ =>
  (strict_writeBurst c _ _).tryBind fun _ => (strict_write c _ _).tryBind fun _ => strict_pollCrcDone c _

theorem strict_prepare (command : CmdCode) (send : List Byte) (lastBits rxAlign : Bits3) :
    (prepareProg c command send lastBits rxAlign).Strict c (AckFailed c) :=
  (strict_write c _ _).tryBind fun _ => (strict_write c _ _).tryBind fun _ => (strict_write c _ _).tryBind fun _ =>
  (strict_writeBurst c _ _).tryBind fun _ => (strict_write c _ _).tryBind fun _ => (strict_write c _ _).tryBind fun _ =>
  .ite (strict_setBits c _ _) (strict_done ())

theorem strict_pollIrq (mask : Byte) (n : Nat) : (pollIrq c mask n).Strict c (AckFailed c) := by
  induction n with
  | zero => exact strict_raise _
  | succ n ih => exact (strict_read c _).tryBind fun _ => .ite (strict_done ()) (.ite (strict_raise _) ih)

theorem strict_retrieve (recv : Option (List Byte)) (rxAlign : Bits3) :
    (retrieveProg c recv rxAlign).Strict c (AckFailed c) := by
  cases recv with
  | none => exact strict_done none
  | some buf =>
    exact (strict_read c _).tryBind fun _ => .ite (strict_raise _) <|
      (strict_readBurst c _ _).tryBind fun _ => (strict_read c _).tryBind fun _ => strict_done _

theorem strict_exchange (command : CmdCode) (mask : Byte) (send : List Byte) (valid : Option Bits3)
    (recv : Option (List Byte)) (rxAlign : Bits3) :
    (exchangeProg c command mask send valid recv rxAlign).Strict c (AckFailed c) :=
  (strict_prepare c _ _ _ _).tryBind fun _ => (strict_pollIrq c _ _).tryBind fun _ => (strict_read c _).tryBind fun _ =>
  .ite (strict_raise _) ((strict_retrieve c _ _).tryBind fun _ => strict_done _)

theorem strict_checkReply (reply : Reply) : (checkReplyProg c reply).Strict c (AckFailed c) :=
  .ite (strict_raise _) <| .ite (strict_raise _) <| (strict_calculateCRC c _).tryBind fun _ =>
    .ite (strict_raise _) (strict_done ())

theorem strict_validate (crc : Bool) (err : Byte) (reply : Option Reply) :
    (validateProg c crc err reply).Strict c (AckFailed c) := by
  refine .ite (strict_raise _) ?_
  cases reply with
  | none => exact strict_done ()
  | some r => exact .ite (strict_checkReply c r) (strict_done ())

/-- A failed event ends `communicate` with its status, whatever is stored by then (R145). -/
theorem strict_communicate (command : CmdCode) (mask : Byte) (send : List Byte) (valid : Option Bits3)
    (recv : Option (List Byte)) (rxAlign : Bits3) (crc : Bool) :
    (communicateProg c command mask send valid recv rxAlign crc).Strict c fun x => x.1 = ackFailStatus c := by
  refine (strict_exchange c command mask send valid recv rxAlign).bind ?_ fun r => ?_
  · rintro _ rfl
    exact ⟨_, rfl, rfl⟩
  · cases r with
    | err st => trivial
    | ok p =>
      refine (strict_validate c crc p.1 p.2).bind ?_ fun _ => trivial
      rintro _ rfl
      exact ⟨_, rfl, rfl⟩

/-- A failed event ends a request (43_card_discovery.md R160). -/
theorem strict_request (frame : Byte) : (requestProg c frame).Strict c (AckFailed c) := by
  refine (strict_communicate c _ _ _ _ _ _ _).bindStatus ?_ fun st reply => ?_
  · rintro _ _ (rfl | rfl) <;> rfl
  · cases st with
    | ok =>
      cases reply with
      | none => exact strict_raise _
      | some r => exact .ite (strict_raise _) (strict_done _)
    | _ => exact strict_raise _

theorem strict_nextFrame (buf : List Byte) (known : Nat) : (nextFrameProg c buf known).Strict c (AckFailed c) :=
  .ite ((strict_calculateCRC c _).tryBind fun _ => strict_done _) (strict_done _)

theorem strict_collision (known : Nat) : (collisionProg c known).Strict c (AckFailed c) :=
  (strict_read c _).tryBind fun _ => .ite (strict_raise _) (.ite (strict_raise _) (strict_done _))

theorem strict_antiCollision (fuel : Nat) (buf : List Byte) (known : Nat) :
    (antiCollision c fuel buf known).Strict c (AckFailed c) := by
  induction fuel generalizing buf known with
  | zero => exact strict_raise _
  | succ fuel ih =>
    refine (strict_nextFrame c buf known).tryBind fun f =>
      (strict_communicate c _ _ _ _ _ _ _).bindStatus ?_ fun st reply => ?_
    · rintro _ _ (rfl | rfl) <;> rfl
    · cases st with
      | ok => exact .ite (strict_done _) (ih _ _)
      | collision => exact (strict_collision c known).tryBind fun _ => ih _ _
      | _ => exact strict_raise _

theorem strict_checkSak (r : LevelReply) : (checkSakProg c r).Strict c (AckFailed c) :=
  .ite (strict_raise _) ((strict_calculateCRC c _).tryBind fun _ => .ite (strict_raise _) (strict_done ()))

theorem strict_selectLevels (total left level : Nat) (uid : Uid) (buf : List Byte) :
    (selectLevels c total left level uid buf).Strict c fun x => x.2 = ackFailStatus c := by
  induction left generalizing level uid buf with
  | zero => trivial
  | succ left ih =>
    refine (strict_antiCollision c _ _ _).bind ?_ fun r => ?_
    · rintro _ rfl
      exact ⟨_, rfl, rfl⟩
    · cases r with
      | err st => trivial
      | ok r =>
        refine (strict_checkSak c r).bind ?_ fun q => ?_
        · rintro _ rfl
          exact ⟨_, rfl, rfl⟩
        · cases q with
          | err st => trivial
          | ok _ => exact .ite (ih _ _ _) trivial

theorem strict_select (uid : Uid) (known : Nat) :
    (selectProg c uid known).Strict c fun x => x.2 = ackFailStatus c :=
  .ite trivial (strict_selectLevels c _ _ _ _ _)

/-- A failed event of the request is no card present, so nothing follows it (43_card_discovery.md R171). -/
theorem strict_discover (uid : Uid) : (discoverProg c uid).Strict c fun x => x.2 = ackFailStatus c := by
  refine (strict_request c _).bind ?_ fun r => ?_
  · rintro _ rfl
    exact ⟨_, if_neg (by simp [Res.status, presentStatus_ackFail]), rfl⟩
  · refine .ite ((strict_select c uid 0).bind ?_ fun _ => trivial) trivial
    rintro p hp
    exact ⟨_, rfl, hp⟩

end Programs

/-! ## The last event of an operation and its answer (R200, R201) -/

/-- An answer that reports a missing acknowledge. -/
def ReportsAckFail (c : Config) (a : Option Answer) : Prop :=
  a = some (.flag false) ∨ ∃ x, a = some (.status (ackFailStatus c) x)

/-- An operation whose first failed event, if any, is its last and is reported. -/
def StopsAtFailure (s t : State) : Prop := StrictRun (ReportsAckFail s.cfg) s.bus (t.answer, t.bus)

/-- The answer of a strict run. -/
theorem StrictRun.map {α β : Type} {B : α → Prop} {B' : β → Prop} {b : Bus} {x : α × Bus} (h : StrictRun B b x)
    {w : β} (hw : B x.1 → B' w) : StrictRun B' b (w, x.2) := by
  obtain ⟨es, h1, h2⟩ | ⟨e, es, h1, h2, h3⟩ := h
  · exact .inl ⟨es, h1, h2⟩
  · exact .inr ⟨e, es, h1, h2, hw h3⟩

/-- A failed event of a strict run is its last one. -/
theorem StrictRun.failed_is_last {α : Type} {B : α → Prop} {b : Bus} {x : α × Bus} (h : StrictRun B b x)
    {later earlier : List RegEvent} {e : RegEvent} (hev : x.2.events = later ++ e :: (earlier ++ b.events))
    (he : e.failed = true) : later = [] ∧ B x.1 := by
  have hnew : later ++ e :: (earlier ++ b.events) = (later ++ e :: earlier) ++ b.events := by simp
  obtain ⟨es, h1, h2⟩ | ⟨e', es, h1, h2, h3⟩ := h
  · have hes : es = later ++ e :: earlier := List.append_cancel_right (h1.symm.trans (hev.trans hnew))
    exact absurd he (by simp [h2 e (by simp [hes])])
  · have hes : e' :: es = later ++ e :: earlier := List.append_cancel_right (h1.symm.trans (hev.trans hnew))
    cases later with
    | nil => exact ⟨rfl, h3⟩
    | cons e'' later =>
      obtain ⟨-, rfl⟩ := List.cons.inj hes
      exact absurd he (by simp [h2 e (by simp)])

theorem reportsAckFail_of_status {c : Config} {st : Status} (x : Value) (h : st = ackFailStatus c) :
    ReportsAckFail c (some (.status st x)) := .inr ⟨x, by rw [h]⟩

theorem reportsAckFail_of_answer {α : Type} {c : Config} (f : α → Value) {r : Res α} (h : AckFailed c r) :
    ReportsAckFail c (some (r.answer f)) := by
  obtain rfl : r = .err (ackFailStatus c) := h
  exact reportsAckFail_of_status _ rfl

/-- An operation that answers with what a strict program ends with. -/
theorem stopsAtFailure_of_run {α : Type} {s t : State} {B : α → Prop} {p : Prog α} {f : α → Answer}
    (hp : p.Strict s.cfg B) (hf : ∀ v, B v → ReportsAckFail s.cfg (some (f v)))
    (h : nextFrom s f (runLine s.cfg p s.bus) = .next t) : StopsAtFailure s t := by
  cases h
  exact (runLine_strict hp s.bus).map (hf _)

theorem stopsAtFailure_of_answer {α : Type} {s t : State} {p : Prog (Res α)} {f : α → Value}
    (hp : p.Strict s.cfg (AckFailed s.cfg)) (h : nextFrom s (Res.answer f) (runLine s.cfg p s.bus) = .next t) :
    StopsAtFailure s t := stopsAtFailure_of_run hp (fun _ => reportsAckFail_of_answer f) h

/-- An operation whose strict program ends with a status, and whose answer reports that status. -/
theorem stopsAtFailure_of_status {α : Type} {s t : State} {p : Prog (α × Status)} {o : α} {st : Status} {b : Bus}
    (hp : p.Strict s.cfg fun x => x.2 = ackFailStatus s.cfg) (hr : runLine s.cfg p s.bus = ((o, st), b))
    (hb : t.bus = b) (ha : st = ackFailStatus s.cfg → ReportsAckFail s.cfg t.answer) : StopsAtFailure s t := by
  have hrun := runLine_strict hp s.bus
  rw [hr] at hrun
  subst hb
  exact hrun.map ha

theorem communicate_stopsAtFailure {command : CmdCode} {mask : Byte} {send : List Byte} {valid : Option Bits3}
    {recv : Option (List Byte)} {r : Bits3} {crc : Bool} {s t : State}
    (h : exec (.communicate command mask send valid recv r crc) s = .next t) : StopsAtFailure s t := by
  obtain ⟨hcmd, hsend⟩ : _ ∧ _ := by simpa [Instr.admitted] using admitted_of_exec_next h
  rw [exec_communicate_eq hcmd hsend] at h
  exact stopsAtFailure_of_run (strict_communicate s.cfg _ _ _ _ _ _ _) (fun _ => reportsAckFail_of_status _) h

/-- Every operation, from the strictness of its program. -/
theorem exec_stopsAtFailure {i : Instr} {s t : State} (h : exec i s = .next t) : StopsAtFailure s t := by
  cases i with
  | start | stop | writeByte | readByte | masterAck | masterNotAck | slaveAck =>
    exact .inl ⟨[], by rw [exec_primitive_bus rfl h, primitiveBus_events]; rfl, by simp⟩
  | writeRegister a v => exact stopsAtFailure_of_answer (strict_write s.cfg a v) h
  | readRegister a => exact stopsAtFailure_of_answer (strict_read s.cfg a) h
  | writeRegisterBurst a bytes => exact stopsAtFailure_of_answer (strict_writeBurst s.cfg a bytes) h
  | readRegisterBurst a n buf r =>
    rw [exec_readRegisterBurst_eq a r s (of_decide_eq_true (admitted_of_exec_next h))] at h
    refine stopsAtFailure_of_run (strict_readBurst s.cfg a n) ?_ h
    rintro _ rfl
    exact reportsAckFail_of_status _ rfl
  | setBits a m => exact stopsAtFailure_of_answer (strict_setBits s.cfg a m) h
  | clearBits a m => exact stopsAtFailure_of_answer (strict_clearBits s.cfg a m) h
  | init => exact stopsAtFailure_of_answer (strict_init s.cfg) h
  | softReset => exact stopsAtFailure_of_answer (strict_softReset s.cfg) h
  | antennaOn => exact stopsAtFailure_of_answer (strict_antennaOn s.cfg) h
  | antennaOff => exact stopsAtFailure_of_answer (strict_antennaOff s.cfg) h
  | calculateCRC data =>
    rw [exec_calculateCRC_eq (of_decide_eq_true (admitted_of_exec_next h))] at h
    exact stopsAtFailure_of_answer (strict_calculateCRC s.cfg data) h
  | communicate => exact communicate_stopsAtFailure h
  | transceive =>
    rw [exec_transceive_eq] at h
    exact communicate_stopsAtFailure h
  | requestA => exact stopsAtFailure_of_answer (strict_request s.cfg _) h
  | wakeupA => exact stopsAtFailure_of_answer (strict_request s.cfg _) h
  | isNewCardPresent =>
    rw [exec_isNewCardPresent_eq] at h
    refine stopsAtFailure_of_run (strict_request s.cfg s.cfg.reqa) ?_ h
    rintro _ rfl
    exact .inl (by simp [Res.status, presentStatus_ackFail])
  | select uid known =>
    cases exec_finishes h with
    | plain _ b a hi => cases hi
    | select _ u _ st b hu hr =>
      exact stopsAtFailure_of_status (strict_select s.cfg uid known) hr rfl (reportsAckFail_of_status _)
  | readCardSerial =>
    cases exec_finishes h with
    | plain _ b a hi => cases hi
    | readCardSerial u st b hr =>
      refine stopsAtFailure_of_status (strict_select s.cfg s.uid 0) hr rfl fun hst => .inl ?_
      simp [hst, ackFailStatus_ne_ok]
  | discoverUid =>
    have hstrict := strict_discover s.cfg s.uid
    cases exec_finishes h with
    | plain _ b a hi => cases hi
    | unanswered st b hr => exact stopsAtFailure_of_status hstrict hr rfl (reportsAckFail_of_status _)
    | discovered u b hr =>
      exact stopsAtFailure_of_status hstrict hr rfl fun hst => absurd hst.symm (ackFailStatus_ne_ok s.cfg)
    | unselected u st b hne hr => exact stopsAtFailure_of_status hstrict hr rfl (reportsAckFail_of_status _)

/-! ## The wait for the chip ends in a timeout (R193) -/

theorem runReg_softReset_timeout (c : Config) {reads : List Byte} (hn : reads.length = c.resetPollMax)
    (hm : ∀ v ∈ reads, v &&& c.fld.powerDown ≠ 0) :
    runReg c (softResetProg c) (resetEvents c reads) = some (.err .timeout, []) := by
  rw [softResetProg, resetEvents, commandByte, runReg_try_write, ← hn]
  simpa using runReg_resetPoll_timeout c reads [] hm

section Brought
variable {s : State} {l rest : List Level} (hs : s.bus.samples = l ++ rest)
include hs

section Exchange
variable {command : CmdCode} {mask : Byte} {send : List Byte} {r : Bits3}
  (hcmd : command = s.cfg.cmd.transceive ∨ command = s.cfg.cmd.receive) (hsend : send.length ≤ s.cfg.fifoSize)
include hcmd hsend

/-- A wait for completion that times out ends `communicate` with nothing stored (R193). -/
theorem communicate_timeout (valid : Option Bits3) (recv : Option (List Byte)) (crc : Bool) (framing : Byte)
    {es : List RegEvent} (hp : runReg s.cfg (pollIrq s.cfg mask s.cfg.irqPollMax) es = some (.err .timeout, []))
    (hl : Brings s.cfg (prepareEvents s.cfg command send (valid.getD 0) r framing ++ es) l) :
    ∃ b, exec (.communicate command mask send valid recv r crc) s = .next (s.finish b (.status .timeout .empty)) ∧
      b.samples = rest ∧
      b.events = (prepareEvents s.cfg command send (valid.getD 0) r framing ++ es).reverse ++ s.bus.events :=
  communicate_answers hs (reply := none) hcmd hsend (runReg_communicate_err (runReg_exchange_unanswered framing hp)) hl

/-! ## Statuses raised after the response is stored (R194, R195) -/

/-- An exchange with a response buffer whose validation ends with `res`: the response is handed over with the status of
`res`, merged into the buffer (42_reader_control.md R145). -/
theorem communicate_validated {x : Exchange} (hx : x.completes s.cfg mask) (valid : Option Bits3) {crc : Bool}
    {buf : List Byte} (hfit : x.fits buf.length) {es : List RegEvent} {res : Res Unit}
    (hv : runReg s.cfg (validateProg s.cfg crc x.err (some (x.reply s.cfg buf r))) es = some (res, []))
    (hl : Brings s.cfg (x.events s.cfg command send (valid.getD 0) r ++ es) l) :
    ∃ b, exec (.communicate command mask send valid (some buf) r crc) s =
        .next (s.finish b (.status res.status (.response (storeBurst r buf x.bytes) x.bytes.length
          (valid.map fun _ => (x.ctl &&& s.cfg.fld.rxLastBits).setWidth 3)))) ∧
      b.samples = rest ∧
      b.events = (x.events s.cfg command send (valid.getD 0) r ++ es).reverse ++ s.bus.events :=
  communicate_answers hs (reply := some (x.reply s.cfg buf r)) hcmd hsend
    ((runReg_communicate s.cfg command mask send valid buf r crc x es hx hfit).trans (runReg_seq hv)) hl

/-- A collision without a response buffer is raised right after the read of `ERROR` (R195). -/
theorem communicate_collision_without_buffer {x : Exchange} (hx : x.completes s.cfg mask)
    (he : x.err &&& s.cfg.fld.errColl ≠ 0) (valid : Option Bits3) (crc : Bool)
    (hl : Brings s.cfg (x.waitEvents s.cfg command send (valid.getD 0) r) l) :
    ∃ b, exec (.communicate command mask send valid none r crc) s = .next (s.finish b (.status .collision .empty)) ∧
      b.samples = rest ∧ b.events = (x.waitEvents s.cfg command send (valid.getD 0) r).reverse ++ s.bus.events := by
  have hrun := fun es' => runReg_communicate_none s.cfg command mask send valid r crc x es' hx
  rw [validate_collision crc none he] at hrun
  exact communicate_answers hs (reply := none) hcmd hsend (runReg_whole hrun) hl

end Exchange
end Brought

/-- A response too short or not of whole bytes fails the check before any CRC is computed (R194, 42_reader_control.md
R145 step 6). -/
theorem checkReply_malformed (c : Config) {reply : Reply} (h : reply.recvLen < 2 ∨ reply.lastBits ≠ 0) :
    checkReplyProg c reply =
      Prog.raise (if reply.recvLen = 1 ∧ reply.lastBits = 4 then .mifareNack else .crcWrong) := by
  rw [checkReplyProg, if_pos h]
  split <;> rfl

/-- A response of whole bytes whose last two are not the co-processor's (R194, 42_reader_control.md R145 step 6). -/
theorem runReg_checkReply_mismatch {c : Config} {reply : Reply} {y : CrcRun} (es : List RegEvent)
    (hlen : 2 ≤ reply.recvLen) (hcap : reply.recvLen ≤ reply.recv.length) (hbits : reply.lastBits = 0)
    (hy : y.completes c)
    (hne : reply.recv[reply.recvLen - 2]? ≠ some y.lo ∨ reply.recv[reply.recvLen - 1]? ≠ some y.hi) :
    runReg c (checkReplyProg c reply) (y.events c (reply.recv.take (reply.recvLen - 2)) ++ es) =
      some (.err .crcWrong, es) := by
  rw [ne_eq, ne_eq, getElem?_byteAt _ _ _ (by omega), getElem?_byteAt _ _ _ (by omega)] at hne
  rw [checkReplyProg, if_neg (by omega), if_neg (by simp [hbits]; omega)]
  refine (runReg_try (runReg_calculateCRC c _ y es hy)).trans ?_
  rw [if_pos hne]
  rfl

/-! ## The obligations -/

/-- Settles O53: every operation above the primitives is a run of a strict program, whose failed event is its last. -/
theorem failureEndsOperation : Obligations.FailureEndsOperation := by
  intro i s t later e earlier h hev hfailed
  have he : e.failed = true := by
    obtain ⟨a, rfl⟩ | ⟨a, v, rfl⟩ | ⟨a, bytes, rfl⟩ | ⟨a, n, rfl⟩ := hfailed <;> rfl
  rw [← ackFailStatus_eq]
  exact (exec_stopsAtFailure h).failed_is_last hev he

/-- Settles O55: each admitted operation runs to its answer, each other call fails the test of its operands. -/
theorem everyAdmittedCallReturns : Obligations.EveryAdmittedCallReturns := fun _ _ => ⟨exec_returns, exec_refused⟩

/-- Settles O30: the bounded loops end by their bound, the wait for completion also by the chip's timer. -/
theorem timeoutCauses : Obligations.TimeoutCauses := by
  refine fun reads s l rest hs => ⟨fun hn hm hl => ?_, fun data hdata hn hm hl => ?_, ?_, ?_⟩
  · rw [exec_softReset_eq]
    exact runLine_answers hs (Res.answer fun _ => .empty) (runReg_softReset_timeout s.cfg hn hm) hl
  · rw [exec_calculateCRC_eq hdata]
    exact runLine_answers hs _ (runReg_calculateCRC_timeout s.cfg data hm hn) hl
  · intro command mask framing hit send valid recv r crc hsend hcmd hm hn hmask htimer hl
    have hp := runReg_whole fun es' => runReg_pollIrq_timer s.cfg mask _ reads hit es' hn hm hmask htimer
    exact communicate_timeout hs hcmd hsend valid recv crc framing hp hl
  · intro command mask framing send valid recv r crc hsend hcmd hm hn hl
    have hp := runReg_whole fun es' => runReg_pollIrq_timeout s.cfg mask reads es' hm
    rw [hn] at hp
    exact communicate_timeout hs hcmd hsend valid recv crc framing hp hl

/-- Settles O29: the validation raises the collision before any CRC check, once the response is stored. -/
theorem collisionKeepsResponse : Obligations.CollisionKeepsResponse := by
  intro command mask send valid r crc x s l rest hsend hcmd hx he hs
  refine ⟨fun buf hfit hl => ?_, communicate_collision_without_buffer hs hcmd hsend hx he valid crc⟩
  have hv := validate_collision crc (some (x.reply s.cfg buf r)) he
  obtain ⟨b, e, hrest, hev⟩ := communicate_validated hs hcmd hsend hx valid (es := []) hfit
    (by rw [hv]; rfl) (by simpa using hl)
  exact ⟨b, _, e, storeBurst_merged r buf x.bytes hfit.2, hrest, by simpa using hev⟩

/-- Settles O28: the error byte and the level end the exchange with nothing stored; the checks of step 6 raise their
status over the response stored. -/
theorem communicateStatusCauses : Obligations.CommunicateStatusCauses := by
  intro command mask send valid r x s l rest hsend hcmd hs
  refine ⟨fun recv crc hx he hl => ?_, fun buf crc level hx hlevel hl => ?_, fun buf hx hno hfit hl hbad => ?_,
    fun buf out y hx hno hwhole hfit hlen hout hy hne hl => ?_⟩
  · obtain ⟨b, e, hrest, -⟩ := communicate_answers hs (reply := none) (crc := crc) hcmd hsend
      (runReg_communicate_err (recv := recv) (runReg_exchange_fatal hx he)) hl
    exact ⟨b, e, hrest⟩
  · obtain ⟨b, e, hrest, -⟩ := communicate_answers hs (reply := none) (crc := crc) hcmd hsend
      (runReg_communicate_err (runReg_exchange_noRoom hx hlevel)) hl
    exact ⟨b, e, hrest⟩
  · have hv := (validate_checks_reply (x.reply s.cfg buf r) hno).trans (checkReply_malformed s.cfg hbad)
    obtain ⟨b, e, hrest, -⟩ := communicate_validated hs hcmd hsend hx valid (es := []) hfit
      (by rw [hv]; rfl) (by simpa using hl)
    exact ⟨b, _, e, storeBurst_merged r buf x.bytes hfit.2, hrest⟩
  · have hmerged := storeBurst_merged r buf x.bytes hfit.2
    obtain rfl := merged_unique r buf x.bytes _ _ hout hmerged
    have hbits : (x.reply s.cfg buf r).lastBits = 0 := hwhole
    have hcap : x.bytes.length ≤ (storeBurst r buf x.bytes).length := hmerged.1.symm ▸ hfit.2
    have hv := runReg_whole fun es' =>
      runReg_checkReply_mismatch (reply := x.reply s.cfg buf r) es' hlen hcap hbits hy hne
    rw [← validate_checks_reply _ hno] at hv
    obtain ⟨b, e, hrest, -⟩ := communicate_validated hs hcmd hsend hx valid hfit hv hl
    refine ⟨b, e.trans ?_, hrest⟩
    rw [show (x.ctl &&& s.cfg.fld.rxLastBits).setWidth 3 = (0 : Bits3) from hwhole]
    rfl

end Sys2Proof.Machine
end

section
/-! PROOFS. The family of 70_reset_and_hazards.md: what reset leaves (R221), the lines between operations (R222), the line
state an operation starts from (R220), and the line actions and least durations of the register operations (R241). -/

namespace Sys2Proof.Machine

open Sys2Proof

/-! ## Every operation above the primitives is a run that begins with a register event

Of the sequences of 42_reader_control.md only `softReset` waits, and it does so after its first write (R131). -/

/-- The program does not begin with a wait. -/
def Prog.Opens {α : Type} : Prog α → Prop
  | .ret _ => True
  | .rd _ _ => True
  | .wr _ _ _ => True
  | .wrb _ bytes k => bytes = [] → (k (.ok ())).Opens
  | .rdb _ n k => n = 0 → (k (.ok [])).Opens
  | .hold _ _ => False

theorem Prog.Opens.bind {α β : Type} {p : Prog α} {f : α → Prog β} (h : p.Opens) (hf : ∀ v, (f v).Opens) :
    (p.bind f).Opens := by
  induction p with
  | ret v => exact hf v
  | rd | wr => exact True.intro
  | wrb a bytes k ih => exact fun hb => ih _ (h hb)
  | rdb a n k ih => exact fun hn => ih _ (h hn)
  | hold => exact h

theorem Prog.Opens.tryBind {α β : Type} {p : Prog (Res α)} {f : α → Prog (Res β)} (h : p.Opens)
    (hf : ∀ v, (f v).Opens) : (p.tryBind f).Opens :=
  h.bind fun r => by
    cases r with
    | ok v => exact hf v
    | err st => exact True.intro

theorem opens_nextFrame (c : Config) (buf : List Byte) (known : Nat) : (nextFrameProg c buf known).Opens := by
  rw [nextFrameProg]
  split <;> exact True.intro

theorem opens_antiCollision (c : Config) (fuel : Nat) (buf : List Byte) (known : Nat) :
    (antiCollision c fuel buf known).Opens := by
  cases fuel with
  | zero => exact True.intro
  | succ fuel => exact (opens_nextFrame c buf known).tryBind fun _ => True.intro

theorem opens_checkSak (c : Config) (r : LevelReply) : (checkSakProg c r).Opens := by
  rw [checkSakProg]
  split <;> exact True.intro

theorem opens_selectLevels (c : Config) (total left level : Nat) (uid : Uid) (buf : List Byte) :
    (selectLevels c total left level uid buf).Opens := by
  induction left generalizing level uid buf with
  | zero => exact True.intro
  | succ left ih =>
    refine (opens_antiCollision c _ _ _).bind fun r => ?_
    cases r with
    | err st => exact True.intro
    | ok r =>
      refine (opens_checkSak c r).bind fun q => ?_
      cases q with
      | err st => exact True.intro
      | ok _ =>
        dsimp only
        split
        · exact ih _ _ _
        · exact True.intro

theorem opens_select (c : Config) (uid : Uid) (known : Nat) : (selectProg c uid known).Opens := by
  rw [selectProg]
  split
  · exact True.intro
  · exact opens_selectLevels c _ _ _ _ _

/-- The state with another bus. -/
def State.on (s : State) (b : Bus) : State := { s with bus := b }

@[simp] theorem State.on_cfg (s : State) (b : Bus) : (s.on b).cfg = s.cfg := rfl
@[simp] theorem State.on_bus (s : State) (b : Bus) : (s.on b).bus = b := rfl
@[simp] theorem State.on_uid (s : State) (b : Bus) : (s.on b).uid = s.uid := rfl

/-- From `s`, whatever its bus, the operation runs `p` and hands over what `f` makes of how the run ends. -/
def RunsAs {α : Type} (i : Instr) (s : State) (p : Prog α) (f : α → State) : Prop :=
  ∀ b, exec i (s.on b) = .next ((f (runLine s.cfg p b).1).on (runLine s.cfg p b).2)

/-- The operation is one run of a program that does not begin with a wait. -/
def IsRun (i : Instr) (s : State) : Prop := ∃ (α : Type) (p : Prog α) (f : α → State), p.Opens ∧ RunsAs i s p f

theorem isRun_of_nextFrom {α : Type} {i : Instr} {s : State} (p : Prog α) (f : α → Answer) (hp : p.Opens)
    (h : ∀ b, exec i (s.on b) = nextFrom (s.on b) f (runLine s.cfg p b)) : IsRun i s :=
  ⟨α, p, fun v => s.finish s.bus (f v), hp, h⟩

/-- An operation that hands over the result of its run. -/
theorem isRun_of_nextOf {α : Type} {i : Instr} {s : State} (p : Prog (Res α)) (f : α → Value) (hp : p.Opens)
    (h : ∀ b, exec i (s.on b) = nextOf (s.on b) (Res.answer f) (runLine s.cfg p b)) : IsRun i s :=
  isRun_of_nextFrom p (Res.answer f) hp h

theorem isRun_of_nextSelect {i : Instr} {s : State} {p : Prog (Uid × Status)} (f : Uid × Status → Answer) (hp : p.Opens)
    (h : ∀ b, exec i (s.on b) = nextSelect (s.on b) f (runLine s.cfg p b)) : IsRun i s :=
  ⟨_, p, fun v => (s.withUid v.1 v.2).finish s.bus (f v), hp, h⟩

theorem IsRun.congr {i j : Instr} {s : State} (hj : IsRun j s)
    (h : ∀ b, exec i (s.on b) = exec j (s.on b)) : IsRun i s := by
  obtain ⟨α, p, f, hopens, hrun⟩ := hj
  exact ⟨α, p, f, hopens, fun b => (h b).trans (hrun b)⟩

theorem communicate_isRun {command : CmdCode} {mask : Byte} {send : List Byte} {valid : Option Bits3}
    {recv : Option (List Byte)} {r : Bits3} {crc : Bool} {s : State}
    (hcmd : command = s.cfg.cmd.transceive ∨ command = s.cfg.cmd.receive) (hsend : send.length ≤ s.cfg.fifoSize) :
    IsRun (.communicate command mask send valid recv r crc) s :=
  isRun_of_nextFrom (communicateProg s.cfg command mask send valid recv r crc) _ True.intro fun b =>
    exec_communicate_eq (s := s.on b) hcmd hsend

/-- The state `discover_uid` hands over (43_card_discovery.md R171). -/
def discovered (s : State) : Option Uid × Status → State
  | (none, st) => s.finish s.bus (.status st .empty)
  | (some uid, st) => (s.withUid uid st).finish s.bus (.status st (if st = .ok then uidValue uid else .empty))

theorem discoverUid_isRun (s : State) : IsRun .discoverUid s := by
  refine ⟨_, discoverProg s.cfg s.uid, discovered s, True.intro, fun b => ?_⟩
  rw [exec, execDiscoverUid]
  simp only [State.on_cfg, State.on_bus, State.on_uid]
  generalize runLine s.cfg (discoverProg s.cfg s.uid) b = x
  obtain ⟨⟨_ | uid, st⟩, b'⟩ := x
  · rfl
  · cases st <;> rfl

/-- Every admitted operation above the primitives, from its program. -/
theorem exec_isRun {i : Instr} {s : State} (hp : i.isPrimitive = false) (h : i.admitted s.cfg = true) : IsRun i s := by
  cases i with
  | start | stop | writeByte | readByte | masterAck | masterNotAck | slaveAck => cases hp
  | writeRegister a v =>
    exact isRun_of_nextOf (.write a v) _ True.intro fun b => exec_writeRegister_eq a v (s.on b)
  | readRegister a => exact isRun_of_nextOf (.read a) _ True.intro fun b => exec_readRegister_eq a (s.on b)
  | writeRegisterBurst a bytes =>
    exact isRun_of_nextOf (.writeBurst a bytes) _ (fun _ => True.intro) fun b =>
      exec_writeRegisterBurst_eq a bytes (s.on b)
  | readRegisterBurst a n buf r =>
    exact isRun_of_nextFrom (.readBurst a n) _ (fun _ => True.intro) fun b =>
      exec_readRegisterBurst_eq a r (s.on b) (of_decide_eq_true h)
  | setBits a m => exact isRun_of_nextOf (setBitsProg a m) _ True.intro fun b => exec_setBits_eq a m (s.on b)
  | clearBits a m => exact isRun_of_nextOf (clearBitsProg a m) _ True.intro fun b => exec_clearBits_eq a m (s.on b)
  | init => exact isRun_of_nextOf (initProg s.cfg) _ True.intro fun b => exec_init_eq (s.on b)
  | softReset => exact isRun_of_nextOf (softResetProg s.cfg) _ True.intro fun b => exec_softReset_eq (s.on b)
  | antennaOn => exact isRun_of_nextOf (antennaOnProg s.cfg) _ True.intro fun b => exec_antennaOn_eq (s.on b)
  | antennaOff => exact isRun_of_nextOf (antennaOffProg s.cfg) _ True.intro fun b => exec_antennaOff_eq (s.on b)
  | calculateCRC data =>
    exact isRun_of_nextOf (calculateCRCProg s.cfg data) _ True.intro fun b =>
      exec_calculateCRC_eq (s := s.on b) (of_decide_eq_true h)
  | communicate =>
    obtain ⟨hcmd, hsend⟩ : _ ∧ _ := by simpa [Instr.admitted] using h
    exact communicate_isRun hcmd hsend
  | transceive send valid recv r crc =>
    exact IsRun.congr (j := .communicate s.cfg.cmd.transceive s.cfg.waitMaskTransceive send valid recv r crc)
      (communicate_isRun (.inl rfl) (of_decide_eq_true h)) fun b => exec_transceive_eq (s := s.on b)
  | requestA =>
    exact isRun_of_nextOf (requestProg s.cfg s.cfg.reqa) _ True.intro fun b => exec_requestA_eq (s.on b)
  | wakeupA => exact isRun_of_nextOf (requestProg s.cfg s.cfg.wupa) _ True.intro fun b => exec_wakeupA_eq (s.on b)
  | isNewCardPresent =>
    exact isRun_of_nextFrom (requestProg s.cfg s.cfg.reqa) _ True.intro fun b => exec_isNewCardPresent_eq (s.on b)
  | select uid known =>
    exact isRun_of_nextSelect _ (opens_select s.cfg uid known) fun b =>
      exec_select_eq (of_decide_eq_true h) known (s.on b)
  | readCardSerial =>
    exact isRun_of_nextSelect _ (opens_select s.cfg s.uid 0) fun b => exec_readCardSerial_eq (s.on b)
  | discoverUid => exact discoverUid_isRun s

/-! ## The lines after a run (R222) -/

/-- From `b` to `b'` register events happened, and the lines are left idle, or as an abort leaves them and one of the
events failed. -/
def Settles (c : Config) (b b' : Bus) : Prop :=
  ∃ es, b'.events = es ++ b.events ∧ (BusIdle b' ∨ (Aborted c b' ∧ ∃ e ∈ es, e.failed = true))

/-- From `b` to `b'` nothing moved the lines. -/
def KeepsLines (b b' : Bus) : Prop :=
  (∃ es, b'.events = es ++ b.events) ∧ b'.scl = b.scl ∧ b'.sdaDir = b.sdaDir ∧ b'.sdaLvl = b.sdaLvl

theorem KeepsLines.refl (b : Bus) : KeepsLines b b := ⟨⟨[], rfl⟩, rfl, rfl, rfl⟩

theorem KeepsLines.trans {b b1 b2 : Bus} (h1 : KeepsLines b b1) (h2 : KeepsLines b1 b2) : KeepsLines b b2 := by
  obtain ⟨⟨es1, he1⟩, hscl1, hdir1, hlvl1⟩ := h1
  obtain ⟨⟨es2, he2⟩, hscl2, hdir2, hlvl2⟩ := h2
  exact ⟨⟨es2 ++ es1, by rw [he2, he1, List.append_assoc]⟩, hscl2.trans hscl1, hdir2.trans hdir1, hlvl2.trans hlvl1⟩

theorem KeepsLines.busIdle {b b' : Bus} (h : KeepsLines b b') (hb : BusIdle b) : BusIdle b' := by
  obtain ⟨-, hscl, hdir, hlvl⟩ := h
  rwa [BusIdle, hscl, hdir, hlvl]

theorem KeepsLines.aborted {c : Config} {b b' : Bus} (h : KeepsLines b b') (hb : Aborted c b) : Aborted c b' := by
  obtain ⟨-, hscl, hdir, hlvl⟩ := h
  rwa [Aborted, BusIdle, hscl, hdir, hlvl]

theorem Settles.after {c : Config} {b b1 b2 : Bus} {es : List RegEvent} (h : b1.events = es ++ b.events)
    (h2 : Settles c b1 b2) : Settles c b b2 := by
  obtain ⟨es2, he2, hlines⟩ := h2
  refine ⟨es2 ++ es, by rw [he2, h, List.append_assoc], hlines.imp_right ?_⟩
  rintro ⟨habort, e, he, hfailed⟩
  exact ⟨habort, e, List.mem_append_left _ he, hfailed⟩

theorem Settles.keeps {c : Config} {b b1 b2 : Bus} (h1 : Settles c b b1) (h2 : KeepsLines b1 b2) : Settles c b b2 := by
  obtain ⟨es1, he1, hlines⟩ := h1
  obtain ⟨es2, he2⟩ := h2.1
  refine ⟨es2 ++ es1, by rw [he2, he1, List.append_assoc], hlines.imp h2.busIdle ?_⟩
  rintro ⟨habort, e, he, hfailed⟩
  exact ⟨h2.aborted habort, e, List.mem_append_right _ he, hfailed⟩

/-- An event that happened settles the lines. -/
theorem settles_of_linesAfter {c : Config} {b b' : Bus} {e : RegEvent} (he : b'.events = e :: b.events)
    (hl : LinesAfter c e b') : Settles c b b' := by
  refine ⟨[e], he, ?_⟩
  rw [LinesAfter] at hl
  split at hl <;> rename_i hfailed
  · exact .inl hl
  · exact .inr ⟨hl, e, List.mem_singleton_self e, hfailed⟩

theorem readRegister_settles (c : Config) (a : RegAddr) (b : Bus) : Settles c b (readRegister c a b).2 := by
  obtain ⟨r, hr, he, -⟩ := readRegister_cases c a b
  exact settles_of_linesAfter he (readRegister_linesAfter (Prod.ext hr rfl))

theorem writeRegister_settles (c : Config) (a : RegAddr) (v : Byte) (b : Bus) : Settles c b (writeRegister c a v b).2 := by
  obtain ⟨acked, hr, he, -⟩ := writeRegister_cases c a v b
  exact settles_of_linesAfter he (writeRegister_linesAfter (Prod.ext hr rfl))

theorem writeRegisterBurst_settles (c : Config) (a : RegAddr) {bytes : List Byte} (b : Bus) (hb : bytes ≠ []) :
    Settles c b (writeRegisterBurst c a bytes b).2 := by
  obtain ⟨acked, hr, he, -⟩ := writeRegisterBurst_cases c a bytes b hb
  exact settles_of_linesAfter he (writeRegisterBurst_linesAfter hb (Prod.ext hr rfl))

theorem readRegisterBurst_settles (c : Config) (a : RegAddr) {n : Nat} (b : Bus) (hn : n ≠ 0) :
    Settles c b (readRegisterBurst c a n b).2 := by
  obtain ⟨r, -, hr, he, -⟩ := readRegisterBurst_cases c a n b hn
  exact settles_of_linesAfter he (readRegisterBurst_linesAfter hn (Prod.ext hr rfl))

/-- A run leaves the lines where they were, when it has no register operation, or settles them. -/
theorem runLine_keeps_or_settles {α : Type} (c : Config) (p : Prog α) (b : Bus) :
    KeepsLines b (runLine c p b).2 ∨ Settles c b (runLine c p b).2 := by
  refine runLine_rel c (fun b b' => KeepsLines b b' ∨ Settles c b b') (fun b => .inl (.refl b)) ?_
    (fun a b => .inr (readRegister_settles c a b)) (fun a v b => .inr (writeRegister_settles c a v b)) ?_ ?_
    (fun us b => .inl ⟨⟨[.hold us], rfl⟩, rfl, rfl, rfl⟩) p b
  · rintro b b1 b2 (h1 | h1) (h2 | h2)
    · exact .inl (h1.trans h2)
    · obtain ⟨es, he⟩ := h1.1
      exact .inr (h2.after he)
    · exact .inr (h1.keeps h2)
    · obtain ⟨es, he, -⟩ := h1
      exact .inr (h2.after he)
  · intro a bytes b
    by_cases hb : bytes = []
    · subst hb; exact .inl (.refl b)
    · exact .inr (writeRegisterBurst_settles c a b hb)
  · intro a n b
    by_cases hn : n = 0
    · subst hn; exact .inl (.refl b)
    · exact .inr (readRegisterBurst_settles c a b hn)

/-- Lines once settled stay so. -/
theorem Settles.runLine {α : Type} {c : Config} {b b1 : Bus} (h : Settles c b b1) (p : Prog α) :
    Settles c b (runLine c p b1).2 := by
  obtain hk | hs := runLine_keeps_or_settles c p b1
  · exact h.keeps hk
  · obtain ⟨es, he, -⟩ := h
    exact hs.after he

/-- A program that does not begin with a wait does nothing at all or settles the lines. -/
theorem Prog.Opens.settles {α : Type} {p : Prog α} (h : p.Opens) (c : Config) (b : Bus) :
    (runLine c p b).2 = b ∨ Settles c b (runLine c p b).2 := by
  induction p with
  | ret v => exact .inl rfl
  | rd a k => exact .inr ((readRegister_settles c a b).runLine _)
  | wr a v k => exact .inr ((writeRegister_settles c a v b).runLine _)
  | wrb a bytes k ih =>
    by_cases hb : bytes = []
    · subst hb; exact ih _ (h rfl)
    · exact .inr ((writeRegisterBurst_settles c a b hb).runLine _)
  | rdb a n k ih =>
    by_cases hn : n = 0
    · subst hn; exact ih _ (h rfl)
    · exact .inr ((readRegisterBurst_settles c a b hn).runLine _)
  | hold => exact h.elim

theorem IsRun.settles {i : Instr} {s t : State} (hr : IsRun i s) (h : exec i s = .next t) :
    t.bus = s.bus ∨ Settles s.cfg s.bus t.bus := by
  obtain ⟨α, p, f, hopens, hrun⟩ := hr
  cases h.symm.trans (hrun s.bus)
  exact hopens.settles s.cfg s.bus

/-- A failed event among those of an operation is reported to the caller. -/
theorem reports_of_failed {i : Instr} {s t : State} (h : exec i s = .next t) {es : List RegEvent} {e : RegEvent}
    (hev : t.bus.events = es ++ s.bus.events) (he : e ∈ es) (hfailed : e.failed = true) :
    ReportsAckFail s.cfg t.answer := by
  obtain ⟨later, earlier, rfl⟩ := List.append_of_mem he
  exact ((exec_stopsAtFailure h).failed_is_last (by simpa using hev) hfailed).2

/-! ## The line state at the start of a run (R220)

A frame begins with `start()`, which sets both lines. -/

/-- The bus with other lines, and everything else as it is. -/
def Bus.withLines (b : Bus) (scl : Level) (dir : SdaDir) (lvl : Level) : Bus :=
  { b with scl := scl, sdaDir := dir, sdaLvl := lvl }

section Lines
variable (c : Config) (a : RegAddr) (b : Bus) (scl lvl : Level) (dir : SdaDir)

theorem start_withLines : start c (b.withLines scl dir lvl) = start c b := rfl

theorem writeFrameOnBus_withLines (data : List Byte) :
    writeFrameOnBus c a data (b.withLines scl dir lvl) = writeFrameOnBus c a data b := by
  rw [writeFrameOnBus, start_withLines, writeFrameOnBus]

theorem readFrameOnBus_withLines (n : Nat) :
    readFrameOnBus c a n (b.withLines scl dir lvl) = readFrameOnBus c a n b := by
  rw [readFrameOnBus, writeFrameOnBus_withLines, readFrameOnBus]

theorem readRegister_withLines : readRegister c a (b.withLines scl dir lvl) = readRegister c a b := by
  rw [readRegister, readFrameOnBus_withLines, readRegister]

theorem writeRegister_withLines (v : Byte) :
    writeRegister c a v (b.withLines scl dir lvl) = writeRegister c a v b := by
  rw [writeRegister, writeFrameOnBus_withLines, writeRegister]

theorem writeRegisterBurst_withLines {bytes : List Byte} (hb : bytes ≠ []) :
    writeRegisterBurst c a bytes (b.withLines scl dir lvl) = writeRegisterBurst c a bytes b := by
  rw [writeRegisterBurst, writeFrameOnBus_withLines, writeRegisterBurst, if_neg hb, if_neg hb]

theorem readRegisterBurst_withLines {n : Nat} (hn : n ≠ 0) :
    readRegisterBurst c a n (b.withLines scl dir lvl) = readRegisterBurst c a n b := by
  rw [readRegisterBurst, readFrameOnBus_withLines, readRegisterBurst, if_neg hn, if_neg hn]

end Lines

/-- The same end, and the same bus but for the lines. -/
def SameButLines {α : Type} (x y : α × Bus) : Prop := ∃ scl dir lvl, y = (x.1, x.2.withLines scl dir lvl)

theorem SameButLines.refl {α : Type} (x : α × Bus) : SameButLines x x := ⟨_, _, _, rfl⟩

theorem runLine_withLines {α : Type} (c : Config) (p : Prog α) (b : Bus) (scl lvl : Level) (dir : SdaDir) :
    SameButLines (runLine c p b) (runLine c p (b.withLines scl dir lvl)) := by
  induction p generalizing b with
  | ret v => exact ⟨_, _, _, rfl⟩
  | rd a k => rw [runLine, runLine, readRegister_withLines]; exact .refl _
  | wr a v k => rw [runLine, runLine, writeRegister_withLines]; exact .refl _
  | wrb a bytes k ih =>
    by_cases hb : bytes = []
    · subst hb; exact ih _ b
    · rw [runLine, runLine, writeRegisterBurst_withLines c a b scl lvl dir hb]; exact .refl _
  | rdb a n k ih =>
    by_cases hn : n = 0
    · subst hn; exact ih _ b
    · rw [runLine, runLine, readRegisterBurst_withLines c a b scl lvl dir hn]; exact .refl _
  | hold us k ih => exact ih (waitUs us b)

/-! ## How long register operations last (R241) -/

/-- From `b` to `b'` `n` line actions were done, of at least `us` microseconds. -/
def Lasts (b : Bus) (n us : Nat) (b' : Bus) : Prop := ∃ l, Did b l b' ∧ l.length = n ∧ minMicros l = us

theorem Lasts.newActions {b b' : Bus} {n us : Nat} (h : Lasts b n us b') :
    (newActions b b').length = n ∧ minMicros (newActions b b') = us := by
  obtain ⟨l, hd, hlen, hus⟩ := h
  rw [hd.newActions]
  exact ⟨hlen, hus⟩

theorem Lasts.seq {b b1 b2 : Bus} {n m us vs : Nat} (h1 : Lasts b n us b1) (h2 : Lasts b1 m vs b2) :
    Lasts b (n + m) (us + vs) b2 := by
  obtain ⟨l, hd, rfl, rfl⟩ := h1
  obtain ⟨l', hd', rfl, rfl⟩ := h2
  exact ⟨l ++ l', hd.seq hd', List.length_append, minMicros_append l l'⟩

theorem Lasts.congr {b b' : Bus} {n m us vs : Nat} (h : Lasts b n us b') (hn : n = m) (hus : us = vs) :
    Lasts b m vs b' := hn ▸ hus ▸ h

theorem acts_lasts (b : Bus) (l : List LineAction) : Lasts b l.length (minMicros l) (b.acts l) :=
  ⟨l, acts_did b l, rfl, rfl⟩

section Durations
variable (c : Config) (b : Bus)

theorem start_lasts : Lasts b 6 (2 * c.tHold) (start c b) :=
  (acts_lasts b (startSeq c)).congr rfl (by simp [startSeq, minMicros, actionMicros, Nat.two_mul])

theorem stop_lasts : Lasts b 6 (2 * c.tHold) (stop c b) :=
  (acts_lasts b (stopSeq c)).congr rfl (by simp [stopSeq, minMicros, actionMicros, Nat.two_mul])

theorem masterAckSeq_lasts (v : Level) : Lasts b 6 (2 * c.tHold) (b.acts (masterAckSeq c v)) :=
  (acts_lasts b _).congr rfl (by simp [masterAckSeq, minMicros, actionMicros, Nat.two_mul])

theorem writeByte_lasts (v : Byte) : Lasts b 40 (16 * c.tHold) (writeByte c v b) :=
  (acts_lasts b _).congr (bitCells_length c (byteBits v)) (minMicros_bitCells c (byteBits v))

theorem readCells_length (bits : List Level) : (bits.flatMap (readCell c)).length = bits.length * 6 := by
  simp [List.length_flatMap, readCell]

theorem minMicros_readCells (bits : List Level) :
    minMicros (bits.flatMap (readCell c)) = bits.length * (c.tRdLow + c.tRdHigh + c.tHold) := by
  induction bits with
  | nil => simp [minMicros]
  | cons v bits ih =>
    rw [List.flatMap_cons, minMicros_append, ih, List.length_cons, Nat.succ_mul, Nat.add_comm]
    simp [readCell, minMicros, actionMicros, Nat.add_assoc]

/-- `readByte()`, for every oracle (R93). -/
theorem readByte_lasts : Lasts b 49 (8 * (c.tRdLow + c.tRdHigh + c.tHold)) (readByte c b).2 := by
  refine ⟨.sdaRelease :: (nextSamples 8 b.samples).flatMap (readCell c), ?_, ?_, ?_⟩
  · rw [Did, readByte_eq]
  · rw [List.length_cons, readCells_length, nextSamples_length]
  · rw [← List.singleton_append, minMicros_append, minMicros_readCells, nextSamples_length]
    simp [minMicros, actionMicros]

/-- The data phase of a read, for every oracle (41_register_access.md R113). -/
theorem readBytes_lasts (n : Nat) :
    Lasts b (n * 55) (n * (8 * (c.tRdLow + c.tRdHigh + c.tHold) + 2 * c.tHold)) (readBytes c n b).2 := by
  induction n generalizing b with
  | zero => exact ⟨[], rfl, rfl, by simp [minMicros]⟩
  | succ n ih =>
    have hack : Lasts (readByte c b).2 6 (2 * c.tHold)
        (if n = 0 then masterNotAck c (readByte c b).2 else masterAck c (readByte c b).2) := by
      split
      · exact masterAckSeq_lasts c _ true
      · exact masterAckSeq_lasts c _ false
    exact (((readByte_lasts c b).seq hack).seq (ih _)).congr (by omega) (by ring)

variable {b}

/-- A byte sent and acknowledged on the first sample (R96, R114). -/
theorem ackOrAbort_prompt {rest : List Level} (hp : 0 < c.ackPollMax) (hs : b.samples = false :: rest) :
    ∃ b', ackOrAbort c b = (.ok (), b') ∧ b'.samples = rest ∧ Lasts b 4 0 b' := by
  rw [ackOrAbort, slaveAck_first c b rest hs hp]
  exact ⟨_, rfl, rfl, [.sdaRelease, .sclDrive true, .sdaSample false, .sclDrive false], rfl, rfl, rfl⟩

theorem sendBytes_prompt {bytes : List Byte} {rest : List Level} (hp : 0 < c.ackPollMax)
    (hs : b.samples = List.replicate bytes.length false ++ rest) :
    ∃ b', sendBytes c bytes b = (.ok (), b') ∧ b'.samples = rest ∧
      Lasts b (bytes.length * 44) (bytes.length * (16 * c.tHold)) b' := by
  induction bytes generalizing b with
  | nil => exact ⟨b, rfl, hs, [], rfl, rfl, by simp [minMicros]⟩
  | cons v bytes ih =>
    obtain ⟨b1, h1, hs1, hl1⟩ := ackOrAbort_prompt c (b := writeByte c v b) hp (writeByte_samples c v b ▸ hs)
    obtain ⟨b2, h2, hs2, hl2⟩ := ih hs1
    refine ⟨b2, by rw [sendBytes, h1]; exact h2, hs2, (((writeByte_lasts c b v).seq hl1).seq hl2).congr ?_ ?_⟩
    · rw [List.length_cons]; omega
    · rw [List.length_cons]; ring

/-- A write-direction transaction, every acknowledge on the first sample. -/
theorem writeFrameOnBus_prompt {data : List Byte} {rest : List Level} (a : RegAddr) (hp : 0 < c.ackPollMax)
    (hs : b.samples = List.replicate (2 + data.length) false ++ rest) :
    ∃ b', writeFrameOnBus c a data b = (.ok (), b') ∧ b'.samples = rest ∧
      Lasts b (100 + data.length * 44) (36 * c.tHold + data.length * (16 * c.tHold)) b' := by
  rw [Nat.add_comm] at hs
  obtain ⟨b1, h1, hs1, hl1⟩ := sendBytes_prompt c (b := start c b) (bytes := addrW c.chipAddr :: regByte a :: data) hp
    (start_samples c b ▸ hs)
  refine ⟨stop c b1, by rw [writeFrameOnBus, h1], (stop_samples c b1).trans hs1,
    (((start_lasts c b).seq hl1).seq (stop_lasts c b1)).congr ?_ ?_⟩
  · simp only [List.length_cons]; omega
  · simp only [List.length_cons]; ring

/-- The two transactions of a read, every acknowledge on the first sample. -/
theorem readFrameOnBus_prompt {n : Nat} {rest : List Level} (a : RegAddr) (hp : 0 < c.ackPollMax)
    (hs : b.samples = List.replicate 3 false ++ rest) :
    Lasts b (156 + n * 55)
      (56 * c.tHold + n * (8 * (c.tRdLow + c.tRdHigh + c.tHold) + 2 * c.tHold)) (readFrameOnBus c a n b).2 := by
  obtain ⟨b1, h1, hs1, hl1⟩ := writeFrameOnBus_prompt c (data := []) (rest := false :: rest) a hp hs
  obtain ⟨b2, h2, -, hl2⟩ := sendBytes_prompt c (b := start c b1) (bytes := [addrR c.chipAddr]) hp
    ((start_samples c b1).trans hs1)
  rw [readFrameOnBus, h1]
  dsimp only
  rw [h2]
  refine ((((hl1.seq (start_lasts c b1)).seq hl2).seq (readBytes_lasts c b2 n)).seq (stop_lasts c _)).congr ?_ ?_
  · simp only [List.length_nil, List.length_singleton]; omega
  · simp only [List.length_nil, List.length_singleton]; ring

/-! The register operations record an event, which is no line action. -/

theorem writeRegister_lasts {v : Byte} {rest : List Level} (a : RegAddr) (hp : 0 < c.ackPollMax)
    (hs : b.samples = List.replicate 3 false ++ rest) : Lasts b 144 (52 * c.tHold) (writeRegister c a v b).2 := by
  obtain ⟨b1, h1, -, hl1⟩ := writeFrameOnBus_prompt c (data := [v]) a hp hs
  rw [writeRegister, h1]
  exact hl1.congr rfl (by simp only [List.length_singleton]; ring)

theorem writeRegisterBurst_lasts {bytes : List Byte} {rest : List Level} (a : RegAddr) (hp : 0 < c.ackPollMax)
    (hb : bytes ≠ []) (hs : b.samples = List.replicate (2 + bytes.length) false ++ rest) :
    Lasts b (100 + bytes.length * 44) (36 * c.tHold + bytes.length * (16 * c.tHold))
      (writeRegisterBurst c a bytes b).2 := by
  obtain ⟨b1, h1, -, hl1⟩ := writeFrameOnBus_prompt c a hp hs
  rw [writeRegisterBurst, if_neg hb, h1]
  exact hl1

theorem readRegister_lasts {rest : List Level} (a : RegAddr) (hp : 0 < c.ackPollMax)
    (hs : b.samples = List.replicate 3 false ++ rest) :
    Lasts b 211 (56 * c.tHold + (8 * (c.tRdLow + c.tRdHigh + c.tHold) + 2 * c.tHold)) (readRegister c a b).2 := by
  have hl := readFrameOnBus_prompt c (n := 1) a hp hs
  rw [Nat.one_mul, Nat.one_mul] at hl
  rw [readRegister]
  split <;> rename_i e <;> rw [e] at hl <;> exact hl

theorem readRegisterBurst_lasts {n : Nat} {rest : List Level} (a : RegAddr) (hp : 0 < c.ackPollMax) (hn : n ≠ 0)
    (hs : b.samples = List.replicate 3 false ++ rest) :
    Lasts b (156 + n * 55) (56 * c.tHold + n * (8 * (c.tRdLow + c.tRdHigh + c.tHold) + 2 * c.tHold))
      (readRegisterBurst c a n b).2 := by
  have hl := readFrameOnBus_prompt c (n := n) a hp hs
  rw [readRegisterBurst, if_neg hn]
  split <;> rename_i e <;> rw [e] at hl <;> exact hl

/-! ## A slave that is absent (R114, R241) -/

theorem minMicros_polls (n : Nat) :
    minMicros (List.replicate n [LineAction.sdaSample true, .hold c.tAckPoll]).flatten = n * c.tAckPoll := by
  induction n with
  | zero => simp [minMicros]
  | succ n ih =>
    rw [List.replicate_succ, List.flatten_cons, minMicros_append, ih, Nat.succ_mul, Nat.add_comm]
    simp [minMicros, actionMicros]

theorem slaveAck_absent {rest : List Level} (hs : b.samples = List.replicate c.ackPollMax true ++ rest) :
    ∃ b', slaveAck c b = (false, b') ∧ Lasts b (2 * c.ackPollMax + 3) (c.ackPollMax * c.tAckPoll) b' := by
  rw [slaveAck_missed c b rest hs]
  refine ⟨_, rfl, _, rfl, ?_, ?_⟩
  · simp; omega
  · rw [minMicros_append, minMicros_append, minMicros_polls]
    simp [minMicros, actionMicros]

/-- A write that is not acknowledged at its first byte and ends in a stop condition. -/
theorem writeRegister_absent {v : Byte} {rest : List Level} (a : RegAddr) (habort : c.abortStop = true)
    (hs : b.samples = List.replicate c.ackPollMax true ++ rest) :
    Lasts b (55 + 2 * c.ackPollMax) (20 * c.tHold + c.ackPollMax * c.tAckPoll) (writeRegister c a v b).2 := by
  obtain ⟨b1, h1, hl1⟩ := slaveAck_absent c (b := writeByte c (addrW c.chipAddr) (start c b)) (rest := rest)
    (by rw [writeByte_samples, start_samples, hs])
  have hstop : Lasts b1 6 (2 * c.tHold) (abortActions c b1) := by
    rw [abortActions, if_pos habort]
    exact stop_lasts c b1
  rw [writeRegister, writeFrameOnBus, sendBytes, ackOrAbort, h1]
  exact ((((start_lasts c b).seq (writeByte_lasts c _ _)).seq hl1).seq hstop).congr (by omega) (by ring)

end Durations

/-! ## The obligations -/

/-- Settles O51: the run of the operation settles the lines, and a failed event is reported. -/
theorem busIdleBetweenOperations : Obligations.BusIdleBetweenOperations := by
  intro i s t hp h hmoved
  obtain heq | ⟨es, hev, hidle | ⟨habort, e, he, hfailed⟩⟩ := (exec_isRun hp (admitted_of_exec_next h)).settles h
  · exact absurd (congrArg Bus.trace heq) hmoved
  · exact .inl hidle
  · have hreport := reports_of_failed h hev he hfailed
    rw [ReportsAckFail, ackFailStatus_eq] at hreport
    cases hstop : s.cfg.abortStop with
    | true => exact .inl (by simpa [Aborted, hstop] using habort)
    | false =>
      obtain ⟨hscl, hdir⟩ : t.bus.scl = false ∧ t.bus.sdaDir = .inp := by simpa [Aborted, hstop] using habort
      exact .inr ⟨rfl, hscl, hdir, hreport⟩

/-- Settles O52: the run of the operation ends the same from any lines. -/
theorem lineStateDoesNotMatter : Obligations.LineStateDoesNotMatter := by
  intro i s t scl lvl dir hp h
  obtain ⟨α, p, f, -, hrun⟩ := exec_isRun hp (admitted_of_exec_next h)
  obtain ⟨scl', dir', lvl', hsame⟩ := runLine_withLines s.cfg p s.bus scl lvl dir
  have hu := hrun (s.bus.withLines scl dir lvl)
  rw [hsame] at hu
  cases h.symm.trans (hrun s.bus)
  exact ⟨_, hu, rfl, rfl, rfl, rfl, rfl, rfl⟩

/-- Settles O56: the durations above, with the hold times put in. -/
theorem registerOperationDurations : Obligations.RegisterOperationDurations := by
  intro s t a rest hhold hlow hhigh hpoll hmax
  refine ⟨fun v hs h => ?_, fun v hs h => ?_, fun bytes hb hs h => ?_, fun bytes buf r hb hs h => ?_,
    fun v h20 habort hs h => ?_⟩
  · obtain rfl := exec_writeRegister h
    exact ((writeRegister_lasts s.cfg a hmax hs).congr rfl (by omega)).newActions
  · obtain rfl := exec_readRegister h
    exact ((readRegister_lasts s.cfg a hmax hs).congr rfl (by omega)).newActions
  · obtain rfl := exec_writeRegisterBurst h
    exact ((writeRegisterBurst_lasts s.cfg a hmax hb hs).congr (by omega) (by rw [hhold]; omega)).newActions
  · obtain rfl := exec_readRegisterBurst h
    exact ((readRegisterBurst_lasts s.cfg a hmax (mt List.length_eq_zero_iff.1 hb) hs).congr (by omega)
      (by rw [hhold, hlow, hhigh]; omega)).newActions
  · obtain rfl := exec_writeRegister h
    exact ((writeRegister_absent s.cfg a habort (h20 ▸ hs)).congr (by omega) (by rw [hhold, hpoll, h20])).newActions

/-- Settles O49: the values written in `State.reset`; a record that is not meaningful is not read. -/
theorem resetValues : Obligations.ResetValues :=
  ⟨rfl, by decide, rfl, rfl, rfl, rfl, rfl, rfl, rfl, rfl, rfl, rfl, rfl, fun i => readUidByte_of_readUid_none rfl i⟩

end Sys2Proof.Machine
end
